-- ==== Sys2Proof/Word.lean ====
section
/-!
DEFINITION. The word types of the Atosh AX3 and their plainest arithmetic (R4, R8).
-/
namespace Sys2Proof

/-- One byte of memory. -/
abbrev Byte := BitVec 8
/-- A 64-bit scalar register, control register or address operand. -/
abbrev Word := BitVec 64
/-- A vector register of 4,096 bits (R1, R237). -/
abbrev VReg := BitVec 4096
/-- A mask register of 512 bits (R236). -/
abbrev Mask := BitVec 512
/-- A frame of 32 by 32 cells of 32 bits (R279). -/
abbrev Frame := BitVec 32768
/-- A 128-bit instruction word (R195). -/
abbrev IWord := BitVec 128

namespace Bits

/-- `x[h:l]` of R8 as a number: bits `lo + len - 1` down to `lo`. -/
def field {n : Nat} (x : BitVec n) (lo len : Nat) : Nat := (x.toNat >>> lo) % 2 ^ len

/-- `zext(x, n)` and truncation: the low `m` bits of x. -/
def zext {n : Nat} (x : BitVec n) (m : Nat) : BitVec m := x.setWidth m

/-- `sext(x, n)` of R8. -/
def sext {n : Nat} (x : BitVec n) (m : Nat) : BitVec m := x.signExtend m

/-- The two's-complement value of the low `n` bits of a natural number (sv of R214). -/
def sv (n x : Nat) : Int :=
  let u := x % 2 ^ n
  if n = 0 then 0 else if u < 2 ^ (n - 1) then (u : Int) else (u : Int) - (2 ^ n : Nat)

/-- The low `n` bits of an integer (reduction modulo 2^n). -/
def wrap (n : Nat) (x : Int) : Nat := (x % (2 ^ n : Nat)).toNat

/-- The integer `x` as a 64-bit word, modulo 2^64. -/
def word (x : Int) : Word := BitVec.ofInt 64 x

/-- Clamp an integer to [lo, hi]. -/
def clamp (lo hi x : Int) : Int := if x < lo then lo else if hi < x then hi else x

/-- Replace bits `lo + w - 1` down to `lo` of x by the low `w` bits of `v`. -/
def insert {n : Nat} (x : BitVec n) (lo w : Nat) (v : Nat) : BitVec n :=
  let mask := (2 ^ w - 1) <<< lo
  BitVec.ofNat n (((x.toNat ||| mask) ^^^ mask) ||| ((v % 2 ^ w) <<< lo))

/-- The number of one bits among the low `n` bits of `x`. -/
def popcount : Nat → Nat → Nat
  | 0, _ => 0
  | n + 1, x => x % 2 + popcount n (x / 2)

/-- The number of leading zero bits of the low `n` bits of `x`; n when they are all zero (R214). -/
def clz : Nat → Nat → Nat
  | 0, _ => 0
  | n + 1, x => if x.testBit n then 0 else 1 + clz n x

/-- The number of trailing zero bits of the low `n` bits of `x`; n when they are all zero (R214). -/
def ctz : Nat → Nat → Nat
  | 0, _ => 0
  | n + 1, x => if x % 2 = 1 then 0 else 1 + ctz n (x / 2)

/-- Ceiling of a / b. -/
def cdiv (a b : Nat) : Nat := (a + b - 1) / b

end Bits
end Sys2Proof
end

