-- ==== Sys2Proof/Config.lean ====
section
/-!
DEFINITION. What an AX3-M768 fixes (R1) and the free values: opaque constants for what the manual leaves open.
Nothing in Lean can evaluate a free value or prove what it is.
-/
namespace Sys2Proof.Config

/-- Cores per module, per grove and per die (R1). -/
def cores : Nat := 1536
def coresPerGrove : Nat := 16
def coresPerDie : Nat := 384
/-- Groves per module (R1). -/
def groves : Nat := 96
/-- Installed device memory: 768 GiB (R19, R23). -/
def deviceBytes : Nat := 0xC000000000
/-- The module identifier of this module, in the form of MOD (R24). DESIGN CHOICE (log 1): module 0 of pod 0. -/
def moduleId : Nat := 0
/-- Pool granules per core (R42) and their size. -/
def granules : Nat := 96
def granuleBytes : Nat := 16384
/-- Commands that a skidder or grapple, and a boom, hold (section "The engines" of 03). -/
def engineLimit : Nat := 64
def boomLimit : Nat := 256

/-- A byte of device memory whose owner tag was changed: not defined (R40). `epoch` counts the changes. Log 6. -/
opaque freeByte (epoch addr : Nat) : Byte
/-- A free 64-bit value, one for each value of the counter `State.free`. Log 21. -/
opaque freeWord (n : Nat) : Word
/-- The syndrome of the SECDED code for data bit `i` of a word, bit 64 being the full/empty bit, where these make a SECDED code: not
architectural (R45, R66). Log 13. -/
opaque secdedColumn (i : Nat) : BitVec 8
/-- The placement of the vector registers of `slots` slots with `vr` registers in the words of the register-file part: not
architectural (R45). As a sequence of exchanges of two words, it can be any permutation. Log 14. -/
opaque vregSwaps (vr slots : Nat) : List (Nat × Nat)

/-- The array word and the bank that hold an 8-byte word in the L1 data cache (`instr` false) or the instruction cache
of a core: not architectural. Log 14. -/
opaque cacheWord (core : Nat) (instr : Bool) (word : Nat) : Nat × Nat

/-- The device address of the save area that Naruno gives a context (R51, R56): no rule names it. Log 57. -/
opaque saveArea (cid : Nat) : Nat

end Sys2Proof.Config
end

