-- ==== Sys2Proof/Syntax.lean ====
section
/-!
DEFINITION. Abstract syntax: register fields, the operand records of formats F0 to F6 (R195 to R199), the
operands of the device's events, and Instr with one constructor for each row of spec/opcode_table.json.
-/
namespace Sys2Proof

/-- The named control registers (R231). -/
inductive CReg where
  | vl | vt | fill | rmode | frm | fflags | sat | cyc | hmc | slot | core | grove | die | dev | part
  | epc | cause | tval | tinfo | hbase | fmtA | fmtB | fmtO | sclA | sclB | cbkA | cbkB
  | lvl (i : Fin 8) | tc (i : Fin 6) | tid | xroot | stab (i : Fin 4) | lix (i : Fin 6)
  deriving DecidableEq, Repr

/-- A register field by class and index (R196); reserved indices have no constructor. -/
inductive Reg where
  | s (i : Fin 64) | v (i : Fin 32) | q (i : Fin 4) | m (i : Fin 8) | sb (i : Fin 6) | fm (i : Fin 16)
  | cr (r : CReg)
  deriving DecidableEq, Repr

/-- The ORD field (R101). -/
inductive Order where
  | plain | acquire | release | acqRel
  deriving DecidableEq, Repr

/-- The scopes of R101 and R103. -/
inductive Scope where
  | core | grove | die | device | domain
  deriving DecidableEq, Repr

/-- The fields that every format shares (R195): the scheduling fields of R200, the predicate of R199, the four
register fields and the ordering fields. `fx` holds FN[6:3]. -/
structure Hdr where
  fx : BitVec 4 := 0
  sw : Bool := false
  y : BitVec 3 := 0
  set : Option (Fin 6) := none
  wait : BitVec 6 := 0
  reuse : BitVec 3 := 0
  pn : Bool := false
  pm : BitVec 3 := 0
  d : Reg := .s 0
  a : Reg := .s 0
  b : Reg := .s 0
  c : Reg := .s 0
  ord : Order := .plain
  scope : Scope := .core
  deriving DecidableEq, Repr

/-- Formats F0 and F1 (R197); `im` is FN[7], the immediate bit. -/
structure FX extends Hdr where
  im : Bool := false
  w : BitVec 2 := 3
  rm : BitVec 3 := 0
  fc : BitVec 6 := 0
  sub : BitVec 4 := 0
  imm : BitVec 32 := 0
  deriving DecidableEq, Repr

/-- Format F2, memory (R197, R198). -/
structure FM extends Hdr where
  w : BitVec 2 := 3
  sh : BitVec 3 := 0
  ff : Bool := false
  boff : BitVec 3 := 0
  nf : BitVec 3 := 0
  uo : Bool := false
  sx : Bool := false
  aop : BitVec 4 := 0
  imm : BitVec 32 := 0
  deriving DecidableEq, Repr

/-- Format F3, branch (R197, R198). -/
structure FB extends Hdr where
  cnd : BitVec 4 := 0
  bl : BitVec 4 := 0
  nest : BitVec 3 := 0
  imm : BitVec 32 := 0
  deriving DecidableEq, Repr

/-- Format F4, matrix (R197, R198). -/
structure FF extends Hdr where
  fc : BitVec 6 := 0
  srcsel : BitVec 2 := 0
  idx : BitVec 5 := 0
  imm : BitVec 32 := 0
  deriving DecidableEq, Repr

/-- Formats F5 and F6, engine, synchronisation, system and privileged (R197). -/
structure FS extends Hdr where
  sub : BitVec 4 := 0
  imm : BitVec 32 := 0
  deriving DecidableEq, Repr

/-- The operands of an encoded instruction, by format. -/
inductive Operands where
  | fx (o : FX) | fm (o : FM) | fb (o : FB) | ff (o : FF) | fs (o : FS)
  deriving DecidableEq, Repr

/-- The access kinds of R20 and tinfo.KIND (R33). -/
inductive AccKind where
  | load | store | rmw | fetch
  deriving DecidableEq, Repr

/-- A thread slot: context, logical core within the context and slot number (R153). -/
structure SlotKey where
  cid : Nat
  lcore : Nat
  slot : Nat
  deriving DecidableEq, Repr

/-- The target of a page-fault service (R32): a stopped slot or a waiting engine command. -/
inductive FaultTarget where
  | slot (k : SlotKey)
  | command (id : Nat)
  deriving DecidableEq, Repr

/-- An array instance with its own elog, eictl and eimask (R68, R69). -/
inductive ArrayId where
  | pool (core : Nat) | scratch (grove : Nat) | l1 (core : Nat) | icache (core : Nat)
  deriving DecidableEq, Repr

/-- A unit that can be quarantined (R193, R344). -/
inductive UnitId where
  | core (n : Nat) | grove (n : Nat) | pseudoChannel (n : Nat) | linkPort (n : Nat)
  deriving DecidableEq, Repr

/-- Device functions with a bit of rdymap (R334). -/
inductive DevFunction where
  | die (n : Fin 4) | hbm (n : Fin 12) | link (n : Fin 24) | landing | firmware | pcie | bridge
  deriving DecidableEq, Repr

/-- The operation of a grove-neighbour packet (field OP of R91). -/
inductive NeighbourOp where
  | gather | orderedScatter | unorderedScatter | vamo | vglr | vscc
  deriving DecidableEq, Repr

/-- One element carried by a grove-neighbour packet (R91): element index, pool offset and data. -/
structure NeighbourElem where
  index : Nat
  offset : Nat
  data : Word
  deriving DecidableEq, Repr

/-- A grove-neighbour request packet (R91). `grove` is the grove whose crossbar carries it. -/
structure NeighbourPacket where
  grove : Nat
  dcore : Fin 16
  score : Fin 16
  slot : Fin 16
  rix : Fin 4
  op : NeighbourOp
  ew : Fin 4
  mw : Fin 8
  aop : BitVec 4
  elems : List NeighbourElem
  deriving DecidableEq, Repr

/-- What an incoming peer access does (R26): the UALink transactions of R24, R113 and R61. -/
inductive PeerOp where
  | load (n : Nat)
  | store (n : Nat) (data : Word)
  | amo (w8 : Bool) (aop : BitVec 4) (data : Word)
  | cas (w8 : Bool) (expected new : Word)
  | fullEmpty (op : Fin 5) (fn : BitVec 2) (data : Word)
  deriving DecidableEq, Repr

/-- An incoming peer access (R26): source module, sequence number (R359), device address, operation. -/
structure PeerAccess where
  src : Nat
  seq : BitVec 32
  pa : Nat
  op : PeerOp
  deriving DecidableEq, Repr

/-- What the landing's placement choice assigns (R331): for each replica, the physical cores in logical order and
the slots of each core are given by the hierarchy; GBASE for each physical grove used. -/
structure PlaceChoice where
  cores : List (List Nat)
  gbase : List (Nat × Nat)
  deriving DecidableEq, Repr

/-- The registers that are written by REGISTER_WRITE because no other row writes them (R7). -/
inductive DevReg where
  | xroot (cid : Nat) | tbud (tenant : Nat) | elog (a : ArrayId) | eimask (a : ArrayId) | eictl (a : ArrayId) | rdymap
  deriving DecidableEq, Repr

/-- The units of Naruno's and the host's requests that a page-table change is made of: an 8-byte write at a physical
address of firmware-owned memory. -/
structure PteWrite where
  pa : Nat
  value : Word
  deriving DecidableEq, Repr

/-- A host access over PCIe (R98): loads and stores of 1 to 8 bytes of a device address. -/
inductive HostOp where
  | load (n : Nat)
  | store (n : Nat) (data : Word)
  deriving DecidableEq, Repr

/-- One constructor for each row of spec/opcode_table.json. Encoded instructions carry the operand record of their
format; the other rows are the device's own steps and carry what their rules leave to an outside party. -/
inductive Instr where
  /-- R214: Adds two integer operands at width W, modulo 2^n, and writes the sign-extended result -/
  | add (o : FX)
  /-- R214: Subtracts B from A at width W, modulo 2^n -/
  | sub (o : FX)
  /-- R214: Writes the low n bits of the product of A and B -/
  | mul (o : FX)
  /-- R214: Writes the high n bits of the signed product of A and B -/
  | mulh (o : FX)
  /-- R214: Writes the high n bits of the unsigned product of A and B -/
  | mulhu (o : FX)
  /-- R215: Signed division rounded towards zero; traps INT_DIVZERO when the divisor is zero -/
  | div (o : FX)
  /-- R215: Unsigned division; traps INT_DIVZERO when the divisor is zero -/
  | divu (o : FX)
  /-- R215: Signed remainder with the sign of the dividend; traps INT_DIVZERO when the divisor is zero -/
  | rem (o : FX)
  /-- R215: Unsigned remainder; traps INT_DIVZERO when the divisor is zero -/
  | remu (o : FX)
  /-- R214: Bitwise AND of A and B -/
  | and (o : FX)
  /-- R214: Bitwise OR of A and B -/
  | or (o : FX)
  /-- R214: Bitwise XOR of A and B -/
  | xor (o : FX)
  /-- R214: Writes A AND NOT B -/
  | andn (o : FX)
  /-- R214: Shifts A left by B modulo n -/
  | shl (o : FX)
  /-- R214: Shifts A right logically by B modulo n -/
  | shr (o : FX)
  /-- R214: Shifts A right arithmetically by B modulo n -/
  | sra (o : FX)
  /-- R214: Rotates A left by B modulo n -/
  | rot (o : FX)
  /-- R214: Writes the signed minimum of A and B -/
  | min (o : FX)
  /-- R214: Writes the signed maximum of A and B -/
  | max (o : FX)
  /-- R214: Writes the unsigned minimum of A and B -/
  | minu (o : FX)
  /-- R214: Writes the unsigned maximum of A and B -/
  | maxu (o : FX)
  /-- R214: Counts the leading zero bits of A at width n -/
  | clz (o : FX)
  /-- R214: Counts the trailing zero bits of A at width n -/
  | ctz (o : FX)
  /-- R214: Counts the one bits of A at width n -/
  | popc (o : FX)
  /-- R214: Sign-extends A from bit n-1 -/
  | sext (o : FX)
  /-- R214: Writes 1 when the condition that SUB selects holds between A and B, and 0 otherwise -/
  | cmp (o : FX)
  /-- R214: Writes B when A is nonzero, and C otherwise -/
  | sel (o : FX)
  /-- R214: Writes the sign-extended 32-bit immediate -/
  | movi (o : FX)
  /-- R214: Writes the immediate as the upper half above the low half of A -/
  | movhi (o : FX)
  /-- R145: Floating-point addition under R145, with the flags of R139 and the traps of R220 -/
  | fadd (o : FX)
  /-- R145: Floating-point subtraction -/
  | fsub (o : FX)
  /-- R145: Floating-point multiplication -/
  | fmul (o : FX)
  /-- R145: Fused multiply-add A x B + C with one rounding -/
  | fma (o : FX)
  /-- R145: Floating-point division -/
  | fdiv (o : FX)
  /-- R145: Floating-point square root -/
  | fsqrt (o : FX)
  /-- R146: minimumNumber of A and B -/
  | fmin (o : FX)
  /-- R146: maximumNumber of A and B -/
  | fmax (o : FX)
  /-- R217: Writes 1 when the floating-point relation that SUB selects holds -/
  | fcmp (o : FX)
  /-- R219: Converts one scalar value between the types that SUB and FC give -/
  | fcvt (o : FX)
  /-- R218: Writes a one-hot class mask of A -/
  | fclass (o : FX)
  /-- R218: Writes A with its sign replaced as SUB selects -/
  | fsgn (o : FX)
  /-- R221: Branches to the relative target when the condition on A and B holds -/
  | br (o : FB)
  /-- R221: Jumps to the relative target -/
  | jmp (o : FB)
  /-- R221: Links pc + 16 in D and jumps to the relative target -/
  | call (o : FB)
  /-- R221: Jumps to A; a target with nonzero low bits raises MISALIGNED -/
  | ret (o : FB)
  /-- R221: Jumps to A plus a scaled offset and links pc + 16 in D -/
  | jr (o : FB)
  /-- R223: Reads the loop counts, fetches the body into the loop buffer and runs the loop nest -/
  | loopn (o : FB)
  /-- R221: Does nothing except through its scheduling fields -/
  | nop (o : FB)
  /-- R222: Completes and then raises SOFTWARE_TRAP with epc set to the next instruction -/
  | trap (o : FB)
  /-- R225: Loads 1 to 8 bytes from memory into a scalar register, zero- or sign-extended -/
  | ld (o : FM)
  /-- R225: Stores the low bytes of C to memory -/
  | st (o : FM)
  /-- R227: Orders the slot's accesses as R111 states -/
  | fence (o : FM)
  /-- R228: Asks for a line in the L1 data cache or the grove cache; never faults -/
  | pref (o : FM)
  /-- R229: When the word is full, returns it and sets it empty; otherwise waits in the home's wait list -/
  | ldfe (o : FM)
  /-- R229: When the word is full, returns it and leaves it full; otherwise waits -/
  | ldff (o : FM)
  /-- R229: When the word is empty, writes it and sets it full; otherwise waits -/
  | stef (o : FM)
  /-- R229: When the word is full, writes it; otherwise waits -/
  | stff (o : FM)
  /-- R229: Returns the full/empty bit and leaves it as it is, or sets it full or empty as FN selects -/
  | feq (o : FM)
  /-- R230: Atomic read-modify-write of a 4- or 8-byte word with the operation that AOP gives -/
  | amo (o : FM)
  /-- R230: Atomic compare-and-swap of a 4- or 8-byte word -/
  | cas (o : FM)
  /-- R114: The home sends the word to the request at the head of the reservation queue, and the holder applies its operation and returns the word -/
  | atomicReservationGrant (word : Nat)
  /-- R232: Reads a named control register into D after the access check -/
  | crr (o : FS)
  /-- R232: Writes B to a control register by that register's write rule and returns the old value -/
  | crw (o : FS)
  /-- R232: Sets the bits of B in a control register and returns the old value -/
  | crs (o : FS)
  /-- R232: Clears the bits of B in a control register and returns the old value -/
  | crc (o : FS)
  /-- R312: Waits for older instructions, sets pc to epc, clears reservations and uses or drops held progress -/
  | eret (o : FS)
  /-- R313: Discards the core's instruction-cache lines of a range for the context, and any held loop -/
  | icsync (o : FS)
  /-- R314: Privileged write of the core's slot table from 32 bytes of memory; an invalid table raises SLOT_TABLE_INVALID -/
  | slotw (o : FS)
  /-- R315: Privileged invalidation of translations over a range, a SPACE or all SPACEs across the module -/
  | tlbinv (o : FS)
  /-- R315: TLBINV completes once no covered entry is held and every access and engine command using it is done -/
  | tlbinvComplete (k : SlotKey)
  /-- R245: Element-wise integer addition -/
  | vadd (o : FX)
  /-- R245: Element-wise integer subtraction -/
  | vsub (o : FX)
  /-- R245: Element-wise low product -/
  | vmul (o : FX)
  /-- R245: Element-wise high product with the signedness that SUB gives -/
  | vmulh (o : FX)
  /-- R245: Element-wise multiply-accumulate into D -/
  | vmacc (o : FX)
  /-- R248: Widening, saturating fixed-point multiply-accumulate -/
  | vwmacc (o : FX)
  /-- R245: Element-wise minimum -/
  | vmin (o : FX)
  /-- R245: Element-wise maximum -/
  | vmax (o : FX)
  /-- R245: Element-wise bitwise AND -/
  | vand (o : FX)
  /-- R245: Element-wise bitwise OR -/
  | vor (o : FX)
  /-- R245: Element-wise bitwise XOR -/
  | vxor (o : FX)
  /-- R245: Element-wise left shift -/
  | vshl (o : FX)
  /-- R245: Element-wise logical right shift -/
  | vshr (o : FX)
  /-- R245: Element-wise arithmetic right shift -/
  | vsra (o : FX)
  /-- R249: Narrowing rounding shift with saturation, by rmode -/
  | vnshr (o : FX)
  /-- R246: Element-wise saturating addition -/
  | vsadd (o : FX)
  /-- R246: Element-wise saturating subtraction -/
  | vssub (o : FX)
  /-- R247: Writes a mask bit for each element that meets the integer condition -/
  | vcmp (o : FX)
  /-- R245: Selects A or B per element by mask C -/
  | vmerge (o : FX)
  /-- R245: Moves a vector, a scalar or an immediate into every element -/
  | vmv (o : FX)
  /-- R244: Sets the vector type, or writes 0 for a refused value; adjusts vl and zeroes registers when LP changes -/
  | setvt (o : FX)
  /-- R244: Sets vl to min(request, VLMAX) -/
  | setvl (o : FX)
  /-- R250: Element-wise floating-point addition -/
  | vfadd (o : FX)
  /-- R250: Element-wise floating-point subtraction -/
  | vfsub (o : FX)
  /-- R250: Element-wise floating-point multiplication -/
  | vfmul (o : FX)
  /-- R250: Element-wise fused multiply-add -/
  | vfma (o : FX)
  /-- R250: Element-wise floating-point division -/
  | vfdiv (o : FX)
  /-- R250: Element-wise square root -/
  | vfsqrt (o : FX)
  /-- R250: Element-wise minimumNumber -/
  | vfmin (o : FX)
  /-- R250: Element-wise maximumNumber -/
  | vfmax (o : FX)
  /-- R250: Writes a mask bit for each element by a floating-point relation -/
  | vfcmp (o : FX)
  /-- R253: Converts packed element streams between formats -/
  | vfcvt (o : FX)
  /-- R251: Element-wise 2^x, rounded once -/
  | vfexp2 (o : FX)
  /-- R251: Element-wise log2 x, rounded once -/
  | vflog2 (o : FX)
  /-- R251: Element-wise reciprocal square root, rounded once -/
  | vfrsq (o : FX)
  /-- R251: Element-wise reciprocal, rounded once -/
  | vfrcp (o : FX)
  /-- R251: Element-wise tanh, rounded once -/
  | vftanh (o : FX)
  /-- R271: Permutes A by the index vector B -/
  | vperm (o : FX)
  /-- R271: Slides elements up or down by a scalar amount -/
  | vslide (o : FX)
  /-- R271: Broadcasts element j of A -/
  | vbcast (o : FX)
  /-- R272: Ordered or tree reduction of the active elements into D[0] -/
  | vred (o : FX)
  /-- R272: Inclusive scan of the active elements -/
  | vscan (o : FX)
  /-- R273: Compresses the active elements to the front -/
  | vcompr (o : FX)
  /-- R273: Expands consecutive elements into the active positions -/
  | vexpnd (o : FX)
  /-- R273: Writes the rank of each active element -/
  | viota (o : FX)
  /-- R274: Marks or counts repeated values among the active elements -/
  | vconfl (o : FX)
  /-- R275: Keeps 2 of each 4 elements by rank and writes the metadata mask -/
  | vspk (o : FX)
  /-- R276: Expands 2-of-4 packed data by its metadata -/
  | vunpk (o : FX)
  /-- R277: Packs to or unpacks from a w-bit element stream, with optional saturation -/
  | vpack (o : FX)
  /-- R278: AND of two mask registers -/
  | mand (o : FX)
  /-- R278: OR of two mask registers -/
  | mor (o : FX)
  /-- R278: XOR of two mask registers -/
  | mxor (o : FX)
  /-- R278: NOT of a mask register -/
  | mnot (o : FX)
  /-- R278: Counts the mask bits below vl -/
  | mpopc (o : FX)
  /-- R278: Finds the lowest set mask bit below vl -/
  | mfirst (o : FX)
  /-- R259: Contiguous vector load, with an optional fault-first form -/
  | vld (o : FM)
  /-- R261: Stream-queue load: reserves an entry of qn at issue and fills it when the data returns -/
  | vldQ (o : FM)
  /-- R341: A stream-queue load's data returns into its entry; a translation failure leaves a fault marker and traps at the load -/
  | streamEntryFill (k : SlotKey) (q : Fin 4)
  /-- R259: Strided vector load -/
  | vlds (o : FM)
  /-- R259: Indexed vector gather -/
  | vldx (o : FM)
  /-- R259: Segment load into NF + 1 register groups -/
  | vlseg (o : FM)
  /-- R260: Loads sub-byte elements from a bit stream -/
  | vldb (o : FM)
  /-- R263: Shape-record load, with bounds and fill -/
  | vldt (o : FM)
  /-- R259: Contiguous vector store -/
  | vst (o : FM)
  /-- R259: Strided vector store -/
  | vsts (o : FM)
  /-- R259: Indexed scatter, ordered or unordered -/
  | vstx (o : FM)
  /-- R259: Segment store -/
  | vsseg (o : FM)
  /-- R265: Vector store that atomically adds each completed element group's count to a progress word -/
  | vstn (o : FM)
  /-- R263: Shape-record store that skips outside elements -/
  | vstt (o : FM)
  /-- R92: An owning core applies a received grove-neighbour request packet and returns the response -/
  | neighbourPacket (p : NeighbourPacket)
  /-- R266: Gathers and sets a reservation on each element's word -/
  | vglr (o : FM)
  /-- R266: Conditionally stores each element whose reservation still holds, and writes a success mask -/
  | vscc (o : FM)
  /-- R267: Performs one atomic per active element, in increasing index -/
  | vamo (o : FM)
  /-- R268: Parks until every active element's word meets its condition, or until the time-out -/
  | vwait (o : FM)
  /-- R268: On a change of a watched line, or every 4,096 cycles for remote words, re-reads the unmet words and latches those that meet their condition -/
  | vwaitReexamine (k : SlotKey)
  /-- R268: After T x 256 cycles the next re-examination completes VWAIT with the mask of unlatched elements -/
  | vwaitTimeout (k : SlotKey)
  /-- R281: Grants a tile shape from the remaining M, N and K -/
  | settl (o : FF)
  /-- R282: Loads the format context from a 64-byte record and reads codebooks -/
  | setfmt (o : FF)
  /-- R282: Loads the format codes and the sparse-A flag from the immediate -/
  | setfmtI (o : FF)
  /-- R285: Zeroes a frame and makes it live -/
  | mzero (o : FF)
  /-- R286: Loads the shadow beam plane with the B tile and its scales -/
  | ldb (o : FF)
  /-- R285: Exchanges the active and shadow beam planes -/
  | bflip (o : FF)
  /-- R290: Outer-product update of a frame from two vector registers, row by row -/
  | mop (o : FF)
  /-- R290: Outer-product update of a frame from a stream entry or pool block against the active plane -/
  | mops (o : FF)
  /-- R292: Loads frame cells from memory with conversion -/
  | mldr (o : FF)
  /-- R292: Stores frame cells to memory with conversion -/
  | mstr (o : FF)
  /-- R292: Moves a frame row into a vector register -/
  | mmovr (o : FF)
  /-- R292: Moves a vector register into a frame row -/
  | mmovrTo (o : FF)
  /-- R292: Moves a frame column into a vector register -/
  | mmovc (o : FF)
  /-- R292: Moves a vector register into a frame column -/
  | mmovcTo (o : FF)
  /-- R292: Converts every cell of a frame in place -/
  | mcvt (o : FF)
  /-- R285: Marks a frame dead; of a held frame, it starts no save -/
  | mrel (o : FF)
  /-- R296: Issues a batch of engine commands from a register group and writes the mask of accepted groups -/
  | ecmd (o : FS)
  /-- R297: Builds and issues one COPY command to the skidder -/
  | tcp (o : FS)
  /-- R82: An issued command takes ownership of a destination line once its former owner has finished it -/
  | engineLineAcquire (id : Nat)
  /-- R83: A command finishes a line, sets its full/empty bits under FES and releases waiting accesses -/
  | engineLineFinish (id line : Nat)
  /-- R86: A command completes: lines finished, future resolved, tag updated -/
  | engineCommandComplete (id : Nat)
  /-- R95: A boom node combines its participants and its children's partials once all have arrived -/
  | boomReduce (seq node : Nat)
  /-- R96: The root converts the final partial once and writes the result to the destinations -/
  | boomRootResult (seq : Nat)
  /-- R298: Parks until some tag in the mask is set -/
  | twany (o : FS)
  /-- R298: Parks until every tag in the mask is set, then returns the error mask -/
  | twall (o : FS)
  /-- R298: Parks as TWANY and returns the lowest set tag with its status -/
  | tfirst (o : FS)
  /-- R299: Clears the error flags and statuses of the tags in the mask -/
  | tclr (o : FS)
  /-- R300: Arrives at the barrier of a level and parks until it completes -/
  | bar (o : FS)
  /-- R165: A barrier completes for every slot of its instance once each has arrived or ENDED -/
  | barrierComplete (cid level : Nat) (inst : List Nat)
  /-- R302: Registers a continuation on a future, or spawns it at once when the future is resolved -/
  | futreg (o : FS)
  /-- R303: Resolves a future and spawns its continuations; a second resolution raises DOUBLE_RESOLVE -/
  | futres (o : FS)
  /-- R303: Resolves a future as FAULTED and spawns its continuations -/
  | futresFault (o : FS)
  /-- R301: Checks a task packet and places it in a grove's task queue or the spill ring -/
  | tspawn (o : FS)
  /-- R166: The spill ring refills the hardware task queue in placement order as space frees -/
  | taskSpillRefill (grove : Nat)
  /-- R166: A pending continuation enters the spill ring when space frees, and its record is freed -/
  | continuationPlace (cid : Nat)
  /-- R304: Gives the slot a task, or a tile from its cruiser, or reports NONE or HELD -/
  | nextt (o : FS)
  /-- R188: Takes the upper half of the largest remaining cruiser range when the own range is empty -/
  | rive (o : FS)
  /-- R306: Retires the held tile or task, with the join-word decrement for a task -/
  | done (o : FS)
  /-- R306: Retires the held item, writes the spill record and makes the slot ENDED -/
  | doneEnd (o : FS)
  /-- R307: Sends a message to a slot's inbox or mailbox, parking while it is full -/
  | msend (o : FS)
  /-- R308: Takes the oldest inbox message, parking while the inbox is empty -/
  | mrecv (o : FS)
  /-- R308: Takes the oldest inbox message if there is one, without waiting -/
  | mpoll (o : FS)
  /-- R309: Writes the lead replica's value of sA -/
  | rlead (o : FS)
  /-- R310: Writes a component of the slot's replica signature -/
  | rsig (o : FS)
  /-- R311: Forces a comparison point with no release semantics -/
  | rchk (o : FS)
  /-- R354: Once every replica's signature has arrived, the comparator votes, commits the lead's buffer and performs the operation -/
  | comparatorVote (lid lcore slot : Nat)
  /-- R354: A signature that has not arrived 2^24 lead cycles after the first counts as different, and the vote proceeds -/
  | signatureTimeout (lid lcore slot : Nat)
  /-- R356: A value forwarded from the lead reaches a parked replica, which continues -/
  | replicaForwardArrive (k : SlotKey)
  /-- R158: A long-latency result returns; the scoreboard counter falls, and parked slots become READY -/
  | longLatencyResultReturn (k : SlotKey)
  /-- R155: At the table entry of the pointer, the named READY slot issues and uses the core's resources for one cycle -/
  | slotIssue (core : Nat)
  /-- R157: A newly written valid table takes effect when the pointer wraps to entry 0 -/
  | slotTableTakeEffect (core : Nat)
  /-- R156: Naruno writes a whole slot table through the core's configuration port; an invalid table is refused -/
  | slotTablePortWrite (core : Nat) (t0 t1 t2 t3 : Word)
  /-- R22: A die walker walks the page tables for a TLB miss -/
  | pageWalk (cid : Nat) (va : Word) (kind : AccKind)
  /-- R32: Naruno serves a PAGE_FAULT, makes the mapping valid and resumes, or delivers the fault -/
  | pageFaultService (t : FaultTarget) (valid : Bool) (ptes : List PteWrite)
  /-- R64: Naruno performs overflowed full/empty operations in arrival order and ends overflow mode -/
  | overflowService (home : Nat)
  /-- R26: An incoming peer access is checked against the export table and performed or refused -/
  | peerAccessArrive (p : PeerAccess)
  /-- R98: A load or store that the host issues over PCIe arrives and is performed on device memory as the access of a DOMAIN party -/
  | hostAccessArrive (tenant pa : Nat) (op : HostOp)
  /-- R349: The root repeats the sums of sent and received old-colour messages until they match and the cut closes -/
  | colourCutSum (cid : Nat)
  /-- R333: Plug-in callback before placement that places, defers or refuses a launch -/
  | onLaunch (lid : Nat) (ret : Word)
  /-- R333: Plug-in callback at a queue halt that leaves it halted or resumes it -/
  | onHalt (tenant qid : Nat) (ret : Word)
  /-- R333: Plug-in callback at a period start that returns a new tbud -/
  | onBudget (tenant : Nat) (ret : Word)
  /-- R333: Plug-in callback after a unit of the tenant's launch is quarantined -/
  | onQuarantine (tenant : Nat) (u : UnitId) (ret : Word)
  /-- R333: Plug-in callback after a Naruno restart -/
  | onRestart (tenant : Nat) (ret : Word)
  /-- R317: Naruno creates a user queue at the tenant's request: its control block in the UNMAPPED state, or a refusal for a ring or block in the local half -/
  | queueCreate (tenant qid : Nat) (qcb base : Word) (log2n : Nat)
  /-- R55: A growth of a portion takes effect once no grant overlaps the new extent -/
  | gcfgGrowTakeEffect (grove : Nat)
  /-- R28: A peer store's acceptance or refusal returns to the issuing slot -/
  | peerStoreReply (k : SlotKey) (accepted : Bool)
  /-- R359: A peer atomic with no reply in 20 us is resent with its sequence number, up to 16 times, then faults PEER_ABSENT -/
  | peerRequestResend (k : SlotKey) (reply : Bool)
  /-- R318: A doorbell write raises NIDX, is folded into SHADOW, halts the queue on overrun or is discarded -/
  | doorbellWrite (tenant qid : Nat) (v : Word)
  /-- R320: The scheduler maps a queue to a port and restores NIDX from SHADOW -/
  | queueMap (tenant qid : Nat)
  /-- R320: The scheduler unmaps a queue, folding NIDX into SHADOW -/
  | queueUnmap (tenant qid : Nat)
  /-- R320: The host resumes a halted queue through Naruno -/
  | queueResume (tenant qid : Nat)
  /-- R321: Destroys a queue with FINISH; started packets run to completion -/
  | queueDestroyFinish (tenant qid : Nat)
  /-- R321: Destroys a queue with ABORT; started work is stopped and discarded -/
  | queueDestroyAbort (tenant qid : Nat)
  /-- R321: When no started packet remains, the queue becomes DESTROYED and QUEUE_DESTROYED is posted -/
  | queueDrainDone (tenant qid : Nat)
  /-- R325: The landing reads a 64-byte packet from a mapped queue below NIDX -/
  | packetFetch (tenant qid : Nat)
  /-- R329: Once HIDX shows free space after an overflow, a single OVERFLOW event is posted -/
  | eventOverflowPost (tenant : Nat)
  /-- R325: The landing reads and checks the launch record and places it, or refuses it -/
  | launch (tenant qid : Nat)
  /-- R331: A waiting launch is placed once resources are free, and its slots start -/
  | launchPlace (lid : Nat) (choice : PlaceChoice)
  /-- R331: A waiting launch is refused with HIERARCHY_INVALID when too few units remain in service -/
  | launchWaitRefuse (lid : Nat)
  /-- R325: Starts a COPY packet, which issues COPY commands in 64 KiB pieces -/
  | copy (tenant qid : Nat)
  /-- R325: The landing issues the next COPY command once a skidder has room -/
  | copyCommandIssue (tenant qid pidx grove : Nat)
  /-- R325: When every command has completed, writes CW, or halts with COPY_FAILED -/
  | copyPacketComplete (tenant qid pidx : Nat)
  /-- R325: Reads and tests a word and skips, jumps back or waits as ACT gives -/
  | cond (tenant qid : Nat)
  /-- R325: A waiting COND re-reads its word at least every 1,024 landing cycles and completes when the test holds -/
  | condWaitRetest (tenant qid : Nat)
  /-- R325: Writes or atomically adds a value with release, then raises the interrupt -/
  | signal (tenant qid : Nat)
  /-- R326: At the close of a hold-off window, the merged raises produce one interrupt -/
  | holdOffWindowClose (tenant vec : Nat)
  /-- R325: Starts waiting until every named word is at least VAL -/
  | barrierAnd (tenant qid : Nat)
  /-- R325: Re-reads the words at least every 1,024 landing cycles and completes when all meet VAL -/
  | barrierAndRetest (tenant qid pidx : Nat)
  /-- R330: At each period start, the tenants' balances are topped up and the lending count reset -/
  | arbiterPeriodStart
  /-- R330: Each landing cycle with a ready packet, the arbiter picks a tenant by tokens or borrowing and starts its packet -/
  | arbiterCycle
  /-- R191: A core sends its done message once its slots have ended and its commands have completed -/
  | coreDoneMessage (lid lcore : Nat)
  /-- R192: A tree node combines its children's messages and sends one to its parent -/
  | nodeDoneMessage (lid node : Nat)
  /-- R191: A fatal cause makes the root send a kill down the tree, stopping slots and aborting commands -/
  | launchKill (lid : Nat)
  /-- R345: Stops a context's slots, withdraws waits, flips the colour and saves the state -/
  | preemptStop (cid : Nat)
  /-- R56: Once the cores are halted, writes the swap image and the cruiser images -/
  | contextSwapOut (cid : Nat) (area : Word)
  /-- R345: Restores a context; its slots become READY and mailboxes move to the inboxes -/
  | contextRestore (cid : Nat) (choice : PlaceChoice)
  /-- R89: Destroying a context withdraws its wait entries, aborts its commands and frees its records -/
  | contextDestroy (cid : Nat)
  /-- R40: Naruno changes a range's owner tag; full/empty bits become full and waits on it fault -/
  | ownerTagChange (page count tag : Nat)
  /-- R41: Assigning pool granules or scratchpad regions zeroes them and sets their bits full -/
  | granuleAssign (core granule : Nat)
  /-- R344: Naruno tests a suspect unit and returns it to service or keeps it fenced -/
  | suspectUnitTest (u : UnitId) (pass : Bool)
  /-- R344: A link port fails and is quarantined, and traffic takes other ports -/
  | linkPortFailure (port : Fin 24)
  /-- R69: Writing eictl with MODE 0 arms a data-bit flip at the next matching write -/
  | eictlInjectData (arr : ArrayId) (v : Word)
  /-- R69: Writing eictl with MODE 1 arms a check-bit flip at the next matching write -/
  | eictlInjectCheck (arr : ArrayId) (v : Word)
  /-- R69: Writing eictl with MODE 2 and ARM marks the bank failed at once -/
  | eictlMarkBankFailed (arr : ArrayId) (v : Word)
  /-- R55: Writes the grove cache and shadow sizes; a shrink first writes back and invalidates -/
  | gcfgWrite (grove : Nat) (v : Word)
  /-- R71: Sets the HBM interleave, only while all memory is unowned -/
  | memcfgWrite (v : Word)
  /-- R48: Writes a context's cache way masks; a zero mask keeps the former value -/
  | cmaskWrite (cid : Nat) (v : Word)
  /-- R75: Writes a context's grove cache way mask; GWAY = 0 keeps the former value -/
  | gwmaskWrite (cid : Nat) (v : Word)
  /-- R7: A write to a register with no row of its own stores the value by its access code -/
  | registerWrite (r : DevReg) (v : Word)
  /-- R334: A function becomes ready and sets its rdymap bit, or clears it when fenced -/
  | functionReady (f : DevFunction) (ready : Bool)
  /-- R335: Writes all device memory with tags and full/empty bits to host storage while every context is swapped out -/
  | checkpoint (area : Nat)
  /-- R322: After a Naruno restart, every queue with its pending bit set is mapped -/
  | narunoRestart
  /-- R333: Plug-in callback that performs error injection on the tenant's own arrays -/
  | inject (tenant : Nat) (arr : ArrayId) (eictl eimask : Word)
  /-- R333: A callback that overruns 100 us, or faults, counts as returning 0, and the plug-in is disabled -/
  | pluginCallbackTimeout (tenant : Nat)
  /-- R154: A reset loads the reset values, including the default slot table, and starts cyc and the error counts from zero -/
  | reset
  /-- R39: Creating a tenant generates its key in a hardware key slot and sets up its event ring -/
  | tenantCreate (tenant : Nat) (ring en : Nat) (xroot : Word)
  /-- R39: Destroying a tenant erases its key from its key slot -/
  | tenantDestroy (tenant : Nat)
  deriving DecidableEq, Repr

end Sys2Proof
end

