-- ==== Sys2Proof/WellFormed.lean ====
section
/-!
DEFINITION. Well-formedness of encoded instructions: the checks of R204 step 5 that need only the encoding, by the
field rules of R195 to R199, R102 and each instruction's own encoding rule. Device events have no encoding and are
not well formed.
-/
namespace Sys2Proof

namespace Reg
/-- The field 0x00, which an unused field must hold (R196). -/
def isZ (r : Reg) : Bool := r == .s 0
/-- Class 0. -/
def isS : Reg → Bool | .s _ => true | _ => false
/-- A vector register v0 to v31. -/
def isV : Reg → Bool | .v _ => true | _ => false
/-- A stream queue. -/
def isQ : Reg → Bool | .q _ => true | _ => false
/-- Class 1: a vector register or a stream queue. -/
def isVQ (r : Reg) : Bool := r.isV || r.isQ
/-- Class 1 or class 0. -/
def isVQS (r : Reg) : Bool := r.isVQ || r.isS
/-- A mask register m0 to m7. -/
def isM : Reg → Bool | .m _ => true | _ => false
/-- A mask destination m1 to m7 (R196 refuses m0). -/
def isM1 : Reg → Bool | .m i => i != 0 | _ => false
/-- A frame. -/
def isFm : Reg → Bool | .fm _ => true | _ => false
/-- A named control register. -/
def isCr : Reg → Bool | .cr _ => true | _ => false
/-- s1 to s62, the destinations of MRECV and MPOLL (R308). -/
def isS1to62 : Reg → Bool | .s i => i.val != 0 && i.val != 63 | _ => false
end Reg

namespace Hdr
/-- Plain with scope 0, the rule of R102 for every instruction without ordering. -/
def noOrd (h : Hdr) : Bool := h.ord == .plain && h.scope == .core
/-- ORD of loads (R102). -/
def loadOrd (h : Hdr) : Bool := h.noOrd || h.ord == .acquire
/-- ORD of stores (R102). -/
def storeOrd (h : Hdr) : Bool := h.noOrd || h.ord == .release
/-- Plain with a free scope (R102, the instructions of R118). -/
def scopeOnly (h : Hdr) : Bool := h.ord == .plain
/-- The predicate of a predicable instruction: PM = 0 with PN = 1 is reserved (R199). -/
def predOk (h : Hdr) : Bool := h.pm != 0 || !h.pn
/-- No predicate at all (R199). -/
def noPred (h : Hdr) : Bool := h.pm == 0 && !h.pn
/-- The four register fields meet the given class checks. -/
def regs (h : Hdr) (d a b c : Reg → Bool) : Bool := d h.d && a h.a && b h.b && c h.c
end Hdr

open Reg

namespace FX
/-- The immediate form: B must be 0x00 and IMM is free; the register form meets `b` and has IMM 0 (R197). -/
def form (o : FX) (f1 : Bool) (b : Reg → Bool) : Bool :=
  if o.im then f1 && isZ o.b else b o.b && o.imm == 0
/-- Integer rows 0x0 and 0x1 with the destination and sources given (R213). -/
def int (o : FX) (f1 : Bool) (a b c : Reg → Bool) : Bool :=
  isS o.d && a o.a && o.form f1 b && c o.c && o.fx == 0 && o.rm == 0 && o.fc == 0 && o.predOk && o.noOrd
/-- The static rounding modes 0 to 5 and 7 (R197, R216). -/
def rmOk (o : FX) : Bool := o.rm != 6
/-- Scalar floating point (R216). -/
def flt (o : FX) (b c : Reg → Bool) : Bool :=
  o.regs isS isS b c && o.form false b && o.fx == 0 && o.fc == 0 && o.w.toNat ≥ 2 && o.predOk && o.noOrd
/-- The type codes of FCVT that are integers (R219). -/
def cvtInt (t : Nat) : Bool := t ≥ 2 && t ≤ 5
/-- The pair of types of FCVT is not reserved (R219). -/
def cvtPair (s t : Nat) : Bool :=
  s ≤ 9 && t ≤ 9 && s != t && !(cvtInt s && cvtInt t) && (s ≤ 1 || t ≤ 1)
/-- Rows 0x6 to 0x8: W is 3 and there is no ordering (R243, R270). -/
def vec (o : FX) (f1 : Bool) (d a b c : Reg → Bool) : Bool :=
  d o.d && a o.a && o.form f1 b && c o.c && o.w == 3 && o.noOrd
/-- A row 0x6 instruction (R243). -/
def vint (o : FX) (f1 : Bool) (d a b c : Reg → Bool) : Bool :=
  o.vec f1 d a b c && o.fx == 0 && o.rm == 0 && o.fc == 0 && o.predOk
/-- A row 0x7 arithmetic instruction; the pairing of FC with SEW is checked when it executes (R250). -/
def vflt (o : FX) (d b c : Reg → Bool) : Bool :=
  o.vec false d isVQ b c && o.fx == 0 && o.rmOk && o.predOk
/-- An integer format code of R130. -/
def intFormat (c : Nat) : Bool := c == 3 || (c ≥ 9 && c ≤ 15)
/-- A row 0x8 instruction whose RM, FC and FN[6:3] are 0 (R270). -/
def perm (o : FX) (d a b c : Reg → Bool) : Bool :=
  o.vec false d a b c && o.fx == 0 && o.rm == 0 && o.fc == 0
/-- SUB and FC of VRED and VSCAN: FN[3] selects floating point (R272). -/
def redOp (o : FX) : Bool :=
  if o.fx.getLsbD 0 then (o.sub == 0 || o.sub == 4 || o.sub == 5) && o.rmOk
  else o.sub.toNat ≤ 7 && o.fc == 0 && o.rm == 0
/-- The formats VSPK admits (R275). -/
def spkFormat (c : Nat) : Bool := c ∈ [0, 1, 2, 4, 5, 9, 14]
end FX

namespace FM
/-- FF, BOFF, NF, UO, SX and AOP as an instruction allows them (R197, R198, R255). -/
def subs (o : FM) (ff boff uo sx aop : Bool) : Bool :=
  (ff || !o.ff) && (boff || o.boff == 0) && (uo || !o.uo) && (sx || !o.sx) && (aop || o.aop == 0)
/-- Row 0x4 and 0x5 scalar accesses (R225, R229, R230). -/
def scalar (o : FM) (d c : Reg → Bool) (sx aop : Bool) : Bool :=
  o.regs d isS isS c && o.nf == 0 && o.subs false false false sx aop
/-- Rows 0x9 and 0xA (R255). -/
def vmem (o : FM) (d b c : Reg → Bool) (ff boff uo sx aop : Bool) : Bool :=
  o.regs d isS b c && o.subs ff boff uo sx aop && o.predOk
end FM

namespace FF
/-- The formats of MSTR (R283); 0x3F stands for fmt.o. -/
def outFormat (c : Nat) : Bool := c ∈ [0, 3, 1, 2, 4, 5, 0x20, 0x3F]
/-- The formats of MLDR, MMOVR, MMOVC and MCVT (R283). -/
def inFormat (c : Nat) : Bool := c ∈ [0, 3, 1, 2, 4, 5, 0x3F]
/-- The register fields and the subfields of a matrix instruction; `ok` bits say which may be nonzero (R283). -/
def mat (o : FF) (d a b c : Reg → Bool) (fc src idx imm : Bool) : Bool :=
  o.regs d a b c && (fc || o.fc == 0) && (src || o.srcsel == 0) && (idx || o.idx == 0) && (imm || o.imm == 0)
  && o.noPred && o.noOrd
end FF

namespace FS
/-- The register fields, SUB and IMM of rows 0xC to 0xE (R295, R232). -/
def sys (o : FS) (d a b c : Reg → Bool) (sub imm : Nat) : Bool :=
  o.regs d a b c && o.fx == 0 && o.sub.toNat ≤ sub && o.imm.toNat ≤ imm
end FS

/-- The branch format with the fields a control transfer uses (R221). -/
def FB.ctl (o : FB) (d a b : Reg → Bool) (cnd : Nat) (imm : Bool) : Bool :=
  o.regs d a b isZ && o.fx == 0 && o.cnd.toNat ≤ cnd && o.bl == 0 && o.nest == 0 && (imm || o.imm == 0)
  && o.noPred && o.noOrd

/-- Index of a scalar register field; 0 for any other class. -/
def Reg.sIdx : Reg → Nat | .s i => i.val | _ => 0

/-- The encoding-only checks of every instruction (R204 step 5). -/
def Instr.fieldsOk : Instr → Bool
  | .add o | .sub o | .mul o | .and o | .or o | .xor o | .andn o | .shl o | .shr o | .sra o | .rot o
  | .min o | .max o | .minu o | .maxu o => o.int true isS isS isZ && o.sub == 0
  | .mulh o | .mulhu o | .div o | .divu o | .rem o | .remu o => o.int false isS isS isZ && o.sub == 0
  | .clz o | .ctz o | .popc o | .sext o => o.int false isS isZ isZ && o.sub == 0
  | .cmp o => o.int true isS isS isZ && o.sub.toNat ≤ 5
  | .sel o => o.int false isS isS isS && o.sub == 0 && o.w == 3
  | .movi o => o.im && o.int true isZ isZ isZ && o.sub == 0 && o.w == 3
  | .movhi o => o.im && o.int true isS isZ isZ && o.sub == 0 && o.w == 3
  | .fadd o | .fsub o | .fmul o | .fdiv o | .fmin o | .fmax o => o.flt isS isZ && o.sub == 0 && o.rmOk
  | .fma o => o.flt isS isS && o.sub == 0 && o.rmOk
  | .fsqrt o => o.flt isZ isZ && o.sub == 0 && o.rmOk
  | .fcmp o => o.flt isS isZ && o.sub.toNat ≤ 3 && o.rm == 7
  | .fclass o => o.flt isZ isZ && o.sub == 0 && o.rm == 7
  | .fsgn o => o.flt isS isZ && o.sub.toNat ≤ 2 && o.rm == 7
  | .fcvt o => o.regs isS isS isZ (if o.rm == 6 then isS else isZ) && o.form false isZ && o.fx == 0 && o.w == 3
      && FX.cvtPair o.sub.toNat o.fc.toNat && o.predOk && o.noOrd
  | .br o => o.ctl isZ isS isS 5 true
  | .jmp o => o.ctl isZ isZ isZ 0 true
  | .call o => o.ctl isS isZ isZ 0 true
  | .ret o => o.ctl isZ isS isZ 0 false
  | .jr o => o.ctl isS isS isZ 0 true
  | .loopn o => o.regs isZ isS isZ isZ && o.fx == 0 && o.cnd == 0 && o.imm == 0 && o.nest.toNat ≤ 5
      && o.a.sIdx + o.nest.toNat ≤ 63 && o.noPred && o.noOrd
  | .nop o => o.ctl isZ isZ isZ 0 false
  | .trap o => o.ctl isZ isZ isZ 0 true
  | .ld o => o.scalar isS isZ true false && o.fx == 0 && o.loadOrd && o.predOk
  | .st o => o.scalar isZ isS false false && o.fx == 0 && o.storeOrd && o.predOk
  | .fence o => o.regs isZ isZ isZ isZ && o.fx == 0 && o.nf == 0 && o.subs false false false false false && o.w == 0
      && o.sh == 0 && o.imm == 0 && o.ord != .plain && o.noPred
  | .pref o => o.scalar isZ isZ false false && o.fx.toNat ≤ 1 && o.w == 3 && o.noOrd && o.noPred
  | .ldfe o | .ldff o => o.scalar isS isZ false false && o.fx == 0 && o.w == 3 && o.noPred
  | .stef o | .stff o => o.scalar isZ isS false false && o.fx == 0 && o.w == 3 && o.noPred
  | .feq o => o.scalar isS isZ false false && o.fx.toNat ≤ 2 && o.w == 3 && o.noPred
  | .amo o => o.scalar isS isS false true && o.fx == 0 && o.w.toNat ≥ 2 && o.aop.toNat ≤ 9 && o.noPred
  | .cas o => o.scalar isS isS false false && o.fx == 0 && o.w.toNat ≥ 2 && o.sh == 0 && o.noPred
  | .crr o => o.sys isS isCr isZ isZ 0 0 && o.noPred && o.noOrd
  | .crw o | .crs o | .crc o => o.sys isS isCr isS isZ 0 0 && o.noPred && o.noOrd
  | .eret o => o.sys isZ isZ isZ isZ 0 0 && o.noPred && o.noOrd
  | .icsync o => o.sys isZ isS isS isZ 0 0 && o.noPred && o.noOrd
  | .slotw o => o.sys isZ isS isZ isZ 0 0 && o.noPred && o.noOrd
  | .tlbinv o => o.sys isZ isS isS isS 2 0 && o.noPred && o.noOrd
  | .vadd o | .vsub o | .vmul o | .vand o | .vor o | .vxor o | .vshl o | .vshr o | .vsra o =>
      o.vint true isV isVQ isVQS isZ && o.sub == 0
  | .vmulh o | .vwmacc o => o.vint false isV isVQ isVQS isZ && o.sub.toNat ≤ 2
  | .vmacc o => o.vint false isV isVQ isVQS isZ && o.sub == 0
  | .vmin o | .vmax o | .vnshr o | .vsadd o | .vssub o => o.vint true isV isVQ isVQS isZ && o.sub.toNat ≤ 1
  | .vcmp o => o.vint true isM1 isVQ isVQS isZ && o.sub.toNat ≤ 5
  | .vmerge o => o.vint false isV isVQ isVQS isM && o.sub == 0
  | .vmv o => o.vint true isV (if o.im then isZ else isVQS) isZ isZ && o.sub == 0
  | .setvt o | .setvl o => o.vec true isS (if o.im then isZ else isS) isZ isZ && o.fx == 0 && o.rm == 0 && o.fc == 0
      && o.sub == 0 && o.noPred
  | .vfadd o | .vfsub o | .vfmul o | .vfdiv o | .vfmin o | .vfmax o => o.vflt isV isVQS isZ && o.sub == 0
  | .vfma o => o.vflt isV isVQS isVQS && o.sub == 0
  | .vfsqrt o | .vfexp2 o | .vflog2 o | .vfrsq o | .vfrcp o | .vftanh o => o.vflt isV isZ isZ && o.sub == 0
  | .vfcmp o => o.vflt isM1 isVQS isZ && o.sub.toNat ≤ 3
  | .vfcvt o => o.vec false isV isVQ isZ (if o.rm == 6 then isVQ else isZ) && o.fx == 0 && o.fc.toNat ≤ 15
      && o.sub.toNat != o.fc.toNat && !(FX.intFormat o.sub.toNat && FX.intFormat o.fc.toNat) && o.predOk
  | .vperm o => o.perm isV isVQ isVQ isZ && o.sub == 0 && o.predOk
  | .vslide o => o.perm isV isVQ isS isZ && o.sub.toNat ≤ 1 && o.predOk
  | .vbcast o => o.perm isV isVQ isS isZ && o.sub == 0 && o.predOk
  | .vred o => o.vec false isV isVQ isVQS isZ && o.fx.toNat ≤ 3 && o.redOp && o.predOk
  | .vscan o => o.vec false isV isVQ isVQS isZ && o.fx.toNat ≤ 1 && o.redOp && o.predOk
  | .vcompr o | .vexpnd o => o.perm isV isVQ isZ isZ && o.sub == 0 && o.predOk
  | .viota o => o.perm isV isZ isZ isZ && o.sub == 0 && o.predOk
  | .vconfl o => o.perm (if o.sub == 0 then isM1 else isV) isVQ isZ isZ && o.sub.toNat ≤ 1 && o.predOk
  | .vspk o => o.vec false isV isVQ isZ isM1 && o.fx == 0 && o.rm == 0 && o.sub == 0 && FX.spkFormat o.fc.toNat
      && o.predOk
  | .vunpk o => o.perm isV isVQ isZ isM && o.sub == 0 && o.predOk
  | .vpack o => o.vec false isV isVQ isZ isZ && o.fx.toNat ≤ 4 && o.rm == 0 && o.fc == 0 && o.sub.toNat ≤ 4
      && o.predOk
  | .mand o | .mor o | .mxor o => o.perm isM1 isM isM isZ && o.sub == 0 && o.noPred
  | .mnot o => o.perm isM1 isM isZ isZ && o.sub == 0 && o.noPred
  | .mpopc o | .mfirst o => o.perm isS isM isZ isZ && o.sub == 0 && o.noPred
  | .vld o => o.vmem isV isS isZ true false false false false && o.fx == 0 && o.nf == 0 && o.w == 3 && o.loadOrd
  | .vldQ o => o.vmem isQ isS isZ false false false false false && o.fx == 0 && o.nf == 0 && o.w == 3 && o.loadOrd
  | .vlds o => o.vmem isV isS isZ true false false false false && o.fx == 0 && o.nf == 0 && o.w == 3 && o.loadOrd
  | .vldx o => o.vmem isV isV isZ true false false true false && o.fx == 0 && o.nf == 0 && o.loadOrd
  | .vlseg o => o.vmem isV isS isZ true false false false false && o.fx == 0 && o.nf != 0 && o.w == 3 && o.loadOrd
  | .vldb o => o.vmem isV isS isZ true true false true false && o.fx.toNat ≤ 4 && o.nf == 0 && o.w == 3 && o.loadOrd
  | .vldt o => o.vmem isV isV isZ false false false false false && o.fx == 0 && o.nf == 0 && o.sh == 0 && o.w == 3
      && o.loadOrd
  | .vst o | .vsts o => o.vmem isZ isS isVQ false false false false false && o.fx == 0 && o.nf == 0 && o.w == 3
      && o.storeOrd
  | .vstx o => o.vmem isZ isV isVQ false false true true false && o.fx == 0 && o.nf == 0 && o.storeOrd
  | .vsseg o => o.vmem isZ isS isV false false false false false && o.fx == 0 && o.nf != 0 && o.w == 3 && o.storeOrd
  | .vstn o => o.vmem isS isS isVQ false false false false false && o.fx == 0 && o.nf == 0 && o.w == 3 && o.storeOrd
  | .vstt o => o.vmem isZ isV isV false false false false false && o.fx == 0 && o.nf == 0 && o.sh == 0 && o.w == 3
      && o.storeOrd
  | .vglr o => o.vmem isV isV isZ false false false true false && o.fx == 0 && o.nf == 0
  | .vscc o => o.vmem isM1 isV isV false false false true false && o.fx == 0 && o.nf == 0
  | .vamo o => o.vmem (fun r => isV r || isZ r) isV isV false false false true true && o.fx == 0 && o.nf == 0
      && o.aop.toNat ≤ 9
  | .vwait o => o.vmem isM1 isV isV false false false true false && o.fx.toNat ≤ 3 && o.nf == 0 && o.noOrd
  | .settl o => o.mat isS isS isS isZ false false false false && o.fx == 0
  | .setfmt o => o.mat isZ isS isZ isZ false false false true && o.fx == 0
  | .setfmtI o => o.mat isZ isZ isZ isZ false false false true && o.fx == 0 && o.imm.toNat < 2 ^ 19
  | .mzero o | .mrel o => o.mat isFm isZ isZ isZ false false false false && o.fx == 0
  | .ldb o => o.mat isZ isS isS isS false false false true && o.fx == 0
  | .bflip o => o.mat isZ isZ isZ isZ false false false false && o.fx == 0
  | .mop o => o.mat isFm isV isV isS false false false false && o.fx == 0
  | .mops o => o.mat isFm (if o.srcsel == 0 then isQ else isS) isZ isS false true false (o.srcsel == 1) && o.fx == 0
      && o.srcsel.toNat ≤ 1
  | .mldr o => o.mat isFm isS isS isS true false false true && o.fx.toNat ≤ 1 && FF.inFormat o.fc.toNat
  | .mstr o => o.mat isZ isS isS isFm true false false true && o.fx.toNat ≤ 1 && FF.outFormat o.fc.toNat
  | .mmovr o | .mmovc o => o.mat isV isFm isZ isZ true false true false && o.fx.toNat ≤ 1 && FF.inFormat o.fc.toNat
  | .mmovrTo o | .mmovcTo o => o.mat isFm isV isZ isZ true false true false && (o.fx == 2 || o.fx == 3)
      && FF.inFormat o.fc.toNat
  | .mcvt o => o.mat isFm isZ isZ isZ true false false false && o.fx.toNat ≤ 1 && FF.inFormat o.fc.toNat
  | .ecmd o => o.sys isM1 isV isZ isZ 0 0 && o.predOk && o.noOrd
  | .tcp o => o.sys isS isS isS isS 1 0x3FF && (o.imm.toNat >>> 7) % 8 ≤ 4 && o.noPred && o.noOrd
  | .twany o | .twall o | .tfirst o => o.sys isS isS isZ isZ 0 0 && o.noPred && o.scopeOnly
  | .tclr o => o.sys isZ isS isZ isZ 0 0 && o.noPred && o.noOrd
  | .bar o => o.sys isZ isZ isZ isZ 0 8 && o.noPred && o.noOrd
  | .futreg o => o.sys isS isS isS isZ 0 0 && o.noPred && o.scopeOnly
  | .futres o => o.sys isZ isS isS isZ 0 0 && o.noPred && o.scopeOnly
  | .futresFault o => o.sys isZ isS isS isZ 1 0 && o.sub == 1 && o.noPred && o.scopeOnly
  | .tspawn o => o.sys isS isS (if o.sub == 1 then isS else isZ) isZ 1 0 && o.noPred && o.scopeOnly
  | .nextt o | .rive o => o.sys isS isZ isZ isZ 0 0 && o.noPred && o.noOrd
  | .done o => o.sys isZ isZ isZ isZ 0 0 && o.noPred && o.noOrd
  | .doneEnd o => o.sys isZ isZ isZ isZ 1 0 && o.sub == 1 && o.noPred && o.noOrd
  | .msend o => o.sys isS isS isS isZ 0 0xFFFF && o.noPred && o.scopeOnly
  | .mrecv o | .mpoll o => o.sys isS1to62 isZ isZ isZ 0 0 && o.noPred && o.scopeOnly
  | .rlead o => o.sys isS isS isZ isZ 0 0 && o.noPred && o.noOrd
  | .rsig o => o.sys isS isZ isZ isZ 4 0 && o.noPred && o.noOrd
  | .rchk o => o.sys isS isZ isZ isZ 0 0 && o.noPred && o.noOrd
  | _ => false

/-- A well-formed instruction: its fields pass the checks, and it is not the ADD whose 128 bits are all zero
(R204 step 1; no assigned OP has an all-ones word). -/
def Instr.wf (i : Instr) : Bool :=
  i.fieldsOk && i != .add { set := some 0, w := 0 }

end Sys2Proof
end

