-- ==== Sys2Proof/Decode.lean ====
section
/-!
DEFINITION. The decoder of 128-bit words (R195 to R204) and the encoder, both from the opcode map of R202 and the
format tables of R195 and R197.
-/
namespace Sys2Proof

/-- Why a word is no instruction (R204): the steps in their order, all ILLEGAL_INSTRUCTION. The privilege check of
step 3 depends on the mode and stands at SLOT_ISSUE (`opPrivileged`). -/
inductive DecodeError where
  /-- step 1: all 128 bits are zero, or all are one -/
  | allZeroOrOne
  /-- step 2: the OP is unassigned -/
  | unassignedOp
  /-- step 5: a reserved register index -/
  | reservedRegister
  /-- step 5: SET = 6, SCOPE 5 to 7, or a nonzero bit that the format marks 0 -/
  | reservedField
  /-- steps 4 and 5: an unassigned FN, a refused class, form, predicate, ordering or subfield value -/
  | refusedField
  deriving DecidableEq, Repr

namespace CReg
/-- The number of a control register (R231). -/
def num : CReg → BitVec 6
  | .vl => 0 | .vt => 1 | .fill => 2 | .rmode => 3 | .frm => 4 | .fflags => 5 | .sat => 6
  | .cyc => 8 | .hmc => 9 | .slot => 10 | .core => 11 | .grove => 12 | .die => 13 | .dev => 14 | .part => 15
  | .epc => 16 | .cause => 17 | .tval => 18 | .tinfo => 19 | .hbase => 20
  | .fmtA => 24 | .fmtB => 25 | .fmtO => 26 | .sclA => 27 | .sclB => 28 | .cbkA => 29 | .cbkB => 30
  | .lvl i => BitVec.ofNat 6 (32 + i.val) | .tc i => BitVec.ofNat 6 (40 + i.val) | .tid => 46 | .xroot => 48
  | .stab i => BitVec.ofNat 6 (52 + i.val) | .lix i => BitVec.ofNat 6 (56 + i.val)

/-- The control register of a number; the others are reserved (R231). -/
def ofNum (n : BitVec 6) : Option CReg :=
  match n.toNat with
  | 0 => some .vl | 1 => some .vt | 2 => some .fill | 3 => some .rmode | 4 => some .frm | 5 => some .fflags
  | 6 => some .sat | 8 => some .cyc | 9 => some .hmc | 10 => some .slot | 11 => some .core | 12 => some .grove
  | 13 => some .die | 14 => some .dev | 15 => some .part | 16 => some .epc | 17 => some .cause | 18 => some .tval
  | 19 => some .tinfo | 20 => some .hbase | 24 => some .fmtA | 25 => some .fmtB | 26 => some .fmtO
  | 27 => some .sclA | 28 => some .sclB | 29 => some .cbkA | 30 => some .cbkB
  | 32 => some (.lvl 0) | 33 => some (.lvl 1) | 34 => some (.lvl 2) | 35 => some (.lvl 3)
  | 36 => some (.lvl 4) | 37 => some (.lvl 5) | 38 => some (.lvl 6) | 39 => some (.lvl 7)
  | 40 => some (.tc 0) | 41 => some (.tc 1) | 42 => some (.tc 2) | 43 => some (.tc 3) | 44 => some (.tc 4)
  | 45 => some (.tc 5) | 46 => some .tid | 48 => some .xroot
  | 52 => some (.stab 0) | 53 => some (.stab 1) | 54 => some (.stab 2) | 55 => some (.stab 3)
  | 56 => some (.lix 0) | 57 => some (.lix 1) | 58 => some (.lix 2) | 59 => some (.lix 3)
  | 60 => some (.lix 4) | 61 => some (.lix 5)
  | _ => none
end CReg

namespace Reg
/-- The 8-bit register field (R196). -/
def bits : Reg → BitVec 8
  | .s i => BitVec.ofNat 8 i.val
  | .v i => BitVec.ofNat 8 (0x40 + i.val)
  | .q i => BitVec.ofNat 8 (0x60 + i.val)
  | .m i => BitVec.ofNat 8 (0x80 + i.val)
  | .sb i => BitVec.ofNat 8 (0x88 + i.val)
  | .fm i => BitVec.ofNat 8 (0x90 + i.val)
  | .cr r => (3 : BitVec 2) ++ r.num

/-- The register that an 8-bit field names; reserved indices name none (R196). -/
def ofBits (x : BitVec 8) : Option Reg :=
  let n := x.toNat
  if n < 0x40 then some (.s (Fin.ofNat 64 n))
  else if n < 0x60 then some (.v (Fin.ofNat 32 n))
  else if n < 0x64 then some (.q (Fin.ofNat 4 n))
  else if n < 0x80 then none
  else if n < 0x88 then some (.m (Fin.ofNat 8 n))
  else if n < 0x8E then some (.sb (Fin.ofNat 6 (n - 0x88)))
  else if n < 0x90 then none
  else if n < 0xA0 then some (.fm (Fin.ofNat 16 n))
  else if n < 0xC0 then none
  else (CReg.ofNum (x.extractLsb' 0 6)).map .cr
end Reg

/-- The ORD code (R101). -/
def Order.bits : Order → BitVec 2 | .plain => 0 | .acquire => 1 | .release => 2 | .acqRel => 3
/-- The order of an ORD code. -/
def Order.ofBits (x : BitVec 2) : Order :=
  match x.toNat with | 0 => .plain | 1 => .acquire | 2 => .release | _ => .acqRel
/-- The SCOPE code (R101). -/
def Scope.bits : Scope → BitVec 3 | .core => 0 | .grove => 1 | .die => 2 | .device => 3 | .domain => 4
/-- The scope of a SCOPE code; 5 to 7 are illegal. -/
def Scope.ofBits (x : BitVec 3) : Option Scope :=
  match x.toNat with
  | 0 => some .core | 1 => some .grove | 2 => some .die | 3 => some .device | 4 => some .domain | _ => none

/-- The SET code: 7 names none, 6 is reserved (R200). -/
def setBits : Option (Fin 6) → BitVec 3 | none => 7 | some i => BitVec.ofNat 3 i.val
/-- The counter that a SET code names. -/
def setOfBits (x : BitVec 3) : Option (Option (Fin 6)) :=
  match x.toNat with
  | 0 => some (some 0) | 1 => some (some 1) | 2 => some (some 2) | 3 => some (some 3) | 4 => some (some 4)
  | 5 => some (some 5) | 7 => some none | _ => none

/-! The common layout of R195, highest field first. -/

/-- Pack the common fields with FN[7], FN[2:0], EXT and IMM into a word (R195). -/
def packWord (op : BitVec 8) (im : Bool) (f3 : BitVec 3) (h : Hdr) (ext : BitVec 23) (imm : BitVec 32) : IWord :=
  op ++ (BitVec.ofBool im ++ (h.fx ++ (f3 ++ (BitVec.ofBool h.sw ++ (h.y ++ (setBits h.set ++ (h.wait ++ (h.reuse ++
    (BitVec.ofBool h.pn ++ (h.pm ++ (h.d.bits ++ (h.a.bits ++ (h.b.bits ++ (h.c.bits ++ (h.ord.bits ++
      (h.scope.bits ++ (ext ++ imm)))))))))))))))))

/-- OP (R195). -/
def wordOp (w : IWord) : BitVec 8 := w.extractLsb' 120 8
/-- FN[7]. -/
def wordIm (w : IWord) : Bool := w.getLsbD 119
/-- FN[2:0]. -/
def wordF3 (w : IWord) : BitVec 3 := w.extractLsb' 112 3
/-- EXT. -/
def wordExt (w : IWord) : BitVec 23 := w.extractLsb' 32 23
/-- IMM. -/
def wordImm (w : IWord) : BitVec 32 := w.extractLsb' 0 32

/-- Read the common fields (R195, R196, R200). -/
def wordHdr (w : IWord) : Except DecodeError Hdr :=
  match setOfBits (w.extractLsb' 105 3), Scope.ofBits (w.extractLsb' 55 3) with
  | some set, some scope =>
    match Reg.ofBits (w.extractLsb' 84 8), Reg.ofBits (w.extractLsb' 76 8), Reg.ofBits (w.extractLsb' 68 8),
        Reg.ofBits (w.extractLsb' 60 8) with
    | some d, some a, some b, some c =>
      .ok { fx := w.extractLsb' 115 4, sw := w.getLsbD 111, y := w.extractLsb' 108 3, set := set,
            wait := w.extractLsb' 99 6, reuse := w.extractLsb' 96 3, pn := w.getLsbD 95, pm := w.extractLsb' 92 3,
            d := d, a := a, b := b, c := c, ord := Order.ofBits (w.extractLsb' 58 2), scope := scope }
    | _, _, _, _ => .error .reservedRegister
  | _, _ => .error .reservedField

/-- EXT of F0 and F1 (R197). -/
def FX.ext (o : FX) : BitVec 23 := o.w ++ (o.rm ++ (o.fc ++ (o.sub ++ (0 : BitVec 8))))
/-- EXT of F2. -/
def FM.ext (o : FM) : BitVec 23 :=
  o.w ++ (o.sh ++ (BitVec.ofBool o.ff ++ (o.boff ++ (o.nf ++ (BitVec.ofBool o.uo ++ (BitVec.ofBool o.sx ++
    (o.aop ++ (0 : BitVec 5))))))))
/-- EXT of F3. -/
def FB.ext (o : FB) : BitVec 23 := o.cnd ++ (o.bl ++ (o.nest ++ (0 : BitVec 12)))
/-- EXT of F4. -/
def FF.ext (o : FF) : BitVec 23 := o.fc ++ (o.srcsel ++ (o.idx ++ (0 : BitVec 10)))
/-- EXT of F5 and F6. -/
def FS.ext (o : FS) : BitVec 23 := o.sub ++ (0 : BitVec 19)

/-- Read F0 or F1. -/
def wordFX (w : IWord) (h : Hdr) : Except DecodeError FX :=
  let e := wordExt w
  if e.extractLsb' 0 8 = 0 then
    .ok { toHdr := h, im := wordIm w, w := e.extractLsb' 21 2, rm := e.extractLsb' 18 3, fc := e.extractLsb' 12 6,
          sub := e.extractLsb' 8 4, imm := wordImm w }
  else .error .reservedField
/-- Read F2. -/
def wordFM (w : IWord) (h : Hdr) : Except DecodeError FM :=
  let e := wordExt w
  if e.extractLsb' 0 5 = 0 ∧ wordIm w = false then
    .ok { toHdr := h, w := e.extractLsb' 21 2, sh := e.extractLsb' 18 3, ff := e.getLsbD 17, boff := e.extractLsb' 14 3,
          nf := e.extractLsb' 11 3, uo := e.getLsbD 10, sx := e.getLsbD 9, aop := e.extractLsb' 5 4, imm := wordImm w }
  else .error .reservedField
/-- Read F3. -/
def wordFB (w : IWord) (h : Hdr) : Except DecodeError FB :=
  let e := wordExt w
  if e.extractLsb' 0 12 = 0 ∧ wordIm w = false then
    .ok { toHdr := h, cnd := e.extractLsb' 19 4, bl := e.extractLsb' 15 4, nest := e.extractLsb' 12 3, imm := wordImm w }
  else .error .reservedField
/-- Read F4. -/
def wordFF (w : IWord) (h : Hdr) : Except DecodeError FF :=
  let e := wordExt w
  if e.extractLsb' 0 10 = 0 ∧ wordIm w = false then
    .ok { toHdr := h, fc := e.extractLsb' 17 6, srcsel := e.extractLsb' 15 2, idx := e.extractLsb' 10 5, imm := wordImm w }
  else .error .reservedField
/-- Read F5 or F6. -/
def wordFS (w : IWord) (h : Hdr) : Except DecodeError FS :=
  let e := wordExt w
  if e.extractLsb' 0 19 = 0 ∧ wordIm w = false then
    .ok { toHdr := h, sub := e.extractLsb' 19 4, imm := wordImm w }
  else .error .reservedField

/-- The OP and FN[2:0] of an encoded instruction, with its operands (R202); none for device events. -/
def Instr.opcode : Instr → Option (BitVec 8 × BitVec 3 × Operands)
  | .add o => some (0x00, 0, .fx o)
  | .sub o => some (0x01, 0, .fx o)
  | .mul o => some (0x02, 0, .fx o)
  | .mulh o => some (0x03, 0, .fx o)
  | .mulhu o => some (0x04, 0, .fx o)
  | .div o => some (0x05, 0, .fx o)
  | .divu o => some (0x06, 0, .fx o)
  | .rem o => some (0x07, 0, .fx o)
  | .remu o => some (0x08, 0, .fx o)
  | .and o => some (0x09, 0, .fx o)
  | .or o => some (0x0A, 0, .fx o)
  | .xor o => some (0x0B, 0, .fx o)
  | .andn o => some (0x0C, 0, .fx o)
  | .shl o => some (0x0D, 0, .fx o)
  | .shr o => some (0x0E, 0, .fx o)
  | .sra o => some (0x0F, 0, .fx o)
  | .rot o => some (0x10, 0, .fx o)
  | .min o => some (0x11, 0, .fx o)
  | .max o => some (0x12, 0, .fx o)
  | .minu o => some (0x13, 0, .fx o)
  | .maxu o => some (0x14, 0, .fx o)
  | .clz o => some (0x15, 0, .fx o)
  | .ctz o => some (0x16, 0, .fx o)
  | .popc o => some (0x17, 0, .fx o)
  | .sext o => some (0x18, 0, .fx o)
  | .cmp o => some (0x19, 0, .fx o)
  | .sel o => some (0x1A, 0, .fx o)
  | .movi o => some (0x1B, 0, .fx o)
  | .movhi o => some (0x1C, 0, .fx o)
  | .fadd o => some (0x20, 0, .fx o)
  | .fsub o => some (0x21, 0, .fx o)
  | .fmul o => some (0x22, 0, .fx o)
  | .fma o => some (0x23, 0, .fx o)
  | .fdiv o => some (0x24, 0, .fx o)
  | .fsqrt o => some (0x25, 0, .fx o)
  | .fmin o => some (0x26, 0, .fx o)
  | .fmax o => some (0x27, 0, .fx o)
  | .fcmp o => some (0x28, 0, .fx o)
  | .fcvt o => some (0x29, 0, .fx o)
  | .fclass o => some (0x2A, 0, .fx o)
  | .fsgn o => some (0x2B, 0, .fx o)
  | .br o => some (0x30, 0, .fb o)
  | .jmp o => some (0x31, 0, .fb o)
  | .call o => some (0x32, 0, .fb o)
  | .ret o => some (0x33, 0, .fb o)
  | .jr o => some (0x34, 0, .fb o)
  | .loopn o => some (0x35, 0, .fb o)
  | .nop o => some (0x36, 0, .fb o)
  | .trap o => some (0x37, 0, .fb o)
  | .ld o => some (0x40, 0, .fm o)
  | .st o => some (0x41, 0, .fm o)
  | .fence o => some (0x42, 0, .fm o)
  | .pref o => some (0x43, 0, .fm o)
  | .ldfe o => some (0x50, 0, .fm o)
  | .ldff o => some (0x51, 0, .fm o)
  | .stef o => some (0x52, 0, .fm o)
  | .stff o => some (0x53, 0, .fm o)
  | .feq o => some (0x54, 0, .fm o)
  | .amo o => some (0x55, 0, .fm o)
  | .cas o => some (0x56, 0, .fm o)
  | .vadd o => some (0x60, 0, .fx o)
  | .vsub o => some (0x61, 0, .fx o)
  | .vmul o => some (0x62, 0, .fx o)
  | .vmulh o => some (0x63, 0, .fx o)
  | .vmacc o => some (0x64, 0, .fx o)
  | .vwmacc o => some (0x65, 0, .fx o)
  | .vmin o => some (0x66, 0, .fx o)
  | .vmax o => some (0x66, 1, .fx o)
  | .vand o => some (0x67, 0, .fx o)
  | .vor o => some (0x67, 1, .fx o)
  | .vxor o => some (0x67, 2, .fx o)
  | .vshl o => some (0x68, 0, .fx o)
  | .vshr o => some (0x68, 1, .fx o)
  | .vsra o => some (0x68, 2, .fx o)
  | .vnshr o => some (0x69, 0, .fx o)
  | .vsadd o => some (0x6A, 0, .fx o)
  | .vssub o => some (0x6A, 1, .fx o)
  | .vcmp o => some (0x6B, 0, .fx o)
  | .vmerge o => some (0x6C, 0, .fx o)
  | .vmv o => some (0x6D, 0, .fx o)
  | .setvt o => some (0x6E, 0, .fx o)
  | .setvl o => some (0x6F, 0, .fx o)
  | .vfadd o => some (0x70, 0, .fx o)
  | .vfsub o => some (0x71, 0, .fx o)
  | .vfmul o => some (0x72, 0, .fx o)
  | .vfma o => some (0x73, 0, .fx o)
  | .vfdiv o => some (0x74, 0, .fx o)
  | .vfsqrt o => some (0x75, 0, .fx o)
  | .vfmin o => some (0x76, 0, .fx o)
  | .vfmax o => some (0x77, 0, .fx o)
  | .vfcmp o => some (0x78, 0, .fx o)
  | .vfcvt o => some (0x79, 0, .fx o)
  | .vfexp2 o => some (0x7A, 0, .fx o)
  | .vflog2 o => some (0x7B, 0, .fx o)
  | .vfrsq o => some (0x7C, 0, .fx o)
  | .vfrcp o => some (0x7D, 0, .fx o)
  | .vftanh o => some (0x7E, 0, .fx o)
  | .vperm o => some (0x80, 0, .fx o)
  | .vslide o => some (0x81, 0, .fx o)
  | .vbcast o => some (0x82, 0, .fx o)
  | .vred o => some (0x83, 0, .fx o)
  | .vscan o => some (0x84, 0, .fx o)
  | .vcompr o => some (0x85, 0, .fx o)
  | .vexpnd o => some (0x86, 0, .fx o)
  | .viota o => some (0x87, 0, .fx o)
  | .vconfl o => some (0x88, 0, .fx o)
  | .vspk o => some (0x89, 0, .fx o)
  | .vunpk o => some (0x8A, 0, .fx o)
  | .vpack o => some (0x8B, 0, .fx o)
  | .mand o => some (0x8C, 0, .fx o)
  | .mor o => some (0x8C, 1, .fx o)
  | .mxor o => some (0x8C, 2, .fx o)
  | .mnot o => some (0x8C, 3, .fx o)
  | .mpopc o => some (0x8D, 0, .fx o)
  | .mfirst o => some (0x8E, 0, .fx o)
  | .vld o => some (0x90, 0, .fm o)
  | .vldQ o => some (0x90, 0, .fm o)
  | .vlds o => some (0x91, 0, .fm o)
  | .vldx o => some (0x92, 0, .fm o)
  | .vlseg o => some (0x93, 0, .fm o)
  | .vldb o => some (0x94, 0, .fm o)
  | .vldt o => some (0x95, 0, .fm o)
  | .vst o => some (0x96, 0, .fm o)
  | .vsts o => some (0x97, 0, .fm o)
  | .vstx o => some (0x98, 0, .fm o)
  | .vsseg o => some (0x99, 0, .fm o)
  | .vstn o => some (0x9A, 0, .fm o)
  | .vstt o => some (0x9B, 0, .fm o)
  | .vglr o => some (0xA0, 0, .fm o)
  | .vscc o => some (0xA1, 0, .fm o)
  | .vamo o => some (0xA2, 0, .fm o)
  | .vwait o => some (0xA3, 0, .fm o)
  | .settl o => some (0xB0, 0, .ff o)
  | .setfmt o => some (0xB1, 0, .ff o)
  | .setfmtI o => some (0xB1, 1, .ff o)
  | .mzero o => some (0xB2, 0, .ff o)
  | .ldb o => some (0xB3, 0, .ff o)
  | .bflip o => some (0xB4, 0, .ff o)
  | .mop o => some (0xB5, 0, .ff o)
  | .mops o => some (0xB6, 0, .ff o)
  | .mldr o => some (0xB7, 0, .ff o)
  | .mstr o => some (0xB8, 0, .ff o)
  | .mmovr o => some (0xB9, 0, .ff o)
  | .mmovrTo o => some (0xB9, 0, .ff o)
  | .mmovc o => some (0xBA, 0, .ff o)
  | .mmovcTo o => some (0xBA, 0, .ff o)
  | .mcvt o => some (0xBB, 0, .ff o)
  | .mrel o => some (0xBC, 0, .ff o)
  | .ecmd o => some (0xC0, 0, .fs o)
  | .tcp o => some (0xC1, 0, .fs o)
  | .twany o => some (0xC2, 0, .fs o)
  | .twall o => some (0xC3, 0, .fs o)
  | .tfirst o => some (0xC4, 0, .fs o)
  | .tclr o => some (0xC5, 0, .fs o)
  | .bar o => some (0xD0, 0, .fs o)
  | .futreg o => some (0xD1, 0, .fs o)
  | .futres o => some (0xD2, 0, .fs o)
  | .futresFault o => some (0xD2, 0, .fs o)
  | .tspawn o => some (0xD3, 0, .fs o)
  | .nextt o => some (0xD4, 0, .fs o)
  | .rive o => some (0xD5, 0, .fs o)
  | .done o => some (0xD6, 0, .fs o)
  | .doneEnd o => some (0xD6, 0, .fs o)
  | .msend o => some (0xD7, 0, .fs o)
  | .mrecv o => some (0xD8, 0, .fs o)
  | .mpoll o => some (0xD9, 0, .fs o)
  | .rlead o => some (0xDA, 0, .fs o)
  | .rsig o => some (0xDB, 0, .fs o)
  | .rchk o => some (0xDC, 0, .fs o)
  | .crr o => some (0xE0, 0, .fs o)
  | .crw o => some (0xE1, 0, .fs o)
  | .crs o => some (0xE2, 0, .fs o)
  | .crc o => some (0xE3, 0, .fs o)
  | .eret o => some (0xE4, 0, .fs o)
  | .icsync o => some (0xE5, 0, .fs o)
  | .slotw o => some (0xE8, 0, .fs o)
  | .tlbinv o => some (0xE9, 0, .fs o)
  | _ => none

/-- The 128-bit word of an instruction (R195); device events have none and give the zero word. -/
def encode (i : Instr) : IWord :=
  match i.opcode with
  | some (op, f3, .fx o) => packWord op o.im f3 o.toHdr o.ext o.imm
  | some (op, f3, .fm o) => packWord op false f3 o.toHdr o.ext o.imm
  | some (op, f3, .fb o) => packWord op false f3 o.toHdr o.ext o.imm
  | some (op, f3, .ff o) => packWord op false f3 o.toHdr o.ext o.imm
  | some (op, f3, .fs o) => packWord op false f3 o.toHdr o.ext o.imm
  | none => 0

/-- FN[2:0] is 0 in a cell that holds one mnemonic (R202). -/
def f3z (w : IWord) : Except DecodeError Unit := if wordF3 w = 0 then .ok () else .error .refusedField

/-- The instruction of a word whose common fields are `h`, by the opcode map of R202. -/
def decodeOp (w : IWord) (h : Hdr) : Except DecodeError Instr :=
  match (wordOp w).toNat with
  | 0x00 => (f3z w).bind fun _ => (wordFX w h).map .add
  | 0x01 => (f3z w).bind fun _ => (wordFX w h).map .sub
  | 0x02 => (f3z w).bind fun _ => (wordFX w h).map .mul
  | 0x03 => (f3z w).bind fun _ => (wordFX w h).map .mulh
  | 0x04 => (f3z w).bind fun _ => (wordFX w h).map .mulhu
  | 0x05 => (f3z w).bind fun _ => (wordFX w h).map .div
  | 0x06 => (f3z w).bind fun _ => (wordFX w h).map .divu
  | 0x07 => (f3z w).bind fun _ => (wordFX w h).map .rem
  | 0x08 => (f3z w).bind fun _ => (wordFX w h).map .remu
  | 0x09 => (f3z w).bind fun _ => (wordFX w h).map .and
  | 0x0A => (f3z w).bind fun _ => (wordFX w h).map .or
  | 0x0B => (f3z w).bind fun _ => (wordFX w h).map .xor
  | 0x0C => (f3z w).bind fun _ => (wordFX w h).map .andn
  | 0x0D => (f3z w).bind fun _ => (wordFX w h).map .shl
  | 0x0E => (f3z w).bind fun _ => (wordFX w h).map .shr
  | 0x0F => (f3z w).bind fun _ => (wordFX w h).map .sra
  | 0x10 => (f3z w).bind fun _ => (wordFX w h).map .rot
  | 0x11 => (f3z w).bind fun _ => (wordFX w h).map .min
  | 0x12 => (f3z w).bind fun _ => (wordFX w h).map .max
  | 0x13 => (f3z w).bind fun _ => (wordFX w h).map .minu
  | 0x14 => (f3z w).bind fun _ => (wordFX w h).map .maxu
  | 0x15 => (f3z w).bind fun _ => (wordFX w h).map .clz
  | 0x16 => (f3z w).bind fun _ => (wordFX w h).map .ctz
  | 0x17 => (f3z w).bind fun _ => (wordFX w h).map .popc
  | 0x18 => (f3z w).bind fun _ => (wordFX w h).map .sext
  | 0x19 => (f3z w).bind fun _ => (wordFX w h).map .cmp
  | 0x1A => (f3z w).bind fun _ => (wordFX w h).map .sel
  | 0x1B => (f3z w).bind fun _ => (wordFX w h).map .movi
  | 0x1C => (f3z w).bind fun _ => (wordFX w h).map .movhi
  | 0x20 => (f3z w).bind fun _ => (wordFX w h).map .fadd
  | 0x21 => (f3z w).bind fun _ => (wordFX w h).map .fsub
  | 0x22 => (f3z w).bind fun _ => (wordFX w h).map .fmul
  | 0x23 => (f3z w).bind fun _ => (wordFX w h).map .fma
  | 0x24 => (f3z w).bind fun _ => (wordFX w h).map .fdiv
  | 0x25 => (f3z w).bind fun _ => (wordFX w h).map .fsqrt
  | 0x26 => (f3z w).bind fun _ => (wordFX w h).map .fmin
  | 0x27 => (f3z w).bind fun _ => (wordFX w h).map .fmax
  | 0x28 => (f3z w).bind fun _ => (wordFX w h).map .fcmp
  | 0x29 => (f3z w).bind fun _ => (wordFX w h).map .fcvt
  | 0x2A => (f3z w).bind fun _ => (wordFX w h).map .fclass
  | 0x2B => (f3z w).bind fun _ => (wordFX w h).map .fsgn
  | 0x30 => (f3z w).bind fun _ => (wordFB w h).map .br
  | 0x31 => (f3z w).bind fun _ => (wordFB w h).map .jmp
  | 0x32 => (f3z w).bind fun _ => (wordFB w h).map .call
  | 0x33 => (f3z w).bind fun _ => (wordFB w h).map .ret
  | 0x34 => (f3z w).bind fun _ => (wordFB w h).map .jr
  | 0x35 => (f3z w).bind fun _ => (wordFB w h).map .loopn
  | 0x36 => (f3z w).bind fun _ => (wordFB w h).map .nop
  | 0x37 => (f3z w).bind fun _ => (wordFB w h).map .trap
  | 0x40 => (f3z w).bind fun _ => (wordFM w h).map .ld
  | 0x41 => (f3z w).bind fun _ => (wordFM w h).map .st
  | 0x42 => (f3z w).bind fun _ => (wordFM w h).map .fence
  | 0x43 => (f3z w).bind fun _ => (wordFM w h).map .pref
  | 0x50 => (f3z w).bind fun _ => (wordFM w h).map .ldfe
  | 0x51 => (f3z w).bind fun _ => (wordFM w h).map .ldff
  | 0x52 => (f3z w).bind fun _ => (wordFM w h).map .stef
  | 0x53 => (f3z w).bind fun _ => (wordFM w h).map .stff
  | 0x54 => (f3z w).bind fun _ => (wordFM w h).map .feq
  | 0x55 => (f3z w).bind fun _ => (wordFM w h).map .amo
  | 0x56 => (f3z w).bind fun _ => (wordFM w h).map .cas
  | 0x60 => (f3z w).bind fun _ => (wordFX w h).map .vadd
  | 0x61 => (f3z w).bind fun _ => (wordFX w h).map .vsub
  | 0x62 => (f3z w).bind fun _ => (wordFX w h).map .vmul
  | 0x63 => (f3z w).bind fun _ => (wordFX w h).map .vmulh
  | 0x64 => (f3z w).bind fun _ => (wordFX w h).map .vmacc
  | 0x65 => (f3z w).bind fun _ => (wordFX w h).map .vwmacc
  | 0x66 => (match (wordF3 w).toNat with | 0 => (wordFX w h).map .vmin | 1 => (wordFX w h).map .vmax | _ => .error .refusedField)
  | 0x67 => (match (wordF3 w).toNat with | 0 => (wordFX w h).map .vand | 1 => (wordFX w h).map .vor | 2 => (wordFX w h).map .vxor | _ => .error .refusedField)
  | 0x68 => (match (wordF3 w).toNat with | 0 => (wordFX w h).map .vshl | 1 => (wordFX w h).map .vshr | 2 => (wordFX w h).map .vsra | _ => .error .refusedField)
  | 0x69 => (f3z w).bind fun _ => (wordFX w h).map .vnshr
  | 0x6A => (match (wordF3 w).toNat with | 0 => (wordFX w h).map .vsadd | 1 => (wordFX w h).map .vssub | _ => .error .refusedField)
  | 0x6B => (f3z w).bind fun _ => (wordFX w h).map .vcmp
  | 0x6C => (f3z w).bind fun _ => (wordFX w h).map .vmerge
  | 0x6D => (f3z w).bind fun _ => (wordFX w h).map .vmv
  | 0x6E => (f3z w).bind fun _ => (wordFX w h).map .setvt
  | 0x6F => (f3z w).bind fun _ => (wordFX w h).map .setvl
  | 0x70 => (f3z w).bind fun _ => (wordFX w h).map .vfadd
  | 0x71 => (f3z w).bind fun _ => (wordFX w h).map .vfsub
  | 0x72 => (f3z w).bind fun _ => (wordFX w h).map .vfmul
  | 0x73 => (f3z w).bind fun _ => (wordFX w h).map .vfma
  | 0x74 => (f3z w).bind fun _ => (wordFX w h).map .vfdiv
  | 0x75 => (f3z w).bind fun _ => (wordFX w h).map .vfsqrt
  | 0x76 => (f3z w).bind fun _ => (wordFX w h).map .vfmin
  | 0x77 => (f3z w).bind fun _ => (wordFX w h).map .vfmax
  | 0x78 => (f3z w).bind fun _ => (wordFX w h).map .vfcmp
  | 0x79 => (f3z w).bind fun _ => (wordFX w h).map .vfcvt
  | 0x7A => (f3z w).bind fun _ => (wordFX w h).map .vfexp2
  | 0x7B => (f3z w).bind fun _ => (wordFX w h).map .vflog2
  | 0x7C => (f3z w).bind fun _ => (wordFX w h).map .vfrsq
  | 0x7D => (f3z w).bind fun _ => (wordFX w h).map .vfrcp
  | 0x7E => (f3z w).bind fun _ => (wordFX w h).map .vftanh
  | 0x80 => (f3z w).bind fun _ => (wordFX w h).map .vperm
  | 0x81 => (f3z w).bind fun _ => (wordFX w h).map .vslide
  | 0x82 => (f3z w).bind fun _ => (wordFX w h).map .vbcast
  | 0x83 => (f3z w).bind fun _ => (wordFX w h).map .vred
  | 0x84 => (f3z w).bind fun _ => (wordFX w h).map .vscan
  | 0x85 => (f3z w).bind fun _ => (wordFX w h).map .vcompr
  | 0x86 => (f3z w).bind fun _ => (wordFX w h).map .vexpnd
  | 0x87 => (f3z w).bind fun _ => (wordFX w h).map .viota
  | 0x88 => (f3z w).bind fun _ => (wordFX w h).map .vconfl
  | 0x89 => (f3z w).bind fun _ => (wordFX w h).map .vspk
  | 0x8A => (f3z w).bind fun _ => (wordFX w h).map .vunpk
  | 0x8B => (f3z w).bind fun _ => (wordFX w h).map .vpack
  | 0x8C => (match (wordF3 w).toNat with | 0 => (wordFX w h).map .mand | 1 => (wordFX w h).map .mor | 2 => (wordFX w h).map .mxor | 3 => (wordFX w h).map .mnot | _ => .error .refusedField)
  | 0x8D => (f3z w).bind fun _ => (wordFX w h).map .mpopc
  | 0x8E => (f3z w).bind fun _ => (wordFX w h).map .mfirst
  | 0x90 => (f3z w).bind fun _ => (wordFM w h).map fun o => if o.d.isQ then .vldQ o else .vld o
  | 0x91 => (f3z w).bind fun _ => (wordFM w h).map .vlds
  | 0x92 => (f3z w).bind fun _ => (wordFM w h).map .vldx
  | 0x93 => (f3z w).bind fun _ => (wordFM w h).map .vlseg
  | 0x94 => (f3z w).bind fun _ => (wordFM w h).map .vldb
  | 0x95 => (f3z w).bind fun _ => (wordFM w h).map .vldt
  | 0x96 => (f3z w).bind fun _ => (wordFM w h).map .vst
  | 0x97 => (f3z w).bind fun _ => (wordFM w h).map .vsts
  | 0x98 => (f3z w).bind fun _ => (wordFM w h).map .vstx
  | 0x99 => (f3z w).bind fun _ => (wordFM w h).map .vsseg
  | 0x9A => (f3z w).bind fun _ => (wordFM w h).map .vstn
  | 0x9B => (f3z w).bind fun _ => (wordFM w h).map .vstt
  | 0xA0 => (f3z w).bind fun _ => (wordFM w h).map .vglr
  | 0xA1 => (f3z w).bind fun _ => (wordFM w h).map .vscc
  | 0xA2 => (f3z w).bind fun _ => (wordFM w h).map .vamo
  | 0xA3 => (f3z w).bind fun _ => (wordFM w h).map .vwait
  | 0xB0 => (f3z w).bind fun _ => (wordFF w h).map .settl
  | 0xB1 => (match (wordF3 w).toNat with | 0 => (wordFF w h).map .setfmt | 1 => (wordFF w h).map .setfmtI | _ => .error .refusedField)
  | 0xB2 => (f3z w).bind fun _ => (wordFF w h).map .mzero
  | 0xB3 => (f3z w).bind fun _ => (wordFF w h).map .ldb
  | 0xB4 => (f3z w).bind fun _ => (wordFF w h).map .bflip
  | 0xB5 => (f3z w).bind fun _ => (wordFF w h).map .mop
  | 0xB6 => (f3z w).bind fun _ => (wordFF w h).map .mops
  | 0xB7 => (f3z w).bind fun _ => (wordFF w h).map .mldr
  | 0xB8 => (f3z w).bind fun _ => (wordFF w h).map .mstr
  | 0xB9 => (f3z w).bind fun _ => (wordFF w h).map fun o => if o.fx.getLsbD 1 then .mmovrTo o else .mmovr o
  | 0xBA => (f3z w).bind fun _ => (wordFF w h).map fun o => if o.fx.getLsbD 1 then .mmovcTo o else .mmovc o
  | 0xBB => (f3z w).bind fun _ => (wordFF w h).map .mcvt
  | 0xBC => (f3z w).bind fun _ => (wordFF w h).map .mrel
  | 0xC0 => (f3z w).bind fun _ => (wordFS w h).map .ecmd
  | 0xC1 => (f3z w).bind fun _ => (wordFS w h).map .tcp
  | 0xC2 => (f3z w).bind fun _ => (wordFS w h).map .twany
  | 0xC3 => (f3z w).bind fun _ => (wordFS w h).map .twall
  | 0xC4 => (f3z w).bind fun _ => (wordFS w h).map .tfirst
  | 0xC5 => (f3z w).bind fun _ => (wordFS w h).map .tclr
  | 0xD0 => (f3z w).bind fun _ => (wordFS w h).map .bar
  | 0xD1 => (f3z w).bind fun _ => (wordFS w h).map .futreg
  | 0xD2 => (f3z w).bind fun _ => (wordFS w h).map fun o => if o.sub = 1 then .futresFault o else .futres o
  | 0xD3 => (f3z w).bind fun _ => (wordFS w h).map .tspawn
  | 0xD4 => (f3z w).bind fun _ => (wordFS w h).map .nextt
  | 0xD5 => (f3z w).bind fun _ => (wordFS w h).map .rive
  | 0xD6 => (f3z w).bind fun _ => (wordFS w h).map fun o => if o.sub = 1 then .doneEnd o else .done o
  | 0xD7 => (f3z w).bind fun _ => (wordFS w h).map .msend
  | 0xD8 => (f3z w).bind fun _ => (wordFS w h).map .mrecv
  | 0xD9 => (f3z w).bind fun _ => (wordFS w h).map .mpoll
  | 0xDA => (f3z w).bind fun _ => (wordFS w h).map .rlead
  | 0xDB => (f3z w).bind fun _ => (wordFS w h).map .rsig
  | 0xDC => (f3z w).bind fun _ => (wordFS w h).map .rchk
  | 0xE0 => (f3z w).bind fun _ => (wordFS w h).map .crr
  | 0xE1 => (f3z w).bind fun _ => (wordFS w h).map .crw
  | 0xE2 => (f3z w).bind fun _ => (wordFS w h).map .crs
  | 0xE3 => (f3z w).bind fun _ => (wordFS w h).map .crc
  | 0xE4 => (f3z w).bind fun _ => (wordFS w h).map .eret
  | 0xE5 => (f3z w).bind fun _ => (wordFS w h).map .icsync
  | 0xE8 => (f3z w).bind fun _ => (wordFS w h).map .slotw
  | 0xE9 => (f3z w).bind fun _ => (wordFS w h).map .tlbinv
  | _ => .error .unassignedOp

/-- The OP is assigned (R202). -/
def opAssigned (op : Nat) : Bool :=
  let c := op % 16
  match op / 16 with
  | 0 => true | 1 => c ≤ 12 | 2 => c ≤ 11 | 3 => c ≤ 7 | 4 => c ≤ 3 | 5 => c ≤ 6 | 6 => true | 7 => c ≤ 14
  | 8 => c ≤ 14 | 9 => c ≤ 11 | 10 => c ≤ 3 | 11 => c ≤ 12 | 12 => c ≤ 5 | 13 => c ≤ 12
  | 14 => c ≤ 5 || c = 8 || c = 9 | _ => false

/-- The OP is privileged (R203). -/
def opPrivileged (op : Nat) : Bool := 0xE8 ≤ op && op ≤ 0xEF

/-- Decode a word by R204. -/
def decode (w : IWord) : Except DecodeError Instr :=
  if w = 0 ∨ w = BitVec.allOnes 128 then .error .allZeroOrOne
  else if opAssigned (wordOp w).toNat then
    match wordHdr w with
    | .error e => .error e
    | .ok h =>
      match decodeOp w h with
      | .error e => .error e
      | .ok i => if i.wf then .ok i else .error .refusedField
  else .error .unassignedOp

/-- The instruction that the decoder reads from a row's bits, numbered from the word's bit 0 (R4: the bytes of a word
lie little-endian, so the word's bit number is the table's). -/
def decodeTableWord (_nbits w : Nat) : Option Instr :=
  match decode (BitVec.ofNat 128 w) with
  | .ok i => some i
  | .error _ => none

end Sys2Proof
end

