-- ==== Sys2Proof/Machine/State.lean ====
section
/-!
DEFINITION. The state of one AX3-M768 module as plain data, the reasons a step can stop, and the state after reset.
Each structure's docstring names the rules of spec/ that give its fields.
-/
namespace Sys2Proof.Machine

/-- A finite table: keys in rising order, each once. -/
abbrev Tab (α : Type) := List (Nat × α)

/-- Why a slot is PARKED (R152). `engineLines`, `lineBusy`, `reply`, `vote`, `forward`, `tlbinv` and `entry` name the
waits of R82, R83, R28 and R359, R354, R356, R315 and R161, `start` that of a slot whose start reads are still to be made
(R181, R183), and `spawn` names the grove of the task (R166). -/
inductive ParkWhy where
  | fullEmpty | atomic | barrier | recv | send | spawn (lgrove : Nat) | record | vwait | tagWait | switchMarker | hazard
  | engineLines | lineBusy | reply | vote | forward | tlbinv | entry | start
  deriving DecidableEq, Repr

/-- The states of a slot (R152). -/
inductive SlotSt where
  | absent | ready | parked (w : ParkWhy) | stopped | ended
  deriving DecidableEq, Repr

/-- An outstanding long-latency result: the registers it writes and the scoreboard counter that its instruction
named in SET (R158, R200). `parked` marks the result of a parked instruction, which its own completion returns, and
`entry` that of a stream-queue load, which the filling of its entry returns (R161). -/
structure Pend where
  regs : List Reg
  set : Option (Fin 6)
  parked : Bool
  entry : Option Nat
  deriving DecidableEq, Repr

/-- The format context of a slot, with the codebook tables last read: entry c in bits [16c+15:16c] (R136, R151). -/
structure FmtCtx where
  fa : BitVec 6
  fb : BitVec 6
  fo : BitVec 6
  spa : Bool
  scla : Word
  sclb : Word
  cbka : Word
  cbkb : Word
  tabA : BitVec 256
  tabB : BitVec 256
  deriving DecidableEq, Repr

/-- A task packet (R167). -/
structure TaskPacket where
  entry : Word
  arg : Word
  scla : Word
  sclb : Word
  cbka : Word
  cbkb : Word
  join : Word
  fa : BitVec 6
  fb : BitVec 6
  fo : BitVec 6
  spa : Bool
  jf : Bool
  scope : BitVec 3
  flt : Bool
  usr : BitVec 32
  deriving DecidableEq, Repr

/-- The work item of a slot (R151). -/
inductive Work where
  | none
  | tile (crid t : Nat)
  | task (p : TaskPacket)
  deriving DecidableEq, Repr

/-- A stream-queue load whose data has not all returned (R161, R341): its address and operands, and the vl, vt, fill
and active mask at its place in program order, and whether it acquires (R264). -/
structure QLoad where
  pc : Word
  ea : Word
  vl : Nat
  vt : Word
  fill : Word
  mask : Mask
  start : Nat
  acq : Bool
  deriving DecidableEq, Repr

/-- An entry of a stream queue (R161, R341): `load` is present until the entry is filled; `marker` is the fault
marker, with the cause, tval and tinfo of its fault; `orphan` marks one whose stream resume was dropped. -/
structure QEntry where
  id : Nat
  data : VReg
  load : Option QLoad
  marker : Option (Nat × Word × Word)
  orphan : Bool
  deriving DecidableEq, Repr

/-- The loop buffer (R223, R224): body words, counts and indices of loops 0 to NEST. `active` is false while a
handler runs outside the body. -/
structure LoopBuf where
  base : Word
  body : List IWord
  cnt : List Nat
  idx : List Nat
  active : Bool
  deriving DecidableEq, Repr

/-- A message (R173): payload, tag, the sender's logical core and slot, and the colour of its core (R176). -/
structure Msg where
  payload : Word
  tag : BitVec 16
  core : Nat
  slot : Nat
  colour : Bool
  deriving DecidableEq, Repr

/-- Progress held for an interrupted instruction at `pc` (R312): the resume element or row, the column of a move
(R292), the per-element completion mask and the groups VSTN has counted (R265, R269). `live` is set once an ERET or
a resume has armed it; it is not used before. `mat` marks the progress of a matrix instruction (R291), and `seq` is the store count
of the records that the instruction has made (R351). -/
structure Held where
  pc : Word
  live : Bool
  elem : Nat
  col : Nat
  done : Mask
  counted : BitVec 32
  mat : Bool
  seq : Option Nat
  deriving DecidableEq, Repr

/-- A held stream resume (R341): the queue and entry, the load's address and the restart point. -/
structure StreamRes where
  q : Fin 4
  entry : Nat
  pc : Word
  restart : Word
  deriving DecidableEq, Repr

/-- A page fault that Naruno serves while the slot is STOPPED (R32, R337). `fetch` marks an instruction fetch, `fwd` an
operation of a lead whose results are forwarded (R356), `stream` the fault of a stream-queue load (R341). -/
structure PageFault where
  e : Word
  tv : Word
  ti : Word
  fetch : Bool
  fwd : Bool
  stream : Bool
  deriving DecidableEq, Repr

/-- A store held before memory takes it: the bytes by address key, with its virtual address and element size. Used
for stores to peer memory in flight (R28) and for the release buffer (R128, R355). `dev` lists the device lines that
the directory tracks; `elem` is the element of a vector store, `ord` counts the slot's stores to remote memory, and `bits` is
the size of the leaf that translated it (R315). -/
structure BufStore where
  va : Word
  modId : Nat
  bytes : List Host.Cell
  dev : List Nat
  elem : Nat
  ord : Nat
  bits : Nat
  deriving DecidableEq, Repr

/-- A late store (log 4): a plain store of a slot that memory has not taken, and whether a release fence of the slot has followed
it, so that no later write of the slot may come before it (R111). -/
structure Late where
  key : SlotKey
  core : Nat
  fenced : Bool
  store : BufStore
  deriving DecidableEq, Repr

/-- A former value of a byte (R108, log 4): the key, its value, and the number of the write that replaced it. -/
structure Former where
  key : Nat
  byte : Byte
  until' : Nat
  deriving DecidableEq, Repr

/-- A refused store to peer or host memory that no ordering point has reported yet (R28): its place among the slot's stores,
its address, module, REASON and element. -/
structure Refused where
  ord : Nat
  va : Word
  modId : Nat
  reason : Nat
  elem : Nat
  deriving DecidableEq, Repr

/-- The signature of a slot (R351, R352) and its store count. -/
structure Sig where
  crc1 : Word
  crc2 : Word
  cnt : Nat
  sitepc : Word
  sitedyn : BitVec 32
  seq : Nat
  deriving DecidableEq, Repr

/-- What the lead forwards of the operation at `pc` (R356): register writes, flags, vl where the operation writes it, filled
stream entries, the pops of stream entries, a trap it took, the work item that NEXTT gave with its format context, a tile's coordinates and the address
gone on to, and whether a DONE retired the item and ended the slot. -/
structure Forward where
  pc : Word
  next : Word
  vl : Option Nat
  fl : Word
  entries : List (Nat × VReg)
  pops : List Nat
  trap : Option (Nat × Word × Word)
  sregs : List (Nat × Word)
  vregs : List (Nat × VReg)
  mregs : List (Nat × Mask)
  item : Option (Work × FmtCtx)
  coords : Option (List Word × Word)
  retired : Bool
  ended : Bool
  deriving DecidableEq, Repr

/-- VWAIT in progress (R268): the instruction, the latched elements and cyc at issue. -/
structure VWaitSt where
  op : FM
  latched : Mask
  start : Word
  deriving DecidableEq, Repr

/-- A request to a peer whose reply has not come (R359): target, sequence number, sends made, the key and operation that
the target applies, its virtual address and KIND code, and the destination register. -/
structure PeerReq where
  modId : Nat
  seq : BitVec 32
  tries : Nat
  key : Nat
  op : PeerOp
  va : Word
  kind : Nat
  dest : Nat
  deriving DecidableEq, Repr

/-- The state of a thread slot (R151). `awaits` lists the registers whose results a hazard park waits for (R158); `stores`
counts the slot's stores to remote memory (R28). `swWait` holds the switch marker of the instruction that issued last until it
has acted (R158). `minority` says that the vote which let the instruction at the program counter run went against a minority
replica (R311). `startDue` says that what the slot reads at its start is still to be read (R181, R183). `kept` is the wait that
a stop interrupted and that goes on at the restore (R316, R358). `cut` is the element group or row at which a stop reaches the instruction in the back end (R346). `retried` says that
the instruction has consumed an uncorrectable word once (R343), and `leaf` is the size of the leaf that translated the slot's last
atomic or full/empty operation. `snap` is the frame that an MSTR which waits for a vote goes on with (R293, R355). Of the writes numbered up to `floor`, and of those to a word up to its number in `seen`, the slot's plain loads see the
effect (R105, log 4). -/
structure Slot where
  st : SlotSt
  pc : Word
  s : Vector Word 64
  v : Vector VReg 32
  m : Vector Mask 8
  sb : Vector (BitVec 6) 6
  pend : List Pend
  awaits : List Reg
  vl : Nat
  vt : Word
  fill : Word
  rmode : Word
  frm : Word
  fflags : Word
  sat : Word
  fmt : FmtCtx
  saved : FmtCtx
  tc : Vector Word 6
  tid : Word
  work : Work
  q : Vector (List QEntry) 4
  loop : Option LoopBuf
  inbox : List Msg
  epc : Word
  cause : Word
  tval : Word
  tinfo : Word
  hbase : Word
  hmc : BitVec 32
  yld : Nat
  tm : Nat
  tn : Nat
  tk : Nat
  held : List Held
  sres : Option StreamRes
  pf : Option PageFault
  startTrap : Option (Nat × Word × Word)
  startDue : Bool
  kept : Option ParkWhy
  inflight : List BufStore
  refused : Option Refused
  stores : Nat
  peerReq : Option PeerReq
  lvl : List (Nat × Nat)
  err : BitVec 32
  first : Option (Nat × Word × Word)
  vwait : Option VWaitSt
  swWait : Bool
  rbuf : List BufStore
  sig : Sig
  rpend : Option Instr
  passed : Bool
  fwd : List Forward
  minority : Bool
  refDue : Bool
  cut : Option Nat
  retried : Bool
  leaf : Nat
  snap : Option Frame
  floor : Nat
  seen : Tab Nat
  deriving DecidableEq, Repr

/-- Tag state (R85). -/
structure Tag where
  bit : Bool
  cnt : Nat
  err : Bool
  status : BitVec 32
  deriving DecidableEq, Repr

/-- A frame (R279) and whether it is live (R285). -/
structure FrameSt where
  cells : Frame
  live : Bool
  deriving DecidableEq, Repr

/-- A beam plane (R280): row k holds element bits of column j at [32j+31:32j]; scale row k holds bytes [8j+7:8j]. -/
structure Plane where
  fmt : BitVec 6
  k : Nat
  n : Nat
  rows : List (BitVec 1024)
  scl : List (BitVec 256)
  tab : BitVec 256
  deriving DecidableEq, Repr

/-- The beam (R280). -/
structure Beam where
  active : Plane
  shadow : Plane
  deriving DecidableEq, Repr

/-- A barrier instance (R165): level, instance indices, slots arrived, generation. -/
structure Barrier where
  level : Nat
  inst : List Nat
  arrived : List SlotKey
  gen : Nat
  deriving DecidableEq, Repr

/-- A cruiser (R186). -/
structure Cruiser where
  crid : Nat
  base : Nat
  next : Nat
  limit : Nat
  gen : BitVec 32
  donec : Nat
  deriving DecidableEq, Repr

/-- A continuation record (R172): index, the address key of its future, the packet, the grove of its FUTREG, the
next record's name, and whether its continuation is pending (R166). -/
structure CRec where
  idx : Nat
  fut : Nat
  pkt : TaskPacket
  lgrove : Nat
  next : Nat
  pending : Bool
  deriving DecidableEq, Repr

/-- A context's share of a core and its place in the launch (R43, R45, R153). -/
structure Share where
  lcore : Nat
  pcore : Nat
  rix : Nat
  grans : List Nat
  lgrove : Nat
  ldie : Nat
  pos : Nat
  deriving DecidableEq, Repr

/-- Whether a context runs (R345, R56). -/
inductive CtxSt where
  | running | stopped | swapped | destroyed
  deriving DecidableEq, Repr

/-- An error in a stored word: flipped data bits, flipped full/empty bit and flipped check bits (R66, R69). -/
structure Flip where
  data : Word
  check : BitVec 8
  deriving DecidableEq, Repr

/-- The swap image of a context (R56, R166): the bytes, empty bits and errors of its pool shares and grove grants, by
logical key, its queued tasks, and the shadow storage that it occupies, as groves with 64 KiB units. `spilled` lists the regions
that lie in the save area in device memory, bytes and full/empty bits: first logical key, length and device address. -/
structure Image where
  cells : List Host.Cell
  empties : List Nat
  flips : Tab Flip
  shadow : List (Nat × Nat)
  spilled : List (Nat × Nat × Nat)
  tasks : List (Nat × TaskPacket)
  deriving DecidableEq, Repr

/-- A context: the descriptor that Naruno keeps and the state that its slots share (R16, R44, R48, R75, R85, R151,
R165, R166, R172, R175, R186, R279, R280, R294, R349). Keys: tags lcore * 64 + tag, frames lcore * 16 + frame,
beams, mailboxes and message counts lcore; a mailbox entry
names the target slot. `savedFrames` and `savedBeams` are what the lazy save wrote to the save area (R51); `stopping` says that a stop has been
requested and has not been reached (R345). -/
structure Ctx where
  st : CtxSt
  tenant : Nat
  lid : Nat
  replica : Nat
  priv : Bool
  xroot : Word
  cmask : Word
  gwmask : Word
  part : Word
  nlvl : Nat
  scopes : List Nat
  shares : List Share
  gbase : Tab Nat
  saves : Nat
  savedFrames : Tab FrameSt
  savedBeams : Tab Beam
  frames : Tab FrameSt
  beams : Tab Beam
  tags : Tab Tag
  bars : List Barrier
  cruisers : List Cruiser
  cpg : Nat
  spill : List (Nat × TaskPacket)
  spillSize : Nat
  pool : Nat
  records : List CRec
  recSize : Nat
  mail : Tab (List (Nat × Msg))
  sentOld : Tab Nat
  recvOld : Tab Nat
  img : Option Image
  area : Word
  stopping : Bool
  deriving DecidableEq, Repr

/-- A line of the instruction cache, tagged by context and virtual address, in a way of its set (R49, R123). -/
structure ILine where
  cid : Nat
  va : Word
  way : Nat
  data : BitVec 1024
  deriving DecidableEq, Repr

/-- A line of an L1 data cache or a grove cache, in a way of its set (R50, R75). The bytes of a device line are those of
memory, which the directory keeps coherent; a line of a cacheable peer page holds the bytes of its fill (R25), and the pages it was
reached by: space, base and size in bits, for TLBINV (R315). -/
structure CLine where
  line : Nat
  way : Nat
  data : Option (BitVec 1024)
  vas : List (Nat × Nat × Nat)
  deriving DecidableEq, Repr

/-- A leaf translation held in a TLB (R29): tag, page base, page size in bits, and the entry's value. -/
structure TlbEntry where
  space : Nat
  va : Nat
  bits : Nat
  pte : Word
  deriving DecidableEq, Repr

/-- A non-leaf entry held in a walk cache (R29): tag, level, the address bits that select it, and its value. -/
structure WalkEntry where
  space : Nat
  lvl : Nat
  va : Nat
  pte : Word
  deriving DecidableEq, Repr

/-- A physical core (R29, R43, R49, R50, R154 to R157, R176, R233, R242). `hist` holds the slots that issued in the last
three entries, the latest first (R157); `upset` is a lane error that has struck: the element at which the mirror copy of
the next vector result under LP differs. -/
structure Core where
  tab : Vector Word 4
  newTab : Option (Vector Word 4)
  ptr : Nat
  cyc : Word
  hist : List (Option (Nat × Nat))
  sinceSwitch : Nat
  res : Vector (Option Nat) 4
  colour : Vector Bool 4
  icache : List ILine
  l1 : List CLine
  tlb : List TlbEntry
  upset : Option Nat
  deriving DecidableEq, Repr

/-- A task in a grove's hardware queue (R166). -/
structure QTask where
  cid : Nat
  lgrove : Nat
  pkt : TaskPacket
  deriving DecidableEq, Repr

/-- A grove: gcfg, a growth that waits, the grove cache, the L2 TLB, and the hardware task queue (R29, R53, R55, R75, R166). -/
structure Grove where
  gcfg : Word
  grow : Option Word
  cache : List CLine
  tlb : List TlbEntry
  tasks : List QTask
  deriving DecidableEq, Repr

/-- The protection state of an array instance (R67 to R69): `rebuilt` lists the words rebuilt since reset. -/
structure Ras where
  elog : Word
  eictl : Word
  eimask : Word
  failed : List Nat
  rebuilt : List Nat
  deriving DecidableEq, Repr

/-- Memory: the bytes that are listed, and the ranges of device memory whose contents an owner change left undefined
(R40), newest first, as first byte, length and epoch. -/
structure Mem where
  cells : List Host.Cell
  undef : List (Nat × Nat × Nat)
  deriving DecidableEq, Repr

/-- An entry of a full/empty wait list (R62): who waits, the word and its virtual address, the operation and the operand. -/
structure WaitEntry where
  key : SlotKey
  word : Nat
  va : Word
  op : Nat
  data : Word
  dest : Nat
  deriving DecidableEq, Repr

/-- Who stands in a reservation queue: a slot, an engine command, or an event of another party. -/
inductive Waiter where
  | slot (k : SlotKey)
  | command (id : Nat)
  | event (e : Instr)
  deriving DecidableEq, Repr

/-- A request in a reservation queue (R114): an atomic of a slot, CAS with `cas` set and the expected value; or, with
`access` set, another access in its place in the order of arrival. `again` marks an atomic that met an uncorrectable word
once (R343). -/
structure AtomReq where
  who : Waiter
  access : Bool
  again : Bool
  va : Word
  addr : Nat
  w8 : Bool
  aop : BitVec 4
  cas : Bool
  expected : Word
  data : Word
  dest : Nat
  deriving DecidableEq, Repr

/-- A reservation that VGLR set (R266): the slot, the 8-byte word and the element. -/
structure Resv where
  key : SlotKey
  word : Nat
  elem : Nat
  deriving DecidableEq, Repr

/-- The directory state of a line (R74); lines with none are UNCACHED. Groves are listed for SHARED, the holder and
whether its copy is dirty for EXCLUSIVE, the command for ENGINE (also of local lines). Which L1 data caches of a grove hold
a line, as the grove's snoop filter records it, is what `Core.l1` of its cores says. -/
inductive DirSt where
  | shared (groves : List Nat)
  | exclusive (core : Nat) (dirty : Bool)
  | engine (cmd : Nat)
  deriving DecidableEq, Repr

/-- Who issued an engine command: a slot's core, or a COPY packet of the landing, by the number of its start (R85, R325). -/
inductive Issuer where
  | slot (k : SlotKey)
  | packet (tenant qid start : Nat)
  deriving DecidableEq, Repr

/-- The engines (section "The engines" of 03): by grove for skidder and grapple, by die for the boom. -/
inductive Engine where
  | skidder (grove : Nat) | grapple (grove : Nat) | boom (die : Nat)
  deriving DecidableEq, Repr

/-- The stages of an engine command: its destination being located, its lines being acquired (R82), its source being
read (R84), the reduction that it takes part in being formed (R95), its lines being finished (R83), and its completion
(R86). -/
inductive CmdSt where
  | locate | acquire | read | reduce | write | finish
  deriving DecidableEq, Repr

/-- An engine command in flight (R77 to R89). `dest` holds the bytes of each destination element found so far, `todo` the
destination lines still to acquire in order, `owned` the lines owned and not finished, `plan` the destination bytes once
the source is read. `wait` is the address of a page fault that Naruno serves and `served` lists those that it has delivered in this
stage; `status` is the
failure found; `pcore` the core that local addresses are relative to; `route` and `input` the route plan and the source
elements that a participant of a reduction has read. -/
structure Cmd where
  id : Nat
  engine : Engine
  issuer : Issuer
  cid : Nat
  tenant : Nat
  pcore : Nat
  dw : List Word
  st : CmdSt
  dest : List (List Nat)
  todo : List Nat
  owned : List Nat
  plan : List Host.Cell
  wait : Option Word
  served : List Word
  status : BitVec 32
  route : List Word
  input : List Nat
  deriving DecidableEq, Repr

/-- A boom node's partial (R95 to R97): for each element, unless an input of it is missing (log 31), the bits in fast
mode or the flags and the integer of XS320 in exact mode. -/
structure BoomPartial where
  seq : Nat
  node : Nat
  elems : List (Option (Nat × Int))
  deriving DecidableEq, Repr

/-- An entry of the export table (R26). -/
structure Export where
  base : Nat
  len : Nat
  tag : Nat
  sources : List Nat
  rd : Bool
  wr : Bool
  deriving DecidableEq, Repr

/-- A peer module as this module sees it (R24, R26, R28, R359): present and reachable, the ranges it exports to this
module, whether its replies are lost now, and the sequence number of the next request. -/
structure Peer where
  present : Bool
  reachable : Bool
  exports : List Export
  lossy : Bool
  seq : BitVec 32
  deriving DecidableEq, Repr

/-- A hold-off window of a vector (R326): the tick at which it closes and whether a raise was merged. -/
structure Window where
  close : Nat
  merged : Bool
  deriving DecidableEq, Repr

/-- A tenant (R39, R317, R326, R328 to R330, R333): event ring address and size exponent, the tenant's own
translation root for the landing, interrupt counts, tbud and balance, plug-in state, and the queue whose packet the
arbiter took last. -/
structure Tenant where
  ring : Nat
  en : Nat
  fnOn : Bool
  xroot : Word
  irqs : Tab Nat
  windows : Tab Window
  overflow : Bool
  tbud : Word
  bal : Int
  plugin : Bool
  rr : Nat
  deriving DecidableEq, Repr

/-- The states of a queue (R317). -/
inductive QueueSt where
  | mapped | unmapped | halted | draining | destroyed
  deriving DecidableEq, Repr

/-- A started packet that has not completed (R325): the number of its start, which no other start has, its index, doublewords,
and for COPY the commands issued, the next destination offset, and the failing status with its destination. -/
structure Started where
  start : Nat
  idx : Nat
  dw : List Word
  cmds : List Nat
  next : Nat
  fail : Option (Nat × BitVec 32)
  deriving DecidableEq, Repr

/-- A user queue as the landing keeps it (R317 to R321). `port` is the port of a mapped queue; `fetched` a packet read
and not started, `granted` that the arbiter has paid for its start; `waiting` the start of a COND WAIT or BARRIER-AND
that blocks the queue; `abort` how a draining queue was destroyed. -/
structure Queue where
  tenant : Nat
  qid : Nat
  qcb : Word
  base : Word
  log2n : Nat
  rdidx : Nat
  nidx : Nat
  next : Nat
  st : QueueSt
  code : Nat
  pidx : Nat
  port : Option Nat
  pending : Bool
  fetched : Option (Nat × List Word)
  granted : Bool
  started : List Started
  waiting : Option Nat
  abort : Bool
  deriving DecidableEq, Repr

/-- A done message of the completion tree, or a slot's part of it (R192). -/
structure Summary where
  err : BitVec 32
  first : Option (Nat × Word × Word)
  deriving DecidableEq, Repr

/-- The states of a launch: waiting for placement, running, killed by a fatal cause, aborted, ended. -/
inductive LaunchSt where
  | waiting | running | killed | aborted | ended
  deriving DecidableEq, Repr

/-- A launch (R178, R180, R191 to R194): the record's 32 doublewords, its packet and the number of its start, whether its
placement is put off to the next period (R333), its contexts in replica order, the
done messages of its cores (key lcore) and nodes, the quarantined units with their places in the order of R192, the counts of
comparison points, and the errata whose former behaviour it runs (R360). -/
structure Launch where
  tenant : Nat
  qid : Nat
  pidx : Nat
  start : Nat
  deferred : Bool
  pre : Bool
  recd : List Word
  st : LaunchSt
  cids : List Nat
  tiles : Nat
  total : Nat
  coreMsgs : Tab Summary
  nodeMsgs : Tab Summary
  uids : List (Nat × UnitId)
  cmps : Nat
  tmrv : Nat
  kill : Option (Nat × Word × Word)
  old : Word
  deriving DecidableEq, Repr

/-- A replica group (R350, R354): members still voting in the order of R331, the lead, and the signatures that have
arrived for the present comparison point, with the cycle count of the lead's core when the first came. -/
structure Group where
  lid : Nat
  lcore : Nat
  slot : Nat
  members : List Nat
  lead : Nat
  sigs : List (Nat × Sig)
  since : Word
  deriving DecidableEq, Repr

/-- A range of bus addresses that the host's translation for a tenant's function leads to a place in host memory (R27). -/
structure HostMap where
  tenant : Nat
  base : Nat
  len : Nat
  target : Nat
  deriving DecidableEq, Repr

/-- A mapping that Naruno installs when an access of the landing or of a completion root faults on it (R32). -/
structure PageIn where
  tenant : Nat
  va : Nat
  len : Nat
  ptes : List PteWrite
  deriving DecidableEq, Repr

/-- What the module reports to an outside party: replies to peers and hosts, the packets of a grove's crossbar, as requests sent
and as responses with their words (R91), statuses, the profiles implemented (R2, R211), and where a context's image and cruisers
were saved (R186), and the errata masks OLD and RET of a function (R360). -/
inductive Report where
  | peerReply (src : Nat) (seq : BitVec 32) (ok : Bool) (value : Word)
  | request (p : NeighbourPacket) (words : List Word)
  | neighbour (p : NeighbourPacket) (data : List Word) (success : Mask) (words : List Word)
  | hostData (tenant : Nat) (value : Word)
  | slotTable (core : Nat) (status : Nat)
  | quarantine (u : UnitId) (suspect : Bool)
  | cut (cid : Nat) (closed : Bool)
  | pluginDone (tenant : Nat) (ret : Word)
  | profiles (tenant : Nat) (triples : List (BitVec 32))
  | errata (tenant : Nat) (old : Word) (ret : Word)
  | saveArea (cid : Nat) (image : Word) (cruisers : Word)
  | checkpoint (area : Nat) (mem : Mem) (owners : Tab Nat) (empties : List Nat)
  deriving DecidableEq, Repr

/-- A choice of what moves next: the n-th event of the agenda, the issue cycle of a core, or the n-th late store (log 4). -/
inductive Move where
  | event (n : Nat)
  | core (c : Nat)
  | late (n : Nat)
  deriving DecidableEq, Repr

/-- Why a step can stop: no rule of the manual stops the whole device, so no meaning raises a fault; an error of a
program is a trap, which is a next state (R337). -/
inductive Fault where
  /-- Raised by no meaning; safe. -/
  | none
  deriving DecidableEq, Repr

/-- Reasons for a refusal. -/
inductive Refusal where
  /-- Raised by exec's arm of an instruction that has no meaning yet; safe: the machine stops. -/
  | notModelled (mnemonic : String)
  deriving DecidableEq, Repr

/-- The state of one AX3-M768 module. `cur` names the slot whose state is loaded in `me`, on physical core `core`;
`slots` holds every other slot. `issue` is the instruction that SLOT_ISSUE has latched for `cur`; `agenda`, `sched`,
`turn` and `tick` say what moves next (log 2); `weak` says of the next plain accesses of slots whether they are performed late or
see former values, `late` and `former` hold what that takes and `writes` numbers the writes (log 4); `free` counts free values
(log 21). `spoiled` lists the reductions that have met a MISMATCH (R93): SEQ, NPART and the participant indices that have come;
`periods` counts the arbiter's periods (R330); `errata` holds the masks OLD and RET of each function (R360). -/
structure State where
  cur : SlotKey
  core : Nat
  me : Slot
  issue : Option Instr
  agenda : List Instr
  sched : List Move
  weak : List Nat
  late : List Late
  writes : Nat
  former : List Former
  turn : Nat
  tick : Nat
  free : Nat
  slots : List (SlotKey × Slot)
  ctxs : Tab Ctx
  launches : Tab Launch
  groups : List Group
  cores : Tab Core
  groves : Tab Grove
  ras : List (ArrayId × Ras)
  mem : Mem
  empties : List Nat
  flips : Tab Flip
  poison : Tab UnitId
  symbols : Tab (BitVec 288)
  waits : List WaitEntry
  overflow : List (Nat × WaitEntry)
  ovfHomes : List Nat
  atoms : List AtomReq
  atomWait : List AtomReq
  resvs : List Resv
  senders : List (SlotKey × SlotKey × Msg)
  dir : Tab DirSt
  walks : Tab (List WalkEntry)
  tlbinvs : List (SlotKey × List Nat)
  cmds : List Cmd
  nextCmd : Nat
  partials : List BoomPartial
  spoiled : List (Nat × Nat × List Nat)
  owners : Tab Nat
  heldBy : List (Nat × Nat × Nat)
  memcfg : Word
  rdymap : Word
  fenced : List Nat
  fencedLinks : List Nat
  quarantined : List UnitId
  exports : List Export
  filter : List (Nat × BitVec 32 × Word)
  peers : Tab Peer
  hostMaps : List HostMap
  hostBad : List (Nat × Nat)
  pageIns : List PageIn
  tenants : Tab Tenant
  queues : List Queue
  lent : Nat
  rrTenant : Nat
  periods : Nat
  nextId : Nat
  errata : Tab (Word × Word)
  profiles : List (BitVec 32)
  pairs : List (Nat × Nat)
  suspects : List UnitId
  outbox : List Report
  deriving DecidableEq, Repr

/-- An empty format context. DESIGN CHOICE for reset (log 26); a launch sets it (R181). -/
def FmtCtx.reset : FmtCtx :=
  { fa := 0, fb := 0, fo := 0, spa := false, scla := 0, sclb := 0, cbka := 0, cbkb := 0, tabA := 0, tabB := 0 }

/-- The signature at a comparison point's end (R352). -/
def Sig.start : Sig :=
  { crc1 := BitVec.allOnes 64, crc2 := BitVec.allOnes 64, cnt := 0, sitepc := 0, sitedyn := 0, seq := 0 }

/-- A slot with the start values of R181 and the resets of R336 and R235; values the manual does not give are zero or
empty (log 26). -/
def Slot.reset : Slot :=
  { st := .absent, pc := 0, s := Vector.replicate 64 0, v := Vector.replicate 32 0, m := Vector.replicate 8 0,
    sb := Vector.replicate 6 0, pend := [], awaits := [], vl := 0, vt := 2, fill := 0, rmode := 0, frm := 0, fflags := 0, sat := 0,
    fmt := .reset, saved := .reset, tc := Vector.replicate 6 0, tid := 0, work := .none, q := Vector.replicate 4 [],
    loop := none, inbox := [], epc := 0, cause := 0, tval := 0, tinfo := 0, hbase := 0, hmc := 0, yld := 0,
    tm := 0, tn := 0, tk := 0, held := [], sres := none, pf := none, startTrap := none, startDue := false, kept := none, inflight := [],
    refused := none, stores := 0, peerReq := none, lvl := [], err := 0, first := none, vwait := none, swWait := false, rbuf := [],
    sig := .start, rpend := none, passed := false, fwd := [], minority := false, refDue := false, cut := none,
    retried := false, leaf := 0, snap := none, floor := 0, seen := [] }

/-- An empty plane (R280). -/
def Plane.reset : Plane := { fmt := 0, k := 0, n := 0, rows := [], scl := [], tab := 0 }
/-- A tag at context start (R298). -/
def Tag.reset : Tag := { bit := true, cnt := 0, err := false, status := 0 }
/-- A frame at context start: zero (R41, R279); not yet written (log 22). -/
def FrameSt.reset : FrameSt := { cells := 0, live := false }
/-- A core after reset: the default slot table (R154), cyc 0 (R233), no resident context. -/
def Core.reset : Core :=
  { tab := #v[0x8786858483828180, 0x8F8E8D8C8B8A8988, 0x8786858483828180, 0x8F8E8D8C8B8A8988], newTab := none, ptr := 0,
    cyc := 0, hist := [], sinceSwitch := 3, res := Vector.replicate 4 none, colour := Vector.replicate 4 false,
    icache := [], l1 := [], tlb := [], upset := none }
/-- A grove after reset (R53). -/
def Grove.reset : Grove := { gcfg := 0, grow := none, cache := [], tlb := [], tasks := [] }
/-- An array instance after reset (R68, R69). -/
def Ras.reset : Ras := { elog := 0, eictl := 0, eimask := 0, failed := [], rebuilt := [] }
/-- A context newly created (R16, R44, R48, R75, R280, R298). -/
def Ctx.fresh : Ctx :=
  { st := .running, tenant := 0, lid := 0, replica := 0, priv := false, xroot := 0, cmask := 0xFFFFFF, gwmask := 0xFFFF,
    part := 0, nlvl := 1, scopes := [0], shares := [], gbase := [], saves := 0, savedFrames := [], savedBeams := [], frames := [], beams := [], tags := [],
    bars := [], cruisers := [], cpg := 1, spill := [], spillSize := 4096, pool := 0, records := [], recSize := 1048575,
    mail := [], sentOld := [], recvOld := [], img := none, area := 0, stopping := false }

/-- The module after reset (R154 and the reset columns): nothing is resident, no tenant exists, memory lists nothing.
Values that the manual does not give are those of log 26. -/
def State.reset : State :=
  { cur := ⟨0, 0, 0⟩, core := 0, me := .reset, issue := none, agenda := [], sched := [], weak := [], late := [], writes := 0, former := [], turn := 0, tick := 0, free := 0,
    slots := [], ctxs := [], launches := [], groups := [], cores := [], groves := [], ras := [],
    mem := { cells := [], undef := [] }, empties := [], flips := [], poison := [], symbols := [], waits := [], overflow := [], ovfHomes := [],
    atoms := [], atomWait := [], resvs := [], senders := [], dir := [], walks := [], tlbinvs := [], cmds := [],
    nextCmd := 0, partials := [], spoiled := [], owners := [], heldBy := [], memcfg := 0, rdymap := 0, fenced := [], fencedLinks := [],
    quarantined := [], exports := [], filter := [], peers := [], hostMaps := [], hostBad := [], pageIns := [], tenants := [], queues := [],
    lent := 0, rrTenant := 0, periods := 0, nextId := 1, errata := [],
    profiles := List.replicate 5 0x03000000, pairs := [], suspects := [], outbox := [] }

end Sys2Proof.Machine
end

