-- ==== Sys2Proof/Machine/Tab.lean ====
section
/-!
DEFINITION. Operations on the finite tables of State: `Tab` (rising numeric keys) and association lists.
-/
namespace Sys2Proof.Machine

namespace Tab
/-- The value at a key. -/
def get {α : Type} : Tab α → Nat → Option α
  | [], _ => none
  | (k, v) :: t, a => if k = a then some v else if a < k then none else get t a

/-- The value at a key, or a default. -/
def getD {α : Type} (t : Tab α) (a : Nat) (d : α) : α := (get t a).getD d

/-- Set the value at a key. -/
def set {α : Type} : Tab α → Nat → α → Tab α
  | [], a, v => [(a, v)]
  | (k, w) :: t, a, v => if k = a then (a, v) :: t else if a < k then (a, v) :: (k, w) :: t else (k, w) :: set t a v

/-- Remove a key. -/
def erase {α : Type} : Tab α → Nat → Tab α
  | [], _ => []
  | (k, w) :: t, a => if k = a then t else if a < k then (k, w) :: t else (k, w) :: erase t a

/-- Change the value at a key that is present. -/
def modify {α : Type} (t : Tab α) (a : Nat) (f : α → α) : Tab α :=
  match get t a with
  | some v => set t a (f v)
  | none => t
end Tab

namespace Assoc
/-- The value at a key of an association list. -/
def get {κ α : Type} [DecidableEq κ] : List (κ × α) → κ → Option α
  | [], _ => none
  | (k, v) :: t, a => if k = a then some v else get t a

/-- Set the value at a key; a new key goes to the end. -/
def set {κ α : Type} [DecidableEq κ] : List (κ × α) → κ → α → List (κ × α)
  | [], a, v => [(a, v)]
  | (k, w) :: t, a, v => if k = a then (a, v) :: t else (k, w) :: set t a v

/-- Remove a key. -/
def erase {κ α : Type} [DecidableEq κ] (t : List (κ × α)) (a : κ) : List (κ × α) := t.filter fun p => p.1 ≠ a
end Assoc

namespace Sorted
/-- Insert a number into a rising list. -/
def insert : List Nat → Nat → List Nat
  | [], a => [a]
  | x :: t, a => if x = a then x :: t else if a < x then a :: x :: t else x :: insert t a

/-- Remove a number from a rising list. -/
def erase (l : List Nat) (a : Nat) : List Nat := l.filter (· ≠ a)

/-- Rising list of the distinct numbers of a list. -/
def ofList (l : List Nat) : List Nat := l.foldl insert []
end Sorted

end Sys2Proof.Machine
end

