-- ==== Sys2Proof/Machine/Mem.lean ====
section
/-!
DEFINITION. The bytes of memory: one list of (address key, byte) in canonical form. Keys: device memory by physical
address; core pools, grove scratchpads, host memory and the memory of peers above (`Key`).
-/
namespace Sys2Proof.Machine

namespace Key
/-- A byte of a core's pool, by R42. -/
def pool (core off : Nat) : Nat := 2 ^ 60 + core * 2 ^ 21 + off
/-- A byte of a grove's scratchpad, by R52. -/
def scratch (grove off : Nat) : Nat := 2 ^ 61 + grove * 2 ^ 23 + off
/-- A byte of host memory by bus address (R27). -/
def host (a : Nat) : Nat := 2 ^ 62 + a
/-- A byte of a peer module's device memory (R24). -/
def peer (modId pa : Nat) : Nat := 2 ^ 63 + modId * 2 ^ 48 + pa
/-- Whether a key is a byte of this module's device memory. -/
def isDevice (k : Nat) : Bool := k < Config.deviceBytes
/-- Whether a key lies in a core's pool. -/
def isPool (k : Nat) : Bool := 2 ^ 60 ≤ k && k < 2 ^ 61
/-- Whether a key lies in a grove's scratchpad. -/
def isScratch (k : Nat) : Bool := 2 ^ 61 ≤ k && k < 2 ^ 62
/-- Whether a key lies in host memory. -/
def isHost (k : Nat) : Bool := 2 ^ 62 ≤ k && k < 2 ^ 63
/-- The 128-byte line of a key. -/
def line (k : Nat) : Nat := k - k % 128
/-- The 8-byte word of a key. -/
def word (k : Nat) : Nat := k - k % 8
end Key

namespace Mem
/-- What a byte reads as when no cell lists it: the free value of the newest owner change that covers it (R40, log 6),
else 0 (log 5). -/
def default (m : Mem) (a : Nat) : Byte :=
  match m.undef.find? fun r => decide (r.1 ≤ a ∧ a < r.1 + r.2.1) with
  | some r => Config.freeByte r.2.2 a
  | none => 0

/-- The byte listed at an address. -/
def lookup : List Host.Cell → Nat → Option Byte
  | [], _ => none
  | (k, b) :: t, a => if k = a then some b else if a < k then none else lookup t a

/-- Read one byte. -/
def byte (m : Mem) (a : Nat) : Byte := (lookup m.cells a).getD (m.default a)

/-- Put a byte into the cells, replacing or inserting in order. -/
def put : List Host.Cell → Nat → Byte → List Host.Cell
  | [], a, b => [(a, b)]
  | (k, c) :: t, a, b => if k = a then (a, b) :: t else if a < k then (a, b) :: (k, c) :: t else (k, c) :: put t a b

/-- Take a byte out of the cells. -/
def drop : List Host.Cell → Nat → List Host.Cell
  | [], _ => []
  | (k, c) :: t, a => if k = a then t else if a < k then (k, c) :: t else (k, c) :: drop t a

/-- Write one byte, keeping the canonical form. -/
def setByte (m : Mem) (a : Nat) (b : Byte) : Mem :=
  { m with cells := if b = m.default a then drop m.cells a else put m.cells a b }

/-- The cells rise strictly from `lo`, and none holds what an unlisted byte reads as. -/
def wfFrom (m : Mem) : Nat → List Host.Cell → Bool
  | _, [] => true
  | lo, (k, b) :: t => decide (lo ≤ k) && !decide (b = m.default k) && wfFrom m (k + 1) t

/-- The canonical form. -/
def wf (m : Mem) : Bool := wfFrom m 0 m.cells

/-- Read `n` bytes, little-endian (R4), as a number. -/
def read (m : Mem) (a : Nat) : Nat → Nat
  | 0 => 0
  | n + 1 => (m.byte a).toNat + 256 * read m (a + 1) n

/-- Write the low `n` bytes of a number, little-endian (R4). -/
def write (m : Mem) (a : Nat) : Nat → Nat → Mem
  | 0, _ => m
  | n + 1, v => write (m.setByte a (BitVec.ofNat 8 v)) (a + 1) n (v / 256)

/-- Write a list of cells in order. -/
def writeCells (m : Mem) : List Host.Cell → Mem
  | [] => m
  | (a, b) :: t => writeCells (m.setByte a b) t

/-- The bytes of a list of keys. -/
def cellsOf (m : Mem) (keys : List Nat) : List Host.Cell := keys.map fun k => (k, m.byte k)

/-- The cells listed in [lo, lo + len). -/
def listed (m : Mem) (lo len : Nat) : List Host.Cell := m.cells.filter fun c => decide (lo ≤ c.1 ∧ c.1 < lo + len)

/-- Make a range read as zero by listing nothing there (used for SRAM, which no owner change touches; R41). -/
def clear (m : Mem) (lo len : Nat) : Mem :=
  { m with cells := m.cells.filter fun c => !decide (lo ≤ c.1 ∧ c.1 < lo + len) }

/-- Whether an owner change has left bytes of a range undefined (R40). -/
def anyUndef (m : Mem) (lo len : Nat) : Bool := m.undef.any fun r => decide (r.1 < lo + len ∧ lo < r.1 + r.2.1)

/-- Zero a range. -/
def zero (m : Mem) (lo len : Nat) : Mem :=
  let m := m.clear lo len
  if m.anyUndef lo len then m.writeCells ((List.range len).map fun i => (lo + i, 0)) else m

/-- The bytes of a range, at least those that are not zero. -/
def contents (m : Mem) (lo len : Nat) : List Host.Cell :=
  if m.anyUndef lo len then m.cellsOf ((List.range len).map (lo + ·)) else m.listed lo len

/-- An owner change of device memory (R40): the contents of the range are no longer defined. -/
def forget (m : Mem) (lo len epoch : Nat) : Mem :=
  { cells := (m.clear lo len).cells, undef := (lo, len, epoch) :: m.undef }
end Mem

end Sys2Proof.Machine
end

