-- ==== Sys2Proof/Machine/Ops.lean ====
section
/-!
DEFINITION. Named operations over State: slots, contexts, the agenda, parking, taking a trap and returning from one.
-/
namespace Sys2Proof.Machine

/-- The outcome of a step. -/
abbrev Out := Host.Outcome State Fault Refusal

/-! Cause codes (R339). -/
namespace Cause
def illegal : Nat := 0x01
def privilege : Nat := 0x02
def misaligned : Nat := 0x03
def pageFault : Nat := 0x04
def accessFault : Nat := 0x05
def fpInvalid : Nat := 0x06
def fpDivZero : Nat := 0x07
def fpOverflow : Nat := 0x08
def intDivZero : Nat := 0x09
def softwareTrap : Nat := 0x0A
def doubleResolve : Nat := 0x0B
def streamFault : Nat := 0x0C
def slotTableInvalid : Nat := 0x10
def replicaMismatch : Nat := 0x11
def laneMismatch : Nat := 0x12
def machineCheck : Nat := 0x13
def erratumRetired : Nat := 0x14
/-- The fatal causes (R339). -/
def fatal (c : Nat) : Bool := c == replicaMismatch || c == laneMismatch || c == machineCheck
end Cause

/-- A trap to be taken: cause, tval, tinfo, the address when it is not the executing instruction's, and whether it is
a fault of an instruction fetch (R337, R339). -/
structure Trap where
  code : Nat
  tv : Word := 0
  ti : Word := 0
  pc : Option Word := none
  fetch : Bool := false
  deriving DecidableEq, Repr

/-- How an instruction stops short: a trap, or a wait after which it is issued again. -/
inductive Stop where
  | trap (t : Trap)
  | park (w : ParkWhy)
  deriving DecidableEq, Repr

/-- The monad of the meanings: a state that keeps the effects made before a stop. -/
abbrev M := EStateM Stop State

/-! Contexts, slots and launches. -/

namespace State
/-- A context's descriptor and shared state. -/
def ctxOf (s : State) (cid : Nat) : Ctx := (Tab.get s.ctxs cid).getD .fresh
/-- The executing slot's context. -/
def ctx (s : State) : Ctx := s.ctxOf s.cur.cid
/-- Change a context. -/
def mapCtx (s : State) (cid : Nat) (f : Ctx → Ctx) : State := { s with ctxs := Tab.modify s.ctxs cid f }
/-- A physical core. -/
def coreOf (s : State) (c : Nat) : Core := (Tab.get s.cores c).getD .reset
/-- Change a physical core. -/
def mapCore (s : State) (c : Nat) (f : Core → Core) : State := { s with cores := Tab.set s.cores c (f (s.coreOf c)) }
/-- A grove. -/
def groveOf (s : State) (g : Nat) : Grove := (Tab.get s.groves g).getD .reset
/-- Change a grove. -/
def mapGrove (s : State) (g : Nat) (f : Grove → Grove) : State :=
  { s with groves := Tab.set s.groves g (f (s.groveOf g)) }
/-- An array's protection state. -/
def rasOf (s : State) (a : ArrayId) : Ras := (Assoc.get s.ras a).getD .reset
/-- Change an array's protection state. -/
def mapRas (s : State) (a : ArrayId) (f : Ras → Ras) : State := { s with ras := Assoc.set s.ras a (f (s.rasOf a)) }
/-- Change a launch. -/
def mapLaunch (s : State) (lid : Nat) (f : Launch → Launch) : State :=
  { s with launches := Tab.modify s.launches lid f }
/-- Change a tenant. -/
def mapTenant (s : State) (t : Nat) (f : Tenant → Tenant) : State := { s with tenants := Tab.modify s.tenants t f }
/-- Change the executing slot. -/
def mapMe (s : State) (f : Slot → Slot) : State := { s with me := f s.me }

/-- A slot by key. -/
def slotAt (s : State) (k : SlotKey) : Option Slot := if k = s.cur then some s.me else Assoc.get s.slots k
/-- Change a slot that exists. -/
def mapSlot (s : State) (k : SlotKey) (f : Slot → Slot) : State :=
  if k = s.cur then { s with me := f s.me }
  else match Assoc.get s.slots k with
    | some v => { s with slots := Assoc.set s.slots k (f v) }
    | none => s
/-- Change every slot that meets a condition. -/
def mapSlots (s : State) (p : SlotKey → Slot → Bool) (f : Slot → Slot) : State :=
  { s with me := if p s.cur s.me then f s.me else s.me,
           slots := s.slots.map fun e => if p e.1 e.2 then (e.1, f e.2) else e }
/-- Every slot with its key. -/
def allSlots (s : State) : List (SlotKey × Slot) := (s.cur, s.me) :: s.slots
/-- Load the slot of a key into `me`; the slot loaded before goes back to `slots` unless it is ABSENT. -/
def focus (s : State) (k : SlotKey) (core : Nat) : State :=
  if k = s.cur then { s with core := core }
  else
    let back := if s.me.st = .absent then Assoc.erase s.slots s.cur else Assoc.set s.slots s.cur s.me
    { s with cur := k, core := core, me := (Assoc.get s.slots k).getD .reset, slots := Assoc.erase back k }
/-- Add a slot. -/
def addSlot (s : State) (k : SlotKey) (v : Slot) : State :=
  if k = s.cur then { s with me := v } else { s with slots := Assoc.set s.slots k v }

/-- Append an event to the agenda. -/
def push (s : State) (e : Instr) : State := { s with agenda := s.agenda ++ [e] }
/-- Append an event that the agenda does not hold. -/
def pushOnce (s : State) (e : Instr) : State := if e ∈ s.agenda then s else s.push e
/-- Append a report to an outside party. -/
def report (s : State) (r : Report) : State := { s with outbox := s.outbox ++ [r] }
/-- The context's share on the core that a logical core runs on (R43). -/
def shareAt (s : State) (cid lcore : Nat) : Option Share := (s.ctxOf cid).shares.find? (·.lcore == lcore)
/-- The share of the executing slot. -/
def share (s : State) : Share := (s.shareAt s.cur.cid s.cur.lcore).getD ⟨0, 0, 0, [], 0, 0, 0⟩
end State

/-! The partition word (R44, R45). -/
namespace Part
def gsg (p : Word) : Nat := Bits.field p 48 8
def spg (p : Word) : Nat := Bits.field p 32 7
def frames (p : Word) : Nat := Bits.field p 24 5
def slots (p : Word) : Nat := Bits.field p 16 5
/-- VR: the vector registers of a slot. -/
def vr (p : Word) : Nat := 8 * (Bits.field p 8 2 + 1)
/-- RFG: granules of the register file part. -/
def rfg (p : Word) : Nat := Bits.cdiv (vr p * slots p) 32
/-- FG: granules of the frame part. -/
def fg (p : Word) : Nat := Bits.cdiv (frames p) 4
/-- Granules of the whole share. -/
def total (p : Word) : Nat := rfg p + fg p + spg p
end Part

/-- The physical grove and die of a physical core (R1). -/
def groveOfCore (c : Nat) : Nat := c / Config.coresPerGrove
def dieOfCore (c : Nat) : Nat := c / Config.coresPerDie

/-! Registers that every instruction uses. -/
namespace Slot
/-- s0 reads zero (R151). -/
def getS (v : Slot) (i : Fin 64) : Word := if i = 0 then 0 else v.s[i]
/-- A write to s0 is discarded (R196). -/
def setS (v : Slot) (i : Fin 64) (x : Word) : Slot := if i = 0 then v else { v with s := v.s.set i x }
/-- m0 reads as all ones (R151). -/
def getM (v : Slot) (i : Fin 8) : Mask := if i = 0 then BitVec.allOnes 512 else v.m[i]
/-- Write a mask register; m0 is never a destination (R196). -/
def setM (v : Slot) (i : Fin 8) (x : Mask) : Slot := if i = 0 then v else { v with m := v.m.set i x }

/-- The index tuple after this one, loop 0 fastest (R223); none after the last. -/
def nextTuple : List Nat → List Nat → Option (List Nat)
  | i :: is, c :: cs =>
    if i + 1 < c then some ((i + 1) :: is)
    else match nextTuple is cs with
      | some t => some (0 :: t)
      | none => none
  | _, _ => none

/-- Go on to the next instruction, in a loop body by R223. -/
def advance (v : Slot) : Slot :=
  let pc' := v.pc + 16
  match v.loop with
  | some l =>
    if l.active && pc' == l.base + BitVec.ofNat 64 (16 * l.body.length) then
      match nextTuple l.idx l.cnt with
      | some t => { v with pc := l.base, loop := some { l with idx := t } }
      | none => { v with pc := pc', loop := none }
    else { v with pc := pc' }
  | none => { v with pc := pc' }

/-- Whether an address lies in the range of a loop body. -/
def inBody (l : LoopBuf) (a : Word) : Bool :=
  l.base.toNat ≤ a.toNat && a.toNat < l.base.toNat + 16 * l.body.length

/-- Count an outstanding long-latency result under its SET counter (R200). -/
def addPend (v : Slot) (regs : List Reg) (set : Option (Fin 6)) (parked : Bool := false) (entry : Option Nat := none) : Slot :=
  { v with pend := v.pend ++ [⟨regs, set, parked, entry⟩],
           sb := match set with
             | some i => v.sb.set i (v.sb[i] + 1)
             | none => v.sb }

/-- The counter that an outstanding result counts under falls (R200). -/
def uncount (v : Slot) (p : Pend) : Slot :=
  { v with sb := match p.set with
             | some i => v.sb.set i (v.sb[i] - 1)
             | none => v.sb }

/-- The oldest outstanding result that is neither a parked instruction's nor a stream-queue load's returns (R158, R200). -/
def popPend (v : Slot) : Slot :=
  match v.pend.find? fun p => !p.parked && p.entry.isNone with
  | none => v
  | some p => { v.uncount p with pend := v.pend.erase p }

/-- The result of the parked instruction returns, or is withdrawn with it (R65, R116, R158, R200). -/
def dropPend (v : Slot) : Slot :=
  match v.pend.find? (·.parked) with
  | none => v
  | some p => { v.uncount p with pend := v.pend.erase p }

/-- The data of a stream-queue load has returned, or its entry is discarded: it no longer counts under its SET counter (R161,
R200). -/
def entryDone (id : Nat) (v : Slot) : Slot :=
  match v.pend.find? (·.entry == some id) with
  | none => v
  | some p =>
    let v : Slot := { v.uncount p with pend := v.pend.erase p }
    if v.st = .parked .switchMarker ∧ v.pend.isEmpty then { v with st := .ready } else v
end Slot

/-! Parking and waking (R152, R158). -/

/-- The executing slot waits and issues the instruction again once it is woken. -/
def park (w : ParkWhy) (s : State) : State := s.mapMe fun v => { v with st := .parked w }

/-- Slots parked for a reason become READY. -/
def wake (w : ParkWhy) (s : State) : State :=
  s.mapSlots (fun _ v => v.st == .parked w) fun v => { v with st := .ready }

/-- A parked slot becomes READY. -/
def wakeSlot (k : SlotKey) (s : State) : State :=
  s.mapSlot k fun v => match v.st with | .parked _ => { v with st := .ready } | _ => v

/-- Record a long-latency result of the executing slot; LONG_LATENCY_RESULT_RETURN returns it (R158). -/
def longLatency (regs : List Reg) (set : Option (Fin 6)) (s : State) : State :=
  (s.mapMe (·.addPend regs set)).push (.longLatencyResultReturn s.cur)

/-! Taking a trap and returning from one (R312, R337). -/

/-- A slot's contribution to the completion record (R192): ERR and its first cause. -/
def Slot.blame (v : Slot) (code : Nat) (e tv : Word) : Slot :=
  { v with err := v.err ||| BitVec.ofNat 32 (2 ^ code),
           first := match v.first with | some x => some x | none => some (code, e, tv) }

/-- `kill` of R337: the slot stops and the root is told to stop the launch. -/
def killSlot (code : Nat) (e tv : Word) (s : State) : State :=
  let s := s.mapMe fun v => { v.blame code e tv with st := .stopped }
  let lid := s.ctx.lid
  (s.mapLaunch lid fun l => { l with kill := match l.kill with | some x => some x | none => some (code, e, tv) }).pushOnce
    (.launchKill lid)

/-- Transfer control to the handler (the end of `deliver`, R337). A held loop stays with the slot but is left; the slot's
reservations are cleared (R266). -/
def toHandler (code : Nat) (e tv ti : Word) (s : State) : State :=
  ({ s with resvs := s.resvs.filter fun r => r.key ≠ s.cur } : State).mapMe fun v =>
    { v.blame code e tv with
      st := .ready, epc := e &&& ~~~0xF#64, cause := BitVec.ofNat 64 code, tval := tv, tinfo := ti, pc := v.hbase,
      loop := v.loop.map fun l => { l with active := false } }

/-- Deliver a trap that Naruno does not take (the part of `deliver` after the page-fault test, R337). -/
def deliverToHandler (code : Nat) (e tv ti : Word) (fetch : Bool) (s : State) : State :=
  if s.me.hbase == 0 then killSlot code e tv s
  else if fetch && e == s.me.hbase then killSlot code e tv s
  else toHandler code e tv ti s

/-- The mapping that Naruno installs for a page fault, if it has one (log 20); none: the fault is delivered. -/
def pageInFor (s : State) (tenant : Nat) (va : Word) : Option PageIn :=
  s.pageIns.find? fun p => p.tenant == tenant && p.va ≤ va.toNat && va.toNat < p.va + p.len

/-- `deliver` of R337. A page fault stops the slot, and Naruno serves it (R32). -/
def deliver (t : Trap) (s : State) : State :=
  let e := t.pc.getD s.me.pc
  if Cause.fatal t.code then killSlot t.code e t.tv s
  else if t.code = Cause.pageFault then
    let s1 := s.mapMe fun v => { v with st := .stopped, pf := some ⟨e, t.tv, t.ti, t.fetch, false, false⟩ }
    match pageInFor s s.ctx.tenant t.tv with
    | some p => s1.push (.pageFaultService (.slot s.cur) true p.ptes)
    | none => s1.push (.pageFaultService (.slot s.cur) false [])
  else deliverToHandler t.code e t.tv t.ti t.fetch s

/-- Use or drop held progress for a return to address `a` (R312, R341, R345). -/
def Slot.useHeld (v : Slot) (a : Word) : Slot :=
  let held := (v.held.filter (·.pc == a)).map fun h => { h with live := true }
  let loop := match v.loop with
    | some l => if Slot.inBody l a then some { l with active := true } else none
    | none => none
  { v with pc := a, held := held, loop := loop }

/-- The stream resume at a return to address `a` (R341): continued when it is the load's address, else orphaned. -/
def Slot.useStream (v : Slot) (a : Word) : Slot :=
  match v.sres with
  | none => v
  | some r =>
    if r.pc = a then
      { v with sres := none, pc := r.restart,
               q := v.q.set r.q (v.q[r.q].map fun e => if e.id = r.entry then { e with marker := none } else e),
               loop := match v.loop with
                 | some l => some { l with active := Slot.inBody l r.restart }
                 | none => none }
    else
      { v.entryDone r.entry with
               sres := none,
               q := v.q.set r.q (v.q[r.q].map fun e =>
                 if e.id = r.entry then { e with orphan := true, load := none } else e) }

/-- Return to address `a` with what the slot holds for it (R312, R341, R345): a stream resume that is continued fills its
entry again and keeps the loop. -/
def resumeAt (a : Word) (s : State) : State :=
  let kept := s.me.sres.any (·.pc == a)
  let fills := match s.me.sres with
    | some r => if kept then [Instr.streamEntryFill s.cur r.q] else []
    | none => []
  { s with me := (if kept then ({ s.me.useHeld a with loop := s.me.loop } : Slot) else s.me.useHeld a).useStream a,
           agenda := s.agenda ++ fills }

/-- The slot goes on at `a` after Naruno has served the fault of the instruction there (R32, R337): its held progress is armed,
and what the slot holds for other instructions stays. -/
def Slot.served (v : Slot) (a : Word) : Slot :=
  { v with pc := a, held := v.held.map fun h => if h.pc = a then { h with live := true } else h }

/-- ERET (R312): pc := epc, reservations are cleared, held progress is used or dropped. -/
def eret (s : State) : State := resumeAt s.me.epc { s with resvs := s.resvs.filter fun r => r.key ≠ s.cur }

/-! Running a meaning. -/

/-- Stop the executing instruction. -/
def stop (x : Stop) (s : State) : State :=
  match x with
  | .trap t => deliver t s
  | .park w => park w s

/-- Run the body of a meaning: every end is a next state. -/
def run (m : M Unit) (s : State) : Out :=
  match m s with
  | .ok _ s' => .next s'
  | .error x s' => .next (stop x s')

/-- Raise a trap. -/
def trap {α : Type} (t : Trap) : M α := throw (.trap t)

/-- ILLEGAL_INSTRUCTION of an instruction: tval holds bits [63:0] of its encoding (R339). -/
def illegal {α : Type} (i : Instr) (ti : Word := 0) : M α :=
  trap { code := Cause.illegal, tv := (encode i).setWidth 64, ti := ti }

/-- The executing instruction waits and is issued again. -/
def wait {α : Type} (w : ParkWhy) : M α := throw (.park w)

/-- The executing instruction is finished. -/
def retire : M Unit := modify fun s => s.mapMe Slot.advance

/-- Run `f` for each index from `lo` on, `n` times. -/
def forN (f : Nat → M Unit) : Nat → Nat → M Unit
  | _, 0 => pure ()
  | lo, n + 1 => do f lo; forN f (lo + 1) n

/-- Run `f` on each member of a list in order. -/
def forL {α : Type} (f : α → M Unit) : List α → M Unit
  | [] => pure ()
  | x :: t => do f x; forL f t

/-- Collect `f` over a list in order. -/
def mapL {α β : Type} (f : α → M β) : List α → M (List β)
  | [] => pure []
  | x :: t => do
    let y ← f x
    let ys ← mapL f t
    pure (y :: ys)

/-- Take a free value (log 21). -/
def freeValue : M Word := do
  let s ← get
  set { s with free := s.free + 1 }
  pure (Config.freeWord s.free)

end Sys2Proof.Machine
end

