-- ==== Sys2Proof/Machine/Space.lean ====
section
/-!
DEFINITION. Where an address leads: the local windows (R10 to R15), the page-table walk (R16 to R22), the TLBs (R29),
the target classes (R23 to R27) and the interleave of device memory (R72).
-/
namespace Sys2Proof.Machine

/-- Who makes an access: context, tenant, translation root, the core it is made from (none for the landing and the nodes
of a completion tree, R371), and whether that core's own TLB serves it; an engine's access goes through the grove's alone
(R87). -/
structure Req where
  cid : Nat
  tenant : Nat
  xroot : Word
  pcore : Option Nat
  ownTlb : Bool := true
  deriving DecidableEq, Repr

/-- A failed access (R33, R34): cause, REASON, LVL, the address for tval, MODID. -/
structure XFault where
  code : Nat
  reason : Nat
  lvl : Nat := 0
  va : Word
  modId : Nat := 0
  deriving DecidableEq, Repr

/-- What kind of operation asks for a target class (R27, R170, R266). -/
inductive OpClass where
  | load | store | amoAddSwap | amoOther | cas | fullEmpty | future | reserve | fetch
  deriving DecidableEq, Repr

/-- The bytes of an access: their keys in address order, the device lines that the directory tracks, and the lines of
cacheable peer pages; `bits` is the size of the leaf that translated it, 0 in the local half. -/
structure Acc where
  keys : List Nat
  dev : List Nat
  ca : List Nat
  bits : Nat
  deriving DecidableEq, Repr

namespace Reason
def notValid : Nat := 0x01
def noRead : Nat := 0x02
def noWrite : Nat := 0x03
def noExec : Nat := 0x04
def format : Nat := 0x05
def adRequired : Nat := 0x06
def nonCanonical : Nat := 0x10
def windowRange : Nat := 0x11
def noNeighbour : Nat := 0x12
def localFetch : Nat := 0x13
def xlatOff : Nat := 0x14
def deviceRange : Nat := 0x15
def owner : Nat := 0x16
def fenced : Nat := 0x17
def peerAbsent : Nat := 0x18
def peerRejected : Nat := 0x19
def hostRejected : Nat := 0x1A
def unsupportedOp : Nat := 0x1B
end Reason

/-- tinfo.KIND of an access (R33). -/
def kindCode : AccKind → Nat | .load => 0 | .store => 1 | .rmw => 2 | .fetch => 3

/-- tinfo of R33. -/
def tinfoWord (elem modId : Nat) (defer : Bool) (lvl kind reason : Nat) : Word :=
  BitVec.ofNat 64 (elem <<< 48 ||| modId <<< 34 ||| (if defer then 1 <<< 33 else 0) ||| lvl <<< 14 ||| kind <<< 8 |||
    reason)

/-- The trap of a failed access at an element (R33, R36). -/
def XFault.trap (f : XFault) (kind : AccKind) (elem : Nat) (fetch : Bool := false) : Trap :=
  { code := f.code, tv := f.va, ti := tinfoWord elem f.modId false f.lvl (kindCode kind) f.reason, fetch := fetch }

/-- Bytes `lo`, `lo + 1`, … -/
def keyRange (lo : Nat) : Nat → List Nat
  | 0 => []
  | n + 1 => lo :: keyRange (lo + 1) n

/-! The local half. -/

/-- The pool keys of scratchpad bytes `off` on of a share (R12, R45). -/
def poolKeys (p : Word) (sh : Share) (off : Nat) : Nat → List Nat
  | 0 => []
  | n + 1 =>
    let g := (sh.grans[Part.rfg p + Part.fg p + off / Config.granuleBytes]?).getD 0
    Key.pool sh.pcore (g * Config.granuleBytes + off % Config.granuleBytes) :: poolKeys p sh (off + 1) n

/-- An access to the local half (R11 to R15, in the order of R35). -/
def localAcc (s : State) (r : Req) (va : Word) (n : Nat) (kind : AccKind) : Except XFault Acc :=
  let fail (reason : Nat) : Except XFault Acc := .error { code := Cause.accessFault, reason := reason, va := va }
  match r.pcore with
  | none => fail Reason.windowRange
  | some pc =>
    let c := s.ctxOf r.cid
    let ws := Bits.field va 25 2
    let inPool (o : Option Share) : Except XFault Acc :=
      match o with
      | none => fail Reason.noNeighbour
      | some sh =>
        let off := Bits.field va 0 21
        if off + n > Part.spg c.part * Config.granuleBytes then fail Reason.windowRange
        else if kind = .fetch then fail Reason.localFetch
        else .ok ⟨poolKeys c.part sh off n, [], [], 0⟩
    if Bits.field va 27 29 ≠ 0 ∨ ws = 3 then fail Reason.windowRange
    else if ws = 0 then
      if Bits.field va 21 4 ≠ 0 then fail Reason.windowRange
      else inPool (some ((c.shares.find? (·.pcore == pc)).getD ⟨0, pc, 0, [], 0, 0, 0⟩))
    else if ws = 1 then
      let off := Bits.field va 0 23
      if Bits.field va 23 2 ≠ 0 then fail Reason.windowRange
      else if off + n > Part.gsg c.part * 65536 then fail Reason.windowRange
      else if kind = .fetch then fail Reason.localFetch
      else
        let g := groveOfCore pc
        .ok ⟨keyRange (Key.scratch g (Tab.getD c.gbase g 0 * 65536 + off)) n, [], [], 0⟩
    else
      let nb := groveOfCore pc * Config.coresPerGrove + Bits.field va 21 4
      inPool (c.shares.find? (·.pcore == nb))

/-! The page tables. -/

namespace Pte
def v (p : Word) : Bool := p.getLsbD 0
def lf (p : Word) : Bool := p.getLsbD 1
def rd (p : Word) : Bool := p.getLsbD 2
def wr (p : Word) : Bool := p.getLsbD 3
def ex (p : Word) : Bool := p.getLsbD 4
def ac (p : Word) : Bool := p.getLsbD 5
def dt (p : Word) : Bool := p.getLsbD 6
def ca (p : Word) : Bool := p.getLsbD 7
/-- pte[47:8] << 8. -/
def addr (p : Word) : Nat := Bits.field p 8 40 * 256
def tc (p : Word) : Nat := Bits.field p 48 2
def modId (p : Word) : Nat := Bits.field p 50 14

/-- Well-formedness of a valid entry (R19). -/
def wellFormed (p : Word) (lvl : Nat) : Bool :=
  if lf p then
    lvl ≤ 2 && addr p % (if lvl = 0 then 2 ^ 16 else if lvl = 1 then 2 ^ 21 else 2 ^ 30) == 0 && tc p != 3 &&
      (modId p == 0 || tc p == 1) && (!wr p || rd p) && (!ex p || tc p == 0) &&
      (!ca p || tc p == 0 || (tc p == 1 && !wr p))
  else
    1 ≤ lvl && modId p == 0 && tc p == 0 && !ca p && !dt p && !ac p && !ex p && !wr p && !rd p &&
      (lvl != 3 || addr p % 2 ^ 16 == 0) && (lvl != 2 || addr p % 2 ^ 12 == 0) && decide (addr p < Config.deviceBytes)

/-- The missing permission, if any (R20). -/
def missing (p : Word) (k : AccKind) : Option Nat :=
  match k with
  | .load => if rd p then none else some Reason.noRead
  | .store => if wr p then none else some Reason.noWrite
  | .rmw => if !rd p then some Reason.noRead else if !wr p then some Reason.noWrite else none
  | .fetch => if ex p then none else some Reason.noExec

/-- Whether an access writes through the entry. -/
def writes (k : AccKind) : Bool := k == .store || k == .rmw
/-- The entry with AC, and DT for a write, set (R21). -/
def touched (p : Word) (k : AccKind) : Word := p ||| 0x20 ||| (if writes k then 0x40 else 0)
end Pte

/-- The levels of a walk (R17): number, lowest index bit, index bits. -/
def walkLevels : List (Nat × Nat × Nat) := [(3, 43, 13), (2, 30, 13), (1, 21, 9), (0, 16, 5)]

/-- What a walk finds: the leaf's page size in bits, its value after R21, where it must be written, and the non-leaf
entries that led to it, by level. -/
structure Leaf where
  bits : Nat
  pte : Word
  put : Option Nat
  path : List (Nat × Word)
  deriving DecidableEq, Repr

/-- The walk of R22 from a level's table on, with the non-leaf entries that the walk cache holds (R29). -/
def walkFrom (m : Mem) (xroot va : Word) (kind : AccKind) (held : Nat → Option Word) :
    List (Nat × Nat × Nat) → Nat → Except XFault Leaf
  | [], _ => .error { code := Cause.pageFault, reason := Reason.format, lvl := 0, va := va }
  | (lvl, lo, len) :: rest, base =>
    let at' := base + Bits.field va lo len * 8
    let pte : Word := (held lvl).getD (BitVec.ofNat 64 (m.read at' 8))
    let fault (reason : Nat) : Except XFault Leaf :=
      .error { code := Cause.pageFault, reason := reason, lvl := lvl, va := va }
    if !Pte.v pte then fault Reason.notValid
    else if !Pte.wellFormed pte lvl then fault Reason.format
    else if Pte.lf pte then
      match Pte.missing pte kind with
      | some reason => fault reason
      | none =>
        let pte' := Pte.touched pte kind
        if pte' = pte then .ok ⟨lo, pte, none, []⟩
        else if xroot.getLsbD 1 then .ok ⟨lo, pte', some at', []⟩
        else fault Reason.adRequired
    else match walkFrom m xroot va kind held rest (Pte.addr pte) with
      | .ok l => .ok { l with path := (lvl, pte) :: l.path }
      | .error f => .error f

/-- xroot.SPACE (R16). -/
def xrootSpace (x : Word) : Nat := Bits.field x 56 8
/-- The level-3 table (R16, R22). -/
def xrootBase (x : Word) : Nat := Bits.field x 16 32 * 2 ^ 16

/-- The translations that a requester may use (R29, R87): those of its core's L1 TLB and of its grove's L2 TLB. -/
def tlbOf (s : State) (r : Req) : List TlbEntry :=
  match r.pcore with
  | none => []
  | some c => (if r.ownTlb then (s.coreOf c).tlb else []) ++ (s.groveOf (groveOfCore c)).tlb

/-- The held translation of an address that serves an access of this kind without a change of DT (R21, R29). -/
def tlbHit (s : State) (r : Req) (va : Word) (kind : AccKind) : Option TlbEntry :=
  (tlbOf s r).find? fun e => e.space == xrootSpace r.xroot && va.toNat / 2 ^ e.bits == e.va / 2 ^ e.bits &&
    (Pte.missing e.pte kind).isNone && (!Pte.writes kind || Pte.dt e.pte)

/-- Put a translation into a TLB of `n` entries: it takes the place of a former one of its page, or of the one held longest
(log 10). -/
def tlbPut (n : Nat) (e : TlbEntry) (l : List TlbEntry) : List TlbEntry :=
  (e :: l.filter fun x => !(x.space == e.space && x.va == e.va && x.bits == e.bits)).take n

/-- Fill the TLBs that serve a requester: 64 entries of its core, 2,048 of its grove (R29). -/
def tlbFill (r : Req) (e : TlbEntry) (s : State) : State :=
  match r.pcore with
  | none => s
  | some c =>
    let s := s.mapGrove (groveOfCore c) fun g => { g with tlb := tlbPut 2048 e g.tlb }
    if r.ownTlb then s.mapCore c fun x => { x with tlb := tlbPut 64 e x.tlb } else s

/-- The non-leaf entry of a level that the walk cache of the requester's die holds for an address (R29). -/
def walkHit (s : State) (r : Req) (va : Word) (lvl : Nat) : Option Word :=
  match r.pcore with
  | none => none
  | some c =>
    let lo := ((walkLevels.find? (·.1 == lvl)).map (·.2.1)).getD 0
    ((Tab.getD s.walks (dieOfCore c) []).find? fun e => e.space == xrootSpace r.xroot && e.lvl == lvl &&
      e.va == va.toNat / 2 ^ lo).map (·.pte)

/-- Fill the walk cache of the requester's die with the non-leaf entries of a walk; it holds 256 (R29, log 10). -/
def walkFill (r : Req) (va : Word) (path : List (Nat × Word)) (s : State) : State :=
  match r.pcore with
  | none => s
  | some c =>
    let put (l : List WalkEntry) (p : Nat × Word) : List WalkEntry :=
      let lo := ((walkLevels.find? (·.1 == p.1)).map (·.2.1)).getD 0
      let e : WalkEntry := ⟨xrootSpace r.xroot, p.1, va.toNat / 2 ^ lo, p.2⟩
      (e :: l.filter fun x => !(x.space == e.space && x.lvl == e.lvl && x.va == e.va)).take 256
    { s with walks := Tab.set s.walks (dieOfCore c) (path.foldl put (Tab.getD s.walks (dieOfCore c) [])) }

/-- Fill the structures of R29 with what a walk found, and write AC and DT (R21). -/
def installLeaf (s : State) (r : Req) (va : Word) (l : Leaf) : State :=
  let e : TlbEntry := ⟨xrootSpace r.xroot, va.toNat - va.toNat % 2 ^ l.bits, l.bits, l.pte⟩
  let s := walkFill r va l.path (tlbFill r e s)
  { s with mem := match l.put with
             | some a => s.mem.write a 8 l.pte.toNat
             | none => s.mem }

/-- `translate` of R22 through the TLBs and the walk cache: the leaf of a global-half address. -/
def translate (s : State) (r : Req) (va : Word) (kind : AccKind) : Except XFault (State × Nat × Word) :=
  if !r.xroot.getLsbD 0 then .error { code := Cause.accessFault, reason := Reason.xlatOff, va := va }
  else match tlbHit s r va kind with
    | some e => .ok (tlbFill r e s, e.bits, e.pte)
    | none =>
      match walkFrom s.mem r.xroot va kind (walkHit s r va) walkLevels (xrootBase r.xroot) with
      | .error f => .error f
      | .ok l => .ok (installLeaf s r va l, l.bits, l.pte)

/-! Target classes. -/

/-- The pseudo-channel of a device address (R72): 64 × stack + 2 × channel + pseudo (R193). -/
def pseudoChannel (memcfg : Word) (pa : Nat) : Nat :=
  let g := pa / 4096
  let d := pa / (192 * 2 ^ 30)
  let g2 := (pa % (192 * 2 ^ 30)) / 4096
  let stack := if memcfg.getLsbD 0 then 3 * d + g2 % 3 else g % 12
  let gs := if memcfg.getLsbD 0 then g2 / 3 else g / 12
  64 * stack + 2 * ((pa / 128 % 32) ^^^ (gs % 32)) + gs / 32 % 2

/-- The owner tag of a device address (R39). -/
def ownerTag (s : State) (pa : Nat) : Nat := Tab.getD s.owners (pa / 65536) 255

/-- The checks of R23 on `n` bytes within a page: device range, owner, and the fence of each line's pseudo-channel. -/
def deviceCheck (s : State) (tenant pa n : Nat) : Option Nat :=
  if pa ≥ Config.deviceBytes then some Reason.deviceRange
  else if ownerTag s pa ≠ tenant then some Reason.owner
  else if !s.fenced.isEmpty && (List.range ((pa + n - 1) / 128 - pa / 128 + 1)).any fun i =>
      s.fenced.contains (pseudoChannel s.memcfg (pa + 128 * i)) then some Reason.fenced
  else none

/-- The bits of rdymap (R334). -/
def readyBit : DevFunction → Nat
  | .die n => n.val
  | .hbm n => 4 + n.val
  | .link n => 16 + n.val
  | .landing => 40
  | .firmware => 41
  | .pcie => 42
  | .bridge => 43

/-- Whether a function is ready. -/
def isReady (s : State) (f : DevFunction) : Bool := s.rdymap.getLsbD (readyBit f)

/-- Whether a peer can be reached (R24): over a port that is ready and not fenced, and over the pod bridge to another pod (R334). -/
def peerReachable (s : State) (m : Nat) : Bool :=
  m / 1024 ≤ 8 && (List.range 24).any (fun p => s.rdymap.getLsbD (16 + p) && !s.fencedLinks.contains p) &&
    (m / 1024 == Config.moduleId / 1024 || isReady s .bridge) &&
    (match Tab.get s.peers m with | some p => p.present && p.reachable | none => false)

/-- Whether an export table permits an access (R26): source, range and right. -/
def exportAllows (exports : List Export) (src pa n : Nat) (kind : AccKind) : Option Export :=
  exports.find? fun e => e.base ≤ pa && pa + n ≤ e.base + e.len && e.sources.contains src &&
    (match kind with | .load | .fetch => e.rd | .store => e.wr | .rmw => e.rd && e.wr)

/-- Operations that host memory does not support (R27), and future words outside this module (R170). -/
def unsupported (tc : Nat) (selfPeer : Bool) (op : OpClass) : Bool :=
  (tc == 2 && (op == .amoOther || op == .fullEmpty || op == .future || op == .reserve)) ||
    (tc == 1 && !selfPeer && (op == .future || op == .reserve))

/-- The byte of host memory that a bus address names through a tenant's function (R27): where the host's translation for
the function leads, by `hostMaps`; a bus address that no entry covers leads to a place of that function alone. -/
def hostKey (s : State) (tenant a : Nat) : Nat :=
  match s.hostMaps.find? fun m => m.tenant == tenant && m.base ≤ a && a < m.base + m.len with
  | some m => Key.host (m.target + (a - m.base))
  | none => Key.host ((tenant + 1) * 2 ^ 48 + a)

/-- The bytes of host memory from a bus address on. -/
def hostKeys (s : State) (tenant a n : Nat) : List Nat := (keyRange a n).map (hostKey s tenant)

/-- Whether the tenant's function is enabled, on a PCIe link that is ready (R334). -/
def functionOn (s : State) (tenant : Nat) : Bool := isReady s .pcie && (Tab.get s.tenants tenant).any (·.fnOn)

/-- Whether the host completes an access to a byte of its memory with an error. -/
def hostErrs (s : State) (k : Nat) : Bool := s.hostBad.any fun r => Key.host r.1 ≤ k && k < Key.host (r.1 + r.2)

/-- Whether the host refuses an access to bytes of its memory (R27): the tenant's function is disabled, or the host
completes it with an error. -/
def hostRefuses (s : State) (tenant : Nat) (keys : List Nat) : Bool := !functionOn s tenant || keys.any (hostErrs s)

/-- The tag of the line of a cacheable peer page (R25) that holds a byte; a page of this module reached as a peer page keeps
the peer class (R24). -/
def peerTag (k : Nat) : Nat := Key.line (if k < 2 ^ 63 then Key.peer Config.moduleId k else k)

/-- The line of a cacheable peer page that a core finds in its L1 data cache or its grove's cache (R25, R50, R75). -/
def peerLine (s : State) (core tag : Nat) : Option (BitVec 1024) :=
  (((s.coreOf core).l1 ++ (s.groveOf (groveOfCore core)).cache).find? fun c => c.line == tag && c.data.isSome).bind (·.data)

/-- The target of one translated piece (R23 to R27, in the order of R35). A store to a peer or the host is never refused
here: its refusal is reported later (R28). -/
def target (s : State) (r : Req) (va : Word) (n : Nat) (kind : AccKind) (op : OpClass) (bits : Nat) (pte : Word) :
    Except XFault Acc :=
  let pa := Pte.addr pte + va.toNat % 2 ^ bits
  let fail (reason : Nat) (m : Nat := 0) : Except XFault Acc :=
    .error { code := Cause.accessFault, reason := reason, va := va, modId := m }
  let m := Pte.modId pte
  let tc := Pte.tc pte
  let self := tc == 1 && m == Config.moduleId
  let lines (k : Nat) : List Nat := if Pte.ca pte then [peerTag k, peerTag (k + n - 1)] else []
  if unsupported tc self op then fail Reason.unsupportedOp
  else if tc = 0 then
    match deviceCheck s r.tenant pa n with
    | some reason => fail reason
    | none => .ok ⟨keyRange pa n, [Key.line pa, Key.line (pa + n - 1)], [], bits⟩
  else if tc = 1 then
    if self then
      match deviceCheck s r.tenant pa n with
      | some reason => fail reason
      | none => .ok ⟨keyRange pa n, [], lines pa, bits⟩
    else
      let k := Key.peer m pa
      let held := op == .load && Pte.ca pte && (lines k).all fun l => r.pcore.any fun c => (peerLine s c l).isSome
      if !peerReachable s m then fail Reason.peerAbsent m
      else if held || kind = .store then .ok ⟨keyRange k n, [], lines k, bits⟩
      else match exportAllows ((Tab.getD s.peers m ⟨false, false, [], false, 0⟩).exports) Config.moduleId pa n kind with
        | some _ => .ok ⟨keyRange k n, [], lines k, bits⟩
        | none => fail Reason.peerRejected m
  else if kind != .store && hostRefuses s r.tenant (hostKeys s r.tenant pa n) then fail Reason.hostRejected
  else .ok ⟨hostKeys s r.tenant pa n, [], [], bits⟩

/-- One piece of an access that lies within a 64 KiB page: the state after the walk, whose effects stay when the target
refuses (R22), and the bytes with the leaf's size. -/
def piece (s : State) (r : Req) (va : Word) (n : Nat) (kind : AccKind) (op : OpClass) :
    State × Except XFault (Acc × Nat) :=
  if Bits.field va 57 7 ≠ 0 then (s, .error { code := Cause.accessFault, reason := Reason.nonCanonical, va := va })
  else if va.getLsbD 56 then
    match localAcc s r va n kind with
    | .ok a => (s, .ok (a, 0))
    | .error f => (s, .error f)
  else match translate s r va kind with
    | .error f => (s, .error f)
    | .ok (s', bits, pte) =>
      match target s' r va n kind op bits pte with
      | .ok a => (s', .ok (a, bits))
      | .error f => (s', .error f)

/-- Resolve an access of `n` bytes at `va` (R10 to R27, R35). A misaligned global access that crosses a 64 KiB boundary
translates both pages before it touches a byte; a failure of the upper page alone reports the lowest byte of the access
on that page (R33, R226). DESIGN CHOICE (log 50): bytes of such an access that lie beyond the end of the global half are
those of the private pool window from offset 0 on. -/
def resolve (s : State) (r : Req) (va : Word) (n : Nat) (kind : AccKind) (op : OpClass) : State × Except XFault Acc :=
  let low := 65536 - va.toNat % 65536
  if n ≤ low ∨ va.getLsbD 56 ∨ Bits.field va 57 7 ≠ 0 then
    match piece s r va n kind op with
    | (s', .ok (a, _)) => (s', .ok a)
    | (s', .error f) => (s', .error f)
  else
    match piece s r va low kind op with
    | (s1, .error f) => (s1, .error f)
    | (s1, .ok (a1, bits)) =>
      let hi := va + BitVec.ofNat 64 low
      match piece s1 r hi (n - low) kind op with
      | (s2, .ok (a2, _)) => (s2, .ok ⟨a1.keys ++ a2.keys, a1.dev ++ a2.dev, a1.ca ++ a2.ca, Nat.max a1.bits a2.bits⟩)
      | (s2, .error f) => (s2, .error (if va.toNat / 2 ^ bits = hi.toNat / 2 ^ bits then { f with va := va } else f))

end Sys2Proof.Machine
end

