-- ==== Sys2Proof/Machine/Ras.lean ====
section
/-!
DEFINITION. Protection of on-chip arrays: error injection at a write, and what a read of a word with flipped bits does
(R66 to R69), with the error log and failed banks.
-/
namespace Sys2Proof.Machine

/-- The words of a line. -/
def lineWords (l : Nat) : List Nat := (List.range 16).map fun i => l + 8 * i

/-! Where the errors of a word are kept: `flips` by the word's key for the pool and the scratchpads, by the keys below for
the symbol banks and for the copies in a core's caches; `poison` for a device word that a poisoned line was written to
(R343), and for the copy in an L1 data cache of a word that was delivered to it as uncorrectable, with the unit that holds the bad
data (R344); `symbols` for the stored bits of a device sector (R73). -/

/-- The copy in a core's L1 data cache of a device word, or of a word of a cacheable peer line, and that of an instruction word of
a context in its instruction cache. -/
def l1Key (core word : Nat) : Nat := if word < 2 ^ 60 then 2 ^ 70 + core * 2 ^ 60 + word else 2 ^ 260 + core * 2 ^ 240 + word
def icKey (core word : Nat) : Nat := 2 ^ 200 + core * 2 ^ 180 + word

/-- A byte as a read names it that a cached line of a cacheable peer page serves (R25): its peer key, marked. -/
def caKey (k : Nat) : Nat := 2 ^ 150 + if k < 2 ^ 63 then Key.peer Config.moduleId k else k

/-- The number of a context's instruction word at an address, for `icKey`. -/
def icWord (cid : Nat) (va : Word) : Nat := cid * 2 ^ 61 + va.toNat / 8

/-- The array, bank and word index of an 8-byte SRAM word (R42, R52). -/
def arrayOf (k : Nat) : Option (ArrayId × Nat × Nat) :=
  if Key.isPool k then
    let p := (k - 2 ^ 60) % 2 ^ 21
    some (.pool ((k - 2 ^ 60) / 2 ^ 21), p / 16 % 16, p / 8)
  else if Key.isScratch k then
    let g := (k - 2 ^ 61) % 2 ^ 23
    some (.scratch ((k - 2 ^ 61) / 2 ^ 23), g / 64 % 16, g / 8)
  else none

/-- The symbol-code group of a bank: data banks 0 to 7 with 16, and 8 to 15 with 17 (R42). -/
def bankGroup (b : Nat) : Nat := if b = 17 ∨ (8 ≤ b ∧ b < 16) then 1 else 0

/-- Bytes of one bank that lie together: 16 in the pool, 64 in a scratchpad (R42, R52). -/
def bankSpan : ArrayId → Nat
  | .scratch _ => 64
  | _ => 16

/-- The words of the other seven data banks that one symbol word covers together with the word at `k` of bank `bank` (R66,
R67). -/
def rowWords (a : ArrayId) (bank k : Nat) : List (Nat × Nat) :=
  let g := bankGroup bank
  ((List.range 8).map (· + 8 * g)).filterMap fun b => if b = bank then none else some (b, k - bank * bankSpan a + b * bankSpan a)

/-- The symbol word that covers the word at `k` of a data bank. -/
def symbolKey (a : ArrayId) (bank k : Nat) : Nat := 2 ^ 110 + bankGroup bank * 2 ^ 100 + (k - bank * bankSpan a)

/-- Whether a context is resident: it holds its shares (R43). -/
def residentCtx (c : Ctx) : Bool := c.st == .running || c.st == .stopped

/-- Tenant and resident index of the first resident context that meets a condition on its shares. -/
def ownerBy (s : State) (owns : Ctx → Share → Bool) : Nat × Nat :=
  match s.ctxs.find? fun c => residentCtx c.2 && c.2.shares.any (owns c.2) with
  | some c => (c.2.tenant, ((c.2.shares.find? (owns c.2)).map (·.rix)).getD 0)
  | none => (0, 0)

/-- Tenant and resident index of the context that owns a word of the pool or a scratchpad, for elog (R68). -/
def wordOwner (s : State) (a : ArrayId) (index : Nat) : Nat × Nat :=
  ownerBy s fun c sh =>
    match a with
    | .pool core => sh.pcore == core && sh.grans.contains (index / 2048)
    | .scratch g =>
      let b := Tab.getD c.gbase g 0
      groveOfCore sh.pcore == g && b * 8192 ≤ index && index < (b + Part.gsg c.part) * 8192
    | _ => false

/-- Those of a device word in a core's L1 data cache: the tenant is the owner of the memory (R39). -/
def lineOwnerOf (s : State) (core word : Nat) : Nat × Nat :=
  let t := ownerTag s word
  (t, (ownerBy s fun c sh => c.tenant == t && sh.pcore == core).2)

/-- Those of an instruction line: its context (R49). -/
def fetchOwner (s : State) (core cid : Nat) : Nat × Nat :=
  let c := s.ctxOf cid
  (c.tenant, ((c.shares.find? (·.pcore == core)).map (·.rix)).getD 0)

/-- Record an error in an array's elog (R68): the first after V was cleared; CNT counts all, saturating. `owner` is the
tenant and resident index of the word. -/
def logError (a : ArrayId) (kind bank synd index : Nat) (owner : Nat × Nat) (s : State) : State :=
  s.mapRas a fun r =>
    let cnt := Nat.min 32767 (Bits.field r.elog 24 15 + 1)
    let e := Bits.insert r.elog 24 15 cnt
    if e.getLsbD 63 then { r with elog := e ||| 0x4000000000000000 }
    else
      let fields := 2 ^ 63 + (if e.getLsbD 62 then 2 ^ 62 else 0) + kind * 2 ^ 60 + owner.1 % 64 * 2 ^ 54 + owner.2 % 4 * 2 ^ 52 + bank * 2 ^ 47 +
        synd % 256 * 2 ^ 39 + cnt * 2 ^ 24 + index % 2 ^ 24
      { r with elog := BitVec.ofNat 64 fields }

/-- Tell a tenant's plug-in of a quarantine (R333, R344). -/
def tellPlugin (u : UnitId) (tenant : Nat) (s : State) : State :=
  if (Tab.get s.tenants tenant).any (·.plugin) then s.pushOnce (.onQuarantine tenant u 0) else s

/-- Quarantine a unit (R344): it is fenced and reported, and contexts on it are stopped, to be restored elsewhere; their
tenants' plug-ins are told. -/
def quarantine (u : UnitId) (suspect : Bool) (s : State) : State :=
  let s := if s.quarantined.contains u then s else { s with quarantined := s.quarantined ++ [u] }
  let s := if suspect && !s.suspects.contains u then { s with suspects := s.suspects ++ [u] } else s
  let hit (sh : Share) : Bool :=
    match u with | .core c => sh.pcore == c | .grove g => groveOfCore sh.pcore == g | _ => false
  let s := s.ctxs.foldl (fun s c =>
    if residentCtx c.2 && c.2.shares.any hit then
      tellPlugin u c.2.tenant (if c.2.st == .running then s.pushOnce (.preemptStop c.1) else s.pushOnce (.contextSwapOut c.1 c.2.area))
    else s) s
  match u with
  | .pseudoChannel n => ({ s with fenced := Sorted.insert s.fenced n } : State).report (.quarantine u suspect)
  | _ => s.report (.quarantine u suspect)

/-- The launches whose contexts hold data in an array (R344): a share of the pool, frames left in it (R51), or a grant or a swap
image in the scratchpad. -/
def launchesOn (s : State) (a : ArrayId) : List Nat :=
  let here (c : Ctx) : Bool :=
    match a with
    | .pool x => residentCtx c && c.shares.any fun sh => sh.pcore == x && !sh.grans.isEmpty
    | .l1 x | .icache x => residentCtx c && c.shares.any fun sh => sh.pcore == x
    | .scratch g =>
      (residentCtx c && Part.gsg c.part != 0 && c.shares.any fun sh => groveOfCore sh.pcore == g) ||
        (match c.img with | some i => i.shadow.any (·.1 == g) | none => false)
  let left := match a with
    | .pool x => (s.heldBy.filter fun h => h.1 == x).map fun h => (s.ctxOf h.2.2).lid
    | _ => []
  Sorted.ofList ((s.ctxs.filter fun c => here c.2).map (·.2.lid) ++ left)

/-- The place of a unit in the order in which a launch reports units (R192): dies, groves and cores by their logical indices, a
grove before its cores, other units behind as they came. -/
def unitPlace (s : State) (lid : Nat) (u : UnitId) : Nat :=
  let shares := (s.ctxs.filter (·.2.lid == lid)).flatMap (·.2.shares)
  match u with
  | .core n => match shares.find? (·.pcore == n) with
    | some sh => sh.ldie * 2 ^ 40 + sh.lgrove * 2 ^ 20 + sh.lcore + 1
    | none => 2 ^ 60
  | .grove n => match shares.find? (groveOfCore ·.pcore == n) with
    | some sh => sh.ldie * 2 ^ 40 + sh.lgrove * 2 ^ 20
    | none => 2 ^ 60
  | _ => 2 ^ 60

/-- Note a unit's ID, once, among those that launches report, and tell the plug-ins (R193, R344). -/
def noteUid (lids : List Nat) (u : UnitId) (s : State) : State :=
  lids.foldl (fun s lid =>
    let s := s.mapLaunch lid fun l =>
      if l.uids.any (·.2 == u) then l else { l with uids := l.uids ++ [(unitPlace s lid u, u)] }
    match Tab.get s.launches lid with
    | some l => tellPlugin u l.tenant s
    | none => s) s

/-- The unit whose array it is. -/
def arrayUnit : ArrayId → UnitId
  | .pool c | .l1 c | .icache c => .core c
  | .scratch g => .grove g

/-- A bank is marked failed (R67); a second one in its group fences the core or grove and kills every launch whose data
is there with MACHINE_CHECK (R344). -/
def failBank (a : ArrayId) (bank : Nat) (s : State) : State :=
  let r := s.rasOf a
  if r.failed.contains bank then s
  else
    let other := r.failed.any fun b => bankGroup b == bankGroup bank
    let s := logError a 3 bank 0 0 (0, 0) (s.mapRas a fun r => { r with failed := Sorted.insert r.failed bank })
    if other then
      let lids := launchesOn s a
      let s := noteUid lids (arrayUnit a) (quarantine (arrayUnit a) false s)
      lids.foldl (fun s lid => (s.mapLaunch lid fun l =>
        { l with kill := match l.kill with | some x => some x | none => some (Cause.machineCheck, 0, 0) }).pushOnce
          (.launchKill lid)) s
    else s

/-- The fields of eictl (R69). -/
def eiArm (v : Word) : Bool := v.getLsbD 63
def eiOnce (v : Word) : Bool := v.getLsbD 62
def eiMode (v : Word) : Nat := Bits.field v 60 2
def eiBank (v : Word) : Nat := Bits.field v 51 5
def eiAny (v : Word) : Bool := v.getLsbD 32
def eiCmask (v : Word) : Nat := Bits.field v 24 8
def eiWord (v : Word) : Nat := Bits.field v 0 24

/-- A write of the word with key `k`, at `bank` and `index` of an array (none for a symbol word, whose index the manual does
not give): it stores sound bits, or the injected error (R69). DESIGN CHOICE (log 24): a write of a part of the word replaces an
error that the whole word held. -/
def injectAt (a : ArrayId) (bank : Nat) (index : Option Nat) (k : Nat) (s : State) : State :=
  let r := s.rasOf a
  let v := r.eictl
  let s := { s with flips := Tab.erase s.flips k }
  if eiArm v && eiMode v < 2 && (if eiAny v then eiBank v == bank else index == some (eiWord v)) then
    let f : Flip := if eiMode v = 0 then ⟨r.eimask, 0⟩ else ⟨0, BitVec.ofNat 8 (eiCmask v)⟩
    let s := { s with flips := Tab.set s.flips k f }
    if eiOnce v then s.mapRas a fun r => { r with eictl := r.eictl &&& 0x7FFFFFFFFFFFFFFF } else s
  else s

/-- What the SECDED code makes of flipped bits (R66): sound, corrected to sound, other bits changed, or not correctable.
One flipped bit is corrected and two are detected; of more, the syndrome decides (log 13). -/
inductive Secded where
  | sound | corrected (synd : Nat) | wrong (mask : Word) (synd : Nat) | detected (synd : Nat)
  deriving DecidableEq, Repr

/-- Whether columns make a code that corrects one flipped bit of the 65 data and 8 check bits and detects two (R66): no two of
the 73 columns are equal, nor is one the sum of two others. -/
def isCode (c : Nat → BitVec 8) : Bool :=
  (List.range 65).all fun i => decide (3 ≤ Bits.popcount 8 (c i).toNat) &&
    (List.range i).all fun j => decide (2 ≤ Bits.popcount 8 (c i ^^^ c j).toNat) && (List.range 65).all fun l => c i ^^^ c j != c l

/-- The column of data bit `i`: any code of R66 is possible (log 13). -/
def codeColumn (i : Nat) : BitVec 8 :=
  if isCode Config.secdedColumn then Config.secdedColumn i
  else BitVec.ofNat 8 (((List.range 256).filter fun x => Bits.popcount 8 x % 2 == 1 && decide (3 ≤ Bits.popcount 8 x)).getD i 0)

/-- The syndrome of a flip: the XOR of the columns of its bits. -/
def syndrome (f : Flip) : BitVec 8 :=
  (List.range 64).foldl (fun x i => if f.data.getLsbD i then x ^^^ codeColumn i else x) f.check

/-- The outcome of the SECDED check for a flip. -/
def secded (f : Flip) : Secded :=
  let n := Bits.popcount 64 f.data.toNat + Bits.popcount 8 f.check.toNat
  let y := syndrome f
  if n = 0 then .sound
  else if n = 1 then .corrected y.toNat
  else if n = 2 then .detected y.toNat
  else if y = 0 then .wrong f.data 0
  else match (List.range 65).find? fun i => codeColumn i == y with
    | some i => .wrong (f.data ^^^ BitVec.ofNat 64 (2 ^ i)) y.toNat
    | none => .detected y.toNat

/-- The result of reading a word: bits to flip in what is delivered, or uncorrectable. -/
inductive WordRead where
  | ok (mask : Word)
  | bad
  deriving DecidableEq, Repr

/-- What a stored word contributes to a rebuild: its wrong bits, or nothing when it cannot be read (R66, R67). -/
def heldBits (s : State) (k : Nat) : Option Word :=
  match Tab.get s.flips k with
  | none => some 0
  | some f =>
    match secded f with
    | .sound | .corrected _ => some 0
    | .wrong m _ => some m
    | .detected _ => none

/-- Rebuild the word at `k` of `bank` from the other seven data banks and the symbol bank of its group (R66, R67): the bits
that come out wrong, or nothing when a word that it needs cannot be read or the symbol bank is failed. -/
def rebuildWord (a : ArrayId) (bank k : Nat) (s : State) : Option Word :=
  let failed := (s.rasOf a).failed
  let parts := (heldBits s (symbolKey a bank k)) :: (rowWords a bank k).map fun w => if failed.contains w.1 then none else heldBits s w.2
  if failed.contains (16 + bankGroup bank) then none
  else parts.foldl (fun r p => match r, p with | some x, some y => some (x ^^^ y) | _, _ => none) (some 0)

/-- Read an SRAM word of the pool or a scratchpad (R66 to R68). DESIGN CHOICE (log 24): a word that SECDED corrects is written back,
so that its error is gone. -/
def readArray (a : ArrayId) (bank index k : Nat) (s : State) : State × WordRead :=
  let r := s.rasOf a
  let inGroup := r.failed.filter fun b => bankGroup b == bankGroup bank
  let note (kind synd : Nat) (s : State) : State := logError a kind bank synd index (wordOwner s a index) s
  let clear (s : State) : State := { s with flips := Tab.erase s.flips k }
  if inGroup.length ≥ 2 then (note 2 0 s, .bad)
  else if r.failed.contains bank then
    match rebuildWord a bank k s with
    | some m => (s, .ok m)
    | none => (note 2 0 s, .bad)
  else match Tab.get s.flips k with
    | none => (s, .ok 0)
    | some f =>
      match secded f with
      | .sound => (s, .ok 0)
      | .corrected y => (note 0 y (clear s), .ok 0)
      | .wrong mask y => (if y = 0 then s else note 0 y s, .ok mask)
      | .detected y =>
        match (if inGroup.isEmpty then rebuildWord a bank k s else none) with
        | some m =>
          let s := note 1 y (if m = 0 then clear s else { s with flips := Tab.set s.flips k ⟨m, 0⟩ })
          let rb := Sorted.insert (s.rasOf a).rebuilt index
          let s := s.mapRas a fun r => { r with rebuilt := rb }
          let ofBank := rb.filter fun w => w * 8 / bankSpan a % 16 == bank
          (if ofBank.length ≥ 16 then failBank a bank s else s, .ok m)
        | none => (note 2 y s, .bad)

/-- Whether any array is armed or any bit is flipped or bank failed, or a word of device memory bad: otherwise reads and
writes need no check. -/
def rasQuiet (s : State) : Bool :=
  s.flips.isEmpty && s.poison.isEmpty && s.symbols.isEmpty && s.ras.all fun r => !eiArm r.2.eictl && r.2.failed.isEmpty

/-- The bad symbols of a sector's code word (R73): 32 data bytes, and the four full/empty bits with the check bits. -/
def badSymbols (p : BitVec 288) : List Nat := (List.range 36).filter fun i => p.toNat / 256 ^ i % 256 != 0

/-- A write of one word of device memory (R73): the controller corrects a single bad symbol of its sector as it merges the
word in; of several, those of the word are written over, be it written in part. DESIGN CHOICE (log 51). -/
def deviceWrite (k : Nat) (s : State) : State :=
  let s := { s with poison := Tab.erase s.poison k }
  match Tab.get s.symbols (k / 32) with
  | none => s
  | some p =>
    let lo := 64 * (k / 8 % 4)
    let q := p &&& ~~~(BitVec.ofNat 288 ((2 ^ 64 - 1) * 2 ^ lo))
    if (badSymbols p).length ≤ 1 || (badSymbols q).isEmpty then { s with symbols := Tab.erase s.symbols (k / 32) }
    else { s with symbols := Tab.set s.symbols (k / 32) q }

/-- A read of one word of device memory (R73): a single bad symbol of its sector is corrected and written back; two and more
(log 51), and a poisoned word (R343), are uncorrectable. -/
def deviceRead (k : Nat) (s : State) : State × WordRead :=
  if (Tab.get s.poison k).isSome then (s, .bad)
  else match Tab.get s.symbols (k / 32) with
    | none => (s, .ok 0)
    | some p => if (badSymbols p).length ≤ 1 then ({ s with symbols := Tab.erase s.symbols (k / 32) }, .ok 0) else (s, .bad)

/-- A write of SRAM or device words by key. -/
def rasWrite (keys : List Nat) (s : State) : State :=
  if rasQuiet s then s
  else (Sorted.ofList (keys.map Key.word)).foldl (fun s k =>
    match arrayOf k with
    | some (a, b, i) =>
      injectAt a (16 + bankGroup b) none (symbolKey a b k) (injectAt a b (some i) k s)
    | none => deviceWrite k s) s

/-- A write of words of lines into a core's L1 data cache (R69). -/
def l1Write (core : Nat) (words : List Nat) (s : State) : State :=
  if rasQuiet s then s
  else words.foldl (fun s w =>
    let p := Config.cacheWord core false w
    injectAt (.l1 core) p.2 (some p.1) (l1Key core w) { s with poison := Tab.erase s.poison (l1Key core w) }) s

/-! Grove caches (R53, R75). -/

/-- The sets of a grove's cache: C / 2,048 (R75). -/
def cacheSets (g : Grove) : Nat :=
  match Bits.field g.gcfg 8 2 with | 0 => 0 | 1 => 1024 | 2 => 2048 | _ => 4096

/-- The first byte of the place of a line in its grove's scratchpad, whose top C bytes the cache occupies (R54). DESIGN CHOICE
(log 14): the lines lie there by set and way. -/
def lineSlot (s : State) (grove : Nat) (c : CLine) : Nat :=
  let n := cacheSets (s.groveOf grove)
  Key.scratch grove (2 ^ 23 - n * 2048 + (c.line / 128 % n * 16 + c.way) * 128)

/-- The line of a word that a grove's cache holds. -/
def groveLine (s : State) (grove word : Nat) : Option CLine := (s.groveOf grove).cache.find? fun c => c.line == Key.line word

/-- Read a word of a line for a core's L1 data cache (R66, R73): from its grove's cache, or from device memory; an uncorrectable
one comes with the unit that holds it (R344). -/
def belowRead (core word : Nat) (s : State) : State × WordRead × UnitId :=
  match groveLine s (groveOfCore core) word with
  | some c =>
    let k := lineSlot s (groveOfCore core) c + word % 128
    match arrayOf k with
    | some (a, b, i) =>
      let r := readArray a b i k s
      (r.1, r.2, .grove (groveOfCore core))
    | none => (s, .ok 0, .grove (groveOfCore core))
  | none =>
    if Key.isDevice word then
      let u := (Tab.get s.poison word).getD (.pseudoChannel (pseudoChannel s.memcfg word))
      let r := deviceRead word s
      (r.1, r.2, u)
    else (s, .ok 0, .core core)

/-- The words of a line come into a core's L1 data cache (R66, R69, R73): one that is uncorrectable there is marked. -/
def l1FillWords (core : Nat) (words : List Nat) (s : State) : State :=
  if rasQuiet s then s
  else words.foldl (fun s w =>
    match belowRead core w s with
    | (s, .ok m, _) =>
      l1Write core [w] (if m = 0 then s else { s with mem := s.mem.write w 8 (s.mem.read w 8 ^^^ m.toNat) })
    | (s, .bad, u) => { l1Write core [w] s with poison := Tab.set (l1Write core [w] s).poison (l1Key core w) u }) s

/-- A word of a clean line of a core's L1 data cache is fetched again (R66, R343). -/
def l1Refetch (core word : Nat) (s : State) : State × WordRead :=
  match belowRead core word s with
  | (s, .ok m, _) => ({ s with poison := Tab.erase s.poison (l1Key core word) }, .ok m)
  | (s, .bad, u) => ({ s with poison := Tab.set s.poison (l1Key core word) u }, .bad)

/-- A read of a word in a core's L1 data cache (R66, R343): one flipped bit is corrected; an uncorrectable word of a
clean line is fetched again, and one of a dirty line is delivered as uncorrectable. -/
def l1Read (core word : Nat) (dirty : Bool) (s : State) : State × WordRead :=
  if (Tab.get s.poison (l1Key core word)).isSome then (if dirty then (s, .bad) else l1Refetch core word s)
  else match Tab.get s.flips (l1Key core word) with
  | none => (s, .ok 0)
  | some f =>
    let p := Config.cacheWord core false word
    let o := lineOwnerOf s core word
    let clear : State := { s with flips := Tab.erase s.flips (l1Key core word) }
    match secded f with
    | .sound => (s, .ok 0)
    | .corrected y => (logError (.l1 core) 0 p.2 y p.1 o clear, .ok 0)
    | .wrong m y => (if y = 0 then s else logError (.l1 core) 0 p.2 y p.1 o s, .ok m)
    | .detected y =>
      if dirty then (logError (.l1 core) 2 p.2 y p.1 o s, .bad)
      else l1Refetch core word (logError (.l1 core) 2 p.2 y p.1 o clear)

/-- The L1 data cache whose copy of a device word a read takes: the holder's of an EXCLUSIVE line, the reader's own of a
SHARED one (R74). -/
def l1Source (s : State) (reader : Option Nat) (w : Nat) : Option (Nat × Bool) :=
  match Tab.get s.dir (Key.line w) with
  | some (.exclusive c d) => some (c, d)
  | some (.shared _) => match reader with
    | some c => if (s.coreOf c).l1.any fun x => x.line == Key.line w && x.data.isNone then some (c, false) else none
    | none => none
  | _ => none

/-- Read words by key, by a thread of core `reader` or another party: the state with errors logged, the data bits to flip by
word, and the words that are uncorrectable. -/
def rasRead (reader : Option Nat) (keys : List Nat) (s : State) : State × List (Nat × Word) × List Nat :=
  if rasQuiet s then (s, [], [])
  else (Sorted.ofList (keys.map Key.word)).foldl (fun acc k =>
    let r := match arrayOf k with
      | some (a, b, i) => readArray a b i k acc.1
      | none =>
        if 2 ^ 150 ≤ k then l1Read (reader.getD 0) (k - 2 ^ 150) false acc.1
        else match l1Source acc.1 reader k with
          | some (c, d) => l1Read c k d acc.1
          | none => deviceRead k acc.1
    match r with
    | (s, .ok 0) => (s, acc.2.1, acc.2.2)
    | (s, .ok m) => (s, acc.2.1 ++ [(k, m)], acc.2.2)
    | (s, .bad) => (s, acc.2.1, acc.2.2 ++ [k])) (s, [], [])

/-- A core's L1 data cache holds the words of a line no more. -/
def l1Forget (core line : Nat) (s : State) : State :=
  { s with flips := s.flips.filter fun f => !(lineWords line).any fun w => f.1 == l1Key core w,
           poison := s.poison.filter fun f => !(lineWords line).any fun w => f.1 == l1Key core w }

/-- A line leaves a core's L1 data cache, or its dirty data is forwarded or written back (R74, R343): the words of a dirty
line are read, and an uncorrectable one is stored poisoned. -/
def l1Leave (core line : Nat) (dirty : Bool) (s : State) : State :=
  if s.flips.isEmpty && s.poison.isEmpty then s
  else
    let s := if dirty then (lineWords line).foldl (fun s w =>
        match l1Read core w true s with
        | (s, .bad) => { s with poison := Tab.set s.poison w ((Tab.get s.poison (l1Key core w)).getD (.core core)) }
        | (s, .ok m) => if m = 0 then s else { s with mem := s.mem.write w 8 (s.mem.read w 8 ^^^ m.toNat) }) s
      else s
    l1Forget core line s

/-- MACHINE_CHECK from a word that a core or another party read: the unit that is quarantined (R344), which is the core whose cache
holds or poisoned the data, the grove whose cache delivered it, or the pseudo-channel. -/
def badUnit (s : State) (reader : Option Nat) (k : Nat) : UnitId :=
  match arrayOf k with
  | some (a, _, _) => arrayUnit a
  | none =>
    let copy (c w : Nat) : UnitId := (Tab.get s.poison (l1Key c w)).getD (.core c)
    if 2 ^ 150 ≤ k then copy (reader.getD 0) (k - 2 ^ 150)
    else match l1Source s reader k with
      | some (c, _) => copy c k
      | none => (Tab.get s.poison k).getD (.pseudoChannel (pseudoChannel s.memcfg k))

end Sys2Proof.Machine
end

