-- ==== Sys2Proof/Machine/Sig.lean ====
section
/-!
DEFINITION. Replica groups as an instruction sees them and the signature of a slot (R350 to R352).
-/
namespace Sys2Proof.Machine

/-- The replica group of a slot, while it has two members or more (R350). -/
def groupOf (s : State) (k : SlotKey) : Option Group :=
  let c := s.ctxOf k.cid
  s.groups.find? fun g => g.lid == c.lid && g.lcore == k.lcore && g.slot == k.slot && g.members.contains c.replica &&
    g.members.length ≥ 2

/-- Whether the executing slot belongs to a replica group. -/
def replicated (s : State) : Bool := (groupOf s s.cur).isSome

/-- Whether the executing slot is a member of a replica group that another replica leads. -/
def follower (s : State) : Bool := (groupOf s s.cur).any fun g => g.lead != s.ctx.replica

/-- One bit of a CRC-64, top bit first (R352). -/
def crcBit (poly crc : Word) (b : Bool) : Word :=
  if crc.getLsbD 63 != b then (crc <<< 1) ^^^ poly else crc <<< 1

/-- One byte, the top bit first. -/
def crcByte (poly crc : Word) (b : Byte) : Word :=
  [7, 6, 5, 4, 3, 2, 1, 0].foldl (fun c i => crcBit poly c (b.getLsbD i)) crc

/-- A doubleword, byte 0 first. -/
def crcWord (poly crc w : Word) : Word :=
  [0, 1, 2, 3, 4, 5, 6, 7].foldl (fun c i => crcByte poly c (BitVec.ofNat 8 (w.toNat / 2 ^ (8 * i)))) crc

/-- The polynomials of R352. -/
def crcPoly1 : Word := 0x42F0E1EBA9EA3693
def crcPoly2 : Word := 0xAD93D23594C935A9

/-- The store count that the records of an instruction which goes on from its progress carry (R351). -/
def Slot.heldSeq (v : Slot) : Option Nat := (v.held.find? fun h => h.pc == v.pc && h.live).bind (·.seq)

/-- Append a signature record (R351). -/
def Slot.record (v : Slot) (kind : Nat) (addr data : Word) (bmask size opc : Nat) : Slot :=
  let d2 : Word := BitVec.ofNat 64 (bmask * 2 ^ 56 + kind * 2 ^ 52 + size * 2 ^ 48 + opc * 2 ^ 40)
  let d3 : Word := BitVec.ofNat 64 (v.heldSeq.getD v.sig.seq * 2 ^ 32)
  let crc (p c : Word) : Word := [addr, data, d2, d3].foldl (crcWord p) c
  { v with sig := { v.sig with crc1 := crc crcPoly1 v.sig.crc1, crc2 := crc crcPoly2 v.sig.crc2, cnt := v.sig.cnt + 1 } }

/-- The number of aligned 8-byte parts that an access touches. -/
def partCount (va : Word) (n : Nat) : Nat := (va.toNat + n - 1) / 8 - va.toNat / 8 + 1

/-- The aligned parts of a store: address, data in place, byte mask (R351). -/
def storeParts (va : Word) (n v : Nat) : List (Word × Word × Nat) :=
  let lo := va.toNat % 8
  let wide := (v % 2 ^ (8 * n)) * 2 ^ (8 * lo)
  let mask := (2 ^ n - 1) * 2 ^ lo
  (List.range (partCount va n)).map fun i =>
    (BitVec.ofNat 64 (va.toNat - lo + 8 * i), BitVec.ofNat 64 (wide / 2 ^ (64 * i)), mask / 2 ^ (8 * i) % 256)

/-- log2 of 1, 2, 4 or 8 bytes. -/
def sizeLog (n : Nat) : Nat := if n ≤ 1 then 0 else if n ≤ 2 then 1 else if n ≤ 4 then 2 else 3

/-- The KIND 0 records of a plain store of `n` bytes in elements of `eb` (R351). -/
def Slot.recordStore (v : Slot) (va : Word) (n x eb : Nat) : Slot :=
  (storeParts va n x).foldl (fun v p => v.record 0 p.1 p.2.1 p.2.2 (sizeLog eb) 0) v

/-- The start of a new interval after a comparison point at `site` (R352). -/
def Slot.nextInterval (v : Slot) (site : Word) : Slot :=
  { v with sig := { Sig.start with sitepc := site, sitedyn := v.sig.sitedyn + 1 }, rbuf := [],
           held := v.held.map fun h => { h with seq := none } }

/-- The store count of R351 after an instruction of a slot: it rises once for an instruction that makes a record, and one that will
go on from its progress keeps the count that its records carry. -/
def countStore (before v : Slot) : Slot :=
  if v.sig.cnt > before.sig.cnt ∧ before.heldSeq = none then
    { v with sig := { v.sig with seq := v.sig.seq + 1 },
             held := v.held.map fun h => if h.pc = before.pc then { h with seq := some before.sig.seq } else h }
  else v

/-- A group's member sends its signature and parks (R354, steps 1 and 2). `op` is the instruction at the point, absent
when the full release buffer forces it (R355). -/
def arrive (op : Option Instr) (s : State) : State :=
  let c := s.ctx
  let s := s.mapMe fun v => { v with st := .parked .vote, rpend := op, sig := { v.sig with sitepc := v.pc } }
  let add (g : Group) : Group :=
    if g.lid == c.lid && g.lcore == s.cur.lcore && g.slot == s.cur.slot then
      let core := ((s.ctxs.find? fun x => x.2.lid == g.lid && x.2.replica == g.lead).bind fun x =>
        (s.shareAt x.1 g.lcore).map (·.pcore)).getD 0
      { g with sigs := g.sigs.filter (·.1 != c.replica) ++ [(c.replica, s.me.sig)],
               since := if g.sigs.isEmpty then (s.coreOf core).cyc else g.since }
    else g
  let s := { s with groups := s.groups.map add }
  (s.pushOnce (.comparatorVote c.lid s.cur.lcore s.cur.slot)).pushOnce (.signatureTimeout c.lid s.cur.lcore s.cur.slot)

end Sys2Proof.Machine
end

