-- ==== Sys2Proof/Machine/Access.lean ====
section
/-!
DEFINITION. Memory accesses of the executing slot: waiting for engine lines and reservations, the directory (R74), the
release buffer and peer stores in flight, late stores and former values (R98 to R112, log 4), loads and stores of resolved bytes,
and ordering points (R28).
-/
namespace Sys2Proof.Machine

/-- The requester that a slot's accesses are (R10, R16). -/
def slotReq (s : State) : Req :=
  { cid := s.cur.cid, tenant := s.ctx.tenant, xroot := s.ctx.xroot, pcore := some s.core }

/-- A misaligned access of `n` bytes. -/
def isMisaligned (va : Word) (n : Nat) : Bool := va.toNat % n != 0

/-- MISALIGNED of an access (R339): REASON 0 and the access's KIND. -/
def misaligned {α : Type} (va : Word) (kind : AccKind) (elem : Nat := 0) : M α :=
  trap { code := Cause.misaligned, tv := va, ti := tinfoWord elem 0 false 0 (kindCode kind) 0 }

/-- The command that owns a line (R82). -/
def lineOwner (s : State) (k : Nat) : Option Nat :=
  match Tab.get s.dir (Key.line k) with
  | some (.engine id) => some id
  | _ => none

/-! Reservation queues (R114, R115). -/

/-- The home of a word for its reservation queue, and how many requests it admits (R115): a bank of a pool or a scratchpad
64, the home directories of a die 2,048. -/
def atomHome (s : State) (k : Nat) : Nat × Nat :=
  match arrayOf k with
  | some (.pool c, b, _) => (2 ^ 32 + c * 16 + b, 64)
  | some (.scratch g, b, _) => (2 ^ 33 + g * 16 + b, 64)
  | _ => if Key.isDevice k then (pseudoChannel s.memcfg k / 64 / 3, 2048) else (2 ^ 34 + k / 2 ^ 48, 2048)

/-- The requests in the queue of a word. -/
def wordQueue (s : State) (w : Nat) : List AtomReq := s.atoms.filter fun q => Key.word q.addr == w

/-- Whether a home can admit one more request. -/
def homeRoom (s : State) (h : Nat × Nat) : Bool := (s.atoms.filter fun q => atomHome s q.addr == h).length < h.2

/-- A request joins the tail of its word's queue, or waits at its origin while the home is full (R114, R115). -/
def joinAtom (q : AtomReq) (s : State) : State :=
  if homeRoom s (atomHome s q.addr) then
    ({ s with atoms := s.atoms ++ [q] } : State).pushOnce (.atomicReservationGrant (Key.word q.addr))
  else { s with atomWait := s.atomWait ++ [q] }

/-- A home with room admits the request that has waited longest for it (R115). -/
def admitAtom (h : Nat × Nat) (s : State) : State :=
  match s.atomWait.find? fun q => atomHome s q.addr == h with
  | some q => if homeRoom s h then joinAtom q { s with atomWait := s.atomWait.erase q } else s
  | none => s

/-- Requests leave the queues: each next request is granted, and waiting ones are admitted. -/
def leaveAtoms (p : AtomReq → Bool) (s : State) : State :=
  let gone := s.atoms.filter p
  if gone.isEmpty && !s.atomWait.any p then s
  else
    let s : State := { s with atoms := s.atoms.filter (!p ·), atomWait := s.atomWait.filter (!p ·) }
    gone.foldl (fun s q =>
      let s := admitAtom (atomHome s q.addr) s
      if (wordQueue s (Key.word q.addr)).isEmpty then s else s.pushOnce (.atomicReservationGrant (Key.word q.addr))) s

/-- Whether a word's queue has a request before that of a party. -/
def queuedAt (s : State) (who : Waiter) (w : Nat) : Bool :=
  match wordQueue s w with
  | [] => false
  | q :: _ => !(q.access && q.who == who)

/-- The lowest word among the keys that a party cannot access now: its line is owned by a command other than `own` (R83), or
requests are queued there before the party's (R114). Words of lines that `own` owns are free for it, since requests there came
after it. With the word, whether a command owns its line. -/
def busyAt (s : State) (who : Waiter) (own : Option Nat) (keys : List Nat) : Option (Nat × Bool) :=
  if s.atoms.isEmpty && s.dir.all (fun d => match d.2 with | .engine _ => false | _ => true) then none
  else (Sorted.ofList (keys.map Key.word)).findSome? fun w =>
    match lineOwner s w with
    | some id => if some id = own then none else some (w, true)
    | none => if queuedAt s who w then some (w, false) else none

/-- A party that must wait at a word takes its place there in the order of arrival, keeping only its places at lower words; where
it waits for a command to finish a line, only those of that line (R83, R114, log 34). -/
def takePlace (who : Waiter) (w : Nat) (owned : Bool) (s : State) : State :=
  let s := leaveAtoms (fun q => q.access && q.who == who &&
    (decide (w < Key.word q.addr) || owned && Key.line q.addr != Key.line w)) s
  if (s.atoms ++ s.atomWait).any fun q => q.access && q.who == who && Key.word q.addr == w then s
  else joinAtom ⟨who, true, false, 0, w, false, 0, false, 0, 0, 0⟩ s

/-- A party whose access is performed, or given up, leaves its places. -/
def leavePlaces (who : Waiter) (s : State) : State := leaveAtoms (fun q => q.access && q.who == who) s

/-- Whether an atomic of a party at free bytes must first be admitted by its home, which is full (R115). -/
def homeFull (s : State) (who : Waiter) (keys : List Nat) : Option Nat :=
  (Sorted.ofList (keys.map Key.word)).find? fun w =>
    !homeRoom s (atomHome s w) && !s.atoms.any fun q => q.access && q.who == who && Key.word q.addr == w

/-- Why bytes cannot be accessed now by a slot: a line owned by a command (R83), or requests queued before it (R114). -/
def busyWhy (s : State) (keys : List Nat) : Option ParkWhy :=
  (busyAt s (.slot s.cur) none keys).map fun b => if b.2 then .lineBusy else .atomic

/-- A slot has read or written bytes as of write `n`: it sees none of them older than that again (R105, log 4). -/
def sawWords (k : SlotKey) (n : Nat) (keys : List Nat) (s : State) : State :=
  if s.former.isEmpty then s
  else s.mapSlot k fun v =>
    { v with seen := (keys.map Key.word).foldl (fun t w => Tab.set t w (Nat.max n (Tab.getD t w 0))) v.seen }

/-- Wait until bytes can be accessed, in the order of arrival (R83, R114). The slot keeps its places until its instruction, or
other access, is over. -/
def notBusy (keys : List Nat) : M Unit := do
  let s ← get
  match busyAt s (.slot s.cur) none keys with
  | some b => do
    modify (takePlace (.slot s.cur) b.1 b.2)
    wait (if b.2 then .lineBusy else .atomic)
  | none => pure ()

/-- Wait until an atomic can access bytes: they are free, and their home has room for one more request (R114, R115). -/
def atomicFree (keys : List Nat) : M Unit := do
  notBusy keys
  let s ← get
  match homeFull s (.slot s.cur) keys with
  | some w => do
    modify (takePlace (.slot s.cur) w false)
    wait .atomic
  | none => pure ()

/-- Why an event of another party cannot access bytes now: it takes its place in the order of arrival and comes again (R83, R98,
R114); so does an atomic whose home is full (R115). None when it can. -/
def eventWaits (e : Instr) (keys : List Nat) (s : State) (rmw : Bool := false) : Option State :=
  match busyAt s (.event e) none keys, (if rmw then homeFull s (.event e) keys else none) with
  | some b, _ => some ((takePlace (.event e) b.1 b.2 s).push e)
  | none, some w => some ((takePlace (.event e) w false s).push e)
  | none, none => none

/-! Caches and the directory (R50, R74, R75). -/

/-- The way of a set that a fill takes among the ways of a mask: an unused one, else a free choice (log 11). -/
def fillWay (mask : Nat) (used : List Nat) (s : State) : Nat × State :=
  let ways := (List.range 16).filter mask.testBit
  match ways.find? fun w => !used.contains w with
  | some w => (w, s)
  | none => (ways.getD ((Config.freeWord s.free).toNat % ways.length) 0, { s with free := s.free + 1 })

/-- Whether a core's L1 data cache holds a device line. -/
def inL1 (s : State) (core line : Nat) : Bool := (s.coreOf core).l1.any fun c => c.line == line && c.data.isNone

/-- Whether any cache of a grove holds a device line: what the directory and the grove's snoop filter record (R74). -/
def inGrove (s : State) (grove line : Nat) : Bool :=
  (s.groveOf grove).cache.any (fun c => c.line == line && c.data.isNone) ||
    s.cores.any fun c => groveOfCore c.1 == grove && c.2.l1.any fun x => x.line == line && x.data.isNone

/-- The directory after a copy of a device line has left a cache of a grove (R74). -/
def dirLost (grove line : Nat) (s : State) : State :=
  match Tab.get s.dir line with
  | some (.shared gs) =>
    let gs := if inGrove s grove line then gs else gs.filter (· != grove)
    { s with dir := if gs.isEmpty then Tab.erase s.dir line else Tab.set s.dir line (.shared gs) }
  | _ => s

/-- The dirty data of a line goes to the copy in the grove's cache where there is one (R75): a write of its words (R69). -/
def groveWrite (grove line : Nat) (s : State) : State :=
  if rasQuiet s then s
  else match groveLine s grove line with
    | some c => rasWrite (lineWords (lineSlot s grove c)) s
    | none => s

/-- A line leaves a core's L1 data cache by eviction (R50, R74): dirty data is written back; a copy in the grove's cache stays. -/
def l1Evict (core : Nat) (c : CLine) (s : State) : State :=
  let g := groveOfCore core
  let drop (s : State) : State := s.mapCore core fun x => { x with l1 := x.l1.erase c }
  if c.data.isSome then drop (if s.flips.isEmpty && s.poison.isEmpty then s else l1Forget core c.line s)
  else match Tab.get s.dir c.line with
    | some (.exclusive h d) =>
      if h = core then
        let s := l1Leave core c.line d s
        let s := drop (if d then groveWrite g c.line s else s)
        { s with dir := if inGrove s g c.line then Tab.set s.dir c.line (.shared [g]) else Tab.erase s.dir c.line }
      else drop s
    | _ => dirLost g c.line (drop (l1Leave core c.line false s))

/-- The errors of the words of a line that leaves a grove's cache go with it. -/
def groveForget (grove : Nat) (c : CLine) (s : State) : State :=
  let lo := lineSlot s grove c
  if s.flips.isEmpty then s else { s with flips := s.flips.filter fun f => !(lo ≤ f.1 && f.1 < lo + 128) }

/-- A line leaves a grove's cache, with the errors of its words. -/
def groveEvict (grove : Nat) (c : CLine) (s : State) : State :=
  let s := (groveForget grove c s).mapGrove grove fun x => { x with cache := x.cache.erase c }
  if c.data.isSome then s else dirLost grove c.line s

/-- Fill a line into a core's L1 data cache, in a way of the context's DWAY (R48, R50). `va` is the page that a peer
line is reached by, which a line that is there takes too. -/
def l1Fill (core cid line : Nat) (data : Option (BitVec 1024)) (va : Option (Nat × Nat × Nat)) (s : State) : State :=
  let inSet := (s.coreOf core).l1.filter fun c => c.line / 128 % 64 == line / 128 % 64
  match inSet.find? fun c => c.line == line && c.data.isSome == data.isSome with
  | some c =>
    (match va with
     | some x => if c.vas.contains x then s else
        s.mapCore core fun y => { y with l1 := y.l1.map fun z => if z = c then { c with vas := c.vas ++ [x] } else z }
     | none => s)
  | none =>
    let w := fillWay (Bits.field (s.ctxOf cid).cmask 16 8) (inSet.map (·.way)) s
    let s := match inSet.find? (·.way == w.1) with | some c => l1Evict core c w.2 | none => w.2
    let s := l1FillWords core (lineWords line) s
    s.mapCore core fun c => { c with l1 := c.l1 ++ [⟨line, w.1, data, va.toList⟩] }

/-- Fill a line into a grove's cache, in a way of the context's GWAY (R75): a write of its place in the scratchpad (R69). -/
def groveFill (grove cid line : Nat) (data : Option (BitVec 1024)) (va : Option (Nat × Nat × Nat)) (s : State) : State :=
  let n := cacheSets (s.groveOf grove)
  let inSet := (s.groveOf grove).cache.filter fun c => c.line / 128 % n == line / 128 % n
  if n = 0 then s
  else match inSet.find? fun c => c.line == line && c.data.isSome == data.isSome with
  | some c =>
    (match va with
     | some x => if c.vas.contains x then s else
        s.mapGrove grove fun y => { y with cache := y.cache.map fun z => if z = c then { c with vas := c.vas ++ [x] } else z }
     | none => s)
  | none =>
    let w := fillWay (Bits.field (s.ctxOf cid).gwmask 0 16) (inSet.map (·.way)) s
    let s := match inSet.find? (·.way == w.1) with | some c => groveEvict grove c w.2 | none => w.2
    let c : CLine := ⟨line, w.1, data, va.toList⟩
    let s := if rasQuiet s then s else rasWrite (lineWords (lineSlot s grove c)) s
    s.mapGrove grove fun g => { g with cache := g.cache ++ [c] }

/-- A missing line fills the core's L1 data cache and its grove's cache. -/
def fillLine (core cid line : Nat) (data : Option (BitVec 1024)) (va : Option (Nat × Nat × Nat)) (s : State) : State :=
  groveFill (groveOfCore core) cid line data va (l1Fill core cid line data va s)

/-- Take the copies of a device line out of every cache but those of one core. -/
def dropCopies (line : Nat) (keep : Option Nat) (s : State) : State :=
  let s := match Tab.get s.dir line with
    | some (.exclusive c d) => if keep = some c then s else l1Leave c line d s
    | _ => s
  let out (c : CLine) : Bool := !(c.line == line && c.data.isNone)
  let s := if s.flips.isEmpty && s.poison.isEmpty then s
    else s.cores.foldl (fun s c => if some c.1 = keep then s else l1Forget c.1 line s) s
  { s with
    cores := s.cores.map fun c => if some c.1 = keep then c else (c.1, { c.2 with l1 := c.2.l1.filter out }),
    groves := s.groves.map fun g => (g.1, { g.2 with cache := g.2.cache.filter out }) }

/-- A load of a line by a core of a context (R74), by `fill` into its caches, for its grove. -/
def dirFill (core line : Nat) (fill : State → State) (s : State) : State :=
  let g := groveOfCore core
  let done (d : DirSt) (s : State) : State :=
    let s := fill s
    { s with dir := Tab.set s.dir line d }
  match Tab.get s.dir line with
  | none => done (.exclusive core false) s
  | some (.exclusive c d) =>
    if c = core then done (.exclusive core d) s
    else done (.shared (Sorted.ofList [groveOfCore c, g])) (l1Leave c line d s)
  | some (.shared gs) => done (.shared (Sorted.insert gs g)) s
  | some (.engine _) => s

/-- A thread load of a line by a core of a context (R74). -/
def dirLoad (core cid line : Nat) (s : State) : State :=
  if inL1 s core line then s else dirFill core line (fillLine core cid line none none) s

/-- A thread store, AMO or CAS of a line by a core of a context (R74). -/
def dirStore (core cid line : Nat) (s : State) : State :=
  match Tab.get s.dir line with
  | some (.engine _) => s
  | _ =>
    let s := dropCopies line (some core) s
    let s := if inL1 s core line then s else fillLine core cid line none none s
    { s with dir := Tab.set s.dir line (.exclusive core true) }

/-- A line is asked for in a grove's cache only (R228): its grove shares it. -/
def dirPrefetch (core cid line : Nat) (s : State) : State :=
  let g := groveOfCore core
  if inGrove s g line || (s.groveOf g).gcfg.extractLsb' 8 2 == 0 then s
  else
    let done (gs : List Nat) (s : State) : State :=
      let s := groveFill g cid line none none s
      { s with dir := Tab.set s.dir line (.shared (Sorted.insert gs g)) }
    match Tab.get s.dir line with
    | none => done [] s
    | some (.exclusive c d) => done [groveOfCore c] (l1Leave c line d s)
    | some (.shared gs) => done gs s
    | some (.engine _) => s

/-- The directory recalls a line from every cache (R74, R114). -/
def dirRecall (line : Nat) (s : State) : State :=
  match Tab.get s.dir line with
  | some (.engine _) => s
  | _ =>
    let s := dropCopies line none s
    { s with dir := Tab.erase s.dir line }

/-- Bring the line of a cacheable peer page into a core's caches (R25), reached at `va`; `l1` says whether into its L1 data cache
too. -/
def fillPeerLine (core cid tag : Nat) (va : Nat × Nat × Nat) (l1 : Bool) (s : State) : State :=
  let from' := if (tag - 2 ^ 63) / 2 ^ 48 = Config.moduleId then tag % 2 ^ 48 else tag
  let data := some ((peerLine s core tag).getD (BitVec.ofNat 1024 (s.mem.read from' 128)))
  if l1 then fillLine core cid tag data (some va) s else groveFill (groveOfCore core) cid tag data (some va) s

/-- The lines of an access to cacheable peer pages, with the space, base and size in bits of the page that each is reached by. -/
def peerLines (s : State) (va : Word) (a : Acc) : List (Nat × Nat × Nat × Nat) :=
  a.ca.eraseDups.zipIdx.map fun l =>
    (l.1, xrootSpace s.ctx.xroot, (va.toNat / 128 * 128 + 128 * l.2) / 2 ^ a.bits * 2 ^ a.bits, a.bits)

/-- The newest byte that a list of held stores gives a key. -/
def heldByte (l : List BufStore) (k : Nat) : Option Byte :=
  l.foldl (fun r b => match b.bytes.find? (·.1 == k) with | some c => some c.2 | none => r) none

/-- A byte as the executing slot reads it: its own stores in the release buffer (R128), a cached peer line, or memory. -/
def byteFor (s : State) (ca : List Nat) (k : Nat) : Byte :=
  match heldByte s.me.rbuf k with
  | some b => b
  | none =>
    match (if ca.contains (peerTag k) then peerLine s s.core (peerTag k) else none) with
    | some w => BitVec.ofNat 8 (w.toNat / 2 ^ (8 * (k % 128)))
    | none => s.mem.byte k

/-- Bytes as a little-endian number (R4). -/
def ofBytes : List Byte → Nat
  | [] => 0
  | b :: t => b.toNat + 256 * ofBytes t

/-- The cells that store a number's bytes at the given keys. -/
def cellsFor : List Nat → Nat → List Host.Cell
  | [], _ => []
  | k :: t, v => (k, BitVec.ofNat 8 v) :: cellsFor t (v / 256)

/-- What an uncorrectable word that a core or another party consumed makes of the machine besides the trap (R344): its unit is
quarantined and noted. -/
def blameUnit (reader : Option Nat) (k : Nat) (s : State) : State :=
  let u := badUnit s reader k
  noteUid [s.ctx.lid] u (quarantine u false s)

/-- MACHINE_CHECK for an uncorrectable word (R343, R344). -/
def machineCheck {α : Type} (reader : Option Nat) (k : Nat) (va : Word) : M α := do
  modify (blameUnit reader k)
  trap { code := Cause.machineCheck, tv := va }

/-- Read words with the checks of R66 and R73. At the first consumption of an uncorrectable one by the instruction the data is read
once more; a second one, at whatever word, meets MACHINE_CHECK (R162, R343). The bits to flip, by word. -/
def checkWords (reader : Option Nat) (va : Word) (keys : List Nat) : M (List (Nat × Word)) := do
  let s ← get
  let r := rasRead reader keys s
  set r.1
  match r.2.2, s.me.retried with
  | [], _ => pure r.2.1
  | k :: _, true => machineCheck reader k va
  | _, false =>
    let r := rasRead reader keys (r.1.mapMe fun v => { v with retried := true })
    set r.1
    match r.2.2 with
    | k :: _ => machineCheck reader k va
    | [] => pure r.2.1

/-- The bytes of checked words as a number. -/
def fixBytes (flips : List (Nat × Word)) (byte : Nat → Byte) (keys : List Nat) : Nat :=
  ofBytes (keys.map fun k =>
    match flips.find? (·.1 == Key.word k) with
    | some m => byte k ^^^ BitVec.ofNat 8 (m.2.toNat / 2 ^ (8 * (k % 8)))
    | none => byte k)

/-- Read the `n` bytes of a word with the checks of R66 and R73, by a core or another party: none when they are uncorrectable. -/
def checkedWord (reader : Option Nat) (k n : Nat) (s : State) : State × Option Nat :=
  let keys := keyRange k n
  let r := rasRead reader keys s
  (r.1, if r.2.2.isEmpty then some (fixBytes r.2.1 r.1.mem.byte keys) else none)

/-- Read resolved bytes with the array checks (R66). -/
def readChecked (reader : Option Nat) (va : Word) (keys : List Nat) (byte : State → Nat → Byte) : M Nat := do
  let flips ← checkWords reader va keys
  let s ← get
  pure (fixBytes flips (byte s) keys)

/-- The slots whose stores in flight a load of the executing slot waits for: its own, and those of the other members of its replica
group, since the lead's commit for all (R128). -/
def storers (s : State) : List Slot :=
  match groupOf s s.cur with
  | none => [s.me]
  | some g => (s.allSlots.filter fun e => e.1.lcore == s.cur.lcore && e.1.slot == s.cur.slot &&
      (s.ctxOf e.1.cid).lid == g.lid).map (·.2)

/-- The slots whose writes the executing slot's own are: itself, and the other members of its replica group (R128). -/
def selfKeys (s : State) : List SlotKey :=
  match groupOf s s.cur with
  | none => [s.cur]
  | some g => (s.ctxs.filter fun c => c.2.lid == g.lid).map fun c => ⟨c.1, s.cur.lcore, s.cur.slot⟩

/-- Wait for the slot's stores in flight to given bytes: a load reads its own slot's latest write only once memory has taken
it (R28, R105, R126). -/
def awaitOwn (keys : List Nat) : M Unit := do
  if (storers (← get)).any fun v => v.inflight.any fun b => b.bytes.any fun c => keys.contains c.1 then wait .reply else pure ()

/-- Wait until bytes can be loaded. -/
def readyToLoad (keys : List Nat) : M Unit := do
  notBusy keys
  awaitOwn keys

/-! Former values of bytes (R105, R108, log 4). -/

/-- The executing slot sees every write performed so far: an acquire (R109). -/
def catchUp (s : State) : State := if s.former.isEmpty then s else s.mapMe fun v => { v with floor := s.writes }

/-- The latest write that a plain load of the executing slot takes its bytes as of, `lag` writes ago at most: none older than what
the slot has seen of them (R105, R112). -/
def readAsOf (s : State) (lag : Nat) (keys : List Nat) : Nat :=
  Nat.min s.writes ((keys.map fun k => Tab.getD s.me.seen (Key.word k) 0).foldl Nat.max (Nat.max s.me.floor (s.writes - lag)))

/-- The value of a byte as of write `n`, when a later write has replaced it. -/
def formerByte (s : State) (n k : Nat) : Option Byte := (s.former.find? fun f => f.key == k && decide (n < f.until')).map (·.byte)

/-- The next choice of log 4, for a plain access of a slot: 0, performed at once and seeing every write, when none is given. -/
def nextWeak : M Nat := do
  let s ← get
  match s.weak with
  | [] => pure 0
  | n :: t => do
    set { s with weak := t }
    pure n

/-- A thread's load of resolved bytes, as of `lag` writes ago where the slot has seen nothing newer of them. -/
def loadAcc (va : Word) (a : Acc) (lag : Nat := 0) : M Nat := do
  readyToLoad a.keys
  modify fun s => (peerLines s va a).foldl (fun s l => fillPeerLine s.core s.cur.cid l.1 l.2 true s)
    (a.dev.foldl (fun s l => dirLoad s.core s.cur.cid l s) s)
  let s ← get
  let place (k : Nat) : Nat := if a.ca.contains (peerTag k) && (peerLine s s.core (peerTag k)).isSome then caKey k else k
  let flips ← checkWords (some s.core) va (a.keys.map place)
  let s ← get
  let n := readAsOf s lag a.keys
  set (sawWords s.cur n a.keys s)
  pure (ofBytes (a.keys.map fun k =>
    let b := match heldByte s.me.rbuf k with
      | some b => b
      | none => (formerByte s n k).getD (byteFor s a.ca k)
    match flips.find? (·.1 == Key.word (place k)) with
    | some m => b ^^^ BitVec.ofNat 8 (m.2.toNat / 2 ^ (8 * (k % 8)))
    | none => b))

/-- Bytes reach memory: injected errors, reservations on the words and watching slots follow (R69, R266, R268). While choices of
log 4 are left, the former values are kept for them. -/
def performWrite (cells : List Host.Cell) (s : State) : State :=
  let keys := cells.map (·.1)
  let s : State := if s.weak.isEmpty then s
    else (selfKeys s).foldl (fun s k => sawWords k s.writes keys s)
      { s with writes := s.writes + 1, former := s.former ++ cells.map fun c => ⟨c.1, s.mem.byte c.1, s.writes + 1⟩ }
  let s := rasWrite keys { s with mem := s.mem.writeCells cells }
  let s := { s with resvs := s.resvs.filter fun r => !keys.any fun k => Key.word k == r.word }
  let watchers := (s.allSlots.filter fun e => e.2.st == .parked .vwait).map (·.1)
  watchers.foldl (fun s k => s.pushOnce (.vwaitReexamine k)) s

/-- Keep the refusal of the earliest store (R28). -/
def Slot.refuse (v : Slot) (r : Refused) : Slot :=
  { v with refused := match v.refused with | some x => if x.ord ≤ r.ord then some x else some r | none => some r }

/-- A store to host memory (R27, R28): posted through an enabled function, else refused and reported later. -/
def hostStore (b : BufStore) (cells : List Host.Cell) (s : State) : State :=
  let s := s.mapMe fun v => { v with stores := v.stores + 1 }
  if functionOn s s.ctx.tenant then performWrite (cells.filter fun c => !hostErrs s c.1) s
  else s.mapMe fun v => v.refuse ⟨v.stores, b.va, 0, Reason.hostRejected, b.elem⟩

/-- The store of bytes to one peer module is in flight until its reply (R28). -/
def peerStore (b : BufStore) (s : State) (m : Nat) : State :=
  let cells := b.bytes.filter fun c => decide (2 ^ 63 ≤ c.1) && (c.1 - 2 ^ 63) / 2 ^ 48 == m
  let ex := (Tab.getD s.peers m ⟨false, false, [], false, 0⟩).exports
  let ok := cells.all fun c => (exportAllows ex Config.moduleId ((c.1 - 2 ^ 63) % 2 ^ 48) 1 .store).isSome
  (s.mapMe fun v => { v with
    stores := v.stores + 1, inflight := v.inflight ++ [{ b with modId := m, bytes := cells, ord := v.stores + 1 }] }).push
    (.peerStoreReply s.cur ok)

/-- A store of a core of a context to bytes of this module is performed (R74). -/
def performOwn (core cid : Nat) (own : List Host.Cell) (dev : List Nat) (s : State) : State :=
  let s := dev.foldl (fun s l => dirStore core cid l s) s
  performWrite own (l1Write core (if dev.isEmpty then [] else Sorted.ofList (own.map fun c => Key.word c.1)) s)

/-- A plain store takes effect on each target that its bytes lie in (R23 to R28). -/
def commitStore (b : BufStore) (s : State) : State :=
  let own := b.bytes.filter fun c => decide (c.1 < 2 ^ 62)
  let bus := b.bytes.filter fun c => Key.isHost c.1
  let mods := Sorted.ofList ((b.bytes.filter fun c => decide (2 ^ 63 ≤ c.1)).map fun c => (c.1 - 2 ^ 63) / 2 ^ 48)
  let s := if own.isEmpty then s else
    performOwn s.core s.cur.cid own b.dev s
  let s := if bus.isEmpty then s else hostStore b bus s
  mods.foldl (peerStore b) s

/-! Late stores (R105, R112, log 4). -/

/-- A late store of a slot is performed. -/
def performLate (l : Late) (s : State) : State :=
  let s := performOwn l.core l.key.cid l.store.bytes l.store.dev { s with late := s.late.erase l }
  sawWords l.key s.writes (l.store.bytes.map (·.1)) s

/-- Late stores of the executing slot that meet a condition are performed, in the order in which they were issued, each once its
bytes are free. -/
def flushLate (p : Late → Bool) : M Unit := do
  let s ← get
  forL (fun l => do
    notBusy (l.store.bytes.map (·.1))
    modify (performLate l)) (s.late.filter fun l => l.key == s.cur && p l)

/-- A late store is performed, if its bytes are free. -/
def settleOne (l : Late) (s : State) : State :=
  if (busyAt s (.slot l.key) none (l.store.bytes.map (·.1))).isSome then s else performLate l s

/-- Every late store whose bytes are free is performed, oldest first. -/
def settleLate (s : State) : State := s.late.foldl (fun s l => settleOne l s) s

/-- Whether a store has bytes in words of given keys. -/
def touches (b : BufStore) (keys : List Nat) : Bool := b.bytes.any fun c => keys.any fun k => Key.word k == Key.word c.1

/-- Resolve an access of the executing slot; the walk's effects stay when it fails later. Late stores of the slot to the bytes come
first (R105), and where it writes, those that a release fence has followed (R111). -/
def tryResolve (va : Word) (n : Nat) (kind : AccKind) (op : OpClass) : M (Except XFault Acc) := do
  let s ← get
  let r := resolve s (slotReq s) va n kind op
  set r.1
  match r.2 with
  | .ok a =>
    if r.1.late.isEmpty then pure () else flushLate fun l => touches l.store a.keys || l.fenced && Pte.writes kind
    pure (.ok a)
  | .error f => pure (.error f)

/-- Resolve a scalar access of the executing slot, or trap (R33). -/
def resolveM (va : Word) (n : Nat) (kind : AccKind) (op : OpClass) : M Acc := do
  match ← tryResolve va n kind op with
  | .ok a => pure a
  | .error f => trap (f.trap kind 0)

/-- The size of the leaf that translated the executing slot's access, should it wait (R315). -/
def noteLeaf (a : Acc) : M Unit := modify fun s => s.mapMe fun v => { v with leaf := a.bits }

/-- A thread's store of `n` bytes in elements of `eb` that writes the given cells; a replica holds it in its release buffer
(R128, R355), unless the lead performs it at a comparison point that passed (R354). `elem` is the element of a vector store; `late`
says that a store to this module alone is performed later (log 4). -/
def storeCells (va : Word) (a : Acc) (n v : Nat) (cells : List Host.Cell) (elem : Nat := 0) (eb : Nat := n) (late : Bool := false) :
    M Unit := do
  notBusy a.keys
  let s ← get
  let b : BufStore := ⟨va, 0, cells, a.dev, elem, 0, a.bits⟩
  if replicated s && !s.me.passed then do
    if s.me.sig.cnt + partCount va n > 512 then do
      modify (arrive none)
      wait .vote
    else pure ()
    modify fun s => s.mapMe fun w => { w.recordStore va n v eb with rbuf := w.rbuf ++ [b] }
  else if late && cells.all (fun c => decide (c.1 < 2 ^ 62)) then
    modify fun s => { s with late := s.late ++ [⟨s.cur, s.core, false, b⟩] }
  else modify (commitStore b)

/-- A thread's store of all the bytes of a resolved access. -/
def storeAcc (va : Word) (a : Acc) (n v : Nat) : M Unit := storeCells va a n v (cellsFor a.keys v)

/-- Wait until the slot's stores to other modules are answered (R28, R109). -/
def drainStores : M Unit := do
  if (← get).me.inflight.isEmpty then pure () else wait .reply

/-- An ordering point of ORD `o` (R28, R109): it waits for replies to the slot's peer stores and reports the earliest refusal. Where it
releases, the slot's late stores are performed first; where it acquires, the slot sees every write performed. -/
def orderPointOf (o : Order) : M Unit := do
  if (← get).late.isEmpty || o = .plain || o = .acquire then pure () else flushLate fun _ => true
  drainStores
  if o = .plain || o = .release then pure () else modify catchUp
  match (← get).me.refused with
  | some r => do
    modify fun s => s.mapMe fun v => { v with refused := none }
    trap { code := Cause.accessFault, tv := r.va, ti := tinfoWord r.elem r.modId true 0 1 r.reason }
  | none => pure ()

/-- An ordering point that releases and acquires. -/
def orderPoint : M Unit := orderPointOf .acqRel

/-- An ordering point where an instruction acquires or releases. -/
def orderPointIf (o : Order) : M Unit := if o = .plain then pure () else orderPointOf o

/-- A scalar load of `n` bytes (R225, R226). -/
def loadBytes (va : Word) (n : Nat) : M Nat := do
  let a ← resolveM va n .load .load
  loadAcc va a

/-- A plain LD, which may see former values (R108, log 4). -/
def loadPlain (va : Word) (n : Nat) : M Nat := do
  let a ← resolveM va n .load .load
  readyToLoad a.keys
  let lag ← nextWeak
  loadAcc va a lag

/-- A plain ST, which may be performed late (R112, log 4). -/
def storePlain (va : Word) (n v : Nat) : M Unit := do
  let a ← resolveM va n .store .store
  notBusy a.keys
  let w ← nextWeak
  storeCells va a n v (cellsFor a.keys v) (late := w != 0)

/-- A scalar store of `n` bytes (R225, R226). -/
def storeBytes (va : Word) (n v : Nat) : M Unit := do
  let a ← resolveM va n .store .store
  storeAcc va a n v

end Sys2Proof.Machine
end

