-- ==== Sys2Proof/Machine/Flags.lean ====
section
/-!
DEFINITION. Floating-point formats, values, rounding and flags (R130 to R146), and the floating-point traps (R220).
-/
namespace Sys2Proof.Machine

/-! The flags of fflags (R139). -/
namespace Fl
def nv : Nat := 16
def dz : Nat := 8
def of : Nat := 4
def uf : Nat := 2
def nx : Nat := 1
end Fl

/-- How a format holds NaNs (R131): none, by an all-ones exponent, or the one E4M3 pattern. -/
inductive NanKind where
  | none | ieee | e4m3
  deriving DecidableEq, Repr

/-- A floating-point layout (R131): exponent and mantissa bits, bias, infinity, NaNs, largest finite encoding. -/
structure Fmt where
  eb : Nat
  mb : Nat
  bias : Nat
  inf : Bool
  nan : NanKind
  maxBits : Nat
  deriving DecidableEq, Repr

namespace Fmt
def fp64 : Fmt := ⟨11, 52, 1023, true, .ieee, 0x7FEFFFFFFFFFFFFF⟩
def fp32 : Fmt := ⟨8, 23, 127, true, .ieee, 0x7F7FFFFF⟩
def bf16 : Fmt := ⟨8, 7, 127, true, .ieee, 0x7F7F⟩
def fp16 : Fmt := ⟨5, 10, 15, true, .ieee, 0x7BFF⟩
def e4m3 : Fmt := ⟨4, 3, 7, false, .e4m3, 0x7E⟩
def e5m2 : Fmt := ⟨5, 2, 15, true, .ieee, 0x7B⟩
def e3m2 : Fmt := ⟨3, 2, 3, false, .none, 0x1F⟩
def e2m3 : Fmt := ⟨2, 3, 1, false, .none, 0x1F⟩
def e2m1 : Fmt := ⟨2, 1, 1, false, .none, 0x7⟩
/-- The width of an encoding. -/
def width (f : Fmt) : Nat := 1 + f.eb + f.mb
/-- The sign bit as a number. -/
def signBit (f : Fmt) (neg : Bool) : Nat := if neg then 2 ^ (f.eb + f.mb) else 0
/-- The encoding of infinity. -/
def infBits (f : Fmt) : Nat := (2 ^ f.eb - 1) * 2 ^ f.mb
/-- The default NaN (R132). -/
def defaultNan (f : Fmt) : Nat :=
  match f.nan with
  | .ieee => f.infBits + 2 ^ (f.mb - 1)
  | .e4m3 => 0x7F
  | .none => 0
end Fmt

/-- A floating-point datum (R132): a NaN with sign, signalling flag and payload aligned to 51 bits, an infinity, or
(−1)^neg × m × 2^e. -/
inductive FV where
  | nan (neg sig : Bool) (payload : Nat)
  | inf (neg : Bool)
  | fin (neg : Bool) (m : Nat) (e : Int)
  deriving DecidableEq, Repr

/-- Read an encoding (R131, R132). -/
def Fmt.decode (f : Fmt) (bits : Nat) : FV :=
  let neg := bits.testBit (f.eb + f.mb)
  let e := bits / 2 ^ f.mb % 2 ^ f.eb
  let m := bits % 2 ^ f.mb
  if f.nan = .ieee ∧ e = 2 ^ f.eb - 1 then
    if m = 0 then .inf neg
    else .nan neg (!m.testBit (f.mb - 1)) (m % 2 ^ (f.mb - 1) * 2 ^ (51 - (f.mb - 1)))
  else if f.nan = .e4m3 ∧ bits % 128 = 127 then .nan neg false 0
  else if e = 0 then .fin neg m (1 - (f.bias : Int) - f.mb)
  else .fin neg (m + 2 ^ f.mb) ((e : Int) - f.bias - f.mb)

namespace FV
def isNan : FV → Bool | .nan _ _ _ => true | _ => false
def isSnan : FV → Bool | .nan _ s _ => s | _ => false
def isInf : FV → Bool | .inf _ => true | _ => false
def isZero : FV → Bool | .fin _ m _ => m == 0 | _ => false
def neg : FV → Bool | .nan s _ _ => s | .inf s => s | .fin s _ _ => s
/-- The value with its sign changed. -/
def negate : FV → FV | .nan s g p => .nan (!s) g p | .inf s => .inf (!s) | .fin s m e => .fin (!s) m e
end FV

/-! Rounding (R140 to R143). Modes: 0 RNE, 1 RTZ, 2 RDN, 3 RUP, 4 RMM, 5 RTO, 6 SR. -/

/-- Whether to take the larger magnitude, for n + rem / 2^shift units (R140, R142): `sticky` adds a positive amount
below one unit of rem's last place. -/
def roundUp (mode : Nat) (neg : Bool) (n rem shift : Nat) (sticky : Bool) (r : Nat) : Bool :=
  if rem = 0 ∧ !sticky then false
  else
    let half := 2 ^ shift / 2
    match mode with
    | 0 => rem > half || (rem == half && (sticky || n % 2 == 1)) && shift != 0
    | 1 => false
    | 2 => neg
    | 3 => !neg
    | 4 => rem ≥ half && shift != 0
    | 5 => n % 2 == 0
    | _ => rem * 2 ^ 32 / 2 ^ shift + r ≥ 2 ^ 32

/-- The result of an overflow (R141). -/
def Fmt.overflow (f : Fmt) (mode : Nat) (neg up : Bool) : Nat :=
  let toInf := f.inf && (match mode with
    | 0 | 4 => true
    | 2 => neg
    | 3 => !neg
    | 6 => up
    | _ => false)
  f.signBit neg + (if toInf then f.infBits else f.maxBits)

/-- `round` of R140 for the exact magnitude m × 2^e, plus less than 2^e when `sticky`: the encoding and the flags.
With `sticky`, m must have more bits than the format keeps. -/
def Fmt.round (f : Fmt) (mode : Nat) (r : Nat) (neg : Bool) (m : Nat) (e : Int) (sticky : Bool := false) : Nat × Nat :=
  if m = 0 ∧ !sticky then (f.signBit neg, 0)
  else
    let top : Int := (m.log2 : Int) + e
    let emin : Int := 1 - (f.bias : Int)
    let q : Int := (if top < emin then emin else top) - f.mb
    let shift := (q - e).toNat
    let n := if q ≤ e then m * 2 ^ (e - q).toNat else m / 2 ^ shift
    let rem := if q ≤ e then 0 else m % 2 ^ shift
    let up := roundUp mode neg n rem shift sticky r
    let n' := if up then n + 1 else n
    let inexact := rem != 0 || sticky
    let field : Int := if n' < 2 ^ f.mb then 0 else q + f.mb + f.bias
    let mag : Nat := if n' < 2 ^ f.mb then n' else ((field - 1).toNat * 2 ^ f.mb) + n'
    if mag > f.maxBits then (f.overflow mode neg up, Fl.of + Fl.nx)
    else
      let uf := inexact && n' != 0 && decide (mag < 2 ^ f.mb)
      (f.signBit neg + mag, (if inexact then Fl.nx else 0) + (if uf then Fl.uf else 0))

/-- The integer that R140 rounds ±m × 2^e to, and whether it is inexact. -/
def roundInt (mode r : Nat) (neg : Bool) (m : Nat) (e : Int) : Int × Bool :=
  let shift := (-e).toNat
  let n := if 0 ≤ e then m * 2 ^ e.toNat else m / 2 ^ shift
  let rem := if 0 ≤ e then 0 else m % 2 ^ shift
  let n' := if roundUp mode neg n rem shift false r then n + 1 else n
  (if neg then -(n' : Int) else n', rem != 0)

/-! Conversions (R143, R144). -/

/-- A number format of R130, or FP64 and the 64-bit integers of R219. -/
inductive NumFmt where
  | flt (f : Fmt)
  | int (signed : Bool) (w : Nat)
  deriving DecidableEq, Repr

/-- The element width of a format. -/
def NumFmt.width : NumFmt → Nat | .flt f => f.width | .int _ w => w

/-- The unscaled formats by code (R130). -/
def numFmt (code : Nat) : Option NumFmt :=
  match code with
  | 0x00 => some (.flt .fp32) | 0x01 => some (.flt .bf16) | 0x02 => some (.flt .fp16) | 0x03 => some (.int true 32)
  | 0x04 => some (.flt .e4m3) | 0x05 => some (.flt .e5m2) | 0x06 => some (.flt .e3m2) | 0x07 => some (.flt .e2m3)
  | 0x08 => some (.flt .e2m1) | 0x09 => some (.int true 8) | 0x0A => some (.int false 8) | 0x0B => some (.int true 4)
  | 0x0C => some (.int false 4) | 0x0D => some (.int true 2) | 0x0E => some (.int true 16)
  | 0x0F => some (.int false 16) | _ => none

/-- The formats of FCVT (R219). -/
def cvtFmt (code : Nat) : NumFmt :=
  match code with
  | 0 => .flt .fp32 | 1 => .flt .fp64 | 2 => .int true 32 | 3 => .int false 32 | 4 => .int true 64
  | 5 => .int false 64 | 6 => .flt .bf16 | 7 => .flt .fp16 | 8 => .flt .e4m3 | _ => .flt .e5m2

/-- The value of an integer encoding; the reserved INT2 code reads as 0 (R133). -/
def intValue (signed : Bool) (w bits : Nat) : Int :=
  if signed then (if w = 2 ∧ bits % 4 = 2 then 0 else Bits.sv w bits) else ((bits % 2 ^ w : Nat) : Int)

/-- Encode a NaN in a format (R144): the encoding and whether NV is raised. -/
def Fmt.putNan (f : Fmt) (neg sig : Bool) (payload : Nat) : Nat × Nat :=
  match f.nan with
  | .ieee => (f.signBit neg + f.defaultNan + payload / 2 ^ (51 - (f.mb - 1)), if sig then Fl.nv else 0)
  | .e4m3 => (f.signBit neg + 0x7F, if sig then Fl.nv else 0)
  | .none => (f.signBit neg, Fl.nv)

/-- Encode a datum in a format (R140, R141, R144). -/
def Fmt.encode (f : Fmt) (mode r : Nat) : FV → Nat × Nat
  | .nan neg sig p => f.putNan neg sig p
  | .inf neg => if f.inf then (f.signBit neg + f.infBits, 0) else (f.signBit neg + f.maxBits, Fl.of + Fl.nx)
  | .fin neg m e => f.round mode r neg m e

/-- Clamp an integer to a format's range (R143; INT2 is [−1, 1], R133). -/
def intRange (signed : Bool) (w : Nat) : Int × Int :=
  if signed then (if w = 2 then -1 else -(2 ^ (w - 1) : Nat), ((2 ^ (w - 1) : Nat) : Int) - 1) else (0, ((2 ^ w : Nat) : Int) - 1)

/-- Convert a datum to an integer format (R143). -/
def toInt (signed : Bool) (w mode r : Nat) (x : FV) : Nat × Nat :=
  let (lo, hi) := intRange signed w
  match x with
  | .nan _ _ _ => (0, Fl.nv)
  | .inf neg => (Bits.wrap w (if neg then lo else hi), Fl.nv)
  | .fin neg m e =>
    let (n, inexact) := roundInt mode r neg m e
    if n < lo then (Bits.wrap w lo, Fl.nv)
    else if n > hi then (Bits.wrap w hi, Fl.nv)
    else (Bits.wrap w n, if inexact then Fl.nx else 0)

/-- An integer as a datum. -/
def ofInt (x : Int) : FV := .fin (decide (x < 0)) x.natAbs 0

/-- The datum that an encoding of a format stands for, and the flags of reading it (R133). -/
def NumFmt.read (f : NumFmt) (bits : Nat) : FV × Nat :=
  match f with
  | .flt f => (f.decode bits, 0)
  | .int s w => (ofInt (intValue s w bits), if s && w == 2 && bits % 4 == 2 then Fl.nv else 0)

/-- Convert one element (R143, R144): the encoding and the flags. -/
def convert (src dst : NumFmt) (mode r bits : Nat) : Nat × Nat :=
  let (x, fl) := src.read bits
  let (y, fl') := match dst with
    | .flt f => f.encode mode r x
    | .int s w => toInt s w mode r x
  (y, fl ||| fl')

/-! Arithmetic (R145, R146). -/

/-- The quieted NaN operand that a result takes (R145, step 1). -/
def firstNan (f : Fmt) (xs : List FV) : Option (Nat × Nat) :=
  match xs.find? (·.isNan) with
  | some (.nan neg _ p) => some ((f.putNan neg false p).1, if xs.any (·.isSnan) then Fl.nv else 0)
  | _ => none

/-- An exact signed sum m × 2^e of two finite data. -/
def addFin (n1 : Bool) (m1 : Nat) (e1 : Int) (n2 : Bool) (m2 : Nat) (e2 : Int) : Int × Int :=
  let e := if e1 ≤ e2 then e1 else e2
  let a : Int := (m1 * 2 ^ (e1 - e).toNat : Nat)
  let b : Int := (m2 * 2 ^ (e2 - e).toNat : Nat)
  ((if n1 then -a else a) + (if n2 then -b else b), e)

/-- Round the exact sum of two finite data, with the sign rule of an exact zero (R140). -/
def roundSum (f : Fmt) (mode : Nat) (n1 : Bool) (m1 : Nat) (e1 : Int) (n2 : Bool) (m2 : Nat) (e2 : Int) : Nat × Nat :=
  let (x, e) := addFin n1 m1 e1 n2 m2 e2
  if x = 0 then
    let neg := if n1 == n2 then n1 else mode == 2
    (f.signBit neg, 0)
  else f.round mode 0 (decide (x < 0)) x.natAbs e

/-- A + B of data, after the NaN test (R145). -/
def sumFV (f : Fmt) (mode : Nat) (a b : FV) : Nat × Nat :=
  match a, b with
  | .inf s, .inf t => if s = t then (f.signBit s + f.infBits, 0) else (f.defaultNan, Fl.nv)
  | .inf s, _ => (f.signBit s + f.infBits, 0)
  | _, .inf t => (f.signBit t + f.infBits, 0)
  | .fin s m e, .fin t n d => roundSum f mode s m e t n d
  | _, _ => (f.defaultNan, 0)

/-- FADD (R145). -/
def fAdd (f : Fmt) (mode a b : Nat) : Nat × Nat :=
  let x := f.decode a
  let y := f.decode b
  match firstNan f [x, y] with
  | some r => r
  | none => sumFV f mode x y

/-- FSUB (R145). -/
def fSub (f : Fmt) (mode a b : Nat) : Nat × Nat :=
  let x := f.decode a
  let y := f.decode b
  match firstNan f [x, y] with
  | some r => r
  | none => sumFV f mode x y.negate

/-- FMUL (R145). -/
def fMul (f : Fmt) (mode a b : Nat) : Nat × Nat :=
  let x := f.decode a
  let y := f.decode b
  match firstNan f [x, y] with
  | some r => r
  | none =>
    let neg := x.neg != y.neg
    match x, y with
    | .fin _ m e, .fin _ n d => f.round mode 0 neg (m * n) (e + d)
    | _, _ => if x.isZero || y.isZero then (f.defaultNan, Fl.nv) else (f.signBit neg + f.infBits, 0)

/-- FMA: A × B + C with one rounding; the first NaN in the order C, B, A (R145). -/
def fMa (f : Fmt) (mode a b c : Nat) : Nat × Nat :=
  let x := f.decode a
  let y := f.decode b
  let z := f.decode c
  let invalid := (x.isInf && y.isZero) || (x.isZero && y.isInf)
  match firstNan f [z, y, x] with
  | some r => (r.1, r.2 ||| (if invalid then Fl.nv else 0))
  | none =>
    if invalid then (f.defaultNan, Fl.nv)
    else
      let neg := x.neg != y.neg
      let p : FV := match x, y with
        | .fin _ m e, .fin _ n d => .fin neg (m * n) (e + d)
        | _, _ => .inf neg
      sumFV f mode p z

/-- FDIV (R145). -/
def fDiv (f : Fmt) (mode a b : Nat) : Nat × Nat :=
  let x := f.decode a
  let y := f.decode b
  match firstNan f [x, y] with
  | some r => r
  | none =>
    let neg := x.neg != y.neg
    match x, y with
    | .fin _ m e, .fin _ n d =>
      if n = 0 then (if m = 0 then (f.defaultNan, Fl.nv) else (f.signBit neg + f.infBits, Fl.dz))
      else if m = 0 then (f.signBit neg, 0)
      else
        let k := f.mb + 4 + n.log2
        let q := m * 2 ^ k / n
        f.round mode 0 neg q (e - d - k) (m * 2 ^ k % n != 0)
    | .inf _, .inf _ => (f.defaultNan, Fl.nv)
    | .inf _, _ => (f.signBit neg + f.infBits, 0)
    | _, _ => (f.signBit neg, 0)

/-- The integer square root by binary digits below 2^n. -/
def isqrt (m : Nat) : Nat → Nat → Nat
  | 0, r => r
  | n + 1, r => isqrt m n (if (r + 2 ^ n) * (r + 2 ^ n) ≤ m then r + 2 ^ n else r)

/-- FSQRT (R145, R216). -/
def fSqrt (f : Fmt) (mode a : Nat) : Nat × Nat :=
  let x := f.decode a
  match firstNan f [x] with
  | some r => r
  | none =>
    match x with
    | .fin neg m e =>
      if m = 0 then (f.signBit neg, 0)
      else if neg then (f.defaultNan, Fl.nv)
      else
        let t := 2 * (f.mb + 4) + (if (e - (2 * (f.mb + 4) : Nat)) % 2 = 0 then 0 else 1)
        let m' := m * 2 ^ t
        let r := isqrt m' (m'.log2 / 2 + 1) 0
        f.round mode 0 false r ((e - t) / 2) (r * r != m')
    | .inf neg => if neg then (f.defaultNan, Fl.nv) else (f.infBits, 0)
    | _ => (f.defaultNan, 0)

/-- Order of two data that are not NaNs: −1, 0 or 1; zeros are equal. -/
def cmpFV (a b : FV) : Int :=
  match a, b with
  | .inf s, .inf t => if s == t then 0 else if s then -1 else 1
  | .inf s, _ => if s then -1 else 1
  | _, .inf t => if t then 1 else -1
  | .fin s m e, .fin t n d => (addFin s m e (!t) n d).1.sign
  | _, _ => 0

/-- minimumNumber and maximumNumber (R146). -/
def fMinMax (f : Fmt) (isMax : Bool) (a b : Nat) : Nat × Nat :=
  let x := f.decode a
  let y := f.decode b
  let fl := if x.isSnan || y.isSnan then Fl.nv else 0
  if x.isNan && y.isNan then ((firstNan f [x, y]).getD (0, 0)).1 |> (·, fl)
  else if x.isNan then (b, fl)
  else if y.isNan then (a, fl)
  else
    let c := cmpFV x y
    let aLess := decide (c < 0) || (c == 0 && x.neg && !y.neg)
    (if aLess != isMax then a else b, fl)

/-- FCMP: 0 EQ, 1 LT, 2 LE, 3 UN (R217). -/
def fCmp (f : Fmt) (rel a b : Nat) : Bool × Nat :=
  let x := f.decode a
  let y := f.decode b
  if x.isNan || y.isNan then
    (rel == 3, if x.isSnan || y.isSnan || rel == 1 || rel == 2 then Fl.nv else 0)
  else
    let c := cmpFV x y
    (match rel with | 0 => c == 0 | 1 => decide (c < 0) | 2 => decide (c ≤ 0) | _ => false, 0)

/-- FCLASS (R218). -/
def fClass (f : Fmt) (a : Nat) : Nat :=
  match f.decode a with
  | .nan _ s _ => if s then 0x100 else 0x200
  | .inf n => if n then 0x1 else 0x80
  | .fin n m _ =>
    if m = 0 then (if n then 0x8 else 0x10)
    else if m < 2 ^ f.mb then (if n then 0x4 else 0x20)
    else (if n then 0x2 else 0x40)

/-- FSGN: 0 B's sign, 1 its inverse, 2 A's XOR B's (R218). -/
def fSgn (f : Fmt) (sub a b : Nat) : Nat :=
  let top := f.width - 1
  let sa := a.testBit top
  let sb := b.testBit top
  let s := match sub with | 0 => sb | 1 => !sb | _ => sa != sb
  a % 2 ^ top + (if s then 2 ^ top else 0)

/-! Modes, flags and traps of a slot (R138, R139, R220). -/

/-- The rounding mode that an RM field selects (R197). -/
def rmMode (v : Slot) (rm : BitVec 3) : Nat := if rm = 7 then Bits.field v.frm 0 3 else rm.toNat

/-- The cause of an enabled exception, if any: NV, then DZ, then OF (R220). -/
def fpCause (frm : Word) (fl : Nat) : Option Nat :=
  if frm.getLsbD 3 && fl.testBit 4 then some Cause.fpInvalid
  else if frm.getLsbD 4 && fl.testBit 3 then some Cause.fpDivZero
  else if frm.getLsbD 5 && fl.testBit 2 then some Cause.fpOverflow
  else none

/-- Set flags in fflags (R139). -/
def Slot.raise (v : Slot) (fl : Nat) : Slot := { v with fflags := v.fflags ||| BitVec.ofNat 64 fl }

/-- Set a flag of sat (R240): 1 SAT, 2 IOV. -/
def Slot.saturate (v : Slot) (fl : Nat) : Slot := { v with sat := v.sat ||| BitVec.ofNat 64 fl }

/-- The trap of an enabled floating-point exception at an element (R220, R252). -/
def fpTrap (cause fl elem : Nat) : Trap := { code := cause, ti := BitVec.ofNat 64 (elem * 2 ^ 48 + fl) }

end Sys2Proof.Machine
end

