-- ==== Sys2Proof/Machine/Operands.lean ====
section
/-!
DEFINITION. Operand forms: scalar operands and addresses (R198, R199, R213), vector type and groups (R235 to R241),
stream-queue pops (R161, R342), and element-wise execution with its precise stop (R252).
-/
namespace Sys2Proof.Machine

/-! Scalar operands. -/

/-- The scalar register that a field names; other classes give 0. -/
def Slot.sreg (v : Slot) : Reg → Word
  | .s i => v.getS i
  | _ => 0

/-- Write the scalar register that a field names. -/
def Slot.putS (v : Slot) (r : Reg) (x : Word) : Slot :=
  match r with
  | .s i => v.setS i x
  | _ => v

/-- The mask register that a field names. -/
def Slot.mreg (v : Slot) : Reg → Mask
  | .m i => v.getM i
  | _ => 0

/-- An immediate sign-extended to 64 bits. -/
def sextImm (x : BitVec 32) : Word := x.signExtend 64

/-- The second operand: IMM in F1, else sB (R213). -/
def FX.opB (o : FX) (v : Slot) : Word := if o.im then sextImm o.imm else v.sreg o.b

/-- The active mask of a predicate (R199). -/
def activeMask (h : Hdr) (v : Slot) : Mask :=
  let m := v.getM (Fin.ofNat 8 h.pm.toNat)
  if h.pn then ~~~m else m

/-- Whether a predicated scalar instruction takes effect: bit 0 of the active mask (R199). -/
def scalarActive (h : Hdr) (v : Slot) : Bool := (activeMask h v).getLsbD 0

/-- The F2 address of a scalar access (R198). -/
def FM.ea (o : FM) (v : Slot) : Word := v.sreg o.a + (v.sreg o.b <<< o.sh.toNat) + sextImm o.imm

/-- The conditions of CMP and BR (R198, R214): 0 EQ, 1 NE, 2 LT, 3 GE, 4 LTU, 5 GEU, on n-bit values. -/
def condHolds (c n a b : Nat) : Bool :=
  match c with
  | 0 => a % 2 ^ n == b % 2 ^ n
  | 1 => a % 2 ^ n != b % 2 ^ n
  | 2 => decide (Bits.sv n a < Bits.sv n b)
  | 3 => decide (Bits.sv n a ≥ Bits.sv n b)
  | 4 => decide (a % 2 ^ n < b % 2 ^ n)
  | _ => decide (a % 2 ^ n ≥ b % 2 ^ n)

/-! Vector type and groups (R235 to R237). -/
namespace Vt
/-- SEW: the element width n. -/
def sew (t : Word) : Nat := 8 * 2 ^ Bits.field t 0 2
/-- The grouping g. -/
def grp (t : Word) : Nat := 2 ^ Bits.field t 2 2
def tail (t : Word) : Bool := t.getLsbD 6
def lp (t : Word) : Bool := t.getLsbD 7
/-- The architectural bits of a register (R242). -/
def regBits (t : Word) : Nat := if lp t then 2048 else 4096
/-- VLMAX (R236). -/
def vlmax (t : Word) : Nat := Nat.min (4096 * grp t / sew t) 512 / (if lp t then 2 else 1)
end Vt

/-- The stream of `k` registers from `first` on (R237), `rb` bits of each. -/
def groupStream (v : Slot) (rb first : Nat) : Nat → Nat
  | 0 => 0
  | k + 1 => (v.v[first % 32]'(Nat.mod_lt _ (by decide))).toNat % 2 ^ rb + 2 ^ rb * groupStream v rb (first + 1) k

/-- Write a stream into `k` registers from `first` on; the bits above `rb` of each are kept. -/
def setStream (v : Slot) (rb first : Nat) : Nat → Nat → Slot
  | 0, _ => v
  | k + 1, x =>
    let i : Fin 32 := Fin.ofNat 32 first
    let old := (v.v[i]).toNat
    setStream { v with v := v.v.set i (BitVec.ofNat 4096 (old / 2 ^ rb * 2 ^ rb + x % 2 ^ rb)) } rb (first + 1) k
      (x / 2 ^ rb)

/-- Element i of width w of a stream (R57). -/
def elemAt (x w i : Nat) : Nat := x / 2 ^ (i * w) % 2 ^ w

/-- The first `n` elements of width w of a stream. -/
def elemsOf (w : Nat) : Nat → Nat → List Nat
  | 0, _ => []
  | n + 1, x => x % 2 ^ w :: elemsOf w n (x / 2 ^ w)

/-- Pack elements into a stream. -/
def packElems (w : Nat) : List Nat → Nat
  | [] => 0
  | x :: t => x % 2 ^ w + 2 ^ w * packElems w t

/-- Replace the elements of a stream by `f`, for indices from `i` on, `n` of them; bits above are kept. -/
def mapElems (w : Nat) (f : Nat → Nat → Nat) : Nat → Nat → Nat → Nat
  | _, 0, x => x
  | i, n + 1, x => f i (x % 2 ^ w) % 2 ^ w + 2 ^ w * mapElems w f (i + 1) n (x / 2 ^ w)

/-- The destination stream of R241: below vl the results where given, then the tail. `vl = 0` changes nothing. -/
def mergeStream (w bits vl : Nat) (tail : Bool) (fill : Nat) (res : Nat → Option Nat) (old : Nat) : Nat :=
  if vl = 0 then old
  else mapElems w (fun i x => if i < vl then (res i).getD x else if tail then fill else x) 0 (bits / w) old

/-- Whether an element of a destination stream of R241 is written. -/
def mergeWrote {α : Type} (vl : Nat) (tail : Bool) (res : Nat → Option α) (i : Nat) : Bool :=
  vl != 0 && (if i < vl then (res i).isSome else tail)

/-- A mask destination of R241. -/
def mergeMask (vl : Nat) (tail : Bool) (res : Nat → Option Bool) (old : Mask) : Mask :=
  if vl = 0 then old
  else BitVec.ofNat 512 (mapElems 1 (fun i x =>
    if i < vl then (match res i with | some b => if b then 1 else 0 | none => x) else if tail then 0 else x) 0 512 old.toNat)

/-- The partition of the executing slot. -/
def State.vrCount (s : State) : Nat := Part.vr s.ctx.part

/-- Whether a register field names a legal group of `span` registers (R47, R237). -/
def groupOk (vr span : Nat) : Reg → Bool
  | .v i => i.val % span == 0 && i.val + span ≤ vr
  | .q _ => span == 1
  | _ => true

/-- ILLEGAL_INSTRUCTION unless every field names a legal group (R237). DESIGN CHOICE (log 59): with vl = 0 too, since R237 makes the encoding
illegal, while R241 speaks of the instruction's execution. -/
def checkGroups (i : Instr) (rs : List (Reg × Nat)) : M Unit := do
  let s ← get
  if rs.all fun r => groupOk s.vrCount r.2 r.1 then pure () else illegal i

/-- The registers of a group, for the hazards of R158. -/
def groupRegs (r : Reg) (span : Nat) : List Reg :=
  match r with
  | .v i => (List.range span).map fun k => .v (Fin.ofNat 32 (i.val + k))
  | r => [r]

/-- Exchange two places of `n`. -/
def swapPlace (n x : Nat) (p : Nat × Nat) : Nat :=
  if x = p.1 % n then p.2 % n else if x = p.2 % n then p.1 % n else x

/-- The word of the register-file part that holds an 8-byte part of a vector register: the registers fill the first RFG granules,
in a permutation that is not architectural (R45, log 14). -/
def vregWord (p : Word) (slot reg k : Nat) : Nat :=
  (Config.vregSwaps (Part.vr p) (Part.slots p)).foldl (swapPlace (Part.rfg p * 2048)) ((slot * Part.vr p + reg) * 64 + k)

/-- The pool keys of a vector register's 8-byte parts. -/
def vregKeys (s : State) (reg : Nat) : List Nat :=
  let p := s.ctx.part
  let sh := s.share
  (List.range 64).map fun part =>
    let w := vregWord p s.cur.slot reg part
    Key.pool sh.pcore ((sh.grans[w / 2048]?).getD 0 * Config.granuleBytes + w % 2048 * 8)

/-- Read registers through the array checks of R66 and R343: the bits of the group's stream that the checks changed. -/
def checkVregs (first span : Nat) : M Nat := do
  let s ← get
  if rasQuiet s then pure 0
  else do
    let keys := (List.range span).map fun k => vregKeys s (first + k)
    let flips ← checkWords (some s.core) 0 keys.flatten
    let rb := Vt.regBits s.me.vt
    let mask (k : Nat) (ks : List Nat) : Nat :=
      packElems 64 (ks.map fun a => match flips.find? (·.1 == a) with | some m => m.2.toNat | none => 0) % 2 ^ rb * 2 ^ (rb * k)
    pure ((keys.zipIdx.map fun p => mask p.2 p.1).foldl (· ^^^ ·) 0)

/-- The pool words of a group's stream in which elements of width w that `wrote` names lie. -/
def wroteKeys (s : State) (first span w : Nat) (wrote : Nat → Bool) : List Nat :=
  let rb := Vt.regBits s.me.vt
  (Sorted.ofList (((List.range (rb * span / w)).filter wrote).flatMap fun i => [i * w / 64, (i * w + w - 1) / 64])).filterMap fun x =>
    (vregKeys s (first + x * 64 / rb))[x * 64 % rb / 64]?

/-- Write a vector group (or nothing for other classes), of which `wrote` names the elements of width w that are written; their words
take injected errors (R69). -/
def writeGroup (r : Reg) (span w : Nat) (wrote : Nat → Bool) (x : Nat) : M Unit := do
  match r with
  | .v i => modify fun s =>
      let s := s.mapMe fun v => setStream v (Vt.regBits v.vt) i.val span x
      if rasQuiet s then s else rasWrite (wroteKeys s i.val span w wrote) s
  | _ => pure ()

/-! Widths of packed elements (R260, R277) and of formats outside a frame (R292). -/

/-- The packed widths of FN[5:3] (R260). -/
def packWidth (fx : BitVec 4) : Nat :=
  match fx.toNat % 8 with
  | 0 => 1 | 1 => 2 | 2 => 3 | 3 => 4 | _ => 6

/-- XS320 as a format code (R130). -/
def xsCode : Nat := 0x20

/-- The element width of an output format. -/
def outWidth (code : Nat) : Nat := if code = xsCode then 320 else match numFmt code with | some f => f.width | none => 32

/-! Stream-queue pops (R161, R342). -/

/-- STREAM_FAULT of a queue. -/
def streamFault {α : Type} (q : Fin 4) : M α :=
  trap { code := Cause.streamFault, tv := BitVec.ofNat 64 q.val }

/-- Read the entry that the `k`-th pop of queue `q` by one instruction takes. -/
def popEntry (q : Fin 4) (k : Nat) : M VReg := do
  let s ← get
  match s.me.q[q][k]? with
  | none => streamFault q
  | some e =>
    let held := match s.me.sres with | some r => r.q == q && r.entry == e.id | none => false
    let dropIt : M Unit := modify fun s => s.mapMe fun v =>
      { v.entryDone e.id with q := v.q.set q (v.q[q].filter fun x => x.id != e.id), sres := if held then none else v.sres }
    if e.orphan then do dropIt; streamFault q
    else if e.marker.isSome then
      if held then do dropIt; streamFault q
      else wait .entry
    else match e.load with
      | some _ => wait .entry
      | none => pure e.data

/-- The pops that the fields of an instruction make before a position: how often the same queue is named. -/
def popIndex (before : List Reg) (r : Reg) : Nat := (before.filter (· == r)).length

/-- Remove the entries that an instruction popped (R161). -/
def dropPops (rs : List Reg) : M Unit :=
  forL (fun r => match r with
    | .q i => modify fun s => s.mapMe fun v => { v with q := v.q.set i (v.q[i].drop 1) }
    | _ => pure ()) rs

/-- The stream that a vector source field names: a group of `span` registers or a queue entry. `before` lists the
source fields to its left. -/
def sourceStream (before : List Reg) (r : Reg) (span : Nat) : M Nat := do
  match r with
  | .v i => do
    let fix ← checkVregs i.val span
    let v := (← get).me
    pure (groupStream v (Vt.regBits v.vt) i.val span ^^^ fix)
  | .q i => do
    let x ← popEntry i (popIndex before r)
    pure (x.toNat % 2 ^ Vt.regBits (← get).me.vt)
  | _ => pure 0

/-- A source of width w by element: a vector stream, or one scalar or immediate for every element (R243). -/
def sourceElems (before : List Reg) (r : Reg) (span w : Nat) : M (Nat → Nat) := do
  match r with
  | .s i => do
    let x := ((← get).me.getS i).toNat % 2 ^ w
    pure fun _ => x
  | r => do
    let x ← sourceStream before r span
    pure fun i => elemAt x w i

/-! Element-wise execution (R241, R252). -/

/-- The progress that an armed resume gives an instruction at its address (R312): the element to go on from. -/
def resumeElem (v : Slot) : Nat :=
  match v.held.find? fun h => h.pc == v.pc && h.live with
  | some h => h.elem
  | none => 0

/-- Keep progress for the executing instruction, in place of what it held before (R252, R312). -/
def Slot.hold (v : Slot) (elem col : Nat) (done : Mask) (counted : BitVec 32) : Slot :=
  { v with held := ⟨v.pc, false, elem, col, done, counted, false, v.heldSeq⟩ :: v.held.filter fun h => !(h.pc == v.pc) }

/-- An instruction that completes has no progress left. -/
def Slot.unhold (v : Slot) : Slot := { v with held := v.held.filter fun h => !(h.pc == v.pc && h.live) }

/-- What an element's operation gives: the result, its floating-point flags, its sat flags. -/
structure ElemOut where
  x : Nat
  fl : Nat := 0
  sat : Nat := 0

/-- Run the operation on elements `i`, `i + 1`, … (`n` of them) where active, collecting results in order. It stops at
the lowest element with an enabled exception (R252), giving its index, cause and flags. -/
def elemLoop (act : Nat → Bool) (frm : Word) (f : Nat → ElemOut) :
    Nat → Nat → List (Option Nat) × Nat × Nat × Option (Nat × Nat × Nat)
  | _, 0 => ([], 0, 0, none)
  | i, n + 1 =>
    if act i then
      let r := f i
      match fpCause frm r.fl with
      | some c => ([], r.fl, 0, some (i, c, r.fl))
      | none =>
        let rest := elemLoop act frm f (i + 1) n
        (some r.x :: rest.1, r.fl ||| rest.2.1, r.sat ||| rest.2.2.1, rest.2.2.2)
    else
      let rest := elemLoop act frm f (i + 1) n
      (none :: rest.1, rest.2.1, rest.2.2.1, rest.2.2.2)

/-- The register span of an operand: vectors g (2g when wide), scalars 1. -/
def spanOf (g : Nat) (wide : Bool) : Reg → Nat
  | .q _ => if wide then 2 * g else g
  | .v _ => if wide then 2 * g else g
  | _ => 1

/-- Finish an element-wise operation into a vector group: results, flags, then the trap or completion. `sources` are
the fields that pop. DEDUCED (log 49): the operands are read before the first result is written, at the issue and anew when the
instruction resumes after a trap or a stop (R252, R346). -/
def finishVector (d : Reg) (span w : Nat) (sources : List Reg) (set : Option (Fin 6)) (act : Nat → Bool)
    (f : Nat → ElemOut) : M Unit := do
  let v := (← get).me
  let start := resumeElem v
  let r := elemLoop act v.frm f start (v.vl - start)
  let bits := Vt.regBits v.vt * span
  let old := match d with | .v i => groupStream v (Vt.regBits v.vt) i.val span | _ => 0
  let res (i : Nat) : Option Nat := if i < start then none else (r.1[i - start]?).join
  let tail := Vt.tail v.vt && r.2.2.2.isNone
  let fill := v.fill.toNat % 2 ^ w
  writeGroup d span w (mergeWrote v.vl tail res) (mergeStream w bits v.vl tail fill res old)
  modify fun s => s.mapMe fun v => (v.raise r.2.1).saturate r.2.2.1
  match r.2.2.2 with
  | some (i, c, fl) => do
    modify fun s => s.mapMe fun v => v.hold i 0 0 0
    trap (fpTrap c fl i)
  | none => do
    dropPops sources
    modify fun s => longLatency (groupRegs d span) set (s.mapMe Slot.unhold)
    retire

/-- The same into a mask register. -/
def finishMask (d : Reg) (sources : List Reg) (set : Option (Fin 6)) (act : Nat → Bool) (f : Nat → ElemOut) :
    M Unit := do
  let v := (← get).me
  let start := resumeElem v
  let r := elemLoop act v.frm f start (v.vl - start)
  let res (i : Nat) : Option Bool := if i < start then none else ((r.1[i - start]?).join).map (· == 1)
  let tail := Vt.tail v.vt && r.2.2.2.isNone
  modify fun s => s.mapMe fun v =>
    let v := match d with
      | .m i => v.setM i (mergeMask v.vl tail res (v.getM i))
      | _ => v
    (v.raise r.2.1).saturate r.2.2.1
  match r.2.2.2 with
  | some (i, c, fl) => do
    modify fun s => s.mapMe fun v => v.hold i 0 0 0
    trap (fpTrap c fl i)
  | none => do
    dropPops sources
    modify fun s => longLatency [d] set (s.mapMe Slot.unhold)
    retire

end Sys2Proof.Machine
end

