-- ==== Sys2Proof/Machine/FrameArith.lean ====
section
/-!
DEFINITION. The arithmetic of a frame cell: operand formats with their classes and scales (R130 to R136), group
accumulation (R147 to R150), and the exact-sum format XS320 (R96).
-/
namespace Sys2Proof.Machine

/-- The classes of R130. -/
inductive FClass where
  | f32 | h | w | n | q | x | s
  deriving DecidableEq, Repr

/-- A format as an operand of the frame unit: element encoding, block length (0 unscaled), codebook entries (0 none), and
the power of two of an MXINT8 element. -/
structure OperFmt where
  cls : FClass
  num : NumFmt
  block : Nat := 0
  book : Nat := 0
  exp : Int := 0
  deriving DecidableEq, Repr

/-- The operand formats of R130. -/
def operFmt (code : Nat) : Option OperFmt :=
  match code with
  | 0x00 => some { cls := .f32, num := .flt .fp32 }
  | 0x01 => some { cls := .h, num := .flt .bf16 }
  | 0x02 => some { cls := .h, num := .flt .fp16 }
  | 0x04 => some { cls := .n, num := .flt .e4m3 }
  | 0x05 => some { cls := .n, num := .flt .e5m2 }
  | 0x06 => some { cls := .n, num := .flt .e3m2 }
  | 0x07 => some { cls := .n, num := .flt .e2m3 }
  | 0x08 => some { cls := .n, num := .flt .e2m1 }
  | 0x09 => some { cls := .q, num := .int true 8 }
  | 0x0A => some { cls := .q, num := .int false 8 }
  | 0x0B => some { cls := .q, num := .int true 4 }
  | 0x0C => some { cls := .q, num := .int false 4 }
  | 0x0D => some { cls := .q, num := .int true 2 }
  | 0x0E => some { cls := .w, num := .int true 16 }
  | 0x0F => some { cls := .w, num := .int false 16 }
  | 0x10 => some { cls := .x, num := .flt .e4m3, block := 32 }
  | 0x11 => some { cls := .x, num := .flt .e5m2, block := 32 }
  | 0x12 => some { cls := .x, num := .flt .e3m2, block := 32 }
  | 0x13 => some { cls := .x, num := .flt .e2m3, block := 32 }
  | 0x14 => some { cls := .x, num := .flt .e2m1, block := 32 }
  | 0x15 => some { cls := .x, num := .int true 8, block := 32, exp := -6 }
  | 0x18 => some { cls := .n, num := .int false 4, book := 16 }
  | 0x19 => some { cls := .n, num := .int false 3, book := 8 }
  | 0x1C => some { cls := .s, num := .flt .e2m1, block := 16 }
  | 0x1D => some { cls := .s, num := .flt .e3m2, block := 16 }
  | 0x1E => some { cls := .s, num := .flt .e4m3, block := 16 }
  | _ => none

/-- The element width of an operand format. -/
def OperFmt.width (f : OperFmt) : Nat := f.num.width

/-- The class sizes whose smaller is the group size G (R147). -/
def FClass.size : FClass → Nat
  | .f32 => 1 | .h => 2 | .w => 2 | .s => 16 | .n => 32 | .q => 32 | .x => 32

/-- Whether a pair of classes accumulates in INT32 (R147). -/
def intAcc (a b : FClass) : Bool := (a == .w || a == .q) && (b == .w || b == .q)

/-- `val` of R148: an element without its block scale, and whether reading it raises NV (R133, R149). `tab` is the
codebook table. -/
def OperFmt.val (f : OperFmt) (tab : BitVec 256) (bits : Nat) : FV × Bool :=
  if f.book ≠ 0 then
    let x := Fmt.bf16.decode (Bits.field tab (16 * bits) 16)
    (x, x.isSnan)
  else
    let r := f.num.read bits
    match r.1 with
    | .fin neg m e => (.fin neg m (e + f.exp), r.2 != 0)
    | x => (x, x.isSnan || r.2 != 0)

/-- A block scale: E8M0 for class X, UE5M3 for class S, else 1; none is a NaN (R131, R134, R135). -/
def OperFmt.scale (f : OperFmt) (byte : Nat) : Option (Nat × Int) :=
  if f.block = 0 then some (1, 0)
  else if byte % 256 = 255 then none
  else if f.block = 32 then some (1, (byte % 256 : Nat) - 127)
  else
    let e := byte % 256 / 8
    let m := byte % 8
    if e = 0 then some (m, -17) else some (8 + m, (e : Int) - 18)

/-- The exact sum of finite products: signed mantissa and exponent. -/
def sumExact : List (Bool × Nat × Int) → Int × Int
  | [] => (0, 0)
  | p :: t =>
    let r := sumExact t
    addFin p.1 p.2.1 p.2.2 (decide (r.1 < 0)) r.1.natAbs r.2

/-- A group sum P: a NaN, an infinity, or an exact signed value. -/
inductive GroupSum where
  | nan | inf (neg : Bool) | fin (neg : Bool) (m : Nat) (e : Int)
  deriving DecidableEq, Repr

/-- NV of one product: a signalling NaN or 0 × ∞ (R149). -/
def productNv (a b : FV) : Bool :=
  a.isSnan || b.isSnan || (a.isZero && b.isInf) || (a.isInf && b.isZero)

/-- P over the products of a group, and whether opposite infinities raise NV (R149). An empty group sums to +0. -/
def groupSum (ps : List (FV × FV)) : GroupSum × Bool :=
  let nan := ps.any fun p => p.1.isNan || p.2.isNan || productNv p.1 p.2
  let infs := ps.filterMap fun p =>
    if p.1.isNan || p.2.isNan || productNv p.1 p.2 || !(p.1.isInf || p.2.isInf) then none else some (p.1.neg != p.2.neg)
  let fins := ps.filterMap fun p =>
    match p.1, p.2 with
    | .fin n1 m1 e1, .fin n2 m2 e2 => some (n1 != n2, m1 * m2, e1 + e2)
    | _, _ => none
  let both := infs.contains true && infs.contains false
  if nan || both then (.nan, both)
  else match infs with
    | n :: _ => (.inf n, false)
    | [] =>
      let t := sumExact (fins.filter (·.2.1 != 0))
      if t.1 = 0 then (.fin (!fins.isEmpty && fins.all fun p => p.1 && p.2.1 == 0) 0 0, false)
      else (.fin (decide (t.1 < 0)) t.1.natAbs t.2, false)

/-- acc := round(acc + S, FP32, RNE) for one group with the scales of A and B (R148, R149): the cell and the flags. DESIGN CHOICE
(log 55): a scale of 0xFF gives the default NaN and raises nothing, also beside a zero scale and an infinite P. -/
def accumulate (acc : Nat) (p : GroupSum) (sa sb : Option (Nat × Int)) : Nat × Nat :=
  let nan := Fmt.fp32.defaultNan
  match sa, sb with
  | some (ma, ea), some (mb, eb) =>
    match p, Fmt.fp32.decode acc with
    | .nan, _ => (nan, 0)
    | .inf neg, x =>
      if ma * mb = 0 then (nan, Fl.nv)
      else match x with
        | .nan _ _ _ => (nan, 0)
        | .inf n => if n == neg then (acc, 0) else (nan, Fl.nv)
        | .fin _ _ _ => (Fmt.fp32.signBit neg + Fmt.fp32.infBits, 0)
    | .fin neg m e, x =>
      match x with
      | .nan _ _ _ => (nan, 0)
      | .inf _ => (acc, 0)
      | .fin n m' e' => roundSum .fp32 0 n m' e' neg (m * ma * mb) (e + ea + eb)
  | _, _ => (nan, 0)

/-- acc := (acc + S) mod 2^32 in INT32 accumulation, and whether it wraps (R150). -/
def accumulateInt (acc : Nat) (ps : List (FV × FV)) : Nat × Bool :=
  let t := sumExact ((ps.filterMap fun p =>
    match p.1, p.2 with
    | .fin n1 m1 e1, .fin n2 m2 e2 => some (n1 != n2, m1 * m2, e1 + e2)
    | _, _ => none).filter (·.2.1 != 0))
  let x := Bits.sv 32 acc + t.1 * (2 ^ t.2.toNat : Nat)
  (Bits.wrap 32 x, decide (x < -(2 ^ 31 : Nat) ∨ ((2 ^ 31 : Nat) : Int) ≤ x))

/-! XS320 (R96). -/
namespace Xs
/-- A value of XS320: sticky flags (1 PINF, 2 NINF, 4 NAN, 8 OVF) and the exact integer in units of 2^−149. -/
structure Val where
  flags : Nat
  v : Int
  deriving DecidableEq, Repr

/-- A datum, exact. -/
def ofFV : FV → Val
  | .nan _ _ _ => ⟨4, 0⟩
  | .inf neg => ⟨if neg then 2 else 1, 0⟩
  | .fin neg m e =>
    let x : Int := (m * 2 ^ (e + 149).toNat / 2 ^ (-(e + 149)).toNat : Nat)
    ⟨0, if neg then -x else x⟩

/-- The stored 320 bits. -/
def encode (x : Val) : Nat := x.flags % 16 * 2 ^ 310 + Bits.wrap 310 x.v

/-- The value of stored bits. -/
def decode (bits : Nat) : Val := ⟨bits / 2 ^ 310 % 16, Bits.sv 310 bits⟩
end Xs

/-! Conversions between frame cells and other formats (R292). -/

/-- A cell converted out of a frame: NaNs become the default NaN of a floating-point target of another format (R292), and a
signalling one raises NV, for XS320 as well (R144). -/
def fromCell (int : Bool) (code mode bits : Nat) : Nat × Nat :=
  let src : NumFmt := if int then .int true 32 else .flt .fp32
  if code = xsCode then
    (Xs.encode (Xs.ofFV (src.read bits).1), match (src.read bits).1 with | .nan _ true _ => Fl.nv | _ => 0)
  else match numFmt code with
    | none => (bits, 0)
    | some dst =>
      if dst = src then (bits, 0)
      else match (src.read bits).1, dst with
        | .nan _ sig _, .flt f => (f.defaultNan, if sig then Fl.nv else 0)
        | _, _ => convert src dst mode 0 bits

/-- A value converted into a frame cell (R144, R292). -/
def toCell (int : Bool) (code mode bits : Nat) : Nat × Nat :=
  let dst : NumFmt := if int then .int true 32 else .flt .fp32
  match numFmt code with
  | none => (bits, 0)
  | some src => if src = dst then (bits, 0) else convert src dst mode 0 bits

end Sys2Proof.Machine
end

