-- ==== Sys2Proof/Machine/Issue.lean ====
section
/-!
DEFINITION. Instruction fetch (R123), the issue of a slot at its table entry (R154 to R158, R200, R204), the part of a
replica group in it (R353 to R356), and the choice of what moves next (log 2).
-/
namespace Sys2Proof.Machine

/-! Instruction fetch. -/

/-- The instruction-cache ways of a context: IWAY of cmask (R48). -/
def iwayOf (s : State) (cid : Nat) : Nat := Bits.field (s.ctxOf cid).cmask 0 16

/-- A line leaves the instruction cache, with the errors of its words. -/
def dropILine (core : Nat) (l : ILine) (s : State) : State :=
  let s := s.mapCore core fun c => { c with icache := c.icache.erase l }
  if s.flips.isEmpty then s
  else (List.range 16).foldl (fun s i => { s with flips := Tab.erase s.flips (icKey core (icWord l.cid l.va + i)) }) s

/-- Fill an instruction-cache line in a way of the context's IWAY, in place of the line there (R49); armed injection marks the
words that match (R69). -/
def fillILine (core cid : Nat) (va : Word) (data : BitVec 1024) (s : State) : State :=
  let inSet := (s.coreOf core).icache.filter fun l => l.va.toNat / 128 % 32 == va.toNat / 128 % 32
  let w := fillWay (iwayOf s cid) (inSet.map (·.way)) s
  let s := match inSet.find? (·.way == w.1) with | some l => dropILine core l w.2 | none => w.2
  let s := s.mapCore core fun c => { c with icache := c.icache ++ [⟨cid, va, w.1, data⟩] }
  if rasQuiet s then s
  else (List.range 16).foldl (fun s i =>
    let w := icWord cid va + i
    let p := Config.cacheWord core true w
    injectAt (.icache core) p.2 (some p.1) (icKey core w) s) s

/-- A line of the context held in a way of its IWAY (R49), when its parity is good; a bad one is logged and discarded (R66). -/
def probeILine (core cid : Nat) (va : Word) (s : State) : State × Option (BitVec 1024) :=
  match (s.coreOf core).icache.find? fun l => l.cid == cid && l.va == va && (iwayOf s cid).testBit l.way with
  | none => (s, none)
  | some l =>
    let bad := if s.flips.isEmpty then none else
      ((List.range 16).map fun i => icWord cid va + i).find? fun w =>
        match Tab.get s.flips (icKey core w) with | some f => f.data != 0 || f.check != 0 | none => false
    match bad with
    | none => (s, some l.data)
    | some w =>
      let p := Config.cacheWord core true w
      (logError (.icache core) 2 p.2 0 p.1 (fetchOwner s core cid) (dropILine core l s), none)

/-- Fetch the instruction word at an address (R100, R123); a failure traps with KIND 3 (R33). `at'` is the address the
trap is taken at. -/
def fetchWord (va : Word) (isFetch : Bool) : M IWord := do
  let s ← get
  let line := va &&& ~~~0x7F#64
  let r := probeILine s.core s.cur.cid line s
  set r.1
  let part (d : BitVec 1024) : IWord := BitVec.ofNat 128 (d.toNat / 2 ^ (8 * (va.toNat % 128)))
  match r.2 with
  | some d => pure (part d)
  | none => do
    match ← tryResolve va 16 .fetch .fetch with
    | .error f => trap (f.trap .fetch 0 isFetch)
    | .ok a => do
      let base := Key.line ((a.keys.head?).getD 0)
      notBusy [base]
      modify fun s => leaveAtoms (fun q => q.access && q.who == .slot s.cur && Key.line q.addr == base) s
      let x ← readChecked none va (keyRange base 128) fun s k => s.mem.byte k
      let d : BitVec 1024 := BitVec.ofNat 1024 x
      modify fun s => fillILine s.core s.cur.cid line d s
      pure (part d)

/-- The word at the program counter: from the loop buffer inside a running body (R123, R223), else fetched. -/
def fetchNext : M IWord := do
  let v := (← get).me
  match v.loop with
  | some l =>
    if l.active && Slot.inBody l v.pc then pure ((l.body[(v.pc.toNat - l.base.toNat) / 16]?).getD 0)
    else fetchWord v.pc true
  | none => fetchWord v.pc true

/-! What an instruction reads and writes (R158, R356). -/

/-- The header of an operand record. -/
def Operands.hdr : Operands → Hdr
  | .fx o => o.toHdr | .fm o => o.toHdr | .fb o => o.toHdr | .ff o => o.toHdr | .fs o => o.toHdr

/-- The header of an encoded instruction. -/
def instrHdr (i : Instr) : Option Hdr := i.opcode.map fun x => Operands.hdr x.2.2

/-- OP of an encoded instruction. -/
def instrOp (i : Instr) : Nat := match i.opcode with | some x => x.1.toNat | none => 0

/-- The registers of a field, vectors by span. -/
def fieldRegs (span : Nat) (r : Reg) : List Reg :=
  match r with
  | .s i => if i = 0 then [] else [r]
  | .v _ => groupRegs r span
  | .m i => if i = 0 then [] else [r]
  | _ => []

/-- The span of the index group of an indexed access (R256). -/
def indexSpan (t : Word) (w : BitVec 2) : Nat := Vt.grp t * Nat.max 1 (8 * 2 ^ w.toNat / Vt.sew t)

/-- The registers that an instruction reads under vt and, for the positions of a sparse A (R289), fmt.spa. -/
def readRegs (t : Word) (spa : Bool) (i : Instr) : List Reg :=
  match i.opcode with
  | none => []
  | some (opc, _, o) =>
    let op := opc.toNat
    let h := Operands.hdr o
    let g := Vt.grp t
    let pred := if h.pm = 0 then [] else [Reg.m (Fin.ofNat 8 h.pm.toNat)]
    let dRead := if op = 0x64 then fieldRegs g h.d else if op = 0x65 then fieldRegs (2 * g) h.d
      else if op = 0x9A || op = 0xB0 then fieldRegs 1 h.d
      else if spa && (op = 0xB5 || op = 0xB6) then [.m 1] else []
    let aSpan := if op = 0x69 then 2 * g else if op / 16 = 0xB then 1 else g
    let bSpan := match o with
      | .fm m => if op = 0x95 || op = 0x9B then 1 else indexSpan t m.w
      | .ff _ => 1
      | _ => g
    let cSpan := match o with
      | .fm m => if op = 0x99 then g * (m.nf.toNat + 1) else g
      | _ => g
    let more := if op = 0x35 then
        (match o, h.a with
         | .fb b, .s k => (List.range (b.nest.toNat + 1)).flatMap fun j => fieldRegs 1 (.s (Fin.ofNat 64 (k.val + j)))
         | _, _ => [])
      else []
    pred ++ dRead ++ fieldRegs aSpan h.a ++ fieldRegs bSpan h.b ++ (if op = 0x89 then [] else fieldRegs cSpan h.c) ++ more

/-- The registers that an operation writes, other than those of a task's dispatch. -/
def writeRegs (t : Word) (i : Instr) : List Reg :=
  match i.opcode with
  | none => []
  | some (opc, _, o) =>
    let op := opc.toNat
    let h := Operands.hdr o
    let g := Vt.grp t
    let span := match o with
      | .fm m => if op = 0x93 then g * (m.nf.toNat + 1) else g
      | _ => if op = 0x65 then 2 * g else g
    let next := if op = 0xD8 || op = 0xD9 then
        (match h.d with | .s k => [Reg.s (Fin.ofNat 64 (k.val + 1))] | _ => [])
      else []
    fieldRegs span h.d ++ next

/-- The control registers whose reads are forwarded (R356). -/
def crForwarded : CReg → Bool
  | .cyc | .slot | .core | .grove | .die | .dev => true
  | .lvl _ => true
  | _ => false

/-- Whether an instruction is a comparison point of the executing slot (R353); VSTN's add counts as an atomic (log 28). -/
def isPoint (v : Slot) (i : Instr) : Bool :=
  let op := instrOp i
  match i.opcode with
  | none => false
  | some (_, _, o) =>
    let h := Operands.hdr o
    h.ord == .release || h.ord == .acqRel || (0x50 ≤ op && op ≤ 0x56) || op == 0xA1 || op == 0xA2 || op == 0x9A || op == 0xC0 ||
      op == 0xC1 || op == 0xD0 || op == 0xD1 || op == 0xD2 || op == 0xD3 || op == 0xD7 || op == 0xDC ||
      (match i with
       | .doneEnd _ => true
       | .done _ => (match v.work with | .task p => p.join != 0 | _ => false)
       | _ => false)

/-- Whether the results of an instruction come from the lead alone (R356): the comparison points, acquire loads, and the
waits, walkers and reads that R356 lists. A DONE that is no comparison point forwards nothing. -/
def isForwarded (v : Slot) (i : Instr) : Bool :=
  let op := instrOp i
  isPoint v i || (match i.opcode with | some (_, _, o) => (Operands.hdr o).ord == .acquire && op != 0x42 | none => false) ||
    op == 0xA0 || op == 0xA3 || op == 0xC2 || op == 0xC3 || op == 0xC4 || op == 0xD4 || op == 0xD5 ||
    op == 0xD8 || op == 0xD9 || op == 0xDA ||
    (match i with | .crr o => (match o.a with | .cr r => crForwarded r | _ => false) | _ => false)

/-- A number above those of all queue entries and of a held stream resume, so that numbers rise in program order (R341). -/
def newEntryId (v : Slot) : Nat :=
  (v.q.toList.flatten.map (·.id) ++ (v.sres.map (·.entry)).toList).foldl (fun m x => Nat.max m (x + 1)) 0

/-- A parked slot whose instruction has completed goes on; a switch marker makes it wait for its other results (R152, R158). -/
def Slot.released (v : Slot) : SlotSt :=
  match v.st with
  | .parked _ => if v.swWait && !v.pend.isEmpty then .parked .switchMarker else .ready
  | st => st

/-- The work item of a slot is dropped, with the format context saved for it (R306). -/
def Slot.dropItem (v : Slot) : Slot := if v.work = .none then v else { v with work := .none, fmt := v.saved }

/-- Apply what the lead forwarded (R356): registers, item, and going on, the trap or the end. -/
def applyForward (f : Forward) (s : State) : State :=
  let s := s.mapMe fun v =>
    let v := f.sregs.foldl (fun v p => v.setS (Fin.ofNat 64 p.1) p.2) v
    let v := f.vregs.foldl (fun v p => { v with v := v.v.set (Fin.ofNat 32 p.1) p.2 }) v
    let v := f.mregs.foldl (fun v p => v.setM (Fin.ofNat 8 p.1) p.2) v
    let v : Slot := { v with q := f.pops.foldl (fun q k => q.set (Fin.ofNat 4 k) (q[Fin.ofNat 4 k].drop 1)) v.q }
    let v := f.entries.foldl (fun v p => { v with q := v.q.set (Fin.ofNat 4 p.1) (v.q[Fin.ofNat 4 p.1] ++
      [⟨newEntryId v, p.2, none, none, false⟩]) }) { v with vl := f.vl.getD v.vl, fflags := v.fflags ||| f.fl }
    { (if f.retired then v.dropItem else v) with st := .ready, rpend := none, passed := false, fwd := v.fwd.erase f }
  let s := if rasQuiet s then s else rasWrite (f.vregs.flatMap fun p => vregKeys s p.1) s
  match f.trap with
  | some (c, tv, ti) =>
    if c = Cause.pageFault then deliverToHandler c s.me.pc tv ti false s else deliver { code := c, tv := tv, ti := ti } s
  | none =>
    if f.ended then
      (s.mapMe fun v => { v with st := .ended, inbox := [] }).pushOnce (.coreDoneMessage s.ctx.lid s.cur.lcore)
    else match f.item with
      | some (w, a) => s.mapMe fun v =>
          let v := match f.coords with
            | some (tc, tid) =>
              { v with tid := tid, tc := #v[tc.getD 0 0, tc.getD 1 0, tc.getD 2 0, tc.getD 3 0, tc.getD 4 0, tc.getD 5 0] }
            | none => v
          let v := { v with work := w, saved := v.fmt, fmt := a }
          if f.coords.isSome then v.advance else { v with pc := f.next }
      | none => s.mapMe Slot.advance

/-- The slots of a group's members other than the lead. -/
def otherMembers (s : State) (g : Group) : List SlotKey :=
  (s.ctxs.filter fun c => c.2.lid == g.lid && c.2.replica != g.lead && g.members.contains c.2.replica).map fun c =>
    ⟨c.1, g.lcore, g.slot⟩

/-- The lead sends what an operation gave it to the other replicas (R356). `pc` is the operation's address; `i` is the operation
unless it completed after a wait, and `held` whether the slot held a work item before it. -/
def forwardTo (g : Group) (pc : Word) (regs : List Reg) (i : Option Instr) (held : Bool) (t : Option (Nat × Word × Word))
    (s : State) : State :=
  let v := s.me
  let given := match i with | some (.nextt _) => t.isNone && !held && v.work != .none | _ => false
  let task := given && (match v.work with | .task _ => true | _ => false)
  let retired := match i with | some (.done _) | some (.doneEnd _) => t.isNone | _ => false
  let entries := match i with
    | some (.vldQ o) =>
      (match o.d, t with
       | .q k, none => ((v.q[k]).getLast?.map fun e => (k.val, e.data)).toList
       | _, _ => [])
    | _ => []
  let pops := match i.bind instrHdr, t with
    | some h, none => [h.a, h.b, h.c].filterMap fun r => match r with | .q k => some k.val | _ => none
    | _, _ => []
  let regs := if task then regs ++ [.s 1, .s 3, .s 4, .s 5] else regs
  let f : Forward :=
    { pc := pc, next := v.pc, vl := if (i.map instrOp).any (· / 16 == 9) then some v.vl else none, fl := v.fflags,
      entries := entries, pops := pops, trap := t,
      sregs := regs.filterMap fun r => match r with | .s k => some (k.val, v.getS k) | _ => none,
      vregs := regs.filterMap fun r => match r with | .v k => some (k.val, v.v[k]) | _ => none,
      mregs := regs.filterMap fun r => match r with | .m k => some (k.val, v.getM k) | _ => none,
      item := if given then some (v.work, v.fmt) else none, coords := if given && !task then some (v.tc.toList, v.tid) else none,
      retired := retired, ended := v.st == .ended }
  (otherMembers s g).foldl (fun s k =>
    (s.mapSlot k fun w => { w with fwd := w.fwd ++ [f] }).push (.replicaForwardArrive k)) s

/-- The physical core that a slot's context holds for its logical core. -/
def coreOfSlot (s : State) (k : SlotKey) : Nat := ((s.shareAt k.cid k.lcore).map (·.pcore)).getD 0

/-- Do something to the slot of a key as the loaded one, and load the former slot again. -/
def onSlot (k : SlotKey) (f : State → State) (s : State) : State :=
  (f (s.focus k (coreOfSlot s k))).focus s.cur s.core

/-- The group that the loaded slot leads. -/
def leadGroup (s : State) : Option Group :=
  match groupOf s s.cur with
  | some g => if g.lead == s.ctx.replica then some g else none
  | none => none

/-- A parked instruction of a slot completes: its result is written, the slot goes on and is READY, unless it is stopped,
and a lead forwards the result (R152, R356). `regs` are the registers that `f` writes. -/
def completeSlot (k : SlotKey) (regs : List Reg) (f : Slot → Slot) : State → State :=
  onSlot k fun s =>
    let pc := s.me.pc
    let lead := leadGroup s
    let s := s.mapMe fun v =>
      let v := (f v).dropPend.unhold.advance
      { v with passed := false, retried := false, st := v.released }
    let s := catchUp s
    match lead with
    | some g => forwardTo g pc regs none false none s
    | none => s

/-- A trap of the loaded slot at an operation whose results are forwarded: a lead forwards it, unless Naruno serves it
first (R32, R356). -/
def trapHere (t : Trap) (s : State) : State :=
  let pc := s.me.pc
  let lead := leadGroup s
  let s := deliver t s
  if s.me.pf.isSome then s.mapMe fun v => { v with pf := v.pf.map fun p => { p with fwd := lead.isSome } }
  else match lead with
    | some g => forwardTo g pc [] none false (some (t.code, t.tv, t.ti)) (s.mapMe fun v => { v with passed := false })
    | none => s

/-- A parked instruction of a slot ends in a trap. -/
def trapSlot (k : SlotKey) (t : Trap) : State → State :=
  onSlot k fun s => trapHere t (s.mapMe fun v => { v.dropPend with st := .ready, retried := false })

/-! Issue. -/

/-- ILLEGAL_INSTRUCTION or PRIVILEGE of a fetched word (R204). -/
def badWord {α : Type} (code : Nat) (w : IWord) : M α := trap { code := code, tv := w.setWidth 64 }

/-- The instruction of a fetched word, or its fate by the order of R204. -/
def decodeM (w : IWord) : M Instr := do
  let s ← get
  if w = 0 ∨ w = BitVec.allOnes 128 ∨ !opAssigned (wordOp w).toNat then badWord Cause.illegal w
  else if opPrivileged (wordOp w).toNat && !s.ctx.priv then badWord Cause.privilege w
  else match decode w with
    | .error _ => badWord Cause.illegal w
    | .ok i => pure i

/-- Whether a register field names something beyond the partition (R47, R196). -/
def beyond (part : Word) : Reg → Bool
  | .v i => Part.vr part ≤ i.val
  | .fm i => Part.frames part ≤ i.val
  | _ => false

/-- Latch an instruction for execution (R155): its Y entries are given up, and its switch marker is kept (R158). One that waited
and issues again counts once under its SET counter (R200). -/
def latch (i : Instr) (h : Hdr) : M Unit :=
  modify fun s => { s.mapMe (fun v => { v.dropPend with yld := h.y.toNat, swWait := h.sw }) with issue := some i }

/-- Whether the counters that WAIT names are zero and the SET counter can rise (R200). -/
def hintsClear (v : Slot) (h : Hdr) : Bool :=
  (List.range 6).all (fun i => !h.wait.getLsbD i || v.sb[i % 6]'(Nat.mod_lt _ (by decide)) == 0) &&
    (match h.set with | some i => v.sb[i] != 63 | none => true)

/-- Whether the result of one of the registers is pending. -/
def Slot.pending (v : Slot) (rs : List Reg) : Bool := rs.any fun r => v.pend.any fun p => p.regs.contains r

/-- Whether a register that the instruction reads has a pending result (R158). -/
def hazard (v : Slot) (i : Instr) : Bool := v.pending (readRegs v.vt v.fmt.spa i)

/-- A hazard park, until the results of the registers that the instruction reads have returned: the hint-miss counter rises,
saturating (R151, R158). -/
def hazardPark (i : Instr) (v : Slot) : Slot :=
  { v with st := .parked .hazard, awaits := readRegs v.vt v.fmt.spa i, hmc := if v.hmc = BitVec.allOnes 32 then v.hmc else v.hmc + 1 }

/-! Stream-queue loads at issue (R99, R341). -/

/-- Insert an entry in the order of program order. -/
def insertEntry : List (Fin 4 × QEntry) → Fin 4 × QEntry → List (Fin 4 × QEntry)
  | [], e => [e]
  | x :: t, e => if e.2.id < x.2.id then e :: x :: t else x :: insertEntry t e

/-- The entries whose load has not returned all its elements, oldest first. -/
def Slot.openEntries (v : Slot) : List (Fin 4 × QEntry) :=
  (([0, 1, 2, 3] : List (Fin 4)).flatMap fun q => (v.q[q].filter fun e => e.load.isSome && !e.orphan).map fun e => (q, e)).foldl insertEntry []

/-- Whether an entry is still to be filled: its load has neither returned nor faulted. -/
def Slot.unfilled (v : Slot) : Bool := v.openEntries.any (·.2.marker.isNone)

/-- Deliver the fault of an entry: the slot holds the stream resume, with the restart point at its next instruction (R341). -/
def streamTrap (q : Fin 4) (id : Nat) (pc : Word) (f : Nat × Word × Word) (s : State) : State :=
  (deliver { code := f.1, tv := f.2.1, ti := f.2.2, pc := some pc }
    (s.mapMe fun v => { v.dropPend with st := .ready, snap := none, sres := some ⟨q, id, pc, v.pc⟩ })).mapMe fun v =>
      { v with pf := v.pf.map fun p => { p with stream := true } }

/-- The instructions that follow a stream-queue load in memory order, and so wait until it has its elements: every one that
accesses memory, orders accesses or acts on another party (R99, R111, R264). -/
def entryWaits (i : Instr) : Bool :=
  match i with
  | .vldQ _ => false
  | i => [0x4, 0x5, 0x9, 0xA, 0xB, 0xC, 0xD, 0xE].contains (instrOp i / 16)

/-- Before the next instruction issues, the oldest fault marker whose turn has come is delivered (R341). -/
def streamTurn : M Bool := do
  let v := (← get).me
  if v.sres.isNone && v.openEntries.any (·.2.marker.isSome) then
    match v.openEntries with
    | (q, e) :: _ =>
      match e.marker, e.load with
      | some f, some l => do
        modify (streamTrap q e.id l.pc f)
        pure true
      | _, _ => wait .entry
    | [] => pure false
  else pure false

/-- Whether the back end can stop inside an instruction: between the element groups of an element-wise vector instruction
(R346), or the rows of a matrix instruction (R291). The operations that a replica group performs once do so whole (log 3). -/
def cuttable (s : State) (i : Instr) : Bool :=
  !(replicated s && isForwarded s.me i) && (match i, i.opcode with
    | .vldQ _, _ => false
    | .vwait _, _ => false
    | i, some (_, _, o) =>
      let row := instrOp i / 16
      ((row == 6 || row == 7) && (match (Operands.hdr o).d with | .v _ | .m _ => true | _ => false)) || row == 9 || row == 0xA ||
        [0xB3, 0xB5, 0xB6, 0xB7, 0xB8, 0xBA, 0xBB].contains (instrOp i)
    | _, none => false)

/-- The issue of the next instruction: fetch, decode, hints, hazards, the wait for stream-queue loads, and the comparison and
forwarding of replicas, before the instruction is latched. -/
def issueNext : M Unit := do
  let w ← fetchNext
  let i ← decodeM w
  let s ← get
  match instrHdr i with
  | none => pure ()
  | some h =>
    if [h.d, h.a, h.b, h.c].any (beyond s.ctx.part) then badWord Cause.illegal w
    else if !hintsClear s.me.dropPend h then pure ()
    else if hazard s.me i then modify fun s => s.mapMe (hazardPark i)
    else if entryWaits i && s.me.unfilled then wait .entry
    else if s.me.cut.isSome && !cuttable s i then pure ()
    else match groupOf s s.cur with
      | none => latch i h
      | some g =>
        if s.me.passed then latch i h
        else if isPoint s.me i then modify (arrive (some i))
        else if isForwarded s.me i && g.lead != s.ctx.replica then
          match s.me.fwd.find? (·.pc == s.me.pc) with
          | some f => modify (applyForward f)
          | none => modify fun s => s.mapMe fun v => { v with st := .parked .forward }
        else latch i h

/-- The issue of the loaded slot at its table entry: a refusal that a restore has to report, a start trap, a fault of
a stream-queue load, then the next instruction. -/
def issueSlot : M Unit := do
  let v := (← get).me
  if v.refDue then do
    orderPoint
    modify fun s => s.mapMe fun v => { v with refDue := false }
  else pure ()
  match v.startTrap with
  | some (c, tv, ti) => do
    modify fun s => s.mapMe fun v => { v with startTrap := none }
    trap { code := c, tv := tv, ti := ti }
  | none => pure ()
  if ← streamTurn then pure () else issueNext

/-- Entry e of a slot table (R154). -/
def tabEntry (t : Vector Word 4) (e : Nat) : Nat := Bits.field (t[e / 8 % 4]'(Nat.mod_lt _ (by decide))) (8 * (e % 8)) 8

/-- A newly written table takes effect at entry 0 (R157). -/
def takeTable (c : Core) : Core :=
  match c.newTab with
  | some t => if c.ptr = 0 then { c with tab := t, newTab := none, sinceSwitch := 0 } else c
  | none => c

/-- The slot that the table entry of the pointer names, unless the entry is idle (R155, R157). -/
def entrySlot (s : State) (core : Nat) (c : Core) : Option (SlotKey × Nat × Nat) :=
  let e := tabEntry c.tab c.ptr
  let rix := e / 16 % 4
  let slot := e % 16
  if e / 128 = 0 then none
  else match c.res[rix]'(Nat.mod_lt _ (by decide)) with
    | none => none
    | some cid =>
      let x := s.ctxOf cid
      if slot ≥ Part.slots x.part then none
      else if c.sinceSwitch < 3 && c.hist.contains (some (rix, slot)) then none
      else match x.shares.find? (·.pcore == core) with
        | some sh => some (⟨cid, sh.lcore, slot⟩, rix, slot)
        | none => none

/-- The core's pointer, cycle counter and issue history go on by one entry (R155, R157, R233). -/
def stepCore (c : Core) (issued : Option (Nat × Nat)) : Core :=
  { c with ptr := (c.ptr + 1) % 32, cyc := c.cyc + 1, hist := (issued :: c.hist).take 3,
           sinceSwitch := Nat.min 3 (c.sinceSwitch + 1) }

/-- SLOT_ISSUE: one table entry of a core. A READY slot that the entry names fetches, decodes and latches its next
instruction, which step then executes. -/
def slotIssue (core : Nat) (s : State) : State :=
  let c := takeTable (s.coreOf core)
  let s := s.mapCore core fun _ => c
  match entrySlot s core c with
  | none => s.mapCore core fun c => stepCore c none
  | some (k, rix, slot) =>
    match s.slotAt k with
    | none => s.mapCore core fun c => stepCore c none
    | some v =>
      if v.yld ≠ 0 then
        (s.mapSlot k fun v => { v with yld := v.yld - 1 }).mapCore core fun c => stepCore c none
      else if v.st ≠ .ready || ((s.ctxOf k.cid).stopping && v.cut.isNone) then s.mapCore core fun c => stepCore c none
      else
        let s' := match issueSlot (s.focus k core) with
          | .ok _ t => t
          | .error x t => stop x t
        let s' := if s'.issue.isSome then s' else s'.mapSlot k fun v => { v with cut := none }
        s'.mapCore core fun c => stepCore c (if s'.issue.isSome then some (rix, slot) else none)

/-! The comparison under lane protection (R242). -/

/-- The groups of registers that an instruction writes as results, with the width of their elements. `fo` is fmt.o, which a move may
name (R284). -/
def resultGroups (t : Word) (fo : BitVec 6) (i : Instr) : List (List Reg × Nat) :=
  match i.opcode with
  | none => []
  | some (opc, _, o) =>
    let op := opc.toNat
    let g := Vt.grp t
    let h := Operands.hdr o
    let vec (r : Reg) : List (List Reg × Nat) :=
      match o, r with
      | .fm m, .v k =>
        if op = 0x93 then (List.range (m.nf.toNat + 1)).map fun f => (groupRegs (.v (Fin.ofNat 32 (k.val + f * g))) g, Vt.sew t)
        else [(groupRegs r g, Vt.sew t)]
      | .fx x, .v _ =>
        if op = 0x65 then [(groupRegs r (2 * g), 2 * Vt.sew t)]
        else if op = 0x79 then [(groupRegs r g, match numFmt x.fc.toNat with | some f => f.width | none => Vt.sew t)]
        else if op = 0x8B && decide (x.sub.toNat < 3) then [(groupRegs r g, packWidth x.fx)]
        else [(groupRegs r g, Vt.sew t)]
      | .ff x, .v _ => [([r], outWidth (if x.fc = 0x3F then fo else x.fc).toNat)]
      | _, .v _ =>
        if op / 16 = 0xB then [([r], 32)]
        else [(groupRegs r g, Vt.sew t)]
      | _, .m _ => [([r], 1)]
      | _, _ => []
    vec h.d ++ (match h.c with | .m _ => if op = 0x89 then [([h.c], 1)] else [] | _ => [])

/-- Results of which only the elements below `e` are written. -/
def Slot.keepBelow (e : Nat) (old : Slot) (v : Slot) (p : List Reg × Nat) : Slot :=
  match p.1 with
  | .m k :: _ => { v with m := v.m.set k (BitVec.ofNat 512 (v.m[k].toNat % 2 ^ e + old.m[k].toNat / 2 ^ e * 2 ^ e)) }
  | .v k :: _ =>
    let rb := Vt.regBits old.vt
    let n := p.1.length
    let w := 2 ^ (e * p.2)
    setStream v rb k.val n (groupStream v rb k.val n % w + groupStream old rb k.val n / w * w)
  | _ => v

/-- The comparison of a completed instruction's results with their mirror copies under lane protection (R242, log 52). A lane
error that has struck the core makes them differ from element `upset` on: LANE_MISMATCH, which quarantines the core (R344). -/
def laneCheck (i : Instr) (before s : State) : State :=
  match (s.coreOf s.core).upset with
  | none => s
  | some e =>
    let rs := resultGroups before.me.vt before.me.fmt.fo i
    if !Vt.lp before.me.vt || s.cur ≠ before.cur || (s.me.st ≠ .ready ∧ s.me.st ≠ .parked .switchMarker) || s.me.pc ≠ before.me.advance.pc || rs.isEmpty ||
        before.me.vl ≤ e then s
    else
      let s := s.mapCore s.core fun c => { c with upset := none }
      let s := noteUid [s.ctx.lid] (.core s.core) (quarantine (.core s.core) false s)
      killSlot Cause.laneMismatch before.me.pc 0 (s.mapMe fun v =>
        { rs.foldl (Slot.keepBelow e before.me) v with
          pc := before.me.pc, loop := before.me.loop, tval := 0, tinfo := BitVec.ofNat 64 (e * 2 ^ 48) })

/-- After an issued instruction: the comparison under lane protection (R242), the count of an instruction that waits under its SET
counter (R200), the store count of the signature (R351), the
forwarding of a lead's results (R356) and the switch marker (R158). `before` is the state in which it was issued. -/
def afterIssue (i : Instr) (before s : State) : State :=
  match instrHdr i with
  | none => s
  | some _ =>
    let s := laneCheck i before s
    let parked := match s.me.st with | .parked _ => true | _ => false
    let s := if s.cur ≠ before.cur || s.me.st = .parked .atomic || s.me.unfilled then s else leavePlaces (.slot s.cur) s
    let s := if s.cur ≠ before.cur then s
      else if !parked then s.mapMe fun v => { v.dropPend with retried := false }
      else if (instrHdr i).bind (·.set) != none && s.me.pc == before.me.pc && s.me.pend.all (!·.parked) then
        s.mapMe (·.addPend [] ((instrHdr i).bind (·.set)) true)
      else s
    let s := if s.cur = before.cur then s.mapMe (countStore before.me) else s
    let s := match groupOf before before.cur with
      | none => s
      | some g =>
        if s.cur ≠ before.cur || parked || !isForwarded before.me i || g.lead ≠ before.ctx.replica then s
        else
          if s.me.st = .stopped then
            s.mapMe fun v => { v with pf := v.pf.map fun p => { p with fwd := true }, passed := v.passed && v.pf.isSome }
          else
            let s := s.mapMe fun v => { v with passed := false }
            let t := if s.me.err != before.me.err || s.me.epc != before.me.epc ||
                (s.me.pc == s.me.hbase && s.me.epc == before.me.pc && s.me.pc != before.me.pc + 16) then
                some (s.me.cause.toNat, s.me.tval, s.me.tinfo) else none
            forwardTo g before.me.pc (writeRegs before.me.vt i) (some i) (before.me.work != .none) t s
    if s.me.swWait && s.cur = before.cur && s.me.st = .ready && !s.me.pend.isEmpty then
      s.mapMe fun v => { v with st := .parked .switchMarker }
    else s

/-! What moves next (log 2). -/

/-- The next core, after `c`, that hosts a context; `c + 1` when none does. -/
def nextCore (s : State) (c : Nat) : Nat :=
  let busy := (s.cores.filter fun x => x.2.res.toList.any (·.isSome)).map (·.1)
  match busy.find? (c < ·) with
  | some x => x
  | none => match busy with
    | x :: _ => x
    | [] => (c + 1) % Config.cores

/-- Take the n-th event off the agenda; an encoded instruction there is no event and passes the turn to a core. -/
def takeEvent (n : Nat) (s : State) : Instr × State :=
  match s.agenda[n]? with
  | some e => (if (instrHdr e).isSome then .slotIssue s.turn else e, { s with agenda := s.agenda.eraseIdx n })
  | none => (.slotIssue s.turn, s)

/-- An issue cycle of the core whose turn it is. -/
def turnIssue (s : State) : Instr × State := (.slotIssue s.turn, { s with turn := nextCore s s.turn })

/-- The next event: by `sched` while it lasts, then issue cycles and agenda events in turn (log 2), with no store late any more (log
4). -/
def nextMove (s : State) : Instr × State :=
  let s := { s with tick := s.tick + 1 }
  match s.sched with
  | .event n :: t => takeEvent n { s with sched := t }
  | .core c :: t => (.slotIssue c, { s with sched := t })
  | .late n :: t =>
    let s : State := { s with sched := t }
    turnIssue (match s.late[n]? with | some l => settleOne l s | none => s)
  | [] =>
    let s := settleLate s
    if s.tick % 2 = 1 ∨ s.agenda.isEmpty then turnIssue s
    else takeEvent 0 s

end Sys2Proof.Machine
end

