-- ==== Sys2Proof/Machine/Atomic.lean ====
section
/-!
DEFINITION. Read-modify-writes of a word: the operations of AMO (R198, R230), reservation queues (R114), full/empty
operations with their wait lists and overflow mode (R61 to R64), and peer requests (R359).
-/
namespace Sys2Proof.Machine

/-- The AMO operations on n-bit values: the new value and flags (R198, R230). -/
def amoOp (aop n m c : Nat) : Nat × Nat :=
  match aop with
  | 0 => ((m + c) % 2 ^ n, 0)
  | 1 => (m &&& c, 0)
  | 2 => (m ||| c, 0)
  | 3 => (m ^^^ c, 0)
  | 4 => (if Bits.sv n c < Bits.sv n m then c else m, 0)
  | 5 => (if Bits.sv n m < Bits.sv n c then c else m, 0)
  | 6 => (Nat.min m c, 0)
  | 7 => (Nat.max m c, 0)
  | 8 => (c, 0)
  | _ => fAdd (if n = 64 then .fp64 else .fp32) 0 m c

/-- The class that host memory checks of an AMO operation (R27). -/
def amoClass (aop : Nat) : OpClass := if aop = 0 ∨ aop = 8 then .amoAddSwap else .amoOther

/-- A word's value in memory. -/
def wordAt (s : State) (k n : Nat) : Nat := s.mem.read k n

/-- The cells of an `n`-byte value at consecutive keys. -/
def valueCells (k n v : Nat) : List Host.Cell := cellsFor (keyRange k n) v

/-- What an atomic does to the word's value: the value returned, and the new one when it writes (R230). -/
structure AmoFun where
  w8 : Bool
  aop : Nat
  cas : Bool
  expected : Nat
  data : Nat

/-- The bytes of the word. -/
def AmoFun.bytes (f : AmoFun) : Nat := if f.w8 then 8 else 4

/-- The new value, when the word is written, and the flags raised. -/
def AmoFun.apply (f : AmoFun) (m : Nat) : Option Nat × Nat :=
  let n := 8 * f.bytes
  if f.cas then (if m = f.expected % 2 ^ n then some (f.data % 2 ^ n) else none, 0)
  else
    let r := amoOp f.aop n m (f.data % 2 ^ n)
    (some r.1, r.2)

/-- An atomic changes the word of value `m` (R106, R114): the line is recalled to its home (R74), or held EXCLUSIVE by a core of a
context. DESIGN CHOICE (log 53): after the atomic of a core the line stays EXCLUSIVE there, as the table of R74 has it. -/
def amoWrite (core : Option (Nat × Nat)) (k : Nat) (f : AmoFun) (m : Nat) (s : State) : State × Nat :=
  let r := f.apply m
  let s := if Key.isDevice k then
      (match core with | some c => dirStore c.1 c.2 (Key.line k) s | none => dirRecall (Key.line k) s)
    else s
  (match r.1 with
   | some x => performWrite (valueCells k f.bytes x) s
   | none => s, r.2)

/-- The line of a word goes where its atomic is performed: to the core, or home. -/
def amoLine (core : Option (Nat × Nat)) (k : Nat) (s : State) : State :=
  if Key.isDevice k then
    (match core with | some c => dirLoad c.1 c.2 (Key.line k) s | none => dirRecall (Key.line k) s)
  else s

/-- An atomic at a word that nothing holds: the former value and the flags, or none when the word is uncorrectable and so is
returned unchanged (R116). -/
def amoApply (core : Option (Nat × Nat)) (k : Nat) (f : AmoFun) (s : State) : State × Option (Nat × Nat) :=
  match checkedWord (core.map (·.1)) k f.bytes (amoLine core k s) with
  | (s, none) => (s, none)
  | (s, some m) =>
    let r := amoWrite core k f m s
    (r.1, some (m, r.2))

/-- Whether a module's replies are lost now (R359). -/
def peerLossy (s : State) (m : Nat) : Bool := match Tab.get s.peers m with | some p => p.lossy | none => false

/-- The module of a peer key. -/
def keyModule (k : Nat) : Option Nat := if 2 ^ 63 ≤ k then some ((k - 2 ^ 63) / 2 ^ 48) else none

/-- The sequence number of a request to the module of a key has been used (R359). -/
def countRequest (k : Nat) (s : State) : State :=
  match keyModule k with
  | some m => { s with peers := Tab.modify s.peers m fun p => { p with seq := p.seq + 1 } }
  | none => s

/-- The requests outstanding to one target at most (R359). -/
def requestLimit : Nat := 256

/-- The requests of this module outstanding to a module: sent, or waiting there for a full/empty bit (R359). -/
def outstanding (s : State) (m : Nat) : Nat :=
  (s.allSlots.filter fun e => e.2.peerReq.any (·.modId == m)).length +
    ((s.waits ++ s.overflow.map (·.2)).filter fun e => e.key.cid != 0 && keyModule e.word == some m).length

/-- Wait until one more request to the module of each key can be sent (R359). -/
def peerRoom (keys : List Nat) : M Unit := do
  let s ← get
  if (keys.filterMap keyModule).any fun m => requestLimit ≤ outstanding s m then wait .reply else pure ()

/-- A request to a peer whose replies are lost now: the target applies it once before a reply comes, and the source
resends (R116, R359). -/
def awaitPeer (m key : Nat) (op : PeerOp) (va : Word) (kind : Nat) (d : Reg) (cnt : Option (Fin 6)) : M Unit := do
  modify fun s =>
    let p := Tab.getD s.peers m ⟨true, true, [], true, 0⟩
    let s := s.mapMe fun v =>
      { v.addPend (fieldRegs 1 d) cnt true with
        st := .parked .atomic, peerReq := some ⟨m, p.seq, 1, key, op, va, kind, Reg.sIdx d⟩ }
    (countRequest key s).push (.peerRequestResend s.cur true)

/-- An atomic as a request to a peer. -/
def AmoFun.peerOp (f : AmoFun) : PeerOp :=
  if f.cas then .cas f.w8 (BitVec.ofNat 64 f.expected) (BitVec.ofNat 64 f.data)
  else .amo f.w8 (BitVec.ofNat 4 f.aop) (BitVec.ofNat 64 f.data)

/-- D := sext(m, 64) for an n-bit former value (R230). -/
def amoResult (w8 : Bool) (m : Nat) : Word := if w8 then BitVec.ofNat 64 m else Bits.word (Bits.sv 32 m)

/-- The request of the executing slot's atomic in a reservation queue. -/
def AmoFun.request (f : AmoFun) (va : Word) (k : Nat) (d : Reg) (s : State) : AtomReq :=
  ⟨.slot s.cur, false, false, va, k, f.w8, BitVec.ofNat 4 f.aop, f.cas, BitVec.ofNat 64 f.expected, BitVec.ofNat 64 f.data, Reg.sIdx d⟩

/-- The atomic of a request. -/
def AtomReq.fun (q : AtomReq) : AmoFun := ⟨q.w8, q.aop.toNat, q.cas, q.expected.toNat, q.data.toNat⟩

/-- A scalar atomic at a resolved word (R114): at once when the word's queue is empty, its home has room (R115) and no command owns
its line, else it joins the queue, or waits for the home, and the slot parks. An uncorrectable word is returned, and the atomic meets it once more (R343). -/
def amoScalar (va : Word) (k : Nat) (f : AmoFun) (d : Reg) (cnt : Option (Fin 6)) : M Unit := do
  let s ← get
  match (busyWhy s (keyRange k f.bytes)).isSome || (homeFull s (.slot s.cur) [k]).isSome, keyModule k with
  | true, none =>
    set (joinAtom (f.request va k d s) (s.mapMe fun v => { v.addPend (fieldRegs 1 d) cnt true with st := .parked .atomic }))
  | _, m => do
    peerRoom [k]
    if (match m with | some p => peerLossy s p | none => false) then awaitPeer (m.getD 0) k f.peerOp va 2 d cnt
    else do
      modify fun s => countRequest k (amoLine (some (s.core, s.cur.cid)) k s)
      let x ← readChecked (some s.core) va (keyRange k f.bytes) fun s k => s.mem.byte k
      let s ← get
      let r := amoWrite (some (s.core, s.cur.cid)) k f x s
      set (r.1.mapMe (·.raise r.2))
      modify fun s => longLatency (fieldRegs 1 d) cnt (s.mapMe fun v => v.putS d (amoResult f.w8 x))
      retire

/-! Full/empty operations (R61 to R64). Operations: 0 LDFE, 1 LDFF, 2 STEF, 3 STFF, and FEQ as 4 unchanged, 5 full,
6 empty. -/

/-- Whether a word's bit is full. -/
def isFull (s : State) (w : Nat) : Bool := !s.empties.contains w

/-- Set a word's bit. -/
def setFull (w : Nat) (full : Bool) (s : State) : State :=
  { s with empties := if full then Sorted.erase s.empties w else Sorted.insert s.empties w }

/-- Whether an operation can be performed in the word's state (R61). -/
def feReady (s : State) (op w : Nat) : Bool :=
  match op with
  | 0 | 1 | 3 => isFull s w
  | 2 => !isFull s w
  | _ => true

/-- Whether an operation changes the bit of a word in its present state. -/
def feChanges (s : State) (op w : Nat) : Bool :=
  match op with
  | 0 | 2 => true
  | 5 => !isFull s w
  | 6 => isFull s w
  | _ => false

/-- Perform an operation whose condition holds on a word of value `x` (R61): the state and the value returned. -/
def fePerform (op w x data : Nat) (s : State) : State × Nat :=
  match op with
  | 0 => (setFull w false s, x)
  | 1 => (s, x)
  | 2 => (setFull w true (performWrite (valueCells w 8 data) s), 0)
  | 3 => (performWrite (valueCells w 8 data) s, 0)
  | 5 => (setFull w true s, if isFull s w then 1 else 0)
  | 6 => (setFull w false s, if isFull s w then 1 else 0)
  | _ => (s, if isFull s w then 1 else 0)

/-- The value of a word at its home, where its line is recalled (R74); an operation that delivers data reads it with the array
checks, once more when it is uncorrectable (R343). -/
def feRead (op w : Nat) (s : State) : State × Option Nat :=
  let s := if Key.isDevice w then dirRecall (Key.line w) s else s
  if op < 2 then
    match checkedWord none w 8 s with
    | (s, none) => checkedWord none w 8 s
    | r => r
  else (s, some (wordAt s w 8))

/-- The home of a word (R61): its pool bank, its scratchpad bank, or its HBM channel; peers keep one list. -/
def feHome (s : State) (w : Nat) : Nat :=
  match arrayOf w with
  | some (.pool c, b, _) => 2 ^ 32 + c * 16 + b
  | some (.scratch g, b, _) => 2 ^ 33 + g * 16 + b
  | _ => if Key.isDevice w then pseudoChannel s.memcfg w / 2 else 2 ^ 34 + w / 2 ^ 48

/-- Record a result in the replay filter, which holds the last 256 of each source, and reply to the peer (R359). -/
def peerAnswer (src : Nat) (seq : BitVec 32) (x : Word) (s : State) : State :=
  let mine := s.filter.filter (·.1 == src)
  let old := if 256 ≤ mine.length then mine.take 1 else []
  ({ s with filter := s.filter.filter (fun f => !old.contains f) ++ [(src, seq, x)] } : State).report (.peerReply src seq true x)

/-- Whether an operation writes D (R229). -/
def feWrites (op : Nat) : Bool := op < 2 || 4 ≤ op

/-- Deliver the result of a waiting operation to its slot (R63). A peer's entry is answered. -/
def feComplete (e : WaitEntry) (value : Nat) (s : State) : State :=
  if e.key.cid = 0 then peerAnswer e.key.lcore (BitVec.ofNat 32 e.dest) (BitVec.ofNat 64 value) s
  else
    let d : Reg := .s (Fin.ofNat 64 e.dest)
    let s := completeSlot e.key (if feWrites e.op then fieldRegs 1 d else [])
      (fun v => if feWrites e.op then v.putS d (BitVec.ofNat 64 value) else v) s
    if (keyModule e.word).isSome then wake .reply s else s

/-- MACHINE_CHECK of a waiting operation of a slot, whose word is uncorrectable for its reader (R343, R344). -/
def checkSlot (reader : Option Nat) (k : SlotKey) (word : Nat) (va : Word) : State → State :=
  onSlot k fun s => trapHere { code := Cause.machineCheck, tv := va }
    (blameUnit reader word (s.mapMe fun v => { v.dropPend with st := .ready, retried := false }))

/-- A waiting operation whose word is uncorrectable ends: its slot traps, and a peer is told. -/
def feFail (e : WaitEntry) (s : State) : State :=
  if e.key.cid = 0 then s.report (.peerReply e.key.lcore (BitVec.ofNat 32 e.dest) false 0) else checkSlot none e.key e.word e.va s

/-- Perform a waiting operation whose condition holds. -/
def feServe (e : WaitEntry) (s : State) : State :=
  match feRead e.op e.word s with
  | (s, none) => feFail e s
  | (s, some x) =>
    let r := fePerform e.op e.word x e.data.toNat s
    feComplete e r.2 r.1

/-- Scan a word's entries from oldest to youngest (R62): entries whose condition holds are performed and removed. -/
def feScan (w : Nat) : List WaitEntry → State → State
  | [], s => s
  | e :: t, s =>
    if e.word = w ∧ feReady s e.op w then feScan w t (feServe e { s with waits := s.waits.erase e })
    else feScan w t s

/-- A full/empty change of a word: its home scans the word's entries (R62). -/
def feChanged (w : Nat) (s : State) : State := feScan w s.waits s

/-- Perform an operation that has arrived and whose condition holds on a word of value `x`, with the scan (R62). -/
def feDo (op w x data : Nat) (s : State) : State × Nat :=
  let ch := feChanges s op w
  let r := fePerform op w x data s
  (if ch then feChanged w r.1 else r.1, r.2)

/-- The length limit of a wait list and the length below which overflow mode can end (R62, R64). -/
def waitLimit : Nat := 4096
def waitResume : Nat := 3072

/-- An operation that must wait enters its home's list, or the overflow area of a home in overflow mode (R62, R64). -/
def feEnter (home : Nat) (e : WaitEntry) (s : State) : State :=
  let n := (s.waits.filter fun x => feHome s x.word == home).length
  if s.ovfHomes.contains home then ({ s with overflow := s.overflow ++ [(home, e)] } : State).pushOnce (.overflowService home)
  else if n ≥ waitLimit then
    ({ s with overflow := s.overflow ++ [(home, e)], ovfHomes := Sorted.insert s.ovfHomes home } : State).pushOnce (.overflowService home)
  else { s with waits := s.waits ++ [e] }

/-- Park the executing slot in a wait list (R63). -/
def feWait (home op : Nat) (va : Word) (w : Nat) (data : Word) (d : Reg) (cnt : Option (Fin 6)) (s : State) : State :=
  feEnter home ⟨s.cur, w, va, op, data, Reg.sIdx d⟩
    (s.mapMe fun v => { v.addPend (fieldRegs 1 d) cnt true with st := .parked .fullEmpty })

/-- A full/empty operation as a request to a peer (R61). -/
def feAsPeer (op : Nat) (data : Word) : PeerOp :=
  .fullEmpty (Fin.ofNat 5 (Nat.min op 4)) (BitVec.ofNat 2 (op - 4)) data

/-- The number of an operation, from OP − 0x50 and FN[4:3] (R61). -/
def feNumber (op : Fin 5) (fn : BitVec 2) : Nat := if op = 4 then 4 + fn.toNat else op.val

/-- tinfo.KIND of a full/empty operation (R20). -/
def feKind (op : Nat) : AccKind := if op < 2 then .load else if op < 4 then .store else .rmw

/-- A full/empty operation of the executing slot at a resolved word (R61 to R64). -/
def feOp (va : Word) (op w : Nat) (data : Word) (d : Reg) (cnt : Option (Fin 6)) : M Unit := do
  let s ← get
  let home := feHome s w
  peerRoom [w]
  if (match keyModule w with | some p => peerLossy s p | none => false) then
    awaitPeer ((keyModule w).getD 0) w (feAsPeer op data) va (kindCode (feKind op)) d cnt
  else if s.ovfHomes.contains home || !feReady s op w then modify fun s => feWait home op va w data d cnt (countRequest w s)
  else do
    modify fun s => countRequest w (if Key.isDevice w then dirRecall (Key.line w) s else s)
    let x ← if op < 2 then readChecked none va (keyRange w 8) fun s k => s.mem.byte k else pure 0
    let s ← get
    let r := feDo op w x data.toNat s
    set r.1
    modify fun s =>
      longLatency (fieldRegs 1 d) cnt (if feWrites op then s.mapMe fun v => v.putS d (BitVec.ofNat 64 r.2) else s)
    retire

end Sys2Proof.Machine
end

