-- ==== Sys2Proof/Machine/VectorArith.lean ====
section
/-!
DEFINITION. Vector integer and fixed-point instructions and SETVT and SETVL: row 0x6 of the opcode map (R235 to R249).
-/
namespace Sys2Proof.Machine

/-- The second operand of a vector instruction by element: sext(IMM, 64), a scalar or a vector (R243). -/
def FX.elemB (o : FX) (g w : Nat) : M (Nat → Nat) :=
  if o.im then
    let x := (sextImm o.imm).toNat % 2 ^ w
    pure fun _ => x
  else sourceElems [o.a] o.b g w

/-- An element-wise instruction: D of width `dw n` and A of width `aw n` (wide when 2n, R237). `f n i a b d` gives
element i of the result from elements of A, B and the former D. -/
def vecOp (i : Instr) (o : FX) (dWide aWide : Bool) (f : Slot → Nat → Nat → Nat → Nat → Nat → ElemOut) : M Unit := do
  let v := (← get).me
  let n := Vt.sew v.vt
  let g := Vt.grp v.vt
  let wD := if dWide then 2 * n else n
  let wA := if aWide then 2 * n else n
  let gD := if dWide then 2 * g else g
  let gA := if aWide then 2 * g else g
  checkGroups i [(o.d, gD), (o.a, gA), (o.b, g)]
  let a ← sourceElems [] o.a gA wA
  let b ← FX.elemB o g n
  let d := match o.d with
    | .v i => groupStream v (Vt.regBits v.vt) i.val gD
    | _ => 0
  finishVector o.d gD wD [o.a, o.b] o.set (fun k => (activeMask o.toHdr v).getLsbD k) (fun k => f v n k (a k) (b k) (elemAt d wD k))

/-- An integer instruction: n-bit result elements from n-bit sources (R245). -/
def vecInt (i : Instr) (o : FX) (f : Nat → Nat → Nat → Nat → Nat) (s : State) : Out :=
  run (vecOp i o false false fun _ n _ a b d => { x := f n a b d }) s

/-- The array checks of an instruction that reads its destination group of `k` times g registers (R66). -/
def readDest (o : FX) (k : Nat) : M Unit := do
  match o.d with
  | .v i => do
    let _ ← checkVregs i.val (k * Vt.grp (← get).me.vt)
    pure ()
  | _ => pure ()

/-- The value of an n-bit element, signed or not. -/
def elemVal (signed : Bool) (n x : Nat) : Int := if signed then Bits.sv n x else (x % 2 ^ n : Nat)

/-- Clamp an exact value to n bits, with sat.SAT when it changes (R246). -/
def clampElem (signed : Bool) (n : Nat) (x : Int) : ElemOut :=
  let lo : Int := if signed then -((2 ^ (n - 1) : Nat) : Int) else 0
  let hi : Int := if signed then ((2 ^ (n - 1) : Nat) : Int) - 1 else ((2 ^ n : Nat) : Int) - 1
  let y := Bits.clamp lo hi x
  { x := Bits.wrap n y, sat := if y = x then 0 else 1 }

/-- roundoff of R239: 0 RNU, 1 RNE, 2 RDN, 3 ROD. -/
def roundoff (v : Int) (d mode : Nat) : Int :=
  if d = 0 then v
  else
    let q := v / (2 ^ d : Nat)
    let r := (v % (2 ^ d : Nat)).toNat
    let h := r / 2 ^ (d - 1)
    let low := r % 2 ^ (d - 1)
    match mode with
    | 0 => q + h
    | 1 => q + (if h = 1 ∧ (low ≠ 0 ∨ q % 2 = 1) then 1 else 0)
    | 2 => q
    | _ => if r ≠ 0 ∧ q % 2 = 0 then q + 1 else q

/-- VADD (R245). -/
def execVadd (o : FX) (s : State) : Out := vecInt (.vadd o) o (fun n a b _ => (a + b) % 2 ^ n) s

/-- VSUB (R245). -/
def execVsub (o : FX) (s : State) : Out := vecInt (.vsub o) o (fun n a b _ => (a + 2 ^ n - b) % 2 ^ n) s

/-- VMUL (R245). -/
def execVmul (o : FX) (s : State) : Out := vecInt (.vmul o) o (fun n a b _ => a * b % 2 ^ n) s

/-- VMULH: SUB 0 `.ss`, 1 `.uu`, 2 `.su` (R245). -/
def execVmulh (o : FX) (s : State) : Out :=
  vecInt (.vmulh o) o (fun n a b _ =>
    Bits.wrap n (elemVal (o.sub != 1) n a * elemVal (o.sub == 0) n b / (2 ^ n : Nat))) s

/-- VMACC: D + A × B (R245). DEDUCED (log 43): D is read, and a stored error in it reported, before the groups are checked. -/
def execVmacc (o : FX) (s : State) : Out :=
  run (do
    readDest o 1
    vecOp (.vmacc o) o false false fun _ n _ a b d => { x := (d + a * b) % 2 ^ n }) s

/-- VWMACC: the widening, saturating multiply-accumulate (R248). DEDUCED (log 43): D is read, and a stored error in it reported, before
the groups are checked. -/
def execVwmacc (o : FX) (s : State) : Out :=
  run (do
    if Vt.sew (← get).me.vt = 64 then illegal (.vwmacc o) else pure ()
    readDest o 2
    vecOp (.vwmacc o) o true false fun _ n _ a b d =>
      clampElem (o.sub != 1) (2 * n) (elemVal (o.sub != 1) (2 * n) d +
        elemVal (o.sub != 1) n a * elemVal (o.sub == 0) n b)) s

/-- VMIN: SUB 0 signed, 1 unsigned (R245). -/
def execVmin (o : FX) (s : State) : Out :=
  vecInt (.vmin o) o (fun n a b _ => if (if o.sub = 1 then decide (b < a) else decide (Bits.sv n b < Bits.sv n a)) then b else a) s

/-- VMAX: SUB 0 signed, 1 unsigned (R245). -/
def execVmax (o : FX) (s : State) : Out :=
  vecInt (.vmax o) o (fun n a b _ => if (if o.sub = 1 then decide (a < b) else decide (Bits.sv n a < Bits.sv n b)) then b else a) s

/-- VAND (R245). -/
def execVand (o : FX) (s : State) : Out := vecInt (.vand o) o (fun _ a b _ => a &&& b) s

/-- VOR (R245). -/
def execVor (o : FX) (s : State) : Out := vecInt (.vor o) o (fun _ a b _ => a ||| b) s

/-- VXOR (R245). -/
def execVxor (o : FX) (s : State) : Out := vecInt (.vxor o) o (fun _ a b _ => a ^^^ b) s

/-- VSHL (R245). -/
def execVshl (o : FX) (s : State) : Out := vecInt (.vshl o) o (fun n a b _ => a * 2 ^ (b % n) % 2 ^ n) s

/-- VSHR (R245). -/
def execVshr (o : FX) (s : State) : Out := vecInt (.vshr o) o (fun n a b _ => a / 2 ^ (b % n)) s

/-- VSRA (R245). -/
def execVsra (o : FX) (s : State) : Out := vecInt (.vsra o) o (fun n a b _ => Bits.wrap n (Bits.sv n a / (2 ^ (b % n) : Nat))) s

/-- VNSHR: the narrowing rounding shift; SUB 0 signed, 1 unsigned (R249). -/
def execVnshr (o : FX) (s : State) : Out :=
  run (do
    if Vt.sew (← get).me.vt = 64 then illegal (.vnshr o) else pure ()
    vecOp (.vnshr o) o false true fun v n _ a b _ =>
      clampElem (o.sub == 0) n (roundoff (elemVal (o.sub == 0) (2 * n) a) (b % (2 * n)) (Bits.field v.rmode 0 2))) s

/-- VSADD: SUB 0 signed, 1 unsigned (R246). -/
def execVsadd (o : FX) (s : State) : Out :=
  run (vecOp (.vsadd o) o false false fun _ n _ a b _ =>
    clampElem (o.sub == 0) n (elemVal (o.sub == 0) n a + elemVal (o.sub == 0) n b)) s

/-- VSSUB (R246). -/
def execVssub (o : FX) (s : State) : Out :=
  run (vecOp (.vssub o) o false false fun _ n _ a b _ =>
    clampElem (o.sub == 0) n (elemVal (o.sub == 0) n a - elemVal (o.sub == 0) n b)) s

/-- VCMP: a mask bit for each active element (R247). -/
def execVcmp (o : FX) (s : State) : Out :=
  run (do
    let v := (← get).me
    let n := Vt.sew v.vt
    let g := Vt.grp v.vt
    checkGroups (.vcmp o) [(o.a, g), (o.b, g)]
    let a ← sourceElems [] o.a g n
    let b ← FX.elemB o g n
    finishMask o.d [o.a, o.b] o.set (fun k => (activeMask o.toHdr v).getLsbD k)
      (fun k => { x := if condHolds o.sub.toNat n (a k) (b k) then 1 else 0 })) s

/-- VMERGE: A where mask C is 1, else B (R245). -/
def execVmerge (o : FX) (s : State) : Out :=
  run (vecOp (.vmerge o) o false false fun v _ k a b _ => { x := if (v.mreg o.c).getLsbD k then a else b }) s

/-- VMV: A, a scalar or the immediate into every element (R245). -/
def execVmv (o : FX) (s : State) : Out :=
  run (vecOp (.vmv o) o false false fun _ _ _ a b _ => { x := if o.im then b else a }) s

/-- Whether SETVT refuses a value (R244). -/
def vtRefused (x : Word) : Bool := Bits.field x 8 56 != 0 || Bits.field x 4 2 != 0 || Bits.field x 2 2 == 3

/-- A write of a vt that is not refused (R242, R244): a change of LP zeroes the vector registers and vl. -/
def Slot.setVt (v : Slot) (x : Word) : Slot :=
  if Vt.lp x != Vt.lp v.vt then { v with vt := x, vl := 0, v := Vector.replicate 32 0 }
  else { v with vt := x, vl := Nat.min v.vl (Vt.vlmax x) }

/-- The request of SETVT and SETVL: sA, or zext(IMM, 64) (R244). -/
def FX.request (o : FX) (v : Slot) : Word := if o.im then o.imm.setWidth 64 else v.sreg o.a

/-- SETVT (R244). -/
def execSetvt (o : FX) (s : State) : Out :=
  .next (s.mapMe fun v =>
    let x := FX.request o v
    (if vtRefused x then v.putS o.d 0 else (v.setVt x).putS o.d (BitVec.ofNat 64 (Vt.vlmax x))).advance)

/-- SETVL (R244). -/
def execSetvl (o : FX) (s : State) : Out :=
  .next (s.mapMe fun v =>
    let n := Nat.min (FX.request o v).toNat (Vt.vlmax v.vt)
    ({ v with vl := n }.putS o.d (BitVec.ofNat 64 n)).advance)

end Sys2Proof.Machine
end

