-- ==== Sys2Proof/Machine/VectorFloat.lean ====
section
/-!
DEFINITION. Vector floating point: row 0x7 of the opcode map (R250 to R253).
-/
namespace Sys2Proof.Machine

/-- The element format that SEW and FC give (R250). -/
def vfFmt (vt : Word) (fc : Nat) : Option Fmt :=
  match Vt.sew vt, fc with
  | 16, 1 => some .bf16
  | 16, 2 => some .fp16
  | 32, 0 => some .fp32
  | 64, 0 => some .fp64
  | _, _ => none

/-- The result and flags as an element. -/
def elemFl (r : Nat × Nat) : ElemOut := { x := r.1, fl := r.2 }

/-- A floating-point instruction on elements of A, B and C (R250, R252). -/
def vfOp (i : Instr) (o : FX) (f : Fmt → Nat → Nat → Nat → Nat → Nat × Nat) : M Unit := do
  let v := (← get).me
  let g := Vt.grp v.vt
  match vfFmt v.vt o.fc.toNat with
  | none => illegal i
  | some fmt => do
    checkGroups i [(o.d, g), (o.a, g), (o.b, g), (o.c, g)]
    let a ← sourceElems [] o.a g fmt.width
    let b ← sourceElems [o.a] o.b g fmt.width
    let c ← sourceElems [o.a, o.b] o.c g fmt.width
    finishVector o.d g fmt.width [o.a, o.b, o.c] o.set (fun k => (activeMask o.toHdr v).getLsbD k)
      (fun k => elemFl (f fmt (rmMode v o.rm) (a k) (b k) (c k)))

/-- VFADD (R250). -/
def execVfadd (o : FX) (s : State) : Out := run (vfOp (.vfadd o) o fun f m a b _ => fAdd f m a b) s
/-- VFSUB (R250). -/
def execVfsub (o : FX) (s : State) : Out := run (vfOp (.vfsub o) o fun f m a b _ => fSub f m a b) s
/-- VFMUL (R250). -/
def execVfmul (o : FX) (s : State) : Out := run (vfOp (.vfmul o) o fun f m a b _ => fMul f m a b) s
/-- VFMA (R250). -/
def execVfma (o : FX) (s : State) : Out := run (vfOp (.vfma o) o fun f m a b c => fMa f m a b c) s
/-- VFDIV (R250). -/
def execVfdiv (o : FX) (s : State) : Out := run (vfOp (.vfdiv o) o fun f m a b _ => fDiv f m a b) s
/-- VFSQRT (R250). -/
def execVfsqrt (o : FX) (s : State) : Out := run (vfOp (.vfsqrt o) o fun f m a _ _ => fSqrt f m a) s
/-- VFMIN (R250). -/
def execVfmin (o : FX) (s : State) : Out := run (vfOp (.vfmin o) o fun f _ a b _ => fMinMax f false a b) s
/-- VFMAX (R250). -/
def execVfmax (o : FX) (s : State) : Out := run (vfOp (.vfmax o) o fun f _ a b _ => fMinMax f true a b) s

/-- VFCMP: a mask bit by the relations of R217 (R250). -/
def execVfcmp (o : FX) (s : State) : Out :=
  run (do
    let v := (← get).me
    let g := Vt.grp v.vt
    match vfFmt v.vt o.fc.toNat with
    | none => illegal (.vfcmp o)
    | some fmt => do
      checkGroups (.vfcmp o) [(o.a, g), (o.b, g)]
      let a ← sourceElems [] o.a g fmt.width
      let b ← sourceElems [o.a] o.b g fmt.width
      finishMask o.d [o.a, o.b] o.set (fun k => (activeMask o.toHdr v).getLsbD k) (fun k =>
        let r := fCmp fmt o.sub.toNat (a k) (b k)
        { x := if r.1 then 1 else 0, fl := r.2 })) s

/-- VFCVT (R253). Under LP the limit that R253 states admits elements beyond the architectural bits of the source group;
they are free values (log 27). -/
def execVfcvt (o : FX) (s : State) : Out :=
  run (do
    let s ← get
    let v := s.me
    let g := Vt.grp v.vt
    match numFmt o.sub.toNat, numFmt o.fc.toNat with
    | some src, some dst => do
      let sr := o.rm == 6
      if v.vl * Nat.max src.width dst.width > 4096 * g || (sr && v.vl > 128 * g) then illegal (.vfcvt o) else pure ()
      checkGroups (.vfcvt o) [(o.d, g), (o.a, g), (o.c, g)]
      let a ← sourceElems [] o.a g src.width
      let r ← if sr then sourceElems [o.a] o.c g 32 else pure fun _ => 0
      let bits := Vt.regBits v.vt * g
      let source (w k x : Nat) : Nat := if (k + 1) * w > bits then (Config.freeWord (s.free + k)).toNat % 2 ^ w else x
      if Vt.lp v.vt then modify fun s => { s with free := s.free + 512 } else pure ()
      finishVector o.d g dst.width [o.a, o.c] o.set (fun k => (activeMask o.toHdr v).getLsbD k)
        (fun k => elemFl (convert src dst (if sr then 6 else rmMode v o.rm) (source 32 k (r k)) (source src.width k (a k))))
    | _, _ => illegal (.vfcvt o)) s

/-! The special functions (R251): an exact value is enclosed in an interval of integers at a fixed scale, and rounded once
when the whole interval rounds alike (log 15). -/
namespace Sf

/-- Σ 1 / ((2k+1) 9^k) type series: 2^p × 2 × atanh(z / 2^p) for z at scale p, `n` terms; `t` is the present power. -/
def atanhSum (p z2 : Nat) : Nat → Nat → Nat → Nat
  | 0, _, _ => 0
  | n + 1, k, t => 2 * t / (2 * k + 1) + atanhSum p z2 n (k + 1) (t * z2 / 2 ^ p)

/-- ln((1 + z) / (1 − z)) at scale p. -/
def lnRatio (p z : Nat) : Nat := atanhSum p (z * z / 2 ^ p) p 0 z

/-- ln 2 at scale p, by the ratio at z = 1/3. -/
def ln2 (p : Nat) : Nat := lnRatio p (2 ^ p / 3)

/-- The terms of exp(y) after the first, for y < 1 at scale p. -/
def expSum (p y : Nat) : Nat → Nat → Nat → Nat
  | 0, _, _ => 0
  | n + 1, k, t => t + expSum p y n (k + 1) (t * y / 2 ^ p / (k + 1))

/-- exp(y) for 0 ≤ y < 1 at scale p. -/
def exp (p y : Nat) : Nat := expSum p y p 0 (2 ^ p)

/-- The scaled value of m × 2^e. -/
def scale (p m : Nat) (e : Int) : Nat :=
  let k := e + p
  if 0 ≤ k then m * 2 ^ k.toNat else m / 2 ^ (-k).toNat

/-- The allowance for the truncations of a sum at scale p. -/
def slack : Nat := 2 ^ 20

/-- Round the irrational value between (x − slack) and (x + slack) at 2^(e), and whether 64 guard bits decide it. -/
def settle (f : Fmt) (mode : Nat) (neg : Bool) (x : Nat) (e : Int) : Bool × Nat × Nat :=
  let d := 2 ^ 64
  ((x - slack) / d == (x + slack) / d, f.round mode 0 neg (x / d) (e + 64) true)

/-- A result that needs no interval. -/
def known (r : Nat × Nat) : Bool × Nat × Nat := (true, r)

/-- Round the value just below 1 (`below`) or just above it. -/
def nearOne (f : Fmt) (mode : Nat) (neg below : Bool) : Nat × Nat :=
  f.round mode 0 neg (if below then 2 ^ 100 - 1 else 2 ^ 100) (-100) true

/-- 2^x for x = ±m × 2^e, m ≠ 0, at working scale p. -/
def exp2 (f : Fmt) (mode p : Nat) (neg : Bool) (m : Nat) (e : Int) : Bool × Nat × Nat :=
  if (m.log2 : Int) + e ≥ 10 then known (f.round mode 0 false 1 (if neg then -1024 else 1024) true)
  else if (m.log2 : Int) + e < -105 then known (nearOne f mode false neg)
  else if 0 ≤ e ∨ m % 2 ^ (-e).toNat = 0 then
    let n : Int := if 0 ≤ e then m * 2 ^ e.toNat else (m / 2 ^ (-e).toNat : Nat)
    known (f.round mode 0 false 1 (if neg then -n else n))
  else
    let a := scale p m e
    let x : Int := if neg then -(a : Int) else a
    let n := x / (2 ^ p : Nat)
    let r := (x % (2 ^ p : Nat)).toNat
    settle f mode false (exp p (r * ln2 p / 2 ^ p)) (n - p)

/-- log2 of m × 2^e, m ≠ 0, at working scale p. -/
def log2 (f : Fmt) (mode p : Nat) (m : Nat) (e : Int) : Bool × Nat × Nat :=
  let k := m.log2
  let n : Int := k + e
  if m = 2 ^ k then known (f.round mode 0 (decide (n < 0)) n.natAbs 0)
  else
    let z := (m - 2 ^ k) * 2 ^ p / (m + 2 ^ k)
    let y : Int := n * (2 ^ p : Nat) + (lnRatio p z * 2 ^ p / ln2 p : Nat)
    settle f mode (decide (y < 0)) y.natAbs (-(p : Int))

/-- tanh of m × 2^e (m ≠ 0) at working scale p, with the sign apart. -/
def tanh (f : Fmt) (mode p : Nat) (neg : Bool) (m : Nat) (e : Int) : Bool × Nat × Nat :=
  if (m.log2 : Int) + e ≥ 6 then known (nearOne f mode neg true)
  else if (m.log2 : Int) + e < -50 then known (f.round mode 0 neg (m * 2 ^ 60 - 1) (e - 60) true)
  else
    let y := 2 * scale p m e
    let l := ln2 p
    let n := y / l
    let x := exp p (y % l) * 2 ^ n
    settle f mode neg ((x - 2 ^ p) * 2 ^ p / (x + 2 ^ p)) (-(p : Int))

/-- 1 / √(m × 2^e), m ≠ 0. -/
def rsq (f : Fmt) (mode m : Nat) (e : Int) : Nat × Nat :=
  let m' := if e % 2 = 0 then m else 2 * m
  let e' := if e % 2 = 0 then e else e - 1
  let q := isqrt (2 ^ 256 / m') 129 0
  f.round mode 0 false q (-(e' / 2) - 128) (q * q * m' != 2 ^ 256)

/-- The result at the first working scale that decides; at the last it stands (log 15). -/
def decide3 (g : Nat → Bool × Nat × Nat) : Nat × Nat :=
  let r := g 256
  if r.1 then r.2
  else
    let r := g 512
    if r.1 then r.2 else (g 1024).2

end Sf

/-- NV with the default NaN. -/
def badOperand (f : Fmt) : Nat × Nat := (f.defaultNan, Fl.nv)

/-- A special function of one element: NaNs by R145 step 1, then the operand's own cases (R251). -/
def sfElem (f : Fmt) (x : Nat) (g : FV → Nat × Nat) : Nat × Nat :=
  match firstNan f [f.decode x] with
  | some r => r
  | none => g (f.decode x)

/-- VFEXP2. -/
def fExp2 (f : Fmt) (mode x : Nat) : Nat × Nat :=
  sfElem f x fun v => match v with
    | .inf neg => (if neg then 0 else f.infBits, 0)
    | .fin neg m e => if m = 0 then f.round mode 0 false 1 0 else Sf.decide3 fun p => Sf.exp2 f mode p neg m e
    | .nan _ _ _ => badOperand f

/-- VFLOG2. -/
def fLog2 (f : Fmt) (mode x : Nat) : Nat × Nat :=
  sfElem f x fun v => match v with
    | .inf neg => if neg then badOperand f else (f.infBits, 0)
    | .fin neg m e =>
      if m = 0 then (f.signBit true + f.infBits, Fl.dz)
      else if neg then badOperand f
      else Sf.decide3 fun p => Sf.log2 f mode p m e
    | .nan _ _ _ => badOperand f

/-- VFRSQ. -/
def fRsq (f : Fmt) (mode x : Nat) : Nat × Nat :=
  sfElem f x fun v => match v with
    | .inf neg => if neg then badOperand f else (0, 0)
    | .fin neg m e =>
      if m = 0 then (f.signBit neg + f.infBits, Fl.dz)
      else if neg then badOperand f
      else Sf.rsq f mode m e
    | .nan _ _ _ => badOperand f

/-- VFRCP: 1 / x. -/
def fRcp (f : Fmt) (mode x : Nat) : Nat × Nat := fDiv f mode (f.bias * 2 ^ f.mb) x

/-- VFTANH. -/
def fTanh (f : Fmt) (mode x : Nat) : Nat × Nat :=
  sfElem f x fun v => match v with
    | .inf neg => (f.signBit neg + f.bias * 2 ^ f.mb, 0)
    | .fin neg m e => if m = 0 then (f.signBit neg, 0) else Sf.decide3 fun p => Sf.tanh f mode p neg m e
    | .nan _ _ _ => badOperand f

/-- A special function; FP64 raises ILLEGAL_INSTRUCTION (R251). -/
def sfOp (i : Instr) (o : FX) (f : Fmt → Nat → Nat → Nat × Nat) : M Unit := do
  if Vt.sew (← get).me.vt = 64 then illegal i else pure ()
  vfOp i o fun fmt m a _ _ => f fmt m a

/-- VFEXP2 (R251). -/
def execVfexp2 (o : FX) (s : State) : Out := run (sfOp (.vfexp2 o) o fExp2) s
/-- VFLOG2 (R251). -/
def execVflog2 (o : FX) (s : State) : Out := run (sfOp (.vflog2 o) o fLog2) s
/-- VFRSQ (R251). -/
def execVfrsq (o : FX) (s : State) : Out := run (sfOp (.vfrsq o) o fRsq) s
/-- VFRCP (R251). -/
def execVfrcp (o : FX) (s : State) : Out := run (sfOp (.vfrcp o) o fRcp) s
/-- VFTANH (R251). -/
def execVftanh (o : FX) (s : State) : Out := run (sfOp (.vftanh o) o fTanh) s

end Sys2Proof.Machine
end

