-- ==== Sys2Proof/Machine/Permute.lean ====
section
/-!
DEFINITION. Permutation, reduction, packing and masks: row 0x8 of the opcode map (R270 to R278).
-/
namespace Sys2Proof.Machine

/-- A source element read across lanes: an index at or beyond vl reads as fill (R241). -/
def laneRead (v : Slot) (n : Nat) (a : Nat → Nat) (j : Nat) : Nat :=
  if j < v.vl then a j else v.fill.toNat % 2 ^ n

/-- Whether element k is active (R241). -/
def isActive (h : Hdr) (v : Slot) (k : Nat) : Bool := decide (k < v.vl) && (activeMask h v).getLsbD k

/-- The active indices in increasing order. -/
def activeList (h : Hdr) (v : Slot) : List Nat := (List.range v.vl).filter fun k => (activeMask h v).getLsbD k

/-- A permutation: element k of D from the lanes of A and the elements of B (R271). -/
def permOp (i : Instr) (o : FX) (f : Slot → (Nat → Nat) → (Nat → Nat) → Nat → Nat) : M Unit := do
  let v := (← get).me
  let n := Vt.sew v.vt
  let g := Vt.grp v.vt
  checkGroups i [(o.d, g), (o.a, g), (o.b, g)]
  let a ← sourceElems [] o.a g n
  let b ← sourceElems [o.a] o.b g n
  finishVector o.d g n [o.a, o.b] o.set (fun k => (activeMask o.toHdr v).getLsbD k)
    (fun k => { x := f v (laneRead v n a) b k })

/-- VPERM (R271). -/
def execVperm (o : FX) (s : State) : Out := run (permOp (.vperm o) o fun _ a b k => a (b k)) s

/-- VSLIDE: SUB 0 up, 1 down (R271). -/
def execVslide (o : FX) (s : State) : Out :=
  run (permOp (.vslide o) o fun v a _ k =>
    let d := (v.sreg o.b).toNat
    if o.sub = 0 then (if k < d then v.fill.toNat else a (k - d)) else a (k + d)) s

/-- VBCAST (R271). -/
def execVbcast (o : FX) (s : State) : Out := run (permOp (.vbcast o) o fun v a _ _ => a (v.sreg o.b).toNat) s

/-- Finish an instruction that writes a stream of `span` registers at D, in elements of width w that `wrote` names, and cannot trap. -/
def finishStream (d : Reg) (span w : Nat) (wrote : Nat → Bool) (sources more : List Reg) (set : Option (Fin 6)) (x sat : Nat) :
    M Unit := do
  if (← get).me.vl = 0 then pure () else writeGroup d span w wrote x
  dropPops sources
  modify fun s => longLatency (groupRegs d span ++ more) set (s.mapMe (·.saturate sat))
  retire

/-- The former stream of a destination group. -/
def destStream (v : Slot) (d : Reg) (span : Nat) : Nat :=
  match d with
  | .v i => groupStream v (Vt.regBits v.vt) i.val span
  | _ => 0

/-! Reductions and scans (R272). -/

/-- One step of a reduction: integer operations 0 to 7 on n-bit values, or floating-point 0, 4 and 5, with flags. -/
def redStep (fp : Option Fmt) (mode sub n x y : Nat) : Nat × Nat :=
  match fp with
  | some f => if sub = 0 then fAdd f mode x y else fMinMax f (sub == 5) x y
  | none =>
    (match sub with
     | 0 => (x + y) % 2 ^ n
     | 1 => x &&& y
     | 2 => x ||| y
     | 3 => x ^^^ y
     | 4 => if Bits.sv n y < Bits.sv n x then y else x
     | 5 => if Bits.sv n x < Bits.sv n y then y else x
     | 6 => Nat.min x y
     | _ => Nat.max x y, 0)

/-- The ordered form: the final value and the OR of the steps' flags. -/
def redList (step : Nat → Nat → Nat × Nat) : List Nat → Nat → Nat → Nat × Nat
  | [], acc, fl => (acc, fl)
  | x :: t, acc, fl => redList step t (step acc x).1 (fl ||| (step acc x).2)

/-- One round of the tree form. -/
def redPairs (step : Nat → Nat → Nat × Nat) : List Nat → List Nat × Nat
  | x :: y :: t =>
    let r := redPairs step t
    ((step x y).1 :: r.1, (step x y).2 ||| r.2)
  | l => (l, 0)

/-- The tree form: rounds until one value is left. -/
def redTree (step : Nat → Nat → Nat × Nat) : Nat → List Nat → Nat → List Nat × Nat
  | 0, l, fl => (l, fl)
  | n + 1, l, fl =>
    if l.length ≤ 1 then (l, fl)
    else redTree step n (redPairs step l).1 (fl ||| (redPairs step l).2)

/-- The floating-point format of a reduction: none for an integer one; ILLEGAL_INSTRUCTION for a refused pairing. -/
def redFmt (i : Instr) (o : FX) (vt : Word) : M (Option Fmt) :=
  if o.fx.getLsbD 0 then
    match vfFmt vt o.fc.toNat with
    | some f => pure (some f)
    | none => illegal i
  else pure none

/-- VRED (R272): FN[4] selects the tree form. -/
def execVred (o : FX) (s : State) : Out :=
  run (do
    let v := (← get).me
    let n := Vt.sew v.vt
    let g := Vt.grp v.vt
    let fp ← redFmt (.vred o) o v.vt
    checkGroups (.vred o) [(o.d, g), (o.a, g), (o.b, g)]
    let a ← sourceElems [] o.a g n
    let b ← sourceElems [o.a] o.b g n
    let step := redStep fp (rmMode v o.rm) o.sub.toNat n
    let xs := (activeList o.toHdr v).map a
    let r := if o.fx.getLsbD 1 then
        let t := redTree step xs.length xs 0
        match t.1 with
        | x :: _ => ((step (b 0) x).1, t.2 ||| (step (b 0) x).2)
        | [] => (b 0, t.2)
      else redList step xs (b 0) 0
    if v.vl = 0 then finishStream o.d g n (fun _ => false) [o.a, o.b] [] o.set 0 0
    else do
      modify fun s => s.mapMe (·.raise r.2)
      match fpCause v.frm r.2 with
      | some c => trap (fpTrap c r.2 0)
      | none => do
        let old := destStream v o.d g
        finishStream o.d g n (· == 0) [o.a, o.b] [] o.set (old / 2 ^ n * 2 ^ n + r.1 % 2 ^ n) 0) s

/-- The elements of a scan from index k on: the step of an active element, the accumulator of the others. -/
def scanFrom (act : Nat → Bool) (step : Nat → Nat → Nat × Nat) (a : Nat → Nat) : Nat → Nat → Nat → List (Nat × Nat)
  | _, 0, _ => []
  | k, n + 1, acc =>
    if act k then step acc (a k) :: scanFrom act step a (k + 1) n (step acc (a k)).1
    else (acc, 0) :: scanFrom act step a (k + 1) n acc

/-- VSCAN (R272): resumed from element i, it goes on from the last result written below i. -/
def execVscan (o : FX) (s : State) : Out :=
  run (do
    let v := (← get).me
    let n := Vt.sew v.vt
    let g := Vt.grp v.vt
    let fp ← redFmt (.vscan o) o v.vt
    checkGroups (.vscan o) [(o.d, g), (o.a, g), (o.b, g)]
    let a ← sourceElems [] o.a g n
    let b ← sourceElems [o.a] o.b g n
    let start := resumeElem v
    let act := fun k => (activeMask o.toHdr v).getLsbD k
    let acc := match ((activeList o.toHdr v).filter (· < start)).reverse with
      | j :: _ => elemAt (destStream v o.d g) n j
      | [] => b 0
    let rs := scanFrom act (redStep fp (rmMode v o.rm) o.sub.toNat n) a start (v.vl - start) acc
    finishVector o.d g n [o.a, o.b] o.set act (fun k => elemFl ((rs[k - start]?).getD (0, 0)))) s

/-! Compress, expand, rank and conflict (R273, R274). -/

/-- VCOMPR (R273). -/
def execVcompr (o : FX) (s : State) : Out :=
  run (do
    let v := (← get).me
    let n := Vt.sew v.vt
    let g := Vt.grp v.vt
    checkGroups (.vcompr o) [(o.d, g), (o.a, g)]
    let a ← sourceElems [] o.a g n
    let xs := (activeList o.toHdr v).map a
    let fill := v.fill.toNat % 2 ^ n
    let res (k : Nat) : Option Nat :=
      if k < xs.length then xs[k]? else if Vt.tail v.vt then some fill else none
    finishStream o.d g n (mergeWrote v.vl (Vt.tail v.vt) res) [o.a] [] o.set
      (mergeStream n (Vt.regBits v.vt * g) v.vl (Vt.tail v.vt) fill res (destStream v o.d g)) 0) s

/-- The rank of element k among the active ones. -/
def rankOf (h : Hdr) (v : Slot) (k : Nat) : Nat := ((activeList h v).filter (· < k)).length

/-- VEXPND (R273). -/
def execVexpnd (o : FX) (s : State) : Out :=
  run (permOp (.vexpnd o) o fun v a _ k => a (rankOf o.toHdr v k)) s

/-- VIOTA (R273). DESIGN CHOICE (log 59): a rank that the element cannot hold is kept modulo 2^n. -/
def execViota (o : FX) (s : State) : Out := run (permOp (.viota o) o fun v _ _ k => rankOf o.toHdr v k) s

/-- VCONFL: SUB 0 marks a repeated value, SUB 1 counts (R274). DESIGN CHOICE (log 59): a count that the element cannot hold is kept
modulo 2^n. -/
def execVconfl (o : FX) (s : State) : Out :=
  run (do
    let v := (← get).me
    let n := Vt.sew v.vt
    let g := Vt.grp v.vt
    checkGroups (.vconfl o) [(o.d, g), (o.a, g)]
    let a ← sourceElems [] o.a g n
    let act := fun k => (activeMask o.toHdr v).getLsbD k
    let count (k : Nat) : Nat := ((activeList o.toHdr v).filter fun j => decide (j < k) && a j == a k).length
    if o.sub = 0 then finishMask o.d [o.a] o.set act (fun k => { x := if count k = 0 then 0 else 1 })
    else finishVector o.d g n [o.a] o.set act (fun k => { x := count k })) s

/-! Structured sparsity (R275, R276). -/

/-- The rank of an element for VSPK: a NaN above every number, numbers by magnitude. -/
def spkKey (fmt : NumFmt) (x : Nat) : Nat :=
  match fmt with
  | .flt f => if (f.decode x).isNan then 2 ^ 64 else x % 2 ^ (f.eb + f.mb)
  | .int _ w => (Bits.sv w x).natAbs

/-- The two kept of four candidates, each with its activity and rank: the highest, ties to the lower index (R275). -/
def spkPick (cand : List (Bool × Nat)) : Nat × Nat :=
  let better (x y : Bool × Nat) : Bool := (x.1 && !y.1) || (x.1 == y.1 && y.2 < x.2)
  let at' (i : Nat) : Bool × Nat := (cand[i]?).getD (false, 0)
  let best (skip : Nat) : Nat :=
    [0, 1, 2, 3].foldl (fun b i => if i = skip then b else if b = 4 ∨ better (at' i) (at' b) then i else b) 4
  let h0 := best 4
  let h1 := best h0
  (Nat.min h0 h1, Nat.max h0 h1)

/-- VSPK (R275). -/
def execVspk (o : FX) (s : State) : Out :=
  run (do
    let v := (← get).me
    let n := Vt.sew v.vt
    let g := Vt.grp v.vt
    match numFmt o.fc.toNat with
    | none => illegal (.vspk o)
    | some fmt => do
      if fmt.width != n then illegal (.vspk o) else pure ()
      checkGroups (.vspk o) [(o.d, g), (o.a, g)]
      let a ← sourceElems [] o.a g n
      let groups := Bits.cdiv v.vl 4
      let pick (q : Nat) : Nat × Nat :=
        spkPick ([0, 1, 2, 3].map fun i =>
          (isActive o.toHdr v (4 * q + i), spkKey fmt (laneRead v n a (4 * q + i))))
      let picks := (List.range groups).map pick
      let kept (k : Nat) : Nat :=
        let p := (picks[k / 2]?).getD (0, 0)
        laneRead v n a (4 * (k / 2) + (if k % 2 = 0 then p.1 else p.2))
      let metaBits := packElems 4 (picks.map fun p => p.1 + 4 * p.2)
      let x := mergeStream n (Vt.regBits v.vt * g) (2 * groups) (Vt.tail v.vt) (v.fill.toNat % 2 ^ n)
        (fun k => some (kept k)) (destStream v o.d g)
      if v.vl = 0 then pure ()
      else modify fun s => s.mapMe fun v =>
        match o.c with
        | .m i => v.setM i (mergeMask (4 * groups) (Vt.tail v.vt) (fun k => some (metaBits.testBit k)) (v.getM i))
        | _ => v
      finishStream o.d g n (fun k => decide (k < 2 * groups) || Vt.tail v.vt) [o.a] [o.c] o.set x 0) s

/-- VUNPK (R276): group q is written when bit 4q is active. -/
def execVunpk (o : FX) (s : State) : Out :=
  run (do
    let v := (← get).me
    let n := Vt.sew v.vt
    let g := Vt.grp v.vt
    checkGroups (.vunpk o) [(o.d, g), (o.a, g)]
    let a ← sourceElems [] o.a g n
    let h (q j : Nat) : Nat := Bits.field (v.mreg o.c) (4 * q + 2 * j) 2
    let res (k : Nat) : Option Nat :=
      let q := k / 4
      if !isActive o.toHdr v (4 * q) then none
      else if k % 4 = h q 1 then some (laneRead v n a (2 * q + 1))
      else if k % 4 = h q 0 then some (laneRead v n a (2 * q))
      else some 0
    finishStream o.d g n (mergeWrote v.vl (Vt.tail v.vt) res) [o.a] [] o.set
      (mergeStream n (Vt.regBits v.vt * g) v.vl (Vt.tail v.vt) (v.fill.toNat % 2 ^ n) res (destStream v o.d g)) 0) s

/-! VPACK (R277). -/

/-- VPACK (R277). -/
def execVpack (o : FX) (s : State) : Out :=
  run (do
    let v := (← get).me
    let n := Vt.sew v.vt
    let g := Vt.grp v.vt
    let w := packWidth o.fx
    checkGroups (.vpack o) [(o.d, g), (o.a, g)]
    if o.sub.toNat ≥ 3 then do
      let x ← sourceStream [] o.a g
      finishVector o.d g n [o.a] o.set (fun k => (activeMask o.toHdr v).getLsbD k)
        (fun k => { x := if o.sub = 3 then elemAt x w k else Bits.wrap n (Bits.sv w (elemAt x w k)) })
    else do
      let a ← sourceElems [] o.a g n
      let out (k : Nat) : ElemOut :=
        match o.sub.toNat with
        | 0 => { x := a k % 2 ^ w }
        | 1 => clampElem true w (Bits.sv n (a k))
        | _ => clampElem false w (a k)
      let old := destStream v o.d g
      let low := mapElems w (fun k y => if isActive o.toHdr v k then (out k).x else y) 0 v.vl (old % 2 ^ (v.vl * w))
      let high := if Vt.tail v.vt then 0 else old / 2 ^ (v.vl * w)
      let sat := (activeList o.toHdr v).foldl (fun t k => t ||| (out k).sat) 0
      finishStream o.d g w (fun k => if k < v.vl then isActive o.toHdr v k else Vt.tail v.vt) [o.a] [] o.set (low + high * 2 ^ (v.vl * w)) sat) s

/-! Mask instructions (R278). -/

/-- A logical operation on mask registers (R278). -/
def maskOp (o : FX) (f : Mask → Mask → Mask) (s : State) : Out :=
  .next ((longLatency (fieldRegs 1 o.d) o.set (s.mapMe fun v =>
    match o.d with
    | .m i => v.setM i (f (v.mreg o.a) (v.mreg o.b))
    | _ => v)).mapMe Slot.advance)

/-- MAND (R278). -/
def execMand (o : FX) (s : State) : Out := maskOp o (fun a b => a &&& b) s
/-- MOR (R278). -/
def execMor (o : FX) (s : State) : Out := maskOp o (fun a b => a ||| b) s
/-- MXOR (R278). -/
def execMxor (o : FX) (s : State) : Out := maskOp o (fun a b => a ^^^ b) s
/-- MNOT (R278). -/
def execMnot (o : FX) (s : State) : Out := maskOp o (fun a _ => ~~~a) s

/-- A scalar result from mask A below vl (R278). -/
def maskScalar (o : FX) (f : Slot → Nat → Nat) (s : State) : Out :=
  .next ((longLatency (fieldRegs 1 o.d) o.set (s.mapMe fun v =>
    v.putS o.d (BitVec.ofNat 64 (f v ((v.mreg o.a).toNat % 2 ^ v.vl))))).mapMe Slot.advance)

/-- MPOPC (R278). -/
def execMpopc (o : FX) (s : State) : Out := maskScalar o (fun _ x => Bits.popcount 512 x) s
/-- MFIRST (R278). -/
def execMfirst (o : FX) (s : State) : Out :=
  maskScalar o (fun _ x => if x = 0 then 2 ^ 64 - 1 else Bits.ctz 512 x) s

end Sys2Proof.Machine
end

