-- ==== Sys2Proof/Machine/VectorMem.lean ====
section
/-!
DEFINITION. Vector loads and stores, stream-queue loads and notify stores: row 0x9 of the opcode map (R255 to R265), with
the filling of stream entries (R341).
-/
namespace Sys2Proof.Machine

/-! Element addresses (R256, R259, R260, R263). -/

/-- eb: the bytes of an element. -/
def elemBytes (v : Slot) : Nat := Vt.sew v.vt / 8

/-- The base of the strided, indexed and shape forms (R255). -/
def FM.base (o : FM) (v : Slot) : Word := v.sreg o.a + sextImm o.imm

/-- The indices of an indexed form, extended to 64 bits (R256). -/
def indexElems (v : Slot) (o : FM) : Nat → Word :=
  let wi := 8 * 2 ^ o.w.toNat
  let x := destStream v o.b (indexSpan v.vt o.w)
  fun i => if o.sx then Bits.word (Bits.sv wi (elemAt x wi i)) else BitVec.ofNat 64 (elemAt x wi i)

/-- Word w of a shape record (R262). -/
def shapeWord (v : Slot) (r : Reg) (w : Nat) : Nat :=
  match r with
  | .v i => elemAt (v.v[i]).toNat 32 w
  | _ => 0

/-- Whether a shape record has a nonzero reserved word (R262). -/
def shapeBad (v : Slot) (r : Reg) : Bool := [3, 11, 12, 13, 14, 15].any fun w => shapeWord v r w != 0

/-- The indices i0, i1, i2 of shape element n (R263). -/
def shapeIndex (v : Slot) (r : Reg) (n : Nat) : Nat × Nat × Nat :=
  let e0 := shapeWord v r 0
  let e1 := shapeWord v r 1
  (n % e0, n / e0 % e1, n / (e0 * e1))

/-- Whether shape element n lies inside the data (R263). -/
def shapeInside (v : Slot) (r : Reg) (n : Nat) : Bool :=
  let i := shapeIndex v r n
  n < shapeWord v r 0 * shapeWord v r 1 * shapeWord v r 2 && i.1 < shapeWord v r 8 && i.2.1 < shapeWord v r 9 &&
    i.2.2 < shapeWord v r 10

/-- The address of shape element n (R263). -/
def shapeAddr (v : Slot) (o : FM) (n : Nat) : Word :=
  let i := shapeIndex v o.b n
  let s1 : Word := BitVec.ofNat 64 (shapeWord v o.b 4 + 2 ^ 32 * shapeWord v o.b 5)
  let s2 : Word := BitVec.ofNat 64 (shapeWord v o.b 6 + 2 ^ 32 * shapeWord v o.b 7)
  FM.base o v + BitVec.ofNat 64 (i.1 * elemBytes v) + BitVec.ofNat 64 i.2.1 * s1 + BitVec.ofNat 64 i.2.2 * s2

/-- The first stream bit of element i of VLDB, from the byte at ea (R260). -/
def bitAt (o : FM) (i : Nat) : Nat := o.boff.toNat + i * packWidth o.fx

/-- The address and bytes of each element. A segment is one element of all its fields (R259, log 29). -/
def contiguous (v : Slot) (o : FM) (i : Nat) : Word × Nat :=
  (FM.ea o v + BitVec.ofNat 64 (i * elemBytes v), elemBytes v)
def strided (v : Slot) (o : FM) (i : Nat) : Word × Nat :=
  (FM.base o v + BitVec.ofNat 64 i * (v.sreg o.b <<< o.sh.toNat), elemBytes v)
def indexed (v : Slot) (o : FM) : Nat → Word × Nat :=
  let ix := indexElems v o
  fun i => (FM.base o v + (ix i <<< o.sh.toNat), elemBytes v)
def segments (v : Slot) (o : FM) (i : Nat) : Word × Nat :=
  let n := (o.nf.toNat + 1) * elemBytes v
  (FM.ea o v + BitVec.ofNat 64 (i * n), n)
def bitStrip (v : Slot) (o : FM) (i : Nat) : Word × Nat :=
  (FM.ea o v + BitVec.ofNat 64 (bitAt o i / 8), (bitAt o i + packWidth o.fx - 1) / 8 - bitAt o i / 8 + 1)
def shaped (v : Slot) (o : FM) (i : Nat) : Word × Nat := (shapeAddr v o i, elemBytes v)

/-! Reaching the elements in order (R31, R36, R258). -/

/-- Resolve elements in order up to the first that fails. -/
def resolveElems (at' : Nat → Word × Nat) (kind : AccKind) (op : OpClass) :
    List Nat → M (List (Nat × Word × Acc) × Option (Nat × XFault))
  | [] => pure ([], none)
  | i :: t => do
    match ← tryResolve (at' i).1 (at' i).2 kind op with
    | .error f => pure ([], some (i, f))
    | .ok a => do
      let r ← resolveElems at' kind op t
      pure ((i, (at' i).1, a) :: r.1, r.2)

/-- The elements that can be accessed, and where and with what trap the instruction stops. -/
structure Reach where
  done : List (Nat × Word × Acc)
  stop : Option (Nat × Trap)

/-- The lowest misaligned element. -/
def firstMisaligned (at' : Nat → Word × Nat) (align : Option Nat) (l : List Nat) : Option Nat :=
  match align with
  | some n => l.find? fun i => (at' i).1.toNat % n != 0
  | none => none

/-- MISALIGNED at an element (R258). -/
def misalignedTrap (at' : Nat → Word × Nat) (kind : AccKind) (m : Nat) : Trap :=
  { code := Cause.misaligned, tv := (at' m).1, ti := tinfoWord m 0 false 0 (kindCode kind) 0 }

/-- Check alignment of every element before any translation (R35, R258), then resolve in order. DESIGN CHOICE (log 54): where an
element below the lowest misaligned one fails its translation, MISALIGNED of the misaligned element is reported (R258), and the
elements below the failure of the translation have been performed (R36). -/
def reach (at' : Nat → Word × Nat) (align : Option Nat) (kind : AccKind) (op : OpClass) (l : List Nat) : M Reach := do
  match firstMisaligned at' align l with
  | none => do
    let r ← resolveElems at' kind op l
    pure ⟨r.1, r.2.map fun f => (f.1, f.2.trap kind f.1)⟩
  | some m => do
    let r ← resolveElems at' kind op (l.filter (· < m))
    pure ⟨r.1, some ((match r.2 with | some f => f.1 | none => m), misalignedTrap at' kind m)⟩

/-- The bytes of reached elements. -/
def Reach.keys (r : Reach) : List Nat := r.done.flatMap fun e => e.2.2.keys

/-- The alignment that ORD asks for (R258). -/
def alignFor (o : Order) (n : Nat) : Option Nat := if o = .plain then none else some n

/-- Stop at an element and keep the progress for the resumption (R36, R312). -/
def stopAt {α : Type} (i : Nat) (done : Mask) (counted : BitVec 32) (t : Trap) : M α := do
  modify fun s => s.mapMe fun v => v.hold i 0 done counted
  trap t

/-! Packets to the neighbour cores of the grove (R90, R91). -/

/-- Whether an address lies in the grove neighbour window (R14). -/
def isNeighbour (va : Word) : Bool := va.getLsbD 56 && Bits.field va 25 2 == 2

/-- The code of an operation in a packet header. -/
def packetOp : NeighbourOp → Nat
  | .gather => 0 | .orderedScatter => 1 | .unorderedScatter => 2 | .vamo => 3 | .vglr => 4 | .vscc => 5

/-- Fields of given widths one after another, padded with zeros to whole 256-bit flits, as 64-bit words. -/
def flitWords (fields : List (Nat × Nat)) : List Word :=
  let x := fields.foldr (fun f r => f.2 % 2 ^ f.1 + 2 ^ f.1 * r) 0
  let bits := (fields.map (·.1)).sum
  (List.range (4 * Bits.cdiv bits 256)).map fun i => BitVec.ofNat 64 (x / 2 ^ (64 * i))

/-- The header and mask words of a packet (R91). -/
def packetHead (p : NeighbourPacket) (response : Bool) : List (Nat × Nat) :=
  let h := p.dcore.val * 2 ^ 60 + p.score.val * 2 ^ 56 + p.slot.val * 2 ^ 52 + p.rix.val * 2 ^ 50 + packetOp p.op * 2 ^ 46 +
    p.ew.val * 2 ^ 44 + p.mw.val * 2 ^ 41 + p.aop.toNat * 2 ^ 37 + (if response then 2 ^ 36 else 0)
  [(64, h), (64 * (p.mw.val + 1), p.elems.foldl (fun m e => m ||| 2 ^ e.index) 0)]

/-- The words of a request: header, mask, offsets, and the data of an operation that carries data. -/
def requestWords (p : NeighbourPacket) : List Word :=
  let data := if p.op = .gather ∨ p.op = .vglr then [] else p.elems.map fun e => (8 * 2 ^ p.ew.val, e.data.toNat)
  flitWords (packetHead p false ++ p.elems.map (fun e => (32, e.offset % 2 ^ 21)) ++ data)

/-- The words of a response: header, mask, the elements returned, and the success mask of VSCC. -/
def responseWords (p : NeighbourPacket) (data : List Word) (success : Mask) : List Word :=
  let back := p.op == .gather || p.op == .vamo || p.op == .vglr
  flitWords (packetHead p true ++ (if back then data.map fun x => (8 * 2 ^ p.ew.val, x.toNat) else []) ++
    (if p.op = .vscc then [(64 * (p.mw.val + 1), success.toNat)] else []))

/-- The packets of an instruction of the executing slot, one for each core that owns some of its elements, in increasing core index
(R91). DESIGN CHOICE (log 46): RIX is the context's resident index on the owning core, and 0 where it has none. -/
def packetsFor (op : NeighbourOp) (aop : BitVec 4) (n : Nat) (done : List (Nat × Word × Acc)) (data : Nat → Nat) (s : State) :
    List NeighbourPacket :=
  let grove := groveOfCore s.core
  (List.range Config.coresPerGrove).filterMap fun dc =>
    let mine := done.filter fun e => isNeighbour e.2.1 && Bits.field e.2.1 21 4 == dc
    let rix := ((s.ctx.shares.find? (·.pcore == grove * Config.coresPerGrove + dc)).map (·.rix)).getD 0
    if mine.isEmpty then none
    else some
      { grove := grove, dcore := Fin.ofNat 16 dc, score := Fin.ofNat 16 s.core, slot := Fin.ofNat 16 s.cur.slot,
        rix := Fin.ofNat 4 rix, op := op, ew := Fin.ofNat 4 (sizeLog n), mw := Fin.ofNat 8 (Bits.cdiv s.me.vl 64 - 1), aop := aop,
        elems := mine.map fun e => ⟨e.1, Bits.field e.2.1 0 21, BitVec.ofNat 64 (data e.1)⟩ }

/-- Send the packets of an instruction, and receive their responses (R91, R92): `data` gives what an element carries, `back` what it
returns and `ok` whether it succeeded. -/
def sendPackets (op : NeighbourOp) (aop : BitVec 4) (n : Nat) (done : List (Nat × Word × Acc)) (data back : Nat → Nat)
    (ok : Nat → Bool) : M Unit :=
  modify fun s => (packetsFor op aop n done data s).foldl (fun s p =>
    let words := p.elems.map fun e => BitVec.ofNat 64 (back e.index)
    let success : Mask := p.elems.foldl (fun m e => if ok e.index then m ||| BitVec.ofNat 512 (2 ^ e.index) else m) 0
    (s.report (.request p (requestWords p))).report (.neighbour p words success (responseWords p words success))) s

/-! Loads. -/

/-- Write the fields of a load: elements below vl where given, then the tail. -/
def writeFields (d : Reg) (g n vl : Nat) (tail : Bool) (res : Nat → Nat → Option Nat) : Nat → M Unit
  | 0 => pure ()
  | f + 1 => do
    writeFields d g n vl tail res f
    let v := (← get).me
    match d with
    | .v i =>
      let r : Reg := .v (Fin.ofNat 32 (i.val + f * g))
      writeGroup r g n (mergeWrote vl tail (res f)) (mergeStream n (Vt.regBits v.vt * g) vl tail (v.fill.toNat % 2 ^ n) (res f) (destStream v r g))
    | _ => pure ()

/-- A vector load (R257): `value` splits the bytes of an element into its fields, `skip` marks active elements that are not
accessed and read as fill, `packets` a gather, which sends packets to neighbour cores. -/
def vectorLoad (o : FM) (fields : Nat) (align : Option Nat) (at' : Nat → Word × Nat) (value : Nat → Nat → List Nat)
    (skip : Nat → Bool) (packets : Bool := false) : M Unit := do
  orderPointIf o.ord
  let v := (← get).me
  let n := Vt.sew v.vt
  let g := Vt.grp v.vt
  let start := resumeElem v
  let act := (activeList o.toHdr v).filter (start ≤ ·)
  let r ← reach at' align .load .load (act.filter fun i => !skip i)
  readyToLoad r.keys
  let vals ← mapL (fun e => do
    let x ← loadAcc e.2.1 e.2.2
    pure (e.1, value e.1 x)) r.done
  let tbl : Tab (List Nat) := vals
  if packets then sendPackets .gather 0 (n / 8) r.done (fun _ => 0) (fun i => ((Tab.get tbl i).bind (·.head?)).getD 0) fun _ => true
    else pure ()
  let limit := match r.stop with | some (j, _) => j | none => v.vl
  let res (f i : Nat) : Option Nat :=
    if i < start ∨ limit ≤ i ∨ !(activeMask o.toHdr v).getLsbD i then none
    else if skip i then some (v.fill.toNat % 2 ^ n)
    else (Tab.get tbl i).bind (·[f]?)
  let finish (vl : Nat) : M Unit := do
    writeFields o.d g n vl (Vt.tail v.vt) res fields
    modify fun s => longLatency (groupRegs o.d (g * fields)) o.set (s.mapMe fun w => { w.unhold with vl := vl })
    retire
  match r.stop with
  | none => finish v.vl
  | some (j, t) =>
    if o.ff && 0 < j && t.code != Cause.misaligned then finish j
    else do
      writeFields o.d g n v.vl false res fields
      stopAt j 0 0 t

/-- One n-bit element from its bytes. -/
def oneField (_i x : Nat) : List Nat := [x]

/-- VLD (R259). -/
def execVld (o : FM) (s : State) : Out :=
  run (do
    checkGroups (.vld o) [(o.d, Vt.grp s.me.vt)]
    vectorLoad o 1 (alignFor o.ord (elemBytes s.me)) (contiguous s.me o) oneField fun _ => false) s

/-- VLDS (R259). -/
def execVlds (o : FM) (s : State) : Out :=
  run (do
    checkGroups (.vlds o) [(o.d, Vt.grp s.me.vt)]
    vectorLoad o 1 (alignFor o.ord (elemBytes s.me)) (strided s.me o) oneField fun _ => false) s

/-- The array checks of the index group. -/
def readIndex (o : FM) : M Unit := do
  match o.b with
  | .v i => do
    let _ ← checkVregs i.val (indexSpan (← get).me.vt o.w)
    pure ()
  | _ => pure ()

/-- VLDX (R256, R259). -/
def execVldx (o : FM) (s : State) : Out :=
  run (do
    checkGroups (.vldx o) [(o.d, Vt.grp s.me.vt), (o.b, indexSpan s.me.vt o.w)]
    readIndex o
    vectorLoad o 1 (alignFor o.ord (elemBytes s.me)) (indexed s.me o) oneField (fun _ => false) true) s

/-- Whether the register groups of a segment access fit (R259). -/
def segmentOk (vr g fields : Nat) : Reg → Bool
  | .v i => i.val % g == 0 && i.val + fields * g ≤ vr
  | _ => false

/-- VLSEG (R259). -/
def execVlseg (o : FM) (s : State) : Out :=
  let fields := o.nf.toNat + 1
  run (do
    if segmentOk s.vrCount (Vt.grp s.me.vt) fields o.d then pure () else illegal (.vlseg o)
    vectorLoad o fields (alignFor o.ord (elemBytes s.me)) (segments s.me o)
      (fun _ x => elemsOf (Vt.sew s.me.vt) fields x) fun _ => false) s

/-- VLDB (R260). -/
def execVldb (o : FM) (s : State) : Out :=
  let w := packWidth o.fx
  run (do
    checkGroups (.vldb o) [(o.d, Vt.grp s.me.vt)]
    vectorLoad o 1 none (bitStrip s.me o) (fun i x =>
      let e := x / 2 ^ (bitAt o i % 8) % 2 ^ w
      [if o.sx then Bits.wrap (Vt.sew s.me.vt) (Bits.sv w e) else e]) fun _ => false) s

/-- The checks of a shape record (R262). -/
def readShape (i : Instr) (o : FM) : M Unit := do
  match o.b with
  | .v r => do
    let _ ← checkVregs r.val 1
    pure ()
  | _ => pure ()
  if shapeBad (← get).me o.b then illegal i else pure ()

/-- VLDT (R262, R263): elements outside the data are written from fill. -/
def execVldt (o : FM) (s : State) : Out :=
  run (do
    checkGroups (.vldt o) [(o.d, Vt.grp s.me.vt), (o.b, 1)]
    readShape (.vldt o) o
    vectorLoad o 1 (alignFor o.ord (elemBytes s.me)) (shaped s.me o) oneField fun i => !shapeInside s.me o.b i) s

/-! Stream-queue loads (R161, R261, R341). -/

/-- The contents of an entry before any element returns: masked-off elements 0, tail by TAIL (R261). -/
def entryBase (v : Slot) : VReg :=
  let n := Vt.sew v.vt
  BitVec.ofNat 4096 (mapElems n (fun i _ => if i < v.vl ∨ !Vt.tail v.vt then 0 else v.fill.toNat % 2 ^ n) 0
    (Vt.regBits v.vt / n) 0)

/-- Read the elements of a queue load into its entry's data. -/
def readEntry (l : QLoad) (data : VReg) : M (VReg × Option (Nat × Trap)) := do
  let n := Vt.sew l.vt
  let at' (i : Nat) : Word × Nat := (l.ea + BitVec.ofNat 64 (i * (n / 8)), n / 8)
  let r ← reach at' none .load .load ((List.range l.vl).filter fun i => l.start ≤ i && l.mask.getLsbD i)
  readyToLoad r.keys
  let vals ← mapL (fun e => do
    let x ← loadAcc e.2.1 e.2.2
    pure (e.1, x)) r.done
  let tbl : Tab Nat := vals
  pure (BitVec.ofNat 4096 (mapElems n (fun i x => (Tab.get tbl i).getD x) 0 (4096 / n) data.toNat), r.stop)

/-- Append an entry to a queue. -/
def Slot.addEntry (v : Slot) (q : Fin 4) (data : VReg) (load : Option QLoad) : Slot :=
  { v with q := v.q.set q (v.q[q] ++ [⟨newEntryId v, data, load, none, false⟩]) }

/-- VLD.Q (R161, R261): it reserves an entry, and counts under its SET counter until the entry is filled (R200), which
STREAM_ENTRY_FILL does before any later instruction of the slot that accesses
memory or orders accesses issues, so that it stands where it is written (R99, R264). In a replica group an acquire form reads at
once, and its entry is forwarded (R356, log 28). -/
def execVldQ (o : FM) (s : State) : Out :=
  run (do
    checkGroups (.vldQ o) [(o.d, Vt.grp s.me.vt)]
    orderPointIf o.ord
    let s ← get
    let v := s.me
    match o.d with
    | .q k => do
      let n := Vt.sew v.vt
      let l : QLoad := ⟨v.pc, FM.ea o v, v.vl, v.vt, v.fill, activeMask o.toHdr v, 0, o.ord == .acquire⟩
      let at' := contiguous v o
      match (if o.ord = .plain then none else (activeList o.toHdr v).find? fun i => (at' i).1.toNat % (n / 8) != 0) with
      | some m => misaligned (at' m).1 .load m
      | none => pure ()
      if v.q[k].length ≥ 4 then streamFault k else pure ()
      if replicated s && o.ord = .acquire then do
        let r ← readEntry l (entryBase v)
        match r.2 with
        | some (_, t) => trap t
        | none => modify fun s => longLatency [] o.set (s.mapMe fun v => v.addEntry k r.1 none)
      else modify fun s =>
        (s.mapMe fun v => (v.addPend [] o.set false (some (newEntryId v))).addEntry k (entryBase v) (some l)).push (.streamEntryFill s.cur k)
      retire
    | _ => illegal (.vldQ o)) s

/-- Change the entry of a queue that has a number. -/
def Slot.mapEntry (v : Slot) (q : Fin 4) (id : Nat) (f : QEntry → QEntry) : Slot :=
  { v with q := v.q.set q (v.q[q].map fun e => if e.id = id then f e else e) }

/-- Whether a slot can take the trap of a stream fault now: it is about to issue, or waits in the back end (R341). -/
def streamReady (v : Slot) : Bool :=
  match v.st with
  | .ready => true
  | .parked .entry => true
  | .parked .hazard => true
  | .parked .switchMarker => true
  | _ => false

/-- The oldest fault marker of the loaded slot is delivered when its turn has come and the slot can take it; otherwise it is
delivered before the next instruction issues (R341). -/
def streamDeliver (s : State) : State :=
  if s.me.sres.isNone && streamReady s.me then
    match s.me.openEntries with
    | (q, e) :: _ =>
      match e.marker, e.load with
      | some f, some l => streamTrap q e.id l.pc f s
      | _, _ => s
    | [] => s
  else s

/-- Fill one entry of the loaded slot: with all its elements, or up to a fault, with a marker. An uncorrectable word is the load's,
not that of the instruction that the slot executes (R343); a load that acquires sees every write performed, and the later reads of
the slot see them too (R109, R264). -/
def fillEntry (q : Fin 4) (e : QEntry) (l : QLoad) (s : State) : State :=
  let done (t : State) : State := (leavePlaces (.slot s.cur) t).mapMe fun v =>
    { v with retried := s.me.retried, st := if v.st = .parked .entry then .ready else v.st }
  match readEntry l e.data (s.mapMe fun v => { v with retried := false }) with
  | .error (.park _) t => (t.mapMe fun v => { v with retried := s.me.retried }).push (.streamEntryFill s.cur q)
  | .error (.trap x) t => deliver { x with pc := some l.pc } (done t)
  | .ok (data, none) t => (if l.acq then catchUp else id) ((done t).mapMe fun v =>
      (v.entryDone e.id).mapEntry q e.id fun e => { e with data := data, load := none, marker := none })
  | .ok (data, some (j, x)) t => streamDeliver ((done t).mapMe fun v => v.mapEntry q e.id fun e =>
      { e with data := data, load := some { l with start := j }, marker := some (x.code, x.tv, x.ti) })

/-- Whether two queue loads may read a byte in common: offsets within a page are those of the addresses (R17). -/
def QLoad.meets (a b : QLoad) : Bool :=
  let len (l : QLoad) : Nat := l.vl * (Vt.sew l.vt / 8)
  (b.ea - a.ea).toNat % 65536 < len a || (a.ea - b.ea).toNat % 65536 < len b

/-- Whether a queue load must wait for an older one whose fault is still to be handled: that acquires, or may read a byte in common
(R99, R105, R264). -/
def Slot.olderHolds (v : Slot) (e : QEntry) (l : QLoad) : Bool :=
  v.openEntries.any fun o => decide (o.2.id < e.id) && (match o.2.load with | some x => x.acq || x.meets l | none => false)

/-- STREAM_ENTRY_FILL (R341): the oldest unfilled entry of the queue fills, or takes its fault marker, in its turn among the
unfilled entries of the slot. A stopped context's loads wait for its restore. -/
def execStreamEntryFill (k : SlotKey) (q : Fin 4) (s : State) : Out :=
  match s.slotAt k with
  | none => .next s
  | some v =>
    if v.st = .ended ∨ v.st = .absent ∨ (s.ctxOf k.cid).st ≠ .running then .next s
    else
      let s' := s.focus k (coreOfSlot s k)
      match v.openEntries.find? (·.2.marker.isNone) with
      | some (p, e) =>
        match e.load with
        | some l =>
          if p = q then .next (if v.olderHolds e l then s.push (.streamEntryFill k q) else fillEntry q e l s')
          else if v.q[q].any fun e => e.load.isSome && !e.orphan && e.marker.isNone then .next (s.push (.streamEntryFill k q))
          else .next s
        | none => .next s
      | none => .next (streamDeliver s')

/-! Stores. -/

/-- The element that wins a byte which several elements of an unordered scatter name (R122): free; one for all the bytes
of aligned elements at one address (log 18). -/
def scatterWinner (base key : Nat) (n : Nat) (cs : List (Nat × Word × Acc)) : Nat :=
  let same := match cs with
    | c :: t => c.2.1.toNat % n == 0 && t.all (·.2.1 == c.2.1)
    | [] => false
  let x := if same then Config.freeWord (base + (cs.head?.map (·.1)).getD 0) else Config.freeWord (base + 512 + key)
  ((cs[x.toNat % cs.length]?).map (·.1)).getD 0

/-- The cells that element `e` of a store writes: all, or in an unordered form those it wins. -/
def scatterCells (unordered : Bool) (base n : Nat) (all : List (Nat × Word × Acc)) (e : Nat × Word × Acc) (x : Nat) :
    List Host.Cell :=
  let cells := cellsFor e.2.2.keys x
  if !unordered || isNeighbour e.2.1 then cells
  else cells.filter fun c =>
    let cs := all.filter fun a => a.2.2.keys.contains c.1
    cs.length ≤ 1 || scatterWinner base c.1 n cs == e.1

/-- Store the reached elements of `eb` bytes in increasing order. A replica takes comparison points as R355 states: one before an
instruction that does not fit, and at element-group boundaries within one that needs more than 512 records. -/
def storeElems (unordered : Bool) (n : Nat) (done : List (Nat × Word × Acc)) (len data : Nat → Nat) : M Unit := do
  let s ← get
  let eb := elemBytes s.me
  let parts (l : List (Nat × Word × Acc)) : Nat := (l.map fun e => partCount e.2.1 (len e.1)).sum
  let total := parts done
  let store (l : List (Nat × Word × Acc)) : M Unit :=
    forL (fun e => storeCells e.2.1 e.2.2 (len e.1) (data e.1)
      (scatterCells unordered s.free n done e (data e.1)) e.1 eb) l
  if unordered then modify fun s => { s with free := s.free + 2 ^ 72 } else pure ()
  if replicated s && !s.me.passed && s.me.sig.cnt + total > 512 then
    if s.me.sig.cnt > 0 then do
      modify (arrive none)
      wait .vote
    else do
      let groups := (List.range 33).reverse
      let fit := (groups.find? fun q => parts (done.filter (·.1 < 16 * q)) ≤ 512).getD 0
      store (done.filter (·.1 < 16 * fit))
      modify fun s => s.mapMe fun v =>
        let v := v.hold (16 * fit) 0 0 0
        { v with held := v.held.map fun h => if h.pc = v.pc then { h with live := true } else h }
      modify (arrive none)
      wait .vote
  else store done

/-- A vector store (R257): `skip` marks active elements that are not accessed, `packets` a scatter, which sends packets to
neighbour cores. -/
def vectorStore (o : FM) (unordered : Bool) (at' : Nat → Word × Nat) (data : Nat → Nat) (skip : Nat → Bool)
    (packets : Bool := false) : M Unit := do
  orderPointIf o.ord
  let v := (← get).me
  let n := elemBytes v
  let start := resumeElem v
  let l := (activeList o.toHdr v).filter fun i => decide (start ≤ i) && !skip i
  let r ← reach at' (alignFor o.ord n) .store .store l
  notBusy r.keys
  storeElems unordered n r.done (fun i => (at' i).2) data
  if packets then sendPackets (if unordered then .unorderedScatter else .orderedScatter) 0 n r.done data (fun _ => 0) fun _ => true
    else pure ()
  match r.stop with
  | some (j, t) => stopAt j 0 0 t
  | none => do
    dropPops [o.c]
    modify fun s => s.mapMe Slot.unhold
    retire

/-- VST (R259). -/
def execVst (o : FM) (s : State) : Out :=
  run (do
    checkGroups (.vst o) [(o.c, Vt.grp s.me.vt)]
    let x ← sourceElems [] o.c (Vt.grp s.me.vt) (Vt.sew s.me.vt)
    vectorStore o false (contiguous s.me o) x fun _ => false) s

/-- VSTS (R259). -/
def execVsts (o : FM) (s : State) : Out :=
  run (do
    checkGroups (.vsts o) [(o.c, Vt.grp s.me.vt)]
    let x ← sourceElems [] o.c (Vt.grp s.me.vt) (Vt.sew s.me.vt)
    vectorStore o false (strided s.me o) x fun _ => false) s

/-- VSTX: ordered, or unordered with UO = 1 (R256, R259). -/
def execVstx (o : FM) (s : State) : Out :=
  run (do
    checkGroups (.vstx o) [(o.c, Vt.grp s.me.vt), (o.b, indexSpan s.me.vt o.w)]
    readIndex o
    let x ← sourceElems [] o.c (Vt.grp s.me.vt) (Vt.sew s.me.vt)
    vectorStore o o.uo (indexed s.me o) x (fun _ => false) true) s

/-- The fields of a segment store by element: field f in bits from f × n on. -/
def segmentData (v : Slot) (r : Reg) (n g fields i : Nat) : Nat :=
  match r with
  | .v k => packElems n ((List.range fields).map fun f =>
      elemAt (groupStream v (Vt.regBits v.vt) (k.val + f * g) g) n i)
  | _ => 0

/-- VSSEG (R259). -/
def execVsseg (o : FM) (s : State) : Out :=
  let fields := o.nf.toNat + 1
  let g := Vt.grp s.me.vt
  run (do
    if segmentOk s.vrCount g fields o.c then pure () else illegal (.vsseg o)
    match o.c with
    | .v k => do
      let _ ← checkVregs k.val (fields * g)
      pure ()
    | _ => pure ()
    vectorStore o false (segments s.me o) (segmentData s.me o.c (Vt.sew s.me.vt) g fields) fun _ => false) s

/-- VSTT (R262, R263): elements outside the data are skipped. -/
def execVstt (o : FM) (s : State) : Out :=
  run (do
    checkGroups (.vstt o) [(o.c, Vt.grp s.me.vt), (o.b, 1)]
    readShape (.vstt o) o
    let x ← sourceElems [] o.c (Vt.grp s.me.vt) (Vt.sew s.me.vt)
    vectorStore o false (shaped s.me o) x fun i => !shapeInside s.me o.b i) s

/-! VSTN (R265). -/

/-- An atomic of a vector element on a peer whose replies are lost now (R359): it was applied once and a reply came at last,
or no reply came and the target applied it once or not at all; free values choose. With `sure` it was then not applied. -/
def lossyOutcome (k : Nat) (sure : Bool) : M (Bool × Bool) := do
  let s ← get
  if (match keyModule k with | some p => peerLossy s p | none => false) then do
    let x ← freeValue
    pure (x.getLsbD 0 || x.getLsbD 1 && !sure, x.getLsbD 0)
  else pure (true, true)

/-- One atomic of a vector element at a resolved word: the former value and flags, or none when no reply came. -/
def elemAtomic (va : Word) (k : Nat) (f : AmoFun) (sure : Bool := false) : M (Option (Nat × Nat)) := do
  let out ← lossyOutcome k sure
  modify fun s => countRequest k (amoLine (some (s.core, s.cur.cid)) k s)
  let x ← readChecked (some (← get).core) va (keyRange k f.bytes) fun s k => s.mem.byte k
  let s ← get
  let r := amoWrite (some (s.core, s.cur.cid)) k f x s
  if out.1 then set r.1 else pure ()
  pure (if out.2 then some (x, r.2) else none)

/-- PEER_ABSENT of an atomic that no reply answers, at an element (R359). -/
def absentTrap (va : Word) (k elem : Nat) : Trap :=
  { code := Cause.accessFault, tv := va, ti := tinfoWord elem ((keyModule k).getD 0) false 0 2 Reason.peerAbsent }

/-- Fold a meaning over a list. -/
def foldL {α β : Type} (f : β → α → M β) : List α → β → M β
  | [], b => pure b
  | x :: t, b => do
    let b' ← f b x
    foldL f t b'

/-- The progress word, checked before any element is accessed (R265). A refusal by the target (R28) is not known then: it
comes with the first add. A misaligned element comes before any translation (R35, R258). -/
def progressWord (pa : Word) (mis : Option Trap) : M (Nat × Option XFault) := do
  match ← tryResolve pa 8 .rmw .amoAddSwap with
  | .ok a => pure (a.keys.headD 0, none)
  | .error f =>
    if f.reason = Reason.peerRejected ∨ f.reason = Reason.hostRejected then pure (0, some f) else trap (mis.getD (f.trap .rmw 0))

/-- Progress of an instruction that waits inside and goes on from it when it issues again. -/
def waitHere {α : Type} (elem : Nat) (counted : BitVec 32) (w : ParkWhy) : M α := do
  modify fun s => s.mapMe fun v =>
    let v := v.hold elem 0 0 counted
    { v with held := v.held.map fun h => if h.pc = v.pc then { h with live := true } else h }
  wait w

/-- Add the count of a group to the progress word (R265), or take the target's refusal at the group's first element. An add that
releases waits until memory has taken the element writes before it, and any add for the slot's writes to the word itself (R105). An
add that no reply answers has not been made. -/
def progressAdd (o : Order) (pa : Word) (k : Nat) (refusal : Option XFault) (q count : Nat) (counted : BitVec 32)
    (written : Nat) : M (BitVec 32) := do
  let fl := (← get).me.inflight
  if count != 0 && (o != .plain && !fl.isEmpty || fl.any fun b => touches b [k]) then waitHere written counted .reply else pure ()
  if count = 0 then pure (counted ||| BitVec.ofNat 32 (2 ^ q))
  else match refusal with
  | some f => stopAt written 0 counted (f.trap .rmw (16 * q))
  | none => do
    match ← elemAtomic pa k ⟨true, 0, false, 0, count⟩ true with
    | some _ => pure (counted ||| BitVec.ofNat 32 (2 ^ q))
    | none => stopAt written 0 counted (absentTrap pa k (16 * q))

/-- VSTN (R265): element groups in increasing order, each counted once all its active elements are written. DESIGN CHOICE (log 59):
with vl = 0 sD is checked all the same. -/
def execVstn (o : FM) (s : State) : Out :=
  run (do
    checkGroups (.vstn o) [(o.c, Vt.grp s.me.vt)]
    let pa := s.me.sreg o.d
    if pa.toNat % 8 != 0 then misaligned pa .rmw else pure ()
    orderPointIf o.ord
    let v := (← get).me
    let n := elemBytes v
    let start := resumeElem v
    let act := activeList o.toHdr v
    let rest := act.filter (start ≤ ·)
    let mis := firstMisaligned (contiguous v o) (alignFor o.ord n) rest
    let w ← progressWord pa (mis.map (misalignedTrap (contiguous v o) .store))
    let x ← sourceElems [] o.c (Vt.grp s.me.vt) (Vt.sew s.me.vt)
    let v := (← get).me
    let counted := match v.held.find? fun h => h.pc == v.pc && h.live with | some h => h.counted | none => 0
    let r ← reach (contiguous v o) (alignFor o.ord n) .store .store rest
    let word := if w.2.isNone then keyRange w.1 8 else []
    notBusy (word ++ r.keys)
    atomicFree word
    peerRoom (word.take 1)
    let limit := match r.stop with | some (j, _) => j | none => v.vl
    let group (counted : BitVec 32) (q : Nat) : M (BitVec 32) := do
      let hi := Nat.min (16 * q + 16) v.vl
      storeElems false n (r.done.filter fun e => e.1 / 16 == q) (fun _ => n) x
      if counted.getLsbD q || limit < hi then pure counted
      else progressAdd o.ord pa w.1 w.2 q ((act.filter fun i => i / 16 == q).length) counted (Nat.max start hi)
    let counted ← foldL group (List.range (Bits.cdiv v.vl 16)) counted
    match r.stop with
    | some (j, t) => stopAt j (BitVec.ofNat 512 (2 ^ j - 1) &&& activeMask o.toHdr v) counted t
    | none => do
      dropPops [o.c]
      modify fun s => s.mapMe Slot.unhold
      retire) s

end Sys2Proof.Machine
end

