-- ==== Sys2Proof/Machine/Matrix.lean ====
section
/-!
DEFINITION. Frames, beams and outer products: row 0xB of the opcode map (R279 to R294).
-/
namespace Sys2Proof.Machine

/-! Frames and planes of the executing slot's context. -/

/-- The key of frame j on the executing core. -/
def frameKey (s : State) (j : Nat) : Nat := s.cur.lcore * 16 + j

/-- Frame j. -/
def getFrame (s : State) (j : Nat) : FrameSt := (Tab.get s.ctx.frames (frameKey s j)).getD .reset

/-- Replace frame j. -/
def putFrame (j : Nat) (f : FrameSt) (s : State) : State :=
  s.mapCtx s.cur.cid fun c => { c with frames := Tab.set c.frames (frameKey s j) f }

/-- Cell (i, j) of a frame (R279). -/
def cellOf (f : Frame) (i j : Nat) : Nat := f.toNat / 2 ^ (32 * (32 * i + j)) % 2 ^ 32

/-- Write cell (i, j). -/
def setCell (f : Frame) (i j x : Nat) : Frame := Bits.insert f (32 * (32 * i + j)) 32 x

/-- Row i of a frame as 32 cells. -/
def rowOf (f : Frame) (i : Nat) : List Nat := elemsOf 32 32 (f.toNat / 2 ^ (1024 * i))

/-- Write row i. -/
def setRow (f : Frame) (i : Nat) (cells : List Nat) : Frame := Bits.insert f (1024 * i) 1024 (packElems 32 cells)

/-- The number of a frame field. -/
def frameIx : Reg → Nat | .fm i => i.val | _ => 0

/-- The beam of the executing context. -/
def getBeam (s : State) : Beam := (Tab.get s.ctx.beams s.cur.lcore).getD ⟨.reset, .reset⟩

/-- Replace the beam. -/
def putBeam (b : Beam) (s : State) : State :=
  s.mapCtx s.cur.cid fun c => { c with beams := Tab.set c.beams s.cur.lcore b }

/-! Lazy save and restore (R51, R294). -/

/-- The unit of the beam planes beside the granule numbers in `State.heldBy`. -/
def planeUnit : Nat := Config.granules

/-- The physical granule of frame j. -/
def frameGranule (s : State) (j : Nat) : Nat := (s.share.grans[Part.rfg s.ctx.part + j / 4]?).getD 0

/-- The numbers of a context's frames in a granule of a core. -/
def framesIn (c : Ctx) (pcore gran : Nat) : List Nat :=
  match c.shares.find? (·.pcore == pcore) with
  | none => []
  | some sh =>
    ((List.range (Part.frames c.part)).filter fun j => (sh.grans[Part.rfg c.part + j / 4]?) == some gran).map (sh.lcore * 16 + ·)

/-- The live frames that a context has in a granule of a core. -/
def liveIn (c : Ctx) (pcore gran : Nat) : Nat :=
  ((framesIn c pcore gran).filter fun j => (Tab.get c.frames j).any (·.live)).length

/-- Save a context's live frames of a granule, or its planes, to its save area, and count the saves (R51, R294). -/
def saveUnit (pcore unit : Nat) (c : Ctx) : Ctx :=
  if unit = planeUnit then
    let own := (c.shares.filter (·.pcore == pcore)).map (·.lcore)
    { c with
      saves := c.saves + 1, beams := c.beams.filter fun b => !own.contains b.1,
      savedBeams := (c.beams.filter fun b => own.contains b.1).foldl (fun t b => Tab.set t b.1 b.2) c.savedBeams }
  else
    let own := framesIn c pcore unit
    { c with
      saves := c.saves + liveIn c pcore unit, frames := c.frames.filter fun f => !own.contains f.1,
      savedFrames := (c.frames.filter fun f => own.contains f.1 && f.2.live).foldl (fun t f => Tab.set t f.1 f.2) c.savedFrames }

/-- Restore a context's frames of a granule, or its planes, from what was saved; what was not is zero (R51, R294). -/
def restoreUnit (pcore unit : Nat) (c : Ctx) : Ctx :=
  if unit = planeUnit then
    let own := (c.shares.filter (·.pcore == pcore)).map (·.lcore)
    { c with
      savedBeams := c.savedBeams.filter fun b => !own.contains b.1,
      beams := (c.savedBeams.filter fun b => own.contains b.1).foldl (fun t b => Tab.set t b.1 b.2) c.beams }
  else
    let own := framesIn c pcore unit
    { c with
      savedFrames := c.savedFrames.filter fun f => !own.contains f.1,
      frames := (c.savedFrames.filter fun f => own.contains f.1).foldl (fun t f => Tab.set t f.1 f.2) c.frames }

/-- The pool words of a frame (R45). -/
def frameKeys (s : State) (j : Nat) : List Nat :=
  (List.range 512).map fun w => Key.pool s.share.pcore (frameGranule s j * Config.granuleBytes + j % 4 * 4096 + 8 * w)

/-- The words of the executing context's frames in a granule are written, as a restore does (R51, R69). -/
def frameWrites (unit : Nat) (s : State) : State :=
  if rasQuiet s || unit == planeUnit then s
  else rasWrite (((List.range (Part.frames s.ctx.part)).filter fun j => frameGranule s j == unit).flatMap (frameKeys s)) s

/-- Take over a unit of the frame unit: what another context left there is saved, and what this one has saved is restored (R51,
R294). -/
def claim (unit : Nat) (s : State) : State :=
  let rest := s.heldBy.filter fun h => !(h.1 == s.core && h.2.1 == unit)
  let s' := ({ s with heldBy := rest ++ [(s.core, unit, s.cur.cid)] } : State).mapCtx s.cur.cid (restoreUnit s.core unit)
  match s.heldBy.find? fun h => h.1 == s.core && h.2.1 == unit with
  | none => if s.ctx.savedFrames.isEmpty then s' else frameWrites unit s'
  | some h => if h.2.2 = s.cur.cid then s else frameWrites unit (s'.mapCtx h.2.2 (saveUnit s.core unit))

/-- The first use of a frame. -/
def useFrame (j : Nat) : M Unit := modify fun s => claim (frameGranule s j) s

/-- A use of a plane. -/
def usePlanes : M Unit := modify (claim planeUnit)

/-- Read a frame through the array checks (R66, R343). -/
def readFrame (j : Nat) : M Frame := do
  useFrame j
  let s ← get
  let f := (getFrame s j).cells
  if rasQuiet s then pure f
  else do
    let keys := frameKeys s j
    let flips ← checkWords (some s.core) 0 keys
    pure (f ^^^ BitVec.ofNat 32768 (packElems 64 (keys.map fun a =>
      match flips.find? (·.1 == a) with | some m => m.2.toNat | none => 0)))

/-- A frame with the words of a list taken from another. -/
def takeWords (f new : Frame) (ws : List Nat) : Frame :=
  ws.foldl (fun f w => Bits.insert f (64 * w) 64 (new.toNat / 2 ^ (64 * w))) f

/-- The words of a row of a frame up to a column, and the word of a cell. -/
def rowWordsTo (i n : Nat) : List Nat := (List.range (Bits.cdiv n 2)).map (16 * i + ·)
def cellWord (i j : Nat) : Nat := (32 * i + j) / 2

/-- Write words of a frame, which makes it live (R285); the writes take injected errors (R69). -/
def writeFrame (j : Nat) (f : Frame) (ws : List Nat) : M Unit := do
  useFrame j
  modify fun s =>
    if rasQuiet s then putFrame j ⟨f, true⟩ s
    else
      let keys := frameKeys s j
      rasWrite (ws.filterMap fun w => keys[w]?) (putFrame j ⟨takeWords (getFrame s j).cells f ws, true⟩ s)

/-! Progress of matrix instructions (R291). -/

/-- Keep the row and column at which a matrix instruction stopped. -/
def Slot.holdRow (v : Slot) (row col : Nat) : Slot :=
  { v with held := ⟨v.pc, false, row, col, 0, 0, true, v.heldSeq⟩ :: v.held.filter fun h => !(h.pc == v.pc) }

/-- The row and column to resume at; the progress of other matrix instructions is discarded (R291). -/
def matrixStart : M (Nat × Nat) := do
  let v := (← get).me
  modify fun s => s.mapMe fun v => { v with held := v.held.filter fun h => !h.mat || (h.pc == v.pc && h.live) }
  match v.held.find? fun h => h.pc == v.pc && h.live && h.mat with
  | some h => pure (h.elem, h.col)
  | none => pure (0, 0)

/-- Stop at a row. -/
def stopRow {α : Type} (row col : Nat) (t : Trap) : M α := do
  modify fun s => s.mapMe fun v => v.holdRow row col
  trap t

/-- Every matrix instruction but SETTL and SETFMT needs frames (R283). -/
def needFrames (i : Instr) : M Unit := do
  if Part.frames (← get).ctx.part = 0 then illegal i else pure ()

/-- The refusal of a format (R284). -/
def badFormat {α : Type} (i : Instr) (kind code : Nat) : M α := illegal i (BitVec.ofNat 64 (kind * 256 + code))

/-- An operand format from the context or a plane, or its refusal (R284). -/
def operand (i : Instr) (kind code : Nat) : M OperFmt :=
  match operFmt code with
  | some f => pure f
  | none => badFormat i kind code

/-- A matrix instruction is finished. -/
def matrixDone (regs : List Reg) (set : Option (Fin 6)) : M Unit := do
  modify fun s => longLatency regs set (s.mapMe Slot.unhold)
  retire

/-! SETTL and SETFMT. -/

/-- kmax of R281, by element width. -/
def kmax (w : Nat) : Nat := if w = 32 then 32 else if w = 16 then 64 else if w = 8 ∨ w = 6 then 128 else 256

/-- SETTL (R281). -/
def execSettl (o : FF) (s : State) : Out :=
  run (do
    let _ ← matrixStart
    let f ← operand (.settl o) 2 s.me.fmt.fb.toNat
    modify fun s => s.mapMe fun v =>
      let tm := Nat.min (v.sreg o.d).toNat 32
      let tn := Nat.min (v.sreg o.a).toNat 32
      let tk := Nat.min (v.sreg o.b).toNat (kmax f.width)
      let v := ((v.putS o.d (BitVec.ofNat 64 tm)).putS o.a (BitVec.ofNat 64 tn)).putS o.b (BitVec.ofNat 64 tk)
      { v with tm := tm, tn := tn, tk := tk }
    matrixDone (fieldRegs 1 o.d ++ fieldRegs 1 o.a ++ fieldRegs 1 o.b) o.set) s

/-- Read a codebook table for a format code: 32 bytes for CB4, 16 for CB3 (R136). -/
def readBook (code : Nat) (ptr : Word) (old : BitVec 256) : M (BitVec 256) :=
  let n := if code = 0x18 then 32 else if code = 0x19 then 16 else 0
  if n = 0 then pure old
  else if ptr.toNat % n ≠ 0 then misaligned ptr .load
  else do
    let x ← loadBytes ptr n
    pure (BitVec.ofNat 256 x)

/-- Load a format context: its codebook tables are read once the new values are taken (R136, R282). -/
def loadFmt (f : FmtCtx) : M FmtCtx := do
  let a ← readBook f.fa.toNat f.cbka f.tabA
  let b ← readBook f.fb.toNat f.cbkb f.tabB
  pure { f with tabA := a, tabB := b }

/-- The format fields of DW7 of a packet (R167). -/
def fmtOfWord (f : FmtCtx) (w : Word) : FmtCtx :=
  { f with fa := w.extractLsb' 58 6, fb := w.extractLsb' 52 6, fo := w.extractLsb' 46 6, spa := w.getLsbD 45 }

/-- SETFMT from a record (R282). -/
def execSetfmt (o : FF) (s : State) : Out :=
  run (do
    let _ ← matrixStart
    let a := s.me.sreg o.a + sextImm o.imm
    if a.toNat % 64 ≠ 0 then misaligned a .load else pure ()
    let x ← loadBytes a 64
    let dw (i : Nat) : Word := BitVec.ofNat 64 (x / 2 ^ (64 * i))
    let f := fmtOfWord { s.me.fmt with scla := dw 2, sclb := dw 3, cbka := dw 4, cbkb := dw 5 } (dw 7)
    let f ← loadFmt f
    modify fun s => s.mapMe fun v => { v with fmt := f }
    matrixDone [] o.set) s

/-- SETFMT.I from the immediate (R282). -/
def execSetfmtI (o : FF) (s : State) : Out :=
  run (do
    let _ ← matrixStart
    let f : FmtCtx := { s.me.fmt with fa := o.imm.extractLsb' 0 6, fb := o.imm.extractLsb' 6 6,
                                      fo := o.imm.extractLsb' 12 6, spa := o.imm.getLsbD 18 }
    let f ← loadFmt f
    modify fun s => s.mapMe fun v => { v with fmt := f }
    matrixDone [] o.set) s

/-! MZERO, BFLIP, MREL (R285). -/

/-- MZERO. -/
def execMzero (o : FF) (s : State) : Out :=
  run (do
    needFrames (.mzero o)
    let _ ← matrixStart
    writeFrame (frameIx o.d) 0 (List.range 512)
    matrixDone [] o.set) s

/-- BFLIP. -/
def execBflip (o : FF) (s : State) : Out :=
  run (do
    needFrames (.bflip o)
    let _ ← matrixStart
    usePlanes
    modify fun s => putBeam ⟨(getBeam s).shadow, (getBeam s).active⟩ s
    matrixDone [] o.set) s

/-- MREL: the frame reads as zeros and is not saved, and what was saved of it is discarded; it takes no frame over (R294). -/
def execMrel (o : FF) (s : State) : Out :=
  run (do
    needFrames (.mrel o)
    let _ ← matrixStart
    modify fun s => (putFrame (frameIx o.d) ⟨0, false⟩ s).mapCtx s.cur.cid fun c =>
      { c with savedFrames := Tab.erase c.savedFrames (frameKey s (frameIx o.d)) }
    matrixDone [] o.set) s

/-! LDB and the slice word (R286, R287). -/

/-- SMASK of a slice word; all ones for the field 0x00. -/
def sliceMask (v : Slot) (r : Reg) : Nat := if r = .s 0 then 2 ^ 32 - 1 else Bits.field (v.sreg r) 0 32
/-- KB of a slice word. -/
def sliceBase (v : Slot) (r : Reg) : Nat := if r = .s 0 then 0 else Bits.field (v.sreg r) 32 16

/-- The address of the scale of element index `x` (a row or a column) in the block of k (R286, R288). -/
def scaleAddr (ptr : Word) (f : OperFmt) (k x : Nat) : Word := ptr + BitVec.ofNat 64 (k / f.block * 32 + x)

/-- A trap of a memory access is reported at a row (R291). -/
def atRow {α : Type} (row : Nat) (m : M α) : M α := fun s =>
  match m s with
  | .ok x s' => .ok x s'
  | .error (.trap t) s' =>
    if t.code = Cause.pageFault ∨ t.code = Cause.accessFault then
      .error (.trap { t with ti := t.ti ||| BitVec.ofNat 64 (row * 2 ^ 48) }) (s'.mapMe fun v => v.holdRow row 0)
    else .error (.trap t) s'
  | .error x s' => .error x s'

/-- The rows of a plane with row k replaced. -/
def setAt {α : Type} (d x : α) (l : List α) (k : Nat) : List α := (l ++ List.replicate (k + 1 - l.length) d).set k x

/-- Load row k of the shadow plane. -/
def ldbRow (base stride : Word) (f : OperFmt) (tn kb k : Nat) : M Unit := do
  let w := f.width
  let n := Bits.cdiv (tn * w) 8
  let x ← if n = 0 then pure 0 else loadBytes (base + BitVec.ofNat 64 k * stride) n
  let row := packElems 32 (elemsOf w tn x)
  let v := (← get).me
  let sc ← if f.block = 0 then pure [] else
    mapL (fun j => loadBytes (scaleAddr v.fmt.sclb f (kb + k) j) 1) (List.range tn)
  modify fun s =>
    let b := getBeam s
    putBeam { b with shadow := { b.shadow with rows := setAt 0 (BitVec.ofNat 1024 row) b.shadow.rows k,
                                               scl := setAt 0 (BitVec.ofNat 256 (packElems 8 sc)) b.shadow.scl k } } s

/-- The bytes that row k of LDB reads, and whether each of them can be reached. -/
def ldbReach (base stride : Word) (f : OperFmt) (tn kb k : Nat) : M (List Nat × Bool) := do
  let v := (← get).me
  let n := Bits.cdiv (tn * f.width) 8
  let row : List (Word × Nat) := if n = 0 then [] else [(base + BitVec.ofNat 64 k * stride, n)]
  let scl : List (Word × Nat) := if f.block = 0 then [] else (List.range tn).map fun j => (scaleAddr v.fmt.sclb f (kb + k) j, 1)
  let rs ← mapL (fun p => tryResolve p.1 p.2 .load .load) (row ++ scl)
  pure (rs.flatMap fun r => match r with | .ok a => a.keys | .error _ => [], rs.all fun r => r.toBool)

/-- Before a row is loaded, LDB waits until every row that it will load can be: rows k, k + 1, … up to one that faults. A load
that waits has had no effect, so an LDB is whole before the next matrix instruction uses the plane (R293). -/
def ldbReady (base stride : Word) (f : OperFmt) (tn kb : Nat) : Nat → Nat → M Unit
  | _, 0 => pure ()
  | k, n + 1 => do
    let r ← ldbReach base stride f tn kb k
    readyToLoad r.1
    if r.2 then ldbReady base stride f tn kb (k + 1) n else pure ()

/-- LDB (R286). -/
def execLdb (o : FF) (s : State) : Out :=
  run (do
    needFrames (.ldb o)
    let r0 ← matrixStart
    let v := s.me
    let f ← operand (.ldb o) 2 v.fmt.fb.toNat
    ldbReady (v.sreg o.a + sextImm o.imm) (v.sreg o.b) f v.tn (sliceBase v o.c) r0.1 (v.tk - r0.1)
    usePlanes
    modify fun s =>
      let b := getBeam s
      putBeam { b with shadow := { b.shadow with fmt := v.fmt.fb, k := v.tk, n := v.tn,
                                                 tab := if f.book = 0 then 0 else v.fmt.tabB } } s
    forN (fun k => atRow k (ldbRow (v.sreg o.a + sextImm o.imm) (v.sreg o.b) f v.tn (sliceBase v o.c) k)) r0.1
      (v.tk - r0.1)
    modify fun s =>
      let b := getBeam s
      putBeam { b with shadow := { b.shadow with rows := b.shadow.rows.take v.tk, scl := b.shadow.scl.take v.tk } } s
    matrixDone [] o.set) s

/-! Outer products (R288 to R290). -/

/-- kv of R288: the depth of a register, by element width. -/
def kv (w : Nat) : Nat := if w = 32 then 4 else if w = 16 then 8 else if w = 8 ∨ w = 6 then 16 else if w = 4 ∨ w = 3 then 32 else 64

/-- The stored elements of a row of A for K logical ones (R288). -/
def storedLen (spa : Bool) (k : Nat) : Nat := if spa then 2 * Bits.cdiv k 4 else k

/-- The stored index of the A element at logical position k, if it is kept (R289). -/
def keptAt (spa : Bool) (pos : Mask) (k : Nat) : Option Nat :=
  if !spa then some k
  else
    let q := k / 4
    let h0 := Bits.field pos (4 * q) 2
    let h1 := Bits.field pos (4 * q + 2) 2
    if k % 4 = h1 then some (2 * q + 1) else if k % 4 = h0 then some (2 * q) else none

/-- The B operand of an outer product: format, table, element bits and scale of (k, j), K and N. -/
structure BOper where
  f : OperFmt
  tab : BitVec 256
  bits : Nat → Nat → Nat
  scale : Nat → Nat → Option (Nat × Int)
  k : Nat
  n : Nat

/-- One cell: the groups of K in order, collecting flags by k (R148). -/
def cellLoop (fa : OperFmt) (tabA : BitVec 256) (b : BOper) (a : Nat → Option Nat) (sa : Nat → Option (Nat × Int))
    (j size : Nat) : Nat → Nat → Nat → List (Nat × Nat) → Bool → Nat × List (Nat × Nat) × Bool
  | 0, _, acc, ev, iov => (acc, ev, iov)
  | n + 1, g, acc, ev, iov =>
    let ks := g * size
    let ps := ((List.range size).map (ks + ·)).filterMap fun k =>
      if k < b.k then (a k).map fun x => (k, fa.val tabA x, b.f.val b.tab (b.bits k j)) else none
    let pev := ps.filterMap fun p =>
      if p.2.1.2 || p.2.2.2 || productNv p.2.1.1 p.2.2.1 then some (p.1, Fl.nv) else none
    let vals := ps.map fun p => (p.2.1.1, p.2.2.1)
    if intAcc fa.cls b.f.cls then
      let r := accumulateInt acc vals
      cellLoop fa tabA b a sa j size n (g + 1) r.1 (ev ++ pev) (iov || r.2)
    else
      let p := groupSum vals
      let r := accumulate acc p.1 (sa ks) (b.scale ks j)
      let gfl := (if p.2 then Fl.nv else 0) ||| r.2
      cellLoop fa tabA b a sa j size n (g + 1) r.1 (ev ++ pev ++ (if gfl = 0 then [] else [(ks, gfl)])) iov

/-- The flags of a row's events at one k. -/
def flagsAt (ev : List (Nat × Nat)) (k : Nat) : Nat := ev.foldl (fun m e => if e.1 = k then m ||| e.2 else m) 0

/-- The lowest k with an enabled exception (R290). -/
def firstEnabled (frm : Word) (ev : List (Nat × Nat)) : Option Nat :=
  ((ev.filter fun e => (fpCause frm e.2).isSome).map (·.1)).foldl
    (fun m k => match m with | none => some k | some x => some (Nat.min x k)) none

/-- Update row i of frame D (R290), or trap at (kx, i). -/
def mopRow (d : Nat) (fa : OperFmt) (b : BOper) (a : Nat → Option Nat) (sa : Nat → Option (Nat × Int)) (i : Nat) :
    M Unit := do
  let f ← readFrame d
  let v := (← get).me
  let size := Nat.min fa.cls.size b.f.cls.size
  let row := rowOf f i
  let rs := (List.range b.n).map fun j =>
    cellLoop fa v.fmt.tabA b a sa j size (Bits.cdiv b.k size) 0 ((row[j]?).getD 0) [] false
  let ev := rs.flatMap (·.2.1)
  match firstEnabled v.frm ev with
  | some kx => do
    let fl := flagsAt ev kx
    modify fun s => s.mapMe (·.raise fl)
    stopRow i 0 { code := (fpCause v.frm fl).getD 0,
                  ti := BitVec.ofNat 64 (i * 2 ^ 48 + kx * 2 ^ 32 + fl) }
  | none => do
    if b.k = 0 ∨ b.n = 0 then pure ()
    else writeFrame d (setRow f i (rs.map (·.1) ++ row.drop b.n)) (rowWordsTo i b.n)
    modify fun s => s.mapMe fun v =>
      (v.raise (ev.foldl (fun m e => m ||| e.2) 0)).saturate (if rs.any (·.2.2) then 2 else 0)

/-- The scale bytes of row i of A, one for each block that K reaches (R288): resolved accesses by block. -/
def rowScales (fa : OperFmt) (kb k i : Nat) : M (List (Nat × Word × Acc)) := do
  let v := (← get).me
  if fa.block = 0 ∨ k = 0 then pure []
  else
    let lo := kb / fa.block
    let hi := (kb + k - 1) / fa.block
    mapL (fun q => do
      let va := v.fmt.scla + BitVec.ofNat 64 (q * 32 + i)
      let a ← resolveM va 1 .load .load
      pure (q, va, a)) ((List.range (hi + 1 - lo)).map (lo + ·))

/-- Resolve the scales of the rows in order, up to the first row that fails. -/
def allScales (fa : OperFmt) (kb k : Nat) : List Nat → M (List (Nat × List (Nat × Word × Acc)) × Option (Nat × Trap))
  | [] => pure ([], none)
  | i :: t => fun s =>
    match rowScales fa kb k i s with
    | .error (.trap x) s' => .ok ([], some (i, { x with ti := x.ti ||| BitVec.ofNat 64 (i * 2 ^ 48) })) s'
    | .error x s' => .error x s'
    | .ok l s' =>
      match allScales fa kb k t s' with
      | .ok r s'' => .ok ((i, l) :: r.1, r.2) s''
      | .error x s'' => .error x s''

/-- The rows of an outer product from the resume row on (R290): scales are read with each row. -/
def outerRows (d : Nat) (fa : OperFmt) (b : BOper) (spa : Bool) (row : Nat → Nat) (smask kb tm r0 : Nat) : M Unit := do
  let v := (← get).me
  let rows := ((List.range tm).filter fun i => r0 ≤ i && smask.testBit i)
  let sc ← allScales fa kb b.k rows
  readyToLoad (sc.1.flatMap fun r => r.2.flatMap fun e => e.2.2.keys)
  forL (fun r => do
    let bytes ← mapL (fun e => do
      let x ← loadAcc e.2.1 e.2.2
      pure (e.1, x)) r.2
    let tbl : Tab Nat := bytes
    let a (k : Nat) : Option Nat := (keptAt spa (v.getM 1) k).map fun x => elemAt (row r.1) fa.width x
    let sa (k : Nat) : Option (Nat × Int) :=
      if fa.block = 0 then some (1, 0) else fa.scale (Tab.getD tbl ((kb + k) / fa.block) 0)
    mopRow d fa b a sa r.1) sc.1
  match sc.2 with
  | some (i, t) => stopRow i 0 t
  | none => pure ()

/-- A vector register read whole, through the array checks; vt is ignored (R288). -/
def wholeReg (r : Reg) : M Nat := do
  match r with
  | .v i => do
    let fix ← checkVregs i.val 1
    pure ((((← get).me.v[i]).toNat) ^^^ fix)
  | _ => pure 0

/-- MOP (R288 to R290). B's scales are read before the first row that is updated. -/
def execMop (o : FF) (s : State) : Out :=
  run (do
    needFrames (.mop o)
    let r0 ← matrixStart
    let v := s.me
    let fa ← operand (.mop o) 1 v.fmt.fa.toNat
    let fb ← operand (.mop o) 2 v.fmt.fb.toNat
    let spa := v.fmt.spa
    let kA := if spa then 2 * kv fa.width else kv fa.width
    let k := Nat.min v.tk (Nat.min kA (kv fb.width))
    let kb := sliceBase v o.c
    let x ← wholeReg o.a
    let y ← wholeReg o.b
    let any := (List.range v.tm).any fun i => r0.1 ≤ i && (sliceMask v o.c).testBit i
    let sc ← if fb.block = 0 ∨ k = 0 ∨ !any then pure [] else
      let lo := kb / fb.block
      let hi := (kb + k - 1) / fb.block
      atRow r0.1 (mapL (fun q => do
        let l ← mapL (fun j => loadBytes (v.fmt.sclb + BitVec.ofNat 64 (q * 32 + j)) 1) (List.range v.tn)
        pure (q, l)) ((List.range (hi + 1 - lo)).map (lo + ·)))
    let tbl : Tab (List Nat) := sc
    let b : BOper :=
      { f := fb, tab := v.fmt.tabB, k := k, n := v.tn, bits := fun k j => elemAt y fb.width (32 * k + j),
        scale := fun k j => if fb.block = 0 then some (1, 0) else
          fb.scale (((Tab.getD tbl ((kb + k) / fb.block) [])[j]?).getD 0) }
    let depth := kv fa.width
    outerRows (frameIx o.d) fa b spa (fun i => x / 2 ^ (i * depth * fa.width) % 2 ^ (storedLen spa k * fa.width))
      (sliceMask v o.c) kb v.tm r0.1
    matrixDone [] o.set) s

/-- The active plane as the B operand (R288). -/
def planeOper (p : Plane) (f : OperFmt) : BOper :=
  { f := f, tab := p.tab, k := p.k, n := p.n,
    bits := fun k j => ((p.rows[k]?).getD 0).toNat / 2 ^ (32 * j) % 2 ^ f.width,
    scale := fun k j => f.scale (((p.scl[k]?).getD 0).toNat / 2 ^ (8 * j) % 256) }

/-- The block of A of a MOPS: a queue entry, or the private pool window (R288). -/
def mopsBlock (o : FF) (bytes : Nat) : M Nat := do
  let s ← get
  if o.srcsel = 0 then
    if bytes > 512 then badFormat (.mops o) 4 0
    else match o.a with
      | .q q => do
        let x ← popEntry q 0
        pure x.toNat
      | _ => pure 0
  else do
    let base := s.me.sreg o.a + sextImm o.imm
    let outside : Trap := { code := Cause.accessFault, tv := base, ti := tinfoWord 0 0 false 0 0 Reason.windowRange }
    if !(base.getLsbD 56) || Bits.field base 57 7 ≠ 0 || Bits.field base 21 35 ≠ 0 then trap outside
    else match localAcc s (slotReq s) base bytes .load with
      | .error _ => trap outside
      | .ok a => loadAcc base a

/-- MOPS (R288 to R290). -/
def execMops (o : FF) (s : State) : Out :=
  run (do
    needFrames (.mops o)
    let r0 ← matrixStart
    let v := s.me
    let fa ← operand (.mops o) 1 v.fmt.fa.toNat
    usePlanes
    let p := (getBeam (← get)).active
    let fb ← operand (.mops o) 2 p.fmt.toNat
    let spa := v.fmt.spa
    let rb := Bits.cdiv (storedLen spa p.k * fa.width) 8
    let x ← mopsBlock o (v.tm * rb)
    outerRows (frameIx o.d) fa (planeOper p fb) spa (fun i => x / 2 ^ (8 * rb * i)) (sliceMask v o.c) (sliceBase v o.c)
      v.tm r0.1
    if o.srcsel = 0 then dropPops [o.a] else pure ()
    matrixDone [] o.set) s

/-! Moves and conversion (R292). -/

/-- The format on the other side of a move: FC, or fmt.o through 0x3F, checked when the instruction executes (R284). -/
def moveFormat (i : Instr) (o : FF) (ok : Nat → Bool) : M Nat := do
  let fo := (← get).me.fmt.fo
  if o.fc = 0x3F then (if fo != 0x3F && ok fo.toNat then pure fo.toNat else badFormat i 3 fo.toNat) else pure o.fc.toNat

/-- Whether the frame's cells are INT32 (R283). -/
def isI32 (o : FF) : Bool := o.fx.getLsbD 0

/-- The trap of a move at a cell: row and column in tinfo, with the flags or the fields of R33 below (R292, log 30). -/
def cellTrap (t : Trap) (i j : Nat) : Trap :=
  { t with ti := BitVec.ofNat 64 (i * 2 ^ 48 + j * 2 ^ 32 + t.ti.toNat % 2 ^ 32) }

/-- Convert cells in order until one raises an enabled exception: the converted bits, the flags of those before it, and
the cell with its flags. -/
def convertCells (frm : Word) (f : Nat × Nat → Nat × Nat) :
    List (Nat × Nat) → List (Nat × Nat × Nat) × Nat × Option (Nat × Nat × Nat)
  | [] => ([], 0, none)
  | c :: t =>
    let r := f c
    match fpCause frm r.2 with
    | some _ => ([], 0, some (c.1, c.2, r.2))
    | none =>
      let rest := convertCells frm f t
      ((c.1, c.2, r.1) :: rest.1, r.2 ||| rest.2.1, rest.2.2)

/-- Finish a move: its flags, then the trap of an arithmetic exception, a memory fault, or completion. -/
def finishMove (regs : List Reg) (set : Option (Fin 6)) (fl : Nat) (x : Option (Nat × Nat × Nat))
    (m : Option (Nat × Nat × Trap)) : M Unit := do
  let frm := (← get).me.frm
  modify fun s => s.mapMe (·.raise fl)
  match x, m with
  | some (i, j, f), _ => do
    modify fun s => s.mapMe (·.raise f)
    stopRow i j (cellTrap { code := (fpCause frm f).getD 0, ti := BitVec.ofNat 64 f } i j)
  | none, some (i, j, t) => stopRow i j (cellTrap t i j)
  | none, none => matrixDone regs set

/-- Cells (i, j) of the rows and columns given, from (r, c) on, rows first. -/
def cellsFrom (rows cols : List Nat) (r c : Nat) : List (Nat × Nat) :=
  (rows.flatMap fun i => cols.map fun j => (i, j)).filter fun p => decide (r < p.1) || (p.1 == r && decide (c ≤ p.2))

/-- Resolve one element for each cell in order, up to the first that fails. -/
def resolveCells (at' : Nat × Nat → Word) (n : Nat) (kind : AccKind) (op : OpClass) :
    List (Nat × Nat) → M (List ((Nat × Nat) × Word × Acc) × Option (Nat × Nat × Trap))
  | [] => pure ([], none)
  | c :: t => do
    match ← tryResolve (at' c) n kind op with
    | .error f => pure ([], some (c.1, c.2, f.trap kind 0))
    | .ok a => do
      let r ← resolveCells at' n kind op t
      pure ((c, at' c, a) :: r.1, r.2)

/-- The address of the element of cell (i, j) in memory (R292). -/
def moveAddr (v : Slot) (o : FF) (eb : Nat) (c : Nat × Nat) : Word :=
  v.sreg o.a + sextImm o.imm + BitVec.ofNat 64 c.1 * v.sreg o.b + BitVec.ofNat 64 (c.2 * eb)

/-- MLDR (R292). -/
def execMldr (o : FF) (s : State) : Out :=
  run (do
    needFrames (.mldr o)
    let r0 ← matrixStart
    let v := s.me
    let code ← moveFormat (.mldr o) o FF.inFormat
    let eb := outWidth code / 8
    let rows := (List.range v.tm).filter fun i => (sliceMask v o.c).testBit i
    let l ← resolveCells (moveAddr v o eb) eb .load .load (cellsFrom rows (List.range v.tn) r0.1 r0.2)
    readyToLoad (l.1.flatMap fun e => e.2.2.keys)
    let vals ← mapL (fun e => do
      let x ← loadAcc e.2.1 e.2.2
      pure (e.1, x)) l.1
    let value (c : Nat × Nat) : Nat × Nat :=
      toCell (isI32 o) code (rmMode v 7) (((vals.find? (·.1 == c)).map (·.2)).getD 0)
    let r := convertCells v.frm value (vals.map (·.1))
    let f ← readFrame (frameIx o.d)
    if r.1.isEmpty then pure ()
    else writeFrame (frameIx o.d) (r.1.foldl (fun f c => setCell f c.1 c.2.1 c.2.2) f) (Sorted.ofList (r.1.map fun c => cellWord c.1 c.2.1))
    finishMove [] o.set r.2.1 r.2.2 l.2) s

/-- Store converted cells of a frame in order; a replica takes comparison points at groups of 16 cells that do not fit (R355), and goes
on with the frame as it was, so that the MSTR is whole (R293). -/
def storeMoved (f : Frame) (eb total : Nat) (acc : Nat × Nat → Word × Acc) : List (Nat × Nat × Nat) → Nat → M Unit
  | [], _ => pure ()
  | c :: t, k => do
    let s ← get
    let room := 512 - s.me.sig.cnt
    let group := ((c :: t).take 16).map fun e => partCount (acc (e.1, e.2.1)).1 eb
    if replicated s && ((k = 0 && total ≤ 512 && total > room) || (k % 16 = 0 && group.sum > room)) then do
      modify fun s => s.mapMe fun v =>
        let v := v.holdRow c.1 c.2.1
        { v with held := v.held.map fun h => if h.pc = v.pc then { h with live := true } else h, snap := some f }
      modify (arrive none)
      wait .vote
    else pure ()
    let a := acc (c.1, c.2.1)
    storeAcc a.1 a.2 eb c.2.2
    storeMoved f eb total acc t (k + 1)

/-- MSTR (R292). -/
def execMstr (o : FF) (s : State) : Out :=
  run (do
    needFrames (.mstr o)
    let r0 ← matrixStart
    let v := s.me
    let code ← moveFormat (.mstr o) o FF.outFormat
    let eb := outWidth code / 8
    let f ← match v.snap with
      | some f => pure f
      | none => readFrame (frameIx o.c)
    modify fun s => s.mapMe fun v => { v with snap := none }
    let l ← resolveCells (moveAddr v o eb) eb .store .store (cellsFrom (List.range v.tm) (List.range v.tn) r0.1 r0.2)
    notBusy (l.1.flatMap fun e => e.2.2.keys)
    let r := convertCells v.frm (fun c => fromCell (isI32 o) code (rmMode v 7) (cellOf f c.1 c.2)) (l.1.map (·.1))
    let acc (c : Nat × Nat) : Word × Acc := ((l.1.find? (·.1 == c)).map (·.2)).getD (0, ⟨[], [], [], 0⟩)
    let total := ((l.1.take r.1.length).map fun e => partCount e.2.1 eb).sum
    storeMoved f eb total acc r.1 0
    finishMove [] o.set r.2.1 r.2.2 l.2) s

/-- A move between a frame and a vector register, along a row or a column (R292), of the cells in the first `n` rows. `toFrame` moves
into the frame. -/
def moveVec (i : Instr) (o : FF) (toFrame column : Bool) (n : Nat := 32) : M Unit := do
  needFrames i
  let r0 ← matrixStart
  let v := (← get).me
  let code ← moveFormat i o FF.inFormat
  let w := outWidth code
  let ix := o.idx.toNat
  let cells := ((List.range 32).map fun j => if column then (j, ix) else (ix, j)).filter fun c =>
    (!column || decide (c.1 < n)) && decide (r0.1 < c.1) || (c.1 == r0.1 && decide (r0.2 ≤ c.2))
  let pos (c : Nat × Nat) : Nat := if column then c.1 else c.2
  if toFrame then do
    let x ← wholeReg o.a
    let r := convertCells v.frm (fun c => toCell (isI32 o) code (rmMode v 7) (elemAt x w (pos c))) cells
    let f ← readFrame (frameIx o.d)
    if r.1.isEmpty then pure ()
    else writeFrame (frameIx o.d) (r.1.foldl (fun f c => setCell f c.1 c.2.1 c.2.2) f) (Sorted.ofList (r.1.map fun c => cellWord c.1 c.2.1))
    finishMove [] o.set r.2.1 r.2.2 none
  else do
    let f ← readFrame (frameIx o.a)
    let r := convertCells v.frm (fun c => fromCell (isI32 o) code (rmMode v 7) (cellOf f c.1 c.2)) cells
    modify fun s => s.mapMe fun v =>
      match o.d with
      | .v k => { v with v := v.v.set k (r.1.foldl (fun x c => Bits.insert x (w * pos (c.1, c.2.1)) w c.2.2) v.v[k]) }
      | _ => v
    modify fun s => if rasQuiet s then s else
      match o.d with
      | .v k => rasWrite ((Sorted.ofList (r.1.map fun c => w * pos (c.1, c.2.1) / 64)).filterMap fun x => (vregKeys s k.val)[x]?) s
      | _ => s
    finishMove (fieldRegs 1 o.d) o.set r.2.1 r.2.2 none

/-- MMOVR (R292). -/
def execMmovr (o : FF) (s : State) : Out := run (moveVec (.mmovr o) o false false) s
/-- MMOVR `.to` (R292). -/
def execMmovrTo (o : FF) (s : State) : Out := run (moveVec (.mmovrTo o) o true false) s
/-- MMOVC (R292). -/
def execMmovc (o : FF) (s : State) : Out := run (moveVec (.mmovc o) o false true) s
/-- MMOVC `.to` (R292). -/
def execMmovcTo (o : FF) (s : State) : Out := run (moveVec (.mmovcTo o) o true true) s

/-- The cells of the first `n` rows converted in place, zero-extended (R292). -/
def convertFrame (o : FF) (n : Nat) : M Unit := do
  needFrames (.mcvt o)
  let r0 ← matrixStart
  let v := (← get).me
  let code ← moveFormat (.mcvt o) o FF.inFormat
  let f ← readFrame (frameIx o.d)
  let r := convertCells v.frm (fun c => fromCell (isI32 o) code (rmMode v 7) (cellOf f c.1 c.2))
    (cellsFrom (List.range n) (List.range 32) r0.1 r0.2)
  if r.1.isEmpty then pure ()
  else writeFrame (frameIx o.d) (r.1.foldl (fun f c => setCell f c.1 c.2.1 c.2.2) f) (Sorted.ofList (r.1.map fun c => cellWord c.1 c.2.1))
  finishMove [] o.set r.2.1 r.2.2 none

/-- MCVT (R292). -/
def execMcvt (o : FF) (s : State) : Out := run (convertFrame o 32) s

end Sys2Proof.Machine
end

