-- ==== Sys2Proof/Machine/Cut.lean ====
section
/-!
DEFINITION. An instruction that a stop request reaches in the back end (R291, R346): it stops after an element group or a row,
with its progress held for the resume.
-/
namespace Sys2Proof.Machine

/-- The rows that a matrix instruction works on: TK for LDB, 32 for MMOVC and MCVT, TM for the others (R286, R288, R292). -/
def Slot.matrixRows (v : Slot) (i : Instr) : Nat :=
  if instrOp i = 0xB3 then v.tk else if instrOp i = 0xBA ∨ instrOp i = 0xBB then 32 else v.tm

/-- The element or row at which an instruction stops after `q` more groups or rows, at least one: none when it ends before. -/
def cutPoint (i : Instr) (v : Slot) (q : Nat) : Option Nat :=
  let start := resumeElem v
  if instrOp i / 16 = 0xB then
    let c := start + Nat.max 1 q
    if c < v.matrixRows i then some c else none
  else
    let c := 16 * (start / 16 + Nat.max 1 q)
    if c < v.vl then some c else none

/-- A slot whose instruction sees only what lies below its stop point, and writes no tail. -/
def Slot.limited (i : Instr) (c : Nat) (v : Slot) : Slot :=
  if instrOp i = 0xB3 then { v with tk := c }
  else if instrOp i / 16 = 0xB then { v with tm := c }
  else { v with vl := c, vt := v.vt &&& ~~~0x40#64 }

/-- Whether an instruction of the loaded slot ran to its end. -/
def ranThrough (s t : State) : Bool :=
  t.cur == s.cur && t.me.st == .ready && t.me.pc == s.me.advance.pc && t.me.pc != t.me.hbase

/-- The progress of an instruction that has stopped at `c`: nothing below it is performed or counted again (R269, R291). -/
def cutHeld (i : Instr) (c : Nat) (v : Slot) : Held :=
  let old := v.held.find? fun h => h.pc == v.pc && h.live
  let mat := instrOp i / 16 == 0xB
  { pc := v.pc, live := true, elem := c, col := 0, mat := mat, seq := v.heldSeq,
    done := if mat then 0 else BitVec.ofNat 512 (2 ^ c - 1) ||| (old.map (·.done)).getD 0,
    counted := if mat then 0 else BitVec.ofNat 32 (2 ^ (c / 16) - 1) ||| (old.map (·.counted)).getD 0 }

/-- What a stopped LDB leaves of the shadow plane: the rows from `c` on are untouched (R291). -/
def cutPlane (c : Nat) (s t : State) : State :=
  let b := getBeam t
  let old := (getBeam (claim planeUnit s)).shadow
  putBeam { b with shadow := { b.shadow with
    k := s.me.tk, rows := b.shadow.rows.take c ++ old.rows.drop c, scl := b.shadow.scl.take c ++ old.scl.drop c } } t

/-- The state after an instruction that has stopped at `c`, from the one in which the part of it below `c` has run. -/
def cutShort (i : Instr) (c : Nat) (s t : State) : State :=
  let v := s.me
  let agenda := if v.pend.length < t.me.pend.length then t.agenda.erase (.longLatencyResultReturn s.cur) else t.agenda
  let t := (if instrOp i = 0xB3 then cutPlane c s t else t).mapMe fun w =>
    { w with vl := v.vl, vt := v.vt, tm := v.tm, tk := v.tk, pc := v.pc, loop := v.loop, q := v.q, pend := v.pend, sb := v.sb,
             swWait := false, held := cutHeld i c v :: v.held.filter fun h => !(h.pc == v.pc) && !(h.mat && instrOp i / 16 == 0xB) }
  { t with agenda := agenda }

/-- The part of an instruction below its stop point: the rows of MMOVC and MCVT that it names, and for the others an execution in
which the slot sees only what lies below. -/
def partRun (ex : State → Out) (i : Instr) (c : Nat) (s : State) : Out :=
  match i with
  | .mmovc o => run (moveVec i o false true c) s
  | .mmovcTo o => run (moveVec i o true true c) s
  | .mcvt o => run (convertFrame o c) s
  | _ => ex (s.mapMe (Slot.limited i c))

/-- Run an instruction by `ex`, up to the element group or row at which a stop reaches it (R291, R346). One that traps or waits
does so first, and so does a fault-first load that ends at or below its stop point. A resumed instruction reads its operands afresh
(log 49). -/
def cutRun (ex : State → Out) (i : Instr) (s : State) : Out :=
  match s.me.cut with
  | none => ex s
  | some q =>
    let s := s.mapMe fun v => { v with cut := none }
    match (if cuttable s i then cutPoint i s.me q else none) with
    | none => ex s
    | some c =>
      match ex s, partRun ex i c s with
      | .next full, .next part =>
        .next (if ranThrough s full && ranThrough s part && (full.me.vl == s.me.vl || decide (c < full.me.vl)) then
          cutShort i c s part else full)
      | o, _ => o

end Sys2Proof.Machine
end

