-- ==== Sys2Proof/Machine/Scalar.lean ====
section
/-!
DEFINITION. Integer instructions: rows 0x0 and 0x1 of the opcode map (R212 to R215).
-/
namespace Sys2Proof.Machine

/-- The effect of a scalar instruction: nothing but going on when its predicate bit is 0 (R199). -/
def scalarOp (h : Hdr) (f : Slot → Slot) (s : State) : Out :=
  .next (s.mapMe fun v => (if scalarActive h v then f v else v).advance)

/-- The operation width n of W (R214). -/
def FX.n (o : FX) : Nat := 8 * 2 ^ o.w.toNat

/-- The low n bits of the first operand, and of the second or the immediate (R214). -/
def FX.lowA (o : FX) (v : Slot) : Nat := (v.sreg o.a).toNat % 2 ^ FX.n o
def FX.lowB (o : FX) (v : Slot) : Nat := (FX.opB o v).toNat % 2 ^ FX.n o

/-- D := sext(r, 64) for an n-bit result (R214). -/
def FX.put (o : FX) (r : Nat) (v : Slot) : Slot := v.putS o.d (Bits.word (Bits.sv (FX.n o) r))

/-- An integer instruction whose n-bit result is `f n a b` (R214). -/
def intOp (o : FX) (f : Nat → Nat → Nat → Nat) (s : State) : Out :=
  scalarOp o.toHdr (fun v => FX.put o (f (FX.n o) (FX.lowA o v) (FX.lowB o v)) v) s

/-- A division: INT_DIVZERO when b = 0 (R215). -/
def divOp (o : FX) (f : Nat → Nat → Nat → Nat) (s : State) : Out :=
  if scalarActive o.toHdr s.me && FX.lowB o s.me == 0 then .next (deliver { code := Cause.intDivZero } s)
  else intOp o f s

/-- ADD (R214). -/
def execAdd (o : FX) (s : State) : Out := intOp o (fun n a b => (a + b) % 2 ^ n) s

/-- SUB (R214). -/
def execSub (o : FX) (s : State) : Out := intOp o (fun n a b => (a + 2 ^ n - b) % 2 ^ n) s

/-- MUL (R214). -/
def execMul (o : FX) (s : State) : Out := intOp o (fun n a b => a * b % 2 ^ n) s

/-- MULH (R214). -/
def execMulh (o : FX) (s : State) : Out := intOp o (fun n a b => Bits.wrap n (Bits.sv n a * Bits.sv n b / (2 ^ n : Nat))) s

/-- MULHU (R214). -/
def execMulhu (o : FX) (s : State) : Out := intOp o (fun n a b => a * b / 2 ^ n) s

/-- AND (R214). -/
def execAnd (o : FX) (s : State) : Out := intOp o (fun _ a b => a &&& b) s

/-- OR (R214). -/
def execOr (o : FX) (s : State) : Out := intOp o (fun _ a b => a ||| b) s

/-- XOR (R214). -/
def execXor (o : FX) (s : State) : Out := intOp o (fun _ a b => a ^^^ b) s

/-- ANDN (R214). -/
def execAndn (o : FX) (s : State) : Out := intOp o (fun n a b => a &&& (2 ^ n - 1 - b)) s

/-- SHL (R214). -/
def execShl (o : FX) (s : State) : Out := intOp o (fun n a b => a * 2 ^ (b % n) % 2 ^ n) s

/-- SHR (R214). -/
def execShr (o : FX) (s : State) : Out := intOp o (fun n a b => a / 2 ^ (b % n)) s

/-- SRA (R214). -/
def execSra (o : FX) (s : State) : Out := intOp o (fun n a b => Bits.wrap n (Bits.sv n a / (2 ^ (b % n) : Nat))) s

/-- ROT (R214). -/
def execRot (o : FX) (s : State) : Out := intOp o (fun n a b => a * 2 ^ (b % n) % 2 ^ n ||| a / 2 ^ (n - b % n)) s

/-- MIN (R214). -/
def execMin (o : FX) (s : State) : Out := intOp o (fun n a b => if Bits.sv n b < Bits.sv n a then b else a) s

/-- MAX (R214). -/
def execMax (o : FX) (s : State) : Out := intOp o (fun n a b => if Bits.sv n a < Bits.sv n b then b else a) s

/-- MINU (R214). -/
def execMinu (o : FX) (s : State) : Out := intOp o (fun _ a b => Nat.min a b) s

/-- MAXU (R214). -/
def execMaxu (o : FX) (s : State) : Out := intOp o (fun _ a b => Nat.max a b) s

/-- CLZ (R214). -/
def execClz (o : FX) (s : State) : Out := intOp o (fun n a _ => Bits.clz n a) s

/-- CTZ (R214). -/
def execCtz (o : FX) (s : State) : Out := intOp o (fun n a _ => Bits.ctz n a) s

/-- POPC (R214). -/
def execPopc (o : FX) (s : State) : Out := intOp o (fun n a _ => Bits.popcount n a) s

/-- SEXT (R214). -/
def execSext (o : FX) (s : State) : Out := intOp o (fun _ a _ => a) s

/-- DIV (R215). -/
def execDiv (o : FX) (s : State) : Out :=
  divOp o (fun n a b => Bits.wrap n (Int.tdiv (Bits.sv n a) (Bits.sv n b))) s

/-- DIVU (R215). -/
def execDivu (o : FX) (s : State) : Out := divOp o (fun _ a b => a / b) s

/-- REM (R215). -/
def execRem (o : FX) (s : State) : Out :=
  divOp o (fun n a b => Bits.wrap n (Int.tmod (Bits.sv n a) (Bits.sv n b))) s

/-- REMU (R215). -/
def execRemu (o : FX) (s : State) : Out := divOp o (fun _ a b => a % b) s

/-- CMP: the condition that SUB selects (R214). -/
def execCmp (o : FX) (s : State) : Out :=
  intOp o (fun n a b => if condHolds o.sub.toNat n a b then 1 else 0) s

/-- SEL: D := B if A is nonzero, else C, on 64 bits (R214). -/
def execSel (o : FX) (s : State) : Out :=
  scalarOp o.toHdr (fun v => v.putS o.d (if v.sreg o.a != 0 then v.sreg o.b else v.sreg o.c)) s

/-- MOVI (R214). -/
def execMovi (o : FX) (s : State) : Out := scalarOp o.toHdr (fun v => v.putS o.d (sextImm o.imm)) s

/-- MOVHI (R214). -/
def execMovhi (o : FX) (s : State) : Out :=
  scalarOp o.toHdr (fun v => v.putS o.d (o.imm ++ (v.sreg o.a).setWidth 32)) s

end Sys2Proof.Machine
end

