-- ==== Sys2Proof/Machine/Control.lean ====
section
/-!
DEFINITION. Control flow: row 0x3 of the opcode map (R221 to R224).
-/
namespace Sys2Proof.Machine

/-- A relative target (R221). -/
def relTarget (pc : Word) (imm : BitVec 32) : Word := pc + sextImm imm * 16

/-- The trap of an indirect transfer whose target is not 16-byte aligned (R221). -/
def badTarget (t : Word) : Trap :=
  { code := Cause.misaligned, tv := t, ti := tinfoWord 0 0 false 0 (kindCode .fetch) 0 }

/-- BR (R221). -/
def execBr (o : FB) (s : State) : Out :=
  .next (s.mapMe fun v =>
    if condHolds o.cnd.toNat 64 (v.sreg o.a).toNat (v.sreg o.b).toNat then { v with pc := relTarget v.pc o.imm }
    else v.advance)

/-- JMP (R221). -/
def execJmp (o : FB) (s : State) : Out := .next (s.mapMe fun v => { v with pc := relTarget v.pc o.imm })

/-- CALL (R221). -/
def execCall (o : FB) (s : State) : Out :=
  .next (s.mapMe fun v => { v.putS o.d (v.pc + 16) with pc := relTarget v.pc o.imm })

/-- RET (R221). -/
def execRet (o : FB) (s : State) : Out :=
  let t := s.me.sreg o.a
  if t &&& 0xF != 0 then .next (deliver (badTarget t) s) else .next (s.mapMe fun v => { v with pc := t })

/-- JR (R221): A is read before D is written. -/
def execJr (o : FB) (s : State) : Out :=
  let t := relTarget (s.me.sreg o.a) o.imm
  if t &&& 0xF != 0 then .next (deliver (badTarget t) s)
  else .next (s.mapMe fun v => { v.putS o.d (v.pc + 16) with pc := t })

/-- Whether a word is an instruction that a loop body may not hold (R224); a word that is illegal by R204 is none, and traps
when the body reaches it. -/
def bodyForbids (w : IWord) : Bool :=
  match decode w with
  | .error _ => false
  | .ok i =>
    let op := instrOp i
    w != 0 && w != BitVec.allOnes 128 &&
      ((0x30 ≤ op && op ≤ 0x37 && op != 0x36) || op == 0xE4 || op == 0xE5 || op == 0xD4 || op == 0xD6)

/-- LOOPN (R223, R224). DESIGN CHOICE (log 25): the whole body is fetched before a word of it is judged, so a fetch that fails is reported
before a forbidden word. -/
def execLoopn (o : FB) (s : State) : Out :=
  run (do
    let v := (← get).me
    let base := v.pc + 16
    let len := o.bl.toNat + 1
    let body ← mapL (fun i => fetchWord (base + BitVec.ofNat 64 (16 * i)) false) (List.range len)
    match body.find? bodyForbids with
    | some w => badWord Cause.illegal w
    | none => do
      let k := Reg.sIdx o.a
      let cnt := (List.range (o.nest.toNat + 1)).map fun j => (v.getS (Fin.ofNat 64 (k + j))).toNat % 2 ^ 32
      modify fun s => s.mapMe fun v =>
        if cnt.any (· == 0) then { v with pc := base + BitVec.ofNat 64 (16 * len), loop := none }
        else { v with pc := base, loop := some ⟨base, body, cnt, cnt.map fun _ => 0, true⟩ }) s

/-- NOP (R221). -/
def execNop (_o : FB) (s : State) : Out := .next (s.mapMe Slot.advance)

/-- TRAP (R222): SOFTWARE_TRAP after it completes. -/
def execTrap (o : FB) (s : State) : Out :=
  .next (deliver { code := Cause.softwareTrap, tv := o.imm.setWidth 64, pc := some (s.me.pc + 16) } s)

end Sys2Proof.Machine
end

