-- ==== Sys2Proof/Machine/Futures.lean ====
section
/-!
DEFINITION. Shared operations of tasks and futures: placing a task (R166), continuation records (R172) and the future word
(R170, R171).
-/
namespace Sys2Proof.Machine

/-! What the replicas of a launch share. -/

/-- The context that holds what the slots of a launch share: barriers, tags, cruisers, tasks and mailboxes of a replicated
launch lie with its first replica, whichever replica leads a slot's group (R350, log 32). -/
def homeOf (s : State) (cid : Nat) : Nat :=
  match Tab.get s.launches (s.ctxOf cid).lid with
  | some l => if l.cids.contains cid then l.cids.headD cid else cid
  | none => cid

/-- The slot that acts for a logical slot of a launch: the lead of its replica group, or itself (R350). -/
def leadKey (s : State) (k : SlotKey) : SlotKey :=
  let c := s.ctxOf k.cid
  match s.groups.find? fun g => g.lid == c.lid && g.lcore == k.lcore && g.slot == k.slot with
  | some g =>
    match s.ctxs.find? fun x => x.2.lid == g.lid && x.2.replica == g.lead with
    | some x => ⟨x.1, k.lcore, k.slot⟩
    | none => k
  | none => k

/-! Placing tasks (R166). -/

/-- Whether a context holds its cores. -/
def isResident (c : Ctx) : Bool := c.st == .running || c.st == .stopped

/-- The physical grove of a context's logical grove. -/
def physGrove (c : Ctx) (lg : Nat) : Option Nat :=
  if isResident c then (c.shares.find? (·.lgrove == lg)).map fun sh => groveOfCore sh.pcore else none

/-- The entries of a hardware task queue (R166). -/
def taskLimit : Nat := 256

/-- The oldest task of a resident context's spill ring for a physical grove. -/
def spillFor (s : State) (grove : Nat) : Option (Nat × Nat × TaskPacket) :=
  s.ctxs.findSome? fun c =>
    (c.2.spill.find? fun t => physGrove c.2 t.1 == some grove).map fun t => (c.1, t)

/-- The spill rings refill a grove's hardware queue in placement order, at most `n` tasks (R166). -/
def refillGrove (grove : Nat) : Nat → State → State
  | 0, s => s
  | n + 1, s =>
    if (s.groveOf grove).tasks.length ≥ taskLimit then s
    else match spillFor s grove with
      | none => s
      | some (cid, lg, p) =>
        refillGrove grove n
          ((s.mapCtx cid fun c => { c with spill := c.spill.erase (lg, p) }).mapGrove grove fun g =>
            { g with tasks := g.tasks ++ [⟨cid, lg, p⟩] })

/-- Pending continuations of a context enter its spill ring while it has space, in the order of their spawns; each frees
its record (R166, R172). -/
def settleList (cid : Nat) : List CRec → State → State
  | [], s => s
  | r :: t, s =>
    let c := s.ctxOf cid
    if c.spill.length < c.spillSize then
      settleList cid t (wake .record (s.mapCtx cid fun c =>
        { c with spill := c.spill ++ [(r.lgrove, r.pkt)], records := c.records.filter (·.idx != r.idx) }))
    else s

/-- Let pending continuations of a context be placed. -/
def settle (cid : Nat) (s : State) : State := settleList cid ((s.ctxOf cid).records.filter (·.pending)) s

/-- Pending continuations of a context enter its ring, and the rings refill a grove's queue, in turn while tasks move, at most `n`
times. -/
def refreshGrove (cid grove : Nat) : Nat → State → State
  | 0, s => s
  | n + 1, s =>
    let t := refillGrove grove taskLimit (settle cid s)
    if (t.groveOf grove).tasks.length = (s.groveOf grove).tasks.length then t else refreshGrove cid grove n t

/-- Bring a context's ring and a grove's queue up to date. -/
def refresh (cid lg : Nat) (s : State) : State :=
  match physGrove (s.ctxOf cid) lg with
  | some g => refreshGrove cid g taskLimit (refillGrove g taskLimit s)
  | none => settle cid s

/-- Whether the hardware queue of a grove takes a new task of a context: it has room, and no task for the grove is in the ring. -/
def queueTakes (cid lg : Nat) (s : State) : Option Nat :=
  match physGrove (s.ctxOf cid) lg with
  | some g => if (s.groveOf g).tasks.length < taskLimit && !(s.ctxOf cid).spill.any (·.1 == lg) then some g else none
  | none => none

/-- Whether a context's spill ring has space. -/
def ringSpace (cid : Nat) (s : State) : Bool := (s.ctxOf cid).spill.length < (s.ctxOf cid).spillSize

/-- The slots parked at a TSPAWN whose task can be placed now go on (R152, R166). -/
def wakeSpawners (s : State) : State :=
  s.mapSlots (fun k v => match v.st with
    | .parked (.spawn lg) => (queueTakes (homeOf s k.cid) lg s).isSome || ringSpace (homeOf s k.cid) s
    | _ => false) fun v => { v with st := .ready }

/-- Place a task of a context for one of its groves, behind those placed before (R166): none when the hardware queue and
the spill ring are full. A context that is swapped out takes it into its ring. -/
def placeTask (cid lg : Nat) (p : TaskPacket) (s : State) : Option State :=
  let s := refresh cid lg s
  match queueTakes cid lg s with
  | some g => some (s.mapGrove g fun x => { x with tasks := x.tasks ++ [⟨cid, lg, p⟩] })
  | none => if ringSpace cid s then some (s.mapCtx cid fun c => { c with spill := c.spill ++ [(lg, p)] }) else none

/-- The oldest placed task of a context for a logical grove (R166), taken out of the hardware queue or the ring. -/
def takeTask (cid lg : Nat) (s : State) : Option (TaskPacket × State) :=
  let c := s.ctxOf cid
  let mine (q : QTask) : Bool := q.cid == cid && q.lgrove == lg
  let hw := (physGrove c lg).bind fun g => ((s.groveOf g).tasks.find? mine).map fun q => (g, q)
  match hw with
  | some (g, q) =>
    some (q.pkt, (s.mapGrove g fun x => { x with tasks := x.tasks.erase q }).pushOnce (.taskSpillRefill g))
  | none =>
    match c.spill.find? (·.1 == lg) with
    | some t => some (t.2, (s.mapCtx cid fun c => { c with spill := c.spill.erase t }).pushOnce (.continuationPlace cid))
    | none => none

/-! Continuation records and futures (R170 to R172). -/

namespace Fut
/-- STATE, HEAD and VALUE of a future word. -/
def state (w : Word) : Nat := Bits.field w 62 2
def head (w : Word) : Nat := Bits.field w 32 30
def value (w : Word) : Nat := Bits.field w 0 32
/-- A future word of given fields. -/
def word (st hd v : Nat) : Word := BitVec.ofNat 64 (st * 2 ^ 62 + hd * 2 ^ 32 + v)
def waiting : Nat := 1
def resolved : Nat := 2
def faulted : Nat := 3
end Fut

/-- The name of a record (R172). -/
def recName (pool idx : Nat) : Nat := pool * 2 ^ 20 + idx

/-- The record that a name leads to for a future of a tenant, if it can be followed (R172). -/
def followRec (s : State) (tenant fut name : Nat) : Option (Nat × CRec) :=
  match s.ctxs.find? fun c => c.2.tenant == tenant && c.2.pool == name / 2 ^ 20 && c.2.st != .destroyed with
  | none => none
  | some c => (c.2.records.find? fun r => r.idx == name % 2 ^ 20 && r.fut == fut && 1 ≤ r.idx && r.idx ≤ c.2.recSize).map
      fun r => (c.1, r)

/-- The records of a list, in order of registration, from a name on: at most `n`. -/
def recList (s : State) (tenant fut : Nat) : Nat → Nat → List (Nat × CRec)
  | 0, _ => []
  | n + 1, name =>
    match followRec s tenant fut name with
    | none => []
    | some r => r :: recList s tenant fut n r.2.next

/-- The records in use by the contexts of a tenant. -/
def recCount (s : State) (tenant : Nat) : Nat :=
  ((s.ctxs.filter (·.2.tenant == tenant)).map (·.2.records.length)).sum

/-- Change a record. -/
def mapRec (cid idx : Nat) (f : CRec → CRec) (s : State) : State :=
  s.mapCtx cid fun c => { c with records := c.records.map fun r => if r.idx = idx then f r else r }

/-- The `k`-th free index of a pool, counted from 0, given the used ones in rising order. -/
def freeIndex (k : Nat) : List Nat → Nat := List.foldl (fun x u => if u ≤ x then x + 1 else x) (k + 1)

/-- The highest record index, which a name holds in 20 bits (R172). -/
def recLimit : Nat := 2 ^ 20 - 1

/-- Copy a packet to a free record of a context; which one is not defined (R172, log 19). None is free: none. -/
def newRecord (cid fut lg : Nat) (p : TaskPacket) (s : State) : Option (Nat × State) :=
  let c := s.ctxOf cid
  let free := Nat.min c.recSize recLimit - c.records.length
  if free = 0 then none
  else
    let idx := freeIndex ((Config.freeWord s.free).toNat % free) (Sorted.ofList (c.records.map (·.idx)))
    some (idx, ({ s with free := s.free + 1 } : State).mapCtx cid fun c =>
      { c with records := c.records ++ [⟨idx, fut, p, lg, 0, false⟩] })

/-- Spawn a continuation from its record (R171): USR is the value and FLT the outcome. It is placed, which frees the
record, or stays pending in it, behind those pending before. -/
def spawnRec (cid : Nat) (r : CRec) (value : Nat) (flt : Bool) (s : State) : State :=
  let p := { r.pkt with usr := BitVec.ofNat 32 value, flt := flt }
  let out := s.mapCtx cid fun c => { c with records := c.records.filter (·.idx != r.idx) }
  match placeTask cid r.lgrove p out with
  | some s => wake .record s
  | none =>
    (out.mapCtx cid fun c => { c with records := c.records ++ [{ r with pkt := p, pending := true }] }).pushOnce
      (.continuationPlace cid)

/-- The write of a future word, an atomic of a core for a context, or of an engine (R170). -/
def putFuture (core : Option (Nat × Nat)) (k : Nat) (w : Word) (s : State) : State :=
  let s := if Key.isDevice k then
      (match core with | some c => dirStore c.1 c.2 (Key.line k) s | none => dirRecall (Key.line k) s)
    else s
  performWrite (valueCells k 8 w.toNat) s

/-- FUTREG at a future word of value `w` (R171): the status 0 appended or 1 spawned at once; none when no record is free. -/
def futRegister (core : Nat × Nat) (cid k lg : Nat) (w : Word) (p : TaskPacket) (s : State) : Option (Nat × State) :=
  match newRecord cid k lg p s with
  | none => none
  | some (idx, t) =>
    let c := s.ctxOf cid
    if Fut.state w = 0 then some (0, putFuture (some core) k (Fut.word Fut.waiting (recName c.pool idx) 0) t)
    else if Fut.state w = Fut.waiting then
      match (recList s c.tenant k (recCount s c.tenant) (Fut.head w)).getLast? with
      | some l => some (0, mapRec l.1 l.2.idx (fun r => { r with next := recName c.pool idx }) t)
      | none => some (0, putFuture (some core) k (Fut.word Fut.waiting (recName c.pool idx) (Fut.value w)) t)
    else some (1, spawnRec cid ⟨idx, k, p, lg, 0, false⟩ (Fut.value w) (Fut.state w == Fut.faulted) t)

/-- Resolve a future word of value `w` (R171): none when it is already RESOLVED or FAULTED. -/
def futResolve (core : Option (Nat × Nat)) (tenant k : Nat) (w : Word) (value : Nat) (flt : Bool) (s : State) : Option State :=
  if Fut.state w ≥ Fut.resolved then none
  else
    let l := if Fut.state w = Fut.waiting then recList s tenant k (recCount s tenant) (Fut.head w) else []
    let s := putFuture core k (Fut.word (if flt then Fut.faulted else Fut.resolved) 0 value) s
    some (l.foldl (fun s r => spawnRec r.1 r.2 value flt s) s)

/-- The task packet that 64 bytes hold (R167). -/
def packetOf (x : Nat) : TaskPacket :=
  let dw (i : Nat) : Word := BitVec.ofNat 64 (x / 2 ^ (64 * i))
  let h := dw 7
  { entry := dw 0, arg := dw 1, scla := dw 2, sclb := dw 3, cbka := dw 4, cbkb := dw 5, join := dw 6,
    fa := h.extractLsb' 58 6, fb := h.extractLsb' 52 6, fo := h.extractLsb' 46 6, spa := h.getLsbD 45, jf := h.getLsbD 44,
    scope := h.extractLsb' 41 3, flt := h.getLsbD 40, usr := h.extractLsb' 0 32 }

/-- Whether a packet is refused (R167). -/
def packetRefused (x : Nat) : Bool :=
  let p := packetOf x
  x / 2 ^ (448 + 32) % 2 ^ 8 != 0 || p.flt || 5 ≤ p.scope.toNat || p.entry.toNat % 16 != 0 || p.join.toNat % 8 != 0

/-- A core whose slots of a launch have all ended, and whose commands have completed, reports (R191). -/
def coreCheck (cid lcore : Nat) (s : State) : State :=
  let lid := (s.ctxOf cid).lid
  let busy := s.allSlots.any (fun e => e.1.cid == cid && e.1.lcore == lcore && e.2.st != .ended && e.2.st != .absent) ||
    s.cmds.any fun c => match c.issuer with | .slot k => k.cid == cid && k.lcore == lcore | _ => false
  if busy then s else s.pushOnce (.coreDoneMessage lid lcore)

end Sys2Proof.Machine
end

