-- ==== Sys2Proof/Machine/Engine.lean ====
section
/-!
DEFINITION. The skidders, grapples and booms (R77 to R97): issue by ECMD and TCP (R296, R297), ownership of destination
lines, reading the source, finishing lines, completion, and reductions.
-/
namespace Sys2Proof.Machine

/-! The fields of a command (R77 to R79). -/
namespace Dw
def w (d : List Word) (j : Nat) : Word := (d[j]?).getD 0
def kind (d : List Word) : Nat := Bits.field (w d 0) 60 4
def sfmt (d : List Word) : Nat := Bits.field (w d 0) 54 6
def dfmt (d : List Word) : Nat := Bits.field (w d 0) 48 6
def cv (d : List Word) : Bool := (w d 0).getLsbD 47
def rnd (d : List Word) : Nat := Bits.field (w d 0) 44 3
def esz (d : List Word) : Nat := Bits.field (w d 0) 40 3
def fes (d : List Word) : Nat := Bits.field (w d 0) 38 2
def scope (d : List Word) : Nat := Bits.field (w d 0) 35 3
def fut (d : List Word) : Bool := (w d 0).getLsbD 34
def tag (d : List Word) : Nat := Bits.field (w d 0) 28 6
def src (d : List Word) : Word := w d 1
def dst (d : List Word) : Word := w d 2
def futa (d : List Word) : Word := w d 3
def seed (d : List Word) : Nat := Bits.field (w d 5) 32 32
/-- E0 to E5 (R80). -/
def ext (d : List Word) : List Nat :=
  [Bits.field (w d 4) 0 16 + 1, Bits.field (w d 4) 16 16 + 1, Bits.field (w d 4) 32 16 + 1, Bits.field (w d 4) 48 16 + 1,
   Bits.field (w d 5) 0 16 + 1, Bits.field (w d 5) 16 16 + 1]
/-- A signed 32-bit stride: the low (0) or high (1) half of a doubleword. -/
def stride (d : List Word) (j hi : Nat) : Int := Bits.sv 32 (Bits.field (w d j) (32 * hi) 32)
/-- Source and destination strides of dims 1 to 5. -/
def sst (d : List Word) : List Int := [stride d 6 0, stride d 6 1, stride d 7 0, stride d 7 1, stride d 8 0]
def dstr (d : List Word) : List Int := [stride d 8 1, stride d 9 0, stride d 9 1, stride d 10 0, stride d 10 1]
def aux0 (d : List Word) : Word := w d 11
def aux1 (d : List Word) : Word := w d 12
def iw (d : List Word) : Nat := Bits.field (aux1 d) 62 2
def isg (d : List Word) : Bool := (aux1 d).getLsbD 61
def shift (d : List Word) : Nat := Bits.field (aux1 d) 57 4
def opr (d : List Word) : Nat := Bits.field (aux1 d) 53 4
def xs (d : List Word) : Bool := (aux1 d).getLsbD 52
def pidx (d : List Word) : Nat := Bits.field (aux1 d) 32 16
def seq (d : List Word) : Nat := Bits.field (aux1 d) 0 32
/-- Element widths in bits of the source and the destination (R81). -/
def ws (d : List Word) : Nat := if cv d then outWidth (sfmt d) else 8 * 2 ^ esz d
def wd (d : List Word) : Nat := if cv d then outWidth (dfmt d) else 8 * 2 ^ esz d
/-- The number of elements. -/
def count (d : List Word) : Nat := (ext d).foldl (· * ·) 1
def isBoom (d : List Word) : Bool := kind d == 4 || kind d == 5
/-- Whether the command has a destination: of a REDUCE, participant 0 alone (R94). -/
def writes (d : List Word) : Bool := !(kind d == 4) || pidx d == 0
end Dw

/-- The formats of engine conversions (R78) and of the boom (R94). -/
def engineFormat (c : Nat) : Bool := decide (c ≤ 0x0D)
def boomFormat (c : Nat) : Bool := c ≤ 5 || c == xsCode

/-- Refusal with FORMAT (R79, R81, R94). DESIGN CHOICE (log 56): IW = 3 and OPR 6 to 15, which name nothing, are refused as other
reserved values are; source strides of a FILL, which has no source array, are ignored; of a REDUCE participant other than 0,
a nonzero DST address is refused, and its destination strides are ignored. -/
def formatRefused (d : List Word) : Bool :=
  let k := Dw.kind d
  let a1 := Dw.aux1 d
  6 ≤ k || Dw.rnd d == 7 || 2 ≤ Dw.fes d || 5 ≤ Dw.scope d || (Dw.w d 0).getLsbD 43 || Bits.field (Dw.w d 0) 0 28 != 0 ||
    Dw.w d 13 != 0 || Dw.w d 14 != 0 || Dw.w d 15 != 0 || Bits.field a1 48 4 != 0 ||
    ((k == 0 || k == 1) && (Dw.aux0 d != 0 || a1 != 0)) ||
    ((k == 2 || k == 3) && (Bits.field a1 0 57 != 0 || Dw.iw d == 3)) ||
    (Dw.isBoom d && (Bits.field a1 57 7 != 0 || 6 ≤ Dw.opr d)) ||
    (!Dw.cv d && (Dw.sfmt d != 0 || Dw.dfmt d != 0)) ||
    (Dw.cv d && (Dw.esz d != 0 ||
      !(if Dw.isBoom d then boomFormat (Dw.sfmt d) && boomFormat (Dw.dfmt d)
        else engineFormat (Dw.sfmt d) && engineFormat (Dw.dfmt d)))) ||
    ((k == 2 || k == 3) && (Dw.ws d < 8 || Dw.wd d < 8)) ||
    (k == 1 && 3 < Dw.esz d) || (Dw.fut d && (Dw.futa d).toNat % 8 != 0) ||
    (Dw.isBoom d && (!Dw.cv d || ((Dw.sfmt d == xsCode || Dw.dfmt d == xsCode) && !Dw.xs d) ||
      (Dw.xs d && (Dw.opr d != 0 || Dw.sfmt d == 3 || Dw.dfmt d == 3)) || (!Dw.writes d && Dw.dst d != 0)))

/-! Status words (R86). -/
namespace Status
def make (code reason elem : Nat) : BitVec 32 := BitVec.ofNat 32 (code * 2 ^ 28 + reason % 256 * 2 ^ 20 + elem % 2 ^ 20)
def code (s : BitVec 32) : Nat := Bits.field s 28 4
def translation : Nat := 1
def limit : BitVec 32 := make 2 0 0
def format : BitVec 32 := make 3 0 0
def uncorrectable : Nat := 4
def mismatch : BitVec 32 := make 5 0 0
def futureState : BitVec 32 := make 6 0 0
def xsOverflow : BitVec 32 := make 7 0 0
end Status

/-! Accesses of an engine (R84, R87). -/

/-- Why an access of a command does not take place: it failed, an uncorrectable word was read, or a word is not free: another command
owns its line, or requests are queued there before it. -/
inductive EngStop where
  | fault (f : XFault) | bad | busy (word : Nat × Bool)
  deriving DecidableEq, Repr

/-- The accesses of an engine. -/
abbrev EM := EStateM EngStop State

/-- The requester of a command's accesses: local addresses are relative to the issuing core, and the grove's TLB serves it
(R15, R87). -/
def cmdReq (s : State) (c : Cmd) : Req :=
  match c.issuer with
  | .slot _ => { cid := c.cid, tenant := c.tenant, xroot := (s.ctxOf c.cid).xroot, pcore := some c.pcore, ownTlb := false }
  | .packet t _ _ => { cid := 0, tenant := t, xroot := (Tab.getD (s.tenants.map fun x => (x.1, x.2.xroot)) t 0), pcore := none }

/-- Translate and check an access of a command (R87). -/
def engResolve (c : Cmd) (va : Word) (n : Nat) (kind : AccKind) (op : OpClass) : EM (List Nat) := do
  let s ← get
  let r := resolve s (cmdReq s c) va n kind op
  set r.1
  match r.2 with
  | .ok a => pure a.keys
  | .error f => throw (.fault f)

/-- Check a destination: peer and host stores that will be refused fail here, and full/empty bits of host words (R87, R88). -/
def engDest (c : Cmd) (va : Word) (n : Nat) : EM (List Nat) := do
  let keys ← engResolve c va n .store .store
  let s ← get
  let bad (reason m : Nat) : EM (List Nat) := throw (.fault { code := Cause.accessFault, reason := reason, va := va, modId := m })
  match keys.find? fun k => decide (2 ^ 62 ≤ k) with
  | none => pure keys
  | some k =>
    match keyModule k with
    | some m =>
      let ex := (Tab.getD s.peers m ⟨false, false, [], false, 0⟩).exports
      if keys.all fun k => (exportAllows ex Config.moduleId ((k - 2 ^ 63) % 2 ^ 48) 1 .store).isSome then pure keys
      else bad Reason.peerRejected m
    | none =>
      if Dw.fes c.dw = 1 then bad Reason.unsupportedOp 0
      else if hostRefuses s c.tenant keys then bad Reason.hostRejected 0
      else pure keys

/-- The word at which bytes are not free for a command, and whether another command owns its line (R83, R114). -/
def busyFor (s : State) (id : Nat) (keys : List Nat) : Option (Nat × Bool) := busyAt s (.command id) (some id) keys

/-- A command waits at a word in the order of arrival, or for its line (R83, R114). -/
def waitAt (who : Waiter) (word : Nat × Bool) (s : State) : State := takePlace who word.1 word.2 s

/-- The bytes must be free for a command, which keeps its places until it has read them all. -/
def engFree (c : Cmd) (keys : List Nat) : EM Unit := do
  match busyFor (← get) c.id keys with
  | some w => throw (.busy w)
  | none => pure ()

/-- Read source bytes (R84). -/
def engRead (c : Cmd) (va : Word) (n : Nat) : EM Nat := do
  let keys ← engResolve c va n .load .load
  engFree c keys
  let r := rasRead none keys (← get)
  set r.1
  if r.2.2.isEmpty then pure (fixBytes r.2.1 r.1.mem.byte keys) else throw .bad

/-- Run `f` on elements `i` on, `n` of them, until one fails: what was gathered, and the failure with its element. Effects
before a failure stay. -/
def engElems {α : Type} (f : Nat → EM α) : Nat → Nat → State → List α × Option (Nat × EngStop) × State
  | _, 0, s => ([], none, s)
  | i, n + 1, s =>
    match f i s with
    | .error x t => ([], some (i, x), t)
    | .ok y t =>
      let r := engElems f (i + 1) n t
      (y :: r.1, r.2)

/-! Element addresses (R80). -/

/-- The offset of a row: mixed-radix digits of `q` by the extents, times the strides. -/
def rowOffset : List Nat → List Int → Nat → Int
  | e :: es, st :: ss, q => (q % e : Nat) * st + rowOffset es ss (q / e)
  | _, _, _ => 0

/-- Element n on one side: its first byte and the bit in it. -/
def elemPlace (d : List Word) (base : Word) (strides : List Int) (w n : Nat) : Word × Nat :=
  let e0 := (Dw.ext d).headD 1
  let bit := n % e0 * w
  (base + Bits.word (rowOffset ((Dw.ext d).drop 1) strides (n / e0)) + BitVec.ofNat 64 (bit / 8), bit % 8)

/-- The bytes that an element covers. -/
def placeBytes (off w : Nat) : Nat := (off + w + 7) / 8

/-- index[n] << SHIFT, of GATHER and SCATTER (R79, R80). -/
def indexOffset (c : Cmd) (n : Nat) : EM Word := do
  let d := c.dw
  let b := 2 * 2 ^ Dw.iw d
  let x ← engRead c (Dw.aux0 d + BitVec.ofNat 64 (n * b)) b
  pure ((if Dw.isg d then Bits.word (Bits.sv (8 * b) x) else BitVec.ofNat 64 x) <<< Dw.shift d)

/-- Where the source of element n lies. -/
def srcPlace (c : Cmd) (n : Nat) : EM (Word × Nat) := do
  let d := c.dw
  if Dw.kind d = 2 then do
    let x ← indexOffset c n
    pure (Dw.src d + x, 0)
  else pure (elemPlace d (Dw.src d) (Dw.sst d) (Dw.ws d) n)

/-- The source bits of element n. -/
def srcElem (c : Cmd) (n : Nat) : EM Nat := do
  let w := Dw.ws c.dw
  let p ← srcPlace c n
  let x ← engRead c p.1 (placeBytes p.2 w)
  pure (x / 2 ^ p.2 % 2 ^ w)

/-- Where the destination of element n lies, given the index offset of a SCATTER. -/
def dstPlace (d : List Word) (index : List Word) (n : Nat) : Word × Nat :=
  if Dw.kind d = 3 then (Dw.dst d + (index[n]?).getD 0, 0) else elemPlace d (Dw.dst d) (Dw.dstr d) (Dw.wd d) n

/-- Stochastic bits of element n (R78). -/
def stochastic (seed n : Nat) : Nat :=
  let x : Word := BitVec.ofNat 64 (seed * 2 ^ 32) ^^^ BitVec.ofNat 64 n
  let x := x ^^^ (x <<< 13)
  let x := x ^^^ (x >>> 7)
  let x := x ^^^ (x <<< 17)
  x.toNat / 2 ^ 32

/-- The value written for source bits of element n (R78, R80). -/
def engValue (d : List Word) (n bits : Nat) : Nat :=
  if Dw.cv d then
    match numFmt (Dw.sfmt d), numFmt (Dw.dfmt d) with
    | some a, some b => (convert a b (Dw.rnd d) (if Dw.rnd d = 6 then stochastic (Dw.seed d) n else 0) bits).1
    | _, _ => bits
  else bits

/-! Limits (R81). -/

/-- Destination bytes counted by R81. -/
def destBytes (d : List Word) : Nat :=
  let e := Dw.ext d
  (e.drop 1).foldl (· * ·) 1 * Bits.cdiv (e.headD 1 * Dw.wd d) 8

/-- The distinct destination lines of the first `n` elements (R81). DESIGN CHOICE (log 56): lines of virtual addresses. -/
def destLines (d : List Word) (index : List Word) (n : Nat) : List Nat :=
  Sorted.ofList ((List.range n).flatMap fun i =>
    let p := dstPlace d index i
    let a := p.1.toNat
    [a / 128, (a + placeBytes p.2 (Dw.wd d) - 1) / 128])

/-! The list of commands. -/

/-- Change a command. -/
def mapCmd (id : Nat) (f : Cmd → Cmd) (s : State) : State :=
  { s with cmds := s.cmds.map fun c => if c.id = id then f c else c }

/-- A command in flight. -/
def cmdAt (s : State) (id : Nat) : Option Cmd := s.cmds.find? (·.id == id)

/-- The event by which a command goes on from its stage. -/
def cmdEvent (c : Cmd) : Instr :=
  match c.st with
  | .locate => .engineLineAcquire c.id
  | .acquire => .engineLineAcquire c.id
  | .read => .engineLineFinish c.id (c.owned.headD 0)
  | .reduce => .boomReduce (Dw.seq c.dw) 0
  | .write => .engineLineFinish c.id (c.owned.headD 0)
  | .finish => .engineCommandComplete c.id

/-- A page fault of a command goes to Naruno, and the command waits (R32, R87). -/
def cmdFault (c : Cmd) (f : XFault) (s : State) : State :=
  let s := mapCmd c.id (fun c => { c with wait := some f.va }) s
  match pageInFor s c.tenant f.va with
  | some p => s.pushOnce (.pageFaultService (.command c.id) true p.ptes)
  | none => s.pushOnce (.pageFaultService (.command c.id) false [])

/-- What a failure at element n of a command means: a status, or a wait that this state makes (R87). -/
def engFail (c : Cmd) (n : Nat) (x : EngStop) (s : State) : State ⊕ BitVec 32 :=
  match x with
  | .busy w => .inl ((waitAt (.command c.id) w s).pushOnce (cmdEvent c))
  | .bad => .inr (Status.make Status.uncorrectable 0 n)
  | .fault f =>
    if f.code = Cause.pageFault ∧ !c.served.contains f.va then .inl (cmdFault c f s)
    else .inr (Status.make Status.translation f.reason n)

/-! Lines (R82, R83). -/

/-- The fixed order of lines: device lines by address, then local lines by grove, core and offset (R82). -/
def lineOrder (l : Nat) : Nat :=
  match arrayOf l with
  | some (.pool core, _, i) => 2 ^ 60 + groveOfCore core * 2 ^ 40 + (core % 16 + 1) * 2 ^ 30 + i
  | some (.scratch g, _, i) => 2 ^ 60 + g * 2 ^ 40 + i
  | _ => l

/-- Insert a line by the fixed order. -/
def insertLine (l : Nat) : List Nat → List Nat
  | [] => [l]
  | x :: t => if x = l then x :: t else if lineOrder l < lineOrder x then l :: x :: t else x :: insertLine l t

/-- The lines of this module that destination bytes lie in. -/
def ownLines (dest : List (List Nat)) : List Nat :=
  dest.flatten.foldl (fun l k => if k < 2 ^ 62 then insertLine (Key.line k) l else l) []

/-- Whether the slot waits for a command to hold its lines. -/
def needsLines (k : SlotKey) (c : Cmd) : Bool := c.issuer == .slot k && (c.st == .locate || c.st == .acquire)

/-- An ECMD or TCP completes once every command it issued holds its destination lines (R120). -/
def ecmdDone (k : SlotKey) (s : State) : State :=
  match s.slotAt k with
  | some v =>
    match v.rpend with
    | some i =>
      if v.st = .parked .engineLines ∧ !s.cmds.any (needsLines k) ∧ (instrOp i = 0xC0 ∨ instrOp i = 0xC1) then
        completeSlot k (writeRegs v.vt i) (fun v => { v with rpend := none }) s
      else s
    | none => s
  | none => s

/-- The same for the issuer of a command. -/
def issuerDone (c : Cmd) (s : State) : State := match c.issuer with | .slot k => ecmdDone k s | .packet _ _ _ => s

/-- A line is given up: accesses that wait for it go on (R83, R114). -/
def releaseLine (l : Nat) (s : State) : State :=
  let s := wake .lineBusy { s with dir := Tab.erase s.dir l }
  (Sorted.ofList ((s.atoms.filter fun q => Key.line q.addr == l).map fun q => Key.word q.addr)).foldl
    (fun s w => s.pushOnce (.atomicReservationGrant w)) s

/-- The stage after a command holds its lines: a boom or copying command reads its source. -/
def startRead (id : Nat) (s : State) : State :=
  match cmdAt s id with
  | none => s
  | some c =>
    let s := mapCmd id (fun c => { c with st := .read }) s
    let s := (if c.owned.isEmpty then [0] else c.owned).foldl (fun s l => s.pushOnce (.engineLineFinish id l)) s
    issuerDone c s

/-- A command has nothing more to write: it completes (R86). -/
def startFinish (id : Nat) (s : State) : State :=
  match cmdAt s id with
  | none => s
  | some c =>
    let s := c.owned.foldl (fun s l => releaseLine l s) s
    let s := (mapCmd id (fun c => { c with st := .finish, todo := [], owned := [], wait := none }) (leavePlaces (.command id) s)).pushOnce (.engineCommandComplete id)
    issuerDone c s

/-- Locate the destination (R82, R87): a SCATTER reads its whole index array, the limits of R81 are judged, and every
element is translated and checked. DESIGN CHOICE (log 56): of an element whose source and destination both fail, the
destination's reason is reported. -/
def locate (c : Cmd) (s : State) : State :=
  let d := c.dw
  let e := if Dw.writes d then Dw.count d else 0
  let ix := if Dw.kind d = 3 then engElems (indexOffset c) 0 e s else ([], none, s)
  let lim := match ix.2.1 with | some x => x.1 | none => e
  let s := ix.2.2
  let go (fail : Option (BitVec 32)) : State :=
    if (destLines d ix.1 lim).length > 512 then startFinish c.id (mapCmd c.id (fun c => { c with status := Status.limit }) s)
    else
      let r := engElems (fun n => let p := dstPlace d ix.1 n; engDest c p.1 (placeBytes p.2 (Dw.wd d))) 0 lim s
      let done (st : Option (BitVec 32)) : State :=
        let s := mapCmd c.id (fun c =>
          { c with st := .acquire, dest := r.1, todo := ownLines r.1, served := [], status := st.getD c.status }) (leavePlaces (.command c.id) r.2.2)
        if (ownLines r.1).isEmpty then startRead c.id s else s.pushOnce (.engineLineAcquire c.id)
      match r.2.1 with
      | none => done fail
      | some (n, x) =>
        match engFail c n x r.2.2 with
        | .inl t => t
        | .inr st => done (some st)
  match ix.2.1 with
  | none => go none
  | some (n, x) =>
    match engFail c n x s with
    | .inl t => t
    | .inr st => go (some st)

/-! Issue (R82, R85, R296). -/

/-- The engine of a command (R296). -/
def engineFor (pcore : Nat) (d : List Word) : Engine :=
  let k := Dw.kind d
  if k = 2 ∨ k = 3 then .grapple (groveOfCore pcore)
  else if k = 4 ∨ k = 5 then .boom (dieOfCore pcore)
  else .skidder (groveOfCore pcore)

/-- Whether an engine has room. -/
def engineRoom (s : State) (e : Engine) : Bool :=
  (s.cmds.filter (·.engine == e)).length < (match e with | .boom _ => Config.boomLimit | _ => Config.engineLimit)

/-- A tag of a context. -/
def tagOf (c : Ctx) (lcore t : Nat) : Tag := (Tab.get c.tags (lcore * 64 + t)).getD .reset

/-- Change a tag. -/
def mapTag (cid lcore t : Nat) (f : Tag → Tag) (s : State) : State :=
  s.mapCtx cid fun c => { c with tags := Tab.set c.tags (lcore * 64 + t) (f (tagOf c lcore t)) }

/-- Take a command into its engine (R82). A refused one completes at once (R81). -/
def addCmd (c : Cmd) (s : State) : State :=
  let s := { s with cmds := s.cmds ++ [c] }
  if formatRefused c.dw then startFinish c.id (mapCmd c.id (fun c => { c with status := Status.format }) s)
  else if destBytes c.dw > 65536 then startFinish c.id (mapCmd c.id (fun c => { c with status := Status.limit }) s)
  else locate c s

/-- A new command. -/
def newCmd (s : State) (e : Engine) (issuer : Issuer) (cid tenant pcore : Nat) (d : List Word) : Cmd :=
  { id := s.nextCmd, engine := e, issuer := issuer, cid := cid, tenant := tenant, pcore := pcore, dw := d, st := .locate,
    dest := [], todo := [], owned := [], plan := [], wait := none, served := [], status := 0, route := [], input := [] }

/-- Issue a command of the executing slot, when its engine has room and its tag's count is below 255 (R85, R296). -/
def issueCmd (d : List Word) (s : State) : Option State :=
  let e := engineFor s.core d
  let home := homeOf s s.cur.cid
  let t := tagOf (s.ctxOf home) s.cur.lcore (Dw.tag d)
  if !engineRoom s e || t.cnt ≥ 255 then none
  else
    let c := newCmd s e (.slot s.cur) s.cur.cid s.ctx.tenant s.core d
    some (addCmd c (mapTag home s.cur.lcore (Dw.tag d) (fun t => { t with bit := false, cnt := t.cnt + 1 })
      { s with nextCmd := s.nextCmd + 1 }))

/-- The batch loop of ECMD (R296): the mask of accepted groups. -/
def issueBatch (act : Nat → Bool) : List (List Word) → Nat → State → State × Nat
  | [], _, s => (s, 0)
  | d :: t, g, s =>
    if act g then
      match issueCmd d s with
      | none => (s, 0)
      | some s' =>
        let r := issueBatch act t (g + 1) s'
        (r.1, r.2 + 2 ^ g)
    else issueBatch act t (g + 1) s

/-- After an issue: the instruction completes once every command holds its lines (R120); its result counts under SET from now on
(R200). -/
def awaitLines (i : Instr) (regs : List Reg) (set : Option (Fin 6)) : M Unit := do
  let s ← get
  if s.cmds.any (needsLines s.cur) then
    modify fun s => s.mapMe fun v => { v.addPend regs set true with st := .parked .engineLines, rpend := some i }
  else do
    modify fun s => longLatency regs set s
    retire

/-- ECMD (R296). -/
def execEcmd (o : FS) (s : State) : Out :=
  run (do
    let v := s.me
    let g := Vt.grp v.vt
    match o.a with
    | .v k => do
      if Vt.sew v.vt ≠ 64 ∨ v.vl % 16 ≠ 0 then illegal (.ecmd o) else pure ()
      checkGroups (.ecmd o) [(o.a, g)]
      orderPoint
      let x ← sourceStream [] (.v k) g
      let groups := (List.range (v.vl / 16)).map fun i => (List.range 16).map fun j => BitVec.ofNat 64 (elemAt x 64 (16 * i + j))
      let act := activeMask o.toHdr v
      let r := issueBatch (fun i => act.getLsbD i) groups 0 (← get)
      set (r.1.mapMe fun v => match o.d with | .m i => v.setM i (BitVec.ofNat 512 r.2) | _ => v)
      awaitLines (.ecmd o) [o.d] o.set
    | _ => illegal (.ecmd o)) s

/-- The command of a TCP (R297). -/
def tcpCommand (v : Slot) (o : FS) : List Word :=
  let c := v.sreg o.c
  let row := Bits.field c 0 16
  let rows := Bits.field c 16 16
  let st := Bits.field c 32 32
  let packed := row + 1
  let sd := o.sub.getLsbD 0
  let sst := if sd then packed else st
  let dst := if sd then st else packed
  [BitVec.ofNat 64 ((if o.imm.getLsbD 6 then 2 ^ 38 else 0) + Bits.field o.imm 7 3 * 2 ^ 35 + Bits.field o.imm 0 6 * 2 ^ 28),
   v.sreg o.b, v.sreg o.a, 0, BitVec.ofNat 64 (rows * 2 ^ 16 + row), 0, BitVec.ofNat 64 sst, 0,
   BitVec.ofNat 64 (dst * 2 ^ 32), 0, 0, 0, 0, 0, 0, 0]

/-- TCP (R297). -/
def execTcp (o : FS) (s : State) : Out :=
  run (do
    if 5 ≤ Bits.field o.imm 7 3 then illegal (.tcp o) else pure ()
    orderPoint
    match issueCmd (tcpCommand s.me o) (← get) with
    | none => do
      modify fun s => longLatency (fieldRegs 1 o.d) o.set (s.mapMe fun v => v.putS o.d 0)
      retire
    | some t => do
      set (t.mapMe fun v => v.putS o.d 1)
      awaitLines (.tcp o) (fieldRegs 1 o.d) o.set) s

/-- ENGINE_LINE_ACQUIRE (R82): the next line in order, once no other command owns it and no queued atomic is on it. A
command whose destination is not yet located goes on with that. -/
def execEngineLineAcquire (id : Nat) (s : State) : Out :=
  match cmdAt s id with
  | none => .next s
  | some c =>
    if c.wait.isSome then .next s
    else match c.st with
      | .locate => .next (locate c s)
      | .acquire =>
        match c.todo with
        | [] => .next (startRead id s)
        | l :: t =>
          match busyFor s id (keyRange l 128) with
          | some w => .next ((waitAt (.command id) w s).push (.engineLineAcquire id))
          | none =>
            let s := dirRecall l (leavePlaces (.command id) s)
            let s := mapCmd id (fun c => { c with todo := t, owned := c.owned ++ [l] }) { s with dir := Tab.set s.dir l (.engine id) }
            .next (if t.isEmpty then startRead id s else s.push (.engineLineAcquire id))
      | _ => .next s

/-! Reading and writing (R80, R83, R84, R88). -/

/-- A byte that an element writes: the bits it covers and their values. -/
structure Piece where
  key : Nat
  elem : Nat
  mask : Nat
  val : Nat

/-- The pieces of an element at a bit offset. -/
def piecesAt (elem w : Nat) : List Nat → Nat → Nat → List Piece
  | [], _, _ => []
  | k :: t, off, x =>
    let m := (2 ^ w - 1) * 2 ^ off
    let v := x % 2 ^ w * 2 ^ off
    let here := Nat.min w (8 - off)
    ⟨k, elem, m % 256, v % 256⟩ :: piecesAt elem (w - here) t 0 (x / 2 ^ here)

/-- The pieces of a written element: the destination element n at its bit offset. -/
def elemPieces (d : List Word) (n x : Nat) (keys : List Nat) : List Piece :=
  piecesAt n (Dw.wd d) keys (if Dw.kind d = 3 then 0 else (elemPlace d (Dw.dst d) (Dw.dstr d) (Dw.wd d) n).2) x

/-- The value of one bit of a byte that several elements may name: one of their writes takes place, free which (R120,
R122, log 18). -/
def bitWinner (base key bit : Nat) (ps : List Piece) : Option Bool :=
  let qs := ps.filter (·.mask.testBit bit)
  match qs with
  | [] => none
  | _ => (qs[(Config.freeWord (base + 8 * key + bit)).toNat % qs.length]?).map (·.val.testBit bit)

/-- The byte that the pieces at one key leave, over the former byte. Elements that name whole bytes win them whole, and
aligned elements at one address win all their bytes. -/
def mergeByte (base : Nat) (first : Nat → Nat) (wd key : Nat) (old : Byte) (ps : List Piece) : Byte :=
  match ps with
  | [] => old
  | [p] => BitVec.ofNat 8 ((old.toNat &&& (255 - p.mask)) + p.val)
  | p :: t =>
    if ps.all (·.mask == 255) then
      let same := wd % 8 == 0 && first p.elem % (wd / 8) == 0 && t.all fun q => first q.elem == first p.elem
      let x := Config.freeWord (base + 8 * (if same then first p.elem else key))
      match ps[x.toNat % ps.length]? with
      | some q => BitVec.ofNat 8 q.val
      | none => old
    else BitVec.ofNat 8 (packElems 1 ((List.range 8).map fun b =>
      match bitWinner base key b ps with
      | some x => if x then 1 else 0
      | none => old.toNat / 2 ^ b % 2))

/-- Group consecutive pieces by key; `rising` pieces never return to an earlier key. -/
def groupPieces : List Piece → List (Nat × List Piece)
  | [] => []
  | p :: t =>
    match groupPieces t with
    | (k, ps) :: r => if k = p.key then (k, p :: ps) :: r else (p.key, [p]) :: (k, ps) :: r
    | [] => [(p.key, [p])]

/-- Whether keys rise strictly. -/
def rising : List (Nat × List Piece) → Bool
  | a :: b :: t => decide (a.1 < b.1) && rising (b :: t)
  | _ => true

/-- Whether two pieces of a byte cover disjoint bits. -/
def disjointPieces : List Piece → Nat → Bool
  | [], _ => true
  | p :: t, m => p.mask &&& m == 0 && disjointPieces t (m ||| p.mask)

/-- The byte of disjoint pieces. -/
def orByte (old : Byte) (ps : List Piece) : Byte :=
  ps.foldl (fun b p => BitVec.ofNat 8 ((b.toNat &&& (255 - p.mask)) + p.val)) old

/-- The cells that a command writes, from its pieces in element order. -/
def planCells (s : State) (wd : Nat) (first : Nat → Nat) (ps : List Piece) : List Host.Cell :=
  let gs := groupPieces ps
  if rising gs && gs.all (fun g => disjointPieces g.2 0) then gs.map fun g => (g.1, orByte (s.mem.byte g.1) g.2)
  else (Sorted.ofList (ps.map (·.key))).map fun k =>
    let here := ps.filter (·.key == k)
    (k, if disjointPieces here 0 then orByte (s.mem.byte k) here else mergeByte s.free first wd k (s.mem.byte k) here)

/-- Words that get their full bits under FES (R88): each is a full/empty change for the wait lists. -/
def fillWords (keys : List Nat) (s : State) : State :=
  (Sorted.ofList (keys.map Key.word)).foldl (fun s w => feChanged w (setFull w true s)) s

/-- The values of a command's elements are known: peer and host bytes are stored in element order (R82), and the lines are
ready to be finished. -/
def takeValues (c : Cmd) (vals : List Nat) (s : State) : State :=
  let d := c.dw
  let ps := (vals.zip c.dest).zipIdx.flatMap fun x => elemPieces d x.2 x.1.1 x.1.2
  let cells := planCells s (Dw.wd d) (fun n => ((c.dest[n]?).getD []).headD 0) ps
  let far := cells.filter fun x => decide (2 ^ 62 ≤ x.1)
  let s := { s with free := s.free + 2 ^ 70 }
  let s := if far.isEmpty then s else performWrite far s
  let s := if Dw.fes d = 1 then fillWords (far.map (·.1)) s else s
  let s := mapCmd c.id (fun c => { c with st := .write, plan := cells.filter fun x => decide (x.1 < 2 ^ 62) }) s
  if c.owned.isEmpty then startFinish c.id s
  else c.owned.foldl (fun s l => s.pushOnce (.engineLineFinish c.id l)) s

/-- Read the source of a skidder or grapple command (R84, R87): elements up to the first failure are written. -/
def readSource (c : Cmd) (s : State) : State :=
  let d := c.dw
  let val (n : Nat) : EM Nat :=
    if Dw.kind d = 1 then pure (engValue d 0 ((Dw.src d).toNat % 2 ^ Dw.ws d))
    else do
      let x ← srcElem c n
      pure (engValue d n x)
  let r := engElems val 0 c.dest.length s
  let done (st : Option (BitVec 32)) : State :=
    takeValues c r.1 (mapCmd c.id (fun c => { c with served := [], status := st.getD c.status }) (leavePlaces (.command c.id) r.2.2))
  match r.2.1 with
  | none => done none
  | some (n, x) =>
    match engFail c n x r.2.2 with
    | .inl t => t
    | .inr st => done (some st)

/-- Finish one owned line (R83, R88): its bytes are written, its words set full under FES, and it is given up. -/
def finishLine (c : Cmd) (l : Nat) (s : State) : State :=
  let here := c.plan.filter fun x => Key.line x.1 == l
  let s := if here.isEmpty then s else performWrite here s
  let s := mapCmd c.id (fun c => { c with owned := c.owned.filter (· != l) }) s
  let s := releaseLine l s
  let s := if Dw.fes c.dw = 1 then fillWords (here.map (·.1)) s else s
  match cmdAt s c.id with
  | some c => if c.owned.isEmpty then startFinish c.id s else s
  | none => s

/-! Reductions (R93 to R97). -/

/-! The fields of a route plan (R93). -/
namespace Route
def nnode (r : List Word) : Nat := Bits.field (Dw.w r 0) 48 16
def npart (r : List Word) : Nat := Bits.field (Dw.w r 0) 32 16
def root (r : List Word) : Nat := Bits.field (Dw.w r 0) 16 16
def node (r : List Word) (j : Nat) : Word := Dw.w r (j + 1)
def modId (r : List Word) (j : Nat) : Nat := Bits.field (node r j) 50 14
def die (r : List Word) (j : Nat) : Nat := Bits.field (node r j) 48 2
def parent (r : List Word) (j : Nat) : Nat := Bits.field (node r j) 32 16
def first (r : List Word) (j : Nat) : Nat := Bits.field (node r j) 16 16
def cnt (r : List Word) (j : Nat) : Nat := Bits.field (node r j) 0 16
/-- The nodes. -/
def nodes (r : List Word) : List Nat := List.range (nnode r)
/-- Whether node j belongs to this module. -/
def here (r : List Word) (j : Nat) : Bool := modId r j == Config.moduleId
/-- Whether the parents of a node lead to the root within `n` steps. -/
def reaches (r : List Word) : Nat → Nat → Bool
  | 0, j => j == root r
  | n + 1, j => j == root r || (decide (parent r j < nnode r) && reaches r n (parent r j))
/-- Whether a plan is well formed: its ranges cover the participants once and its parents form one tree (R93). -/
def ok (r : List Word) : Bool :=
  let n := nnode r
  1 ≤ n && n ≤ 4096 && 2 ≤ npart r && root r < n && Bits.field (Dw.w r 0) 0 16 == 0 && parent r (root r) == 0xFFFF &&
    (nodes r).all (fun j => (cnt r j == 0 || first r j + cnt r j ≤ npart r) && reaches r n j) &&
    ((nodes r).map (cnt r)).sum == npart r &&
    (List.range (npart r)).all fun p => (nodes r).any fun j => first r j ≤ p && p < first r j + cnt r j
/-- The node of a participant. -/
def nodeOf (r : List Word) (p : Nat) : Option Nat := (nodes r).find? fun j => decide (first r j ≤ p ∧ p < first r j + cnt r j)
/-- The children of a node in increasing index. -/
def kids (r : List Word) (j : Nat) : List Nat := (nodes r).filter fun k => k != root r && parent r k == j
end Route

/-- What the boom compares across participants (R93). -/
def reduceKey (c : Cmd) : List Nat × List Word :=
  let d := c.dw
  ([Dw.kind d, Dw.opr d, (if Dw.xs d then 1 else 0), Dw.sfmt d, Dw.dfmt d, Dw.rnd d] ++ Dw.ext d, c.route)

/-- The participants of a sequence number, in issue order; of one index the first takes part (log 31). -/
def participants (s : State) (seq : Nat) : List Cmd :=
  s.cmds.filter fun c => Dw.isBoom c.dw && Dw.seq c.dw == seq && c.st != .finish

/-- A participant completes with MISMATCH (R93). -/
def mismatched (s : State) (c : Cmd) : State :=
  startFinish c.id (mapCmd c.id (fun c => { c with status := Status.mismatch }) s)

/-- Whether a participant belongs to a reduction that has met a MISMATCH: its index has not come in it before. -/
def isSpoiled (c : Cmd) (s : State) : Bool :=
  s.spoiled.any fun x => x.1 == Dw.seq c.dw && !x.2.2.contains (Dw.pidx c.dw)

/-- Every participant of the sequence number of `c` completes with MISMATCH (R93): those in flight now, and each other one when it
comes. DESIGN CHOICE (log 31): where their plans differ in NPART, the largest says how many there are. -/
def mismatch (c : Cmd) (s : State) : State :=
  let seq := Dw.seq c.dw
  let ps := participants s seq
  let former := ((s.spoiled.find? fun x => x.1 == seq).filter fun _ => isSpoiled c s).getD (seq, 0, [])
  let count := (ps.map fun c => Route.npart c.route).foldl Nat.max (Nat.max former.2.1 (Route.npart c.route))
  let seen := Sorted.ofList (former.2.2 ++ ps.map fun c => Dw.pidx c.dw)
  let s : State :=
    { s with partials := s.partials.filter (·.seq != seq),
             spoiled := s.spoiled.filter (·.1 != seq) ++ (if seen.length < count then [(seq, count, seen)] else []) }
  ps.foldl mismatched s

/-- Read the route plan of a participant (R93). -/
def readRoute (c : Cmd) : EM (List Word) := do
  let a := Dw.aux0 c.dw
  let dw (j : Nat) : EM Word := do
    let x ← engRead c (a + BitVec.ofNat 64 (8 * j)) 8
    pure (BitVec.ofNat 64 x)
  let h ← dw 0
  let n := Nat.min (Bits.field h 48 16) 4096
  let rec go : Nat → Nat → EM (List Word)
    | _, 0 => pure []
    | j, k + 1 => do
      let x ← dw j
      let t ← go (j + 1) k
      pure (x :: t)
  let t ← go 1 n
  pure (h :: t)

/-- Whether a participant is on the die of its node, under a well-formed plan (R93). -/
def placedRight (c : Cmd) : Bool :=
  Route.ok c.route && (Dw.aux0 c.dw).toNat % 8 == 0 &&
    (match Route.nodeOf c.route (Dw.pidx c.dw) with
     | some j => Route.here c.route j && Route.die c.route j == dieOfCore c.pcore
     | none => false)

/-- A participant has read its plan and source: it is compared with the others, and its nodes may combine. -/
def joinReduce (c : Cmd) (s : State) : State :=
  let seq := Dw.seq c.dw
  let others := (participants s seq).filter fun x => x.st == .reduce && x.id != c.id
  if isSpoiled c s || !placedRight c || others.any fun x => reduceKey x != reduceKey c then mismatch c s
  else (Route.nodes c.route).foldl (fun s j => s.pushOnce (.boomReduce seq j)) s

/-- Read the plan and the source of a participant (R84, R93, R97). A failure found with the destination keeps its lower element
(R87). DESIGN CHOICE (log 56): a participant whose plan cannot be read completes alone with ELEM 0, and the others stay pending. -/
def readParticipant (c : Cmd) (s : State) : State :=
  match readRoute c s with
  | .error x t =>
    match engFail c 0 x t with
    | .inl t => t
    | .inr st => startFinish c.id (mapCmd c.id (fun c => { c with served := [], status := st }) t)
  | .ok route t =>
    let r := engElems (srcElem c) 0 (Dw.count c.dw) t
    let done (status : BitVec 32) : State :=
      let c' := { c with st := .reduce, route := route, input := r.1, served := [], dest := c.dest.take r.1.length, status := status }
      joinReduce c' (mapCmd c.id (fun _ => c') (leavePlaces (.command c.id) r.2.2))
    match r.2.1 with
    | none => done c.status
    | some (n, x) =>
      match engFail c n x r.2.2 with
      | .inl t => t
      | .inr st => done (if c.status = 0 || n < c.dest.length then st else c.status)

/-- ENGINE_LINE_FINISH (R83): the source is read before the first line is finished. -/
def execEngineLineFinish (id line : Nat) (s : State) : Out :=
  match cmdAt s id with
  | none => .next s
  | some c =>
    if c.wait.isSome then .next s
    else match c.st with
      | .read => .next (if Dw.isBoom c.dw then readParticipant c s else readSource c s)
      | .write => .next (if c.owned.contains line then finishLine c line s else s)
      | _ => .next s

/-- An element of a participant as the boom combines it: FP32, INT32 or a bit pattern in fast mode, XS320 in exact mode
(R95, R96). -/
def boomInput (d : List Word) (x : Nat) : Nat × Int :=
  if Dw.xs d then
    let v := if Dw.sfmt d = xsCode then Xs.decode x
      else match numFmt (Dw.sfmt d) with
        | some f => Xs.ofFV (f.read x).1
        | none => ⟨0, 0⟩
    (v.flags, v.v)
  else if 3 ≤ Dw.opr d ∨ Dw.sfmt d = 3 then (0, (x : Int))
  else match numFmt (Dw.sfmt d) with
    | some f => (0, ((convert f (.flt .fp32) 0 0 x).1 : Int))
    | none => (0, (x : Int))

/-- FP32 max and min of the boom: −0 below +0, the default NaN for any NaN (R95). -/
def boomMinMax (isMax : Bool) (a b : Nat) : Nat :=
  let f := Fmt.fp32
  let x := f.decode a
  let y := f.decode b
  if x.isNan || y.isNan then f.defaultNan
  else
    let less := if x.isZero && y.isZero then x.neg && !y.neg else decide (cmpFV x y < 0)
    if isMax then (if less then b else a) else (if less then a else b)

/-- A result of the boom in a floating-point format: the default NaN for any NaN (R144). -/
def quietNan (f : Fmt) (x : Nat) : Nat := if (f.decode x).isNan then f.defaultNan else x

/-- Combine two elements (R95, R96). -/
def boomStep (d : List Word) (a b : Nat × Int) : Nat × Int :=
  if Dw.xs d then (a.1 ||| b.1, a.2 + b.2)
  else
    let x := a.2.toNat
    let y := b.2.toNat
    let int := Dw.sfmt d == 3
    let r := match Dw.opr d with
      | 0 => if int then (x + y) % 2 ^ 32 else quietNan .fp32 (fAdd .fp32 0 x y).1
      | 1 => if int then (if Bits.sv 32 x < Bits.sv 32 y then y else x) else boomMinMax true x y
      | 2 => if int then (if Bits.sv 32 y < Bits.sv 32 x then y else x) else boomMinMax false x y
      | 3 => x &&& y
      | 4 => x ||| y
      | _ => x ^^^ y
    (0, (r : Int))

/-- The left fold of some elements, absent when one is missing. -/
def boomFold (d : List Word) : List (Option (Nat × Int)) → Option (Nat × Int)
  | [] => none
  | x :: t => t.foldl (fun a b => match a, b with | some a, some b => some (boomStep d a b) | _, _ => none) x

/-- A partial of a node on another module: free values (R93, log 31). -/
def remotePartial (d : List Word) (free n : Nat) : Option (Nat × Int) :=
  let w (i : Nat) : Nat := (Config.freeWord (free + 8 * n + i)).toNat
  if Dw.xs d then
    some (w 0 % 16, Bits.sv 336 (packElems 64 ((List.range 6).map fun i => w (i + 1))))
  else some (0, ((w 0 % 2 ^ 32 : Nat) : Int))

/-- BOOM_REDUCE (R95, R96): a node combines its own participants in increasing index and then its children's partials in
increasing node index, once all have arrived. A node with neither has an empty partial, which adds nothing. -/
def execBoomReduce (seq node : Nat) (s : State) : Out :=
  let ps := (participants s seq).filter (·.st == .reduce)
  match ps with
  | [] => .next s
  | c :: _ =>
    let r := c.route
    let d := c.dw
    let e := Dw.count d
    if node ≥ Route.nnode r ∨ s.partials.any (fun p => p.seq == seq && p.node == node) then .next s
    else
      let idx := (List.range (Route.cnt r node)).map (· + Route.first r node)
      let own := idx.map fun p => ps.find? fun c => Dw.pidx c.dw == p
      let kids := (Route.kids r node).map fun k => s.partials.find? fun p => p.seq == seq && p.node == k
      let up (s : State) : State :=
        if node = Route.root r then s.pushOnce (.boomRootResult seq) else s.pushOnce (.boomReduce seq (Route.parent r node))
      let inputs := (kids.filterMap id).filter fun p => !p.elems.isEmpty
      if kids.any (·.isNone) then .next s
      else if idx.isEmpty && inputs.isEmpty then .next (up { s with partials := s.partials ++ [⟨seq, node, []⟩] })
      else if !Route.here r node then
        .next (up { s with partials := s.partials ++ [⟨seq, node, (List.range e).map (remotePartial d s.free)⟩],
                           free := s.free + 8 * e })
      else if own.any (·.isNone) then .next s
      else
        let elem (n : Nat) : Option (Nat × Int) :=
          boomFold d (own.map (fun c => c.bind fun c => (c.input[n]?).map (boomInput d)) ++
            inputs.map fun p => (p.elems[n]?).join)
        .next (up { s with partials := s.partials ++ [⟨seq, node, (List.range e).map elem⟩] })

/-- The bits of the result of an element and whether XS_OVERFLOW holds (R95, R96). DESIGN CHOICE (log 56): XS320 has no default
NaN and no infinities beside its flags, so DFMT = XS320 stores the flags of the sum and, unless V is undefined, its V. -/
def boomResult (d : List Word) (free n : Nat) (p : Option (Nat × Int)) : Nat × Bool :=
  let w (i : Nat) : Nat := (Config.freeWord (free + 8 * n + i)).toNat
  let any := packElems 64 ((List.range 5).map w)
  let r := if Dw.rnd d = 6 then stochastic (Dw.seed d) n else 0
  match p with
  | none => (any % 2 ^ Dw.wd d, false)
  | some (fl, v) =>
    if Dw.xs d then
      let fits := decide (-(2 ^ 309 : Nat) ≤ v ∧ v < (2 ^ 309 : Nat))
      let ovf := 8 ≤ fl || !fits
      let nan := fl.testBit 2 || (fl.testBit 0 && fl.testBit 1)
      let beyond := ovf && !nan && fl % 4 == 0
      if Dw.dfmt d = xsCode then
        (if ovf then (fl ||| 8) % 16 * 2 ^ 310 + any % 2 ^ 310 else Xs.encode ⟨fl, v⟩, beyond)
      else match numFmt (Dw.dfmt d) with
        | some (.flt f) =>
          if nan then (f.defaultNan, false)
          else if fl % 4 = 1 then ((f.encode (Dw.rnd d) r (.inf false)).1, false)
          else if fl % 4 = 2 then ((f.encode (Dw.rnd d) r (.inf true)).1, false)
          else if ovf then (f.defaultNan, true)
          else ((f.encode (Dw.rnd d) r (.fin (decide (v < 0)) v.natAbs (-149))).1, false)
        | _ => (0, false)
    else
      let src : Option NumFmt := if 3 ≤ Dw.opr d ∨ Dw.sfmt d = 3 then numFmt (Dw.sfmt d) else some (.flt .fp32)
      match src, numFmt (Dw.dfmt d) with
      | some a, some b =>
        let x := if a = b then v.toNat else (convert a b (Dw.rnd d) r v.toNat).1
        (match b with | .flt f => if 3 ≤ Dw.opr d ∧ a = b then x else quietNan f x | _ => x, false)
      | _, _ => (v.toNat, false)

/-- BOOM_ROOT_RESULT (R94 to R96): the final partial is converted once and goes to every destination; each participant
completes. DESIGN CHOICE (log 56): SEED, which need not agree, is that of the participant issued first. -/
def execBoomRootResult (seq : Nat) (s : State) : Out :=
  let ps := (participants s seq).filter (·.st == .reduce)
  match ps with
  | [] => .next s
  | c :: _ =>
    match s.partials.find? fun p => p.seq == seq && p.node == Route.root c.route with
    | none => .next s
    | some p =>
      let mine := (List.range (Route.npart c.route)).filterMap fun i => ps.find? fun c => Dw.pidx c.dw == i
      let res := p.elems.zipIdx.map fun x => boomResult c.dw s.free x.2 x.1
      let beyond := res.any (·.2)
      let s := { s with partials := s.partials.filter (·.seq != seq), free := s.free + 8 * res.length }
      .next (mine.foldl (fun s c =>
        let c' := if beyond && c.status = 0 then { c with status := Status.xsOverflow } else c
        takeValues c' ((res.map (·.1)).take c'.dest.length) (mapCmd c.id (fun _ => c') s)) s)

/-! Completion (R85, R86). -/

/-- The result of a packet's command (R325): the first failing destination counts. -/
def packetResult (tenant qid start : Nat) (c : Cmd) (s : State) : State :=
  let upd (p : Started) : Started :=
    if p.start = start then
      { p with cmds := p.cmds.filter (· != c.id),
               fail := if c.status = 0 then p.fail
                 else match p.fail with
                   | some f => if (Dw.dst c.dw).toNat < f.1 then some ((Dw.dst c.dw).toNat, c.status) else some f
                   | none => some ((Dw.dst c.dw).toNat, c.status) }
    else p
  let mine (q : Queue) : Bool := q.tenant == tenant && q.qid == qid
  let s : State := { s with queues := s.queues.map fun q => if mine q then { q with started := q.started.map upd } else q }
  match (s.queues.find? mine).bind fun q => q.started.find? (·.start == start) with
  | some p => s.pushOnce (.copyPacketComplete tenant qid p.idx)
  | none => s

/-- The tag of a command that completes (R85). -/
def tagComplete (k : SlotKey) (c : Cmd) (s : State) : State :=
  wake .tagWait (mapTag (homeOf s k.cid) k.lcore (Dw.tag c.dw) (fun t =>
    let keep := Status.code c.status != 0 && !t.err
    { bit := t.bit || t.cnt ≤ 1, cnt := t.cnt - 1, err := t.err || keep, status := if keep then c.status else t.status }) s)

/-- The last step of R86: the command leaves its engine, and its tag or its packet takes the status. -/
def closeCmd (c : Cmd) (s : State) : State :=
  let s := { s with cmds := s.cmds.filter (·.id != c.id) }
  match c.issuer with
  | .slot k => coreCheck k.cid k.lcore (tagComplete k c s)
  | .packet t q p => packetResult t q p c s

/-- Resolve the future of a command (R86): the command with the status it completes with, or a wait. DESIGN CHOICE (log 56): a future
word that is uncorrectable gives UNCORRECTABLE with ELEM = E, as a FUTA that fails does. -/
def cmdFuture (c : Cmd) (s : State) : State ⊕ (Cmd × State) :=
  let flt := Status.code c.status != 0
  match engResolve c (Dw.futa c.dw) 8 .rmw .future s with
  | .error x t =>
    match engFail c (Dw.count c.dw) x t with
    | .inl t => .inl t
    | .inr st => .inr (if flt then c else { c with status := st }, t)
  | .ok keys t =>
    let k := keys.headD 0
    match busyFor t c.id keys, homeFull t (.command c.id) keys with
    | some w, _ => .inl ((waitAt (.command c.id) w t).pushOnce (.engineCommandComplete c.id))
    | none, some w => .inl ((waitAt (.command c.id) (w, false) t).pushOnce (.engineCommandComplete c.id))
    | none, none =>
      match checkedWord none k 8 (leavePlaces (.command c.id) t) with
      | (t, none) => .inr (if flt then c else { c with status := Status.make Status.uncorrectable 0 (Dw.count c.dw) }, t)
      | (t, some w) =>
        match futResolve none c.tenant k (BitVec.ofNat 64 w) c.status.toNat flt t with
        | some t => .inr (c, t)
        | none => .inr ({ c with status := Status.futureState }, t)

/-- ENGINE_COMMAND_COMPLETE (R86): the future, then the tag. -/
def execEngineCommandComplete (id : Nat) (s : State) : Out :=
  match cmdAt s id with
  | none => .next s
  | some c =>
    if c.wait.isSome || c.st != .finish then .next s
    else if Dw.fut c.dw && (Dw.futa c.dw).toNat % 8 == 0 then
      match cmdFuture c s with
      | .inl t => .next t
      | .inr (c, t) => .next (closeCmd c t)
    else .next (closeCmd c s)

end Sys2Proof.Machine
end

