-- ==== Sys2Proof/Machine/EventsIssue.lean ====
section
/-!
DEFINITION. The meanings of the issue events: SLOT_ISSUE, SLOT_TABLE_TAKE_EFFECT, LONG_LATENCY_RESULT_RETURN and
REPLICA_FORWARD_ARRIVE.
-/
namespace Sys2Proof.Machine

/-- SLOT_ISSUE (R155). -/
def execSlotIssue (core : Nat) (s : State) : Out := .next (slotIssue core s)

/-- SLOT_TABLE_TAKE_EFFECT (R157): at the wrap to entry 0, which SLOT_ISSUE also tests. -/
def execSlotTableTakeEffect (core : Nat) (s : State) : Out := .next (s.mapCore core takeTable)

/-- LONG_LATENCY_RESULT_RETURN (R158, R200): the oldest result of the slot returns. A hazard park ends once none of the
registers that it waits for is pending; a switch marker ends with the last result. -/
def execLongLatencyResultReturn (k : SlotKey) (s : State) : Out :=
  .next (s.mapSlot k fun v =>
    let v := v.popPend
    match v.st with
    | .parked .hazard => if v.pending v.awaits then v else { v with st := .ready, awaits := [] }
    | .parked .switchMarker => if v.pend.isEmpty then { v with st := .ready } else v
    | _ => v)

/-- REPLICA_FORWARD_ARRIVE (R356): a replica parked at the operation takes what the lead forwarded. -/
def execReplicaForwardArrive (k : SlotKey) (s : State) : Out :=
  match s.slotAt k with
  | some v =>
    match v.fwd.find? (·.pc == v.pc), v.st with
    | some f, .parked .forward => .next (applyForward f (s.focus k (coreOfSlot s k)))
    | _, _ => .next s
  | none => .next s

end Sys2Proof.Machine
end

