-- ==== Sys2Proof/Machine/Float.lean ====
section
/-!
DEFINITION. Scalar floating-point instructions: row 0x2 of the opcode map (R216 to R220).
-/
namespace Sys2Proof.Machine

/-- The format of W: FP32 for 2, FP64 for 3 (R216). -/
def FX.fmt (o : FX) : Fmt := if o.w = 2 then .fp32 else .fp64

/-- A floating-point operand: the low bits of its register (R216). -/
def FX.fpReg (o : FX) (r : Reg) (v : Slot) : Nat := (v.sreg r).toNat % 2 ^ (FX.fmt o).width

/-- Write a floating-point result with its flags, or take an enabled trap with D unchanged (R220). -/
def fpFinish (d : Reg) (x : Word) (fl : Nat) (s : State) : Out :=
  let s' := s.mapMe fun v => v.raise fl
  match fpCause s.me.frm fl with
  | some c => .next (deliver (fpTrap c fl 0) s')
  | none => .next (s'.mapMe fun v => (v.putS d x).advance)

/-- A floating-point instruction with result and flags `f` (R216, R220). -/
def fpOp (o : FX) (f : Slot → Nat × Nat) (s : State) : Out :=
  if scalarActive o.toHdr s.me then fpFinish o.d (BitVec.ofNat 64 (f s.me).1) (f s.me).2 s
  else .next (s.mapMe Slot.advance)

/-- FADD (R145, R216). -/
def execFadd (o : FX) (s : State) : Out :=
  fpOp o (fun v => fAdd (FX.fmt o) (rmMode v o.rm) (FX.fpReg o o.a v) (FX.fpReg o o.b v)) s

/-- FSUB (R145, R216). -/
def execFsub (o : FX) (s : State) : Out :=
  fpOp o (fun v => fSub (FX.fmt o) (rmMode v o.rm) (FX.fpReg o o.a v) (FX.fpReg o o.b v)) s

/-- FMUL (R145, R216). -/
def execFmul (o : FX) (s : State) : Out :=
  fpOp o (fun v => fMul (FX.fmt o) (rmMode v o.rm) (FX.fpReg o o.a v) (FX.fpReg o o.b v)) s

/-- FMA (R145, R216). -/
def execFma (o : FX) (s : State) : Out :=
  fpOp o (fun v => fMa (FX.fmt o) (rmMode v o.rm) (FX.fpReg o o.a v) (FX.fpReg o o.b v) (FX.fpReg o o.c v)) s

/-- FDIV (R145, R216). -/
def execFdiv (o : FX) (s : State) : Out :=
  fpOp o (fun v => fDiv (FX.fmt o) (rmMode v o.rm) (FX.fpReg o o.a v) (FX.fpReg o o.b v)) s

/-- FSQRT (R145, R216). -/
def execFsqrt (o : FX) (s : State) : Out :=
  fpOp o (fun v => fSqrt (FX.fmt o) (rmMode v o.rm) (FX.fpReg o o.a v)) s

/-- FMIN (R146, R216). -/
def execFmin (o : FX) (s : State) : Out :=
  fpOp o (fun v => fMinMax (FX.fmt o) false (FX.fpReg o o.a v) (FX.fpReg o o.b v)) s

/-- FMAX (R146, R216). -/
def execFmax (o : FX) (s : State) : Out :=
  fpOp o (fun v => fMinMax (FX.fmt o) true (FX.fpReg o o.a v) (FX.fpReg o o.b v)) s

/-- FCMP (R217). -/
def execFcmp (o : FX) (s : State) : Out :=
  fpOp o (fun v =>
    let r := fCmp (FX.fmt o) o.sub.toNat (FX.fpReg o o.a v) (FX.fpReg o o.b v)
    (if r.1 then 1 else 0, r.2)) s

/-- FCVT (R219): an INT32 result is sign-extended, every other one zero-extended. -/
def execFcvt (o : FX) (s : State) : Out :=
  fpOp o (fun v =>
    let dst := cvtFmt o.fc.toNat
    let r := convert (cvtFmt o.sub.toNat) dst (rmMode v o.rm) ((v.sreg o.c).toNat % 2 ^ 32) ((v.sreg o.a).toNat)
    (if o.fc = 2 then Bits.wrap 64 (Bits.sv 32 r.1) else r.1, r.2)) s

/-- FCLASS (R218). -/
def execFclass (o : FX) (s : State) : Out := fpOp o (fun v => (fClass (FX.fmt o) (FX.fpReg o o.a v), 0)) s

/-- FSGN (R218). -/
def execFsgn (o : FX) (s : State) : Out :=
  fpOp o (fun v => (fSgn (FX.fmt o) o.sub.toNat (FX.fpReg o o.a v) (FX.fpReg o o.b v), 0)) s

end Sys2Proof.Machine
end

