-- ==== Sys2Proof/Machine/ScalarMem.lean ====
section
/-!
DEFINITION. Scalar loads, stores, fences and prefetch, full/empty operations and atomics: rows 0x4 and 0x5 of the opcode
map (R225 to R230), and the grant of a reservation (R114).
-/
namespace Sys2Proof.Machine

/-- The bytes of an access of width W. -/
def FM.bytes (o : FM) : Nat := 2 ^ o.w.toNat

/-- The value that LD writes: sign- or zero-extended (R225). -/
def loadValue (sx : Bool) (n x : Nat) : Word := if sx then Bits.word (Bits.sv (8 * n) x) else BitVec.ofNat 64 x

/-- The body of LD (R225, R226). -/
def ldBody (o : FM) : M Unit := do
  orderPointIf o.ord
  let ea := FM.ea o (← get).me
  let n := FM.bytes o
  if o.ord != .plain && isMisaligned ea n then misaligned ea .load else pure ()
  let x ← if o.ord = .plain then loadPlain ea n else loadBytes ea n
  modify fun s => longLatency (fieldRegs 1 o.d) o.set (s.mapMe fun v => v.putS o.d (loadValue o.sx n x))
  retire

/-- LD. -/
def execLd (o : FM) (s : State) : Out :=
  if scalarActive o.toHdr s.me then run (ldBody o) s else .next (s.mapMe Slot.advance)

/-- The body of ST (R225, R226). -/
def stBody (o : FM) : M Unit := do
  orderPointIf o.ord
  let ea := FM.ea o (← get).me
  let n := FM.bytes o
  if o.ord != .plain && isMisaligned ea n then misaligned ea .store else pure ()
  let x := ((← get).me.sreg o.c).toNat
  if o.ord = .plain then storePlain ea n x else storeBytes ea n x
  retire

/-- ST. -/
def execSt (o : FM) (s : State) : Out :=
  if scalarActive o.toHdr s.me then run (stBody o) s else .next (s.mapMe Slot.advance)

/-- The slot's late stores come before its later writes (R111). -/
def fenceLate (s : State) : State :=
  { s with late := s.late.map fun l => if l.key = s.cur then { l with fenced := true } else l }

/-- FENCE (R111, R227): an ordering point. One that acquires sees every write performed, one that releases keeps the slot's late
stores before its later writes, and one that does both performs them (log 4). -/
def execFence (o : FM) (s : State) : Out :=
  run (do
    orderPointOf (if o.ord = .release then .plain else o.ord)
    if o.ord = .release then modify fenceLate else pure ()
    retire) s

/-- The lines of an access are asked for in the L1 data cache, or in the grove cache only (R228). -/
def prefetch (gc : Bool) (va : Word) (a : Acc) (s : State) : State :=
  let s := a.dev.eraseDups.foldl (fun s l => (if gc then dirPrefetch else dirLoad) s.core s.cur.cid l s) s
  (peerLines s va a).foldl (fun s l => fillPeerLine s.core s.cur.cid l.1 l.2 (!gc) s) s

/-- PREF (R228): dropped when its translation fails; an address outside device memory and cacheable peer pages names no line. Its
translation leaves no trace, since it changes no architectural state. -/
def execPref (o : FM) (s : State) : Out :=
  let ea := FM.ea o s.me
  .next ((match scalarActive o.toHdr s.me, (resolve s (slotReq s) ea 1 .load .load).2 with
    | true, .ok a => prefetch (o.fx.getLsbD 0) ea a s
    | _, _ => s).mapMe Slot.advance)

/-- The body of a full/empty operation (R229). -/
def feBody (o : FM) (op : Nat) : M Unit := do
  orderPointOf o.ord
  let v := (← get).me
  let ea := FM.ea o v
  if isMisaligned ea 8 then misaligned ea (feKind op) else pure ()
  let a ← resolveM ea 8 (feKind op) .fullEmpty
  notBusy a.keys
  feOp ea op ((a.keys.head?).getD 0) (v.sreg o.c) o.d o.set
  noteLeaf a

/-- LDFE (R229). -/
def execLdfe (o : FM) (s : State) : Out := run (feBody o 0) s
/-- LDFF (R229). -/
def execLdff (o : FM) (s : State) : Out := run (feBody o 1) s
/-- STEF (R229). -/
def execStef (o : FM) (s : State) : Out := run (feBody o 2) s
/-- STFF (R229). -/
def execStff (o : FM) (s : State) : Out := run (feBody o 3) s
/-- FEQ: FN[4:3] leaves the bit, sets it full or sets it empty (R229). -/
def execFeq (o : FM) (s : State) : Out := run (feBody o (4 + (o.fx.extractLsb' 0 2).toNat)) s

/-- The body of AMO and CAS (R230). -/
def amoBody (o : FM) (ea : Word) (f : AmoFun) (cls : OpClass) : M Unit := do
  orderPointOf o.ord
  if isMisaligned ea f.bytes then misaligned ea .rmw else pure ()
  let a ← resolveM ea f.bytes .rmw cls
  amoScalar ea ((a.keys.head?).getD 0) f o.d o.set
  noteLeaf a

/-- AMO (R230). -/
def execAmo (o : FM) (s : State) : Out :=
  run (amoBody o (FM.ea o s.me) ⟨o.w == 3, o.aop.toNat, false, 0, (s.me.sreg o.c).toNat⟩ (amoClass o.aop.toNat)) s

/-- CAS: the address is A + sext(IMM, 64) (R230). -/
def execCas (o : FM) (s : State) : Out :=
  run (amoBody o (s.me.sreg o.a + sextImm o.imm)
    ⟨o.w == 3, 0, true, (s.me.sreg o.b).toNat, (s.me.sreg o.c).toNat⟩ .cas) s

/-- A party at the head of a queue may go on. -/
def wakeWaiter (w : Waiter) (s : State) : State :=
  match w with
  | .slot k => s.mapSlot k fun v => if v.st = .parked .atomic then { v with st := .ready } else v
  | .command _ => s
  | .event e => s.pushOnce e

/-- ATOMIC_RESERVATION_GRANT (R114): the head of the word's queue applies its operation and returns the word, which goes to the
next request. Nothing happens while a command owns the line; its end grants again. An atomic that meets an uncorrectable word
rejoins the queue at its tail, and takes MACHINE_CHECK the second time (R343). -/
def execAtomicReservationGrant (word : Nat) (s : State) : Out :=
  match wordQueue s word with
  | [] => .next s
  | q :: _ =>
    match (lineOwner s word).isSome, q.access, q.who with
    | false, false, .slot k =>
      let core := (coreOfSlot s k, k.cid)
      let d : Reg := .s (Fin.ofNat 64 q.dest)
      match amoApply (some core) q.addr q.fun s with
      | (s, some (m, fl)) =>
        .next (completeSlot k (fieldRegs 1 d) (fun v => (v.raise fl).putS d (amoResult q.w8 m)) (leaveAtoms (· == q) s))
      | (s, none) =>
        if q.again then .next (checkSlot (some core.1) k (Key.word q.addr) q.va (leaveAtoms (· == q) s))
        else .next (joinAtom { q with again := true } (leaveAtoms (· == q) s))
    | false, _, w => .next (wakeWaiter w s)
    | true, _, _ => .next s

end Sys2Proof.Machine
end

