-- ==== Sys2Proof/Machine/Sync.lean ====
section
/-!
DEFINITION. Tag waits (R298, R299) and barriers (R165, R300).
-/
namespace Sys2Proof.Machine

/-! Tag waits (R298, R299). -/

/-- The tags of the executing slot's context and core. -/
def myTag (s : State) (t : Nat) : Tag := tagOf (s.ctxOf (homeOf s s.cur.cid)) s.cur.lcore t

/-- The mask of the tags in `T` that meet a condition. -/
def tagMask (s : State) (T : Word) (p : Tag → Bool) : Nat :=
  packElems 1 ((List.range 64).map fun t => if T.getLsbD t && p (myTag s t) then 1 else 0)

/-- A tag wait: it parks while its condition fails, and acquires when it holds (R118, R298). -/
def tagWait (o : FS) (holds : State → Word → Bool) (result : State → Word → Word) : M Unit := do
  orderPoint
  let s ← get
  let T := s.me.sreg o.a
  if holds s T then do
    set (s.mapMe fun v => v.putS o.d (result s T))
    retire
  else wait .tagWait

/-- Some tag of `T` is set, or `T` is 0. -/
def anyTag (s : State) (T : Word) : Bool := T == 0 || tagMask s T (·.bit) != 0
/-- Every tag of `T` is set. -/
def allTags (s : State) (T : Word) : Bool := tagMask s T (·.bit) == T.toNat

/-- TWANY (R298). -/
def execTwany (o : FS) (s : State) : Out := run (tagWait o anyTag fun s T => BitVec.ofNat 64 (tagMask s T (·.bit))) s

/-- TWALL (R298). -/
def execTwall (o : FS) (s : State) : Out := run (tagWait o allTags fun s T => BitVec.ofNat 64 (tagMask s T (·.err))) s

/-- The result of TFIRST (R298). -/
def firstTag (s : State) (T : Word) : Word :=
  match (List.range 64).find? fun t => T.getLsbD t && (myTag s t).bit with
  | some t =>
    let x := myTag s t
    BitVec.ofNat 64 (x.status.toNat * 2 ^ 32 + (if x.err then 256 else 0) + t)
  | none => BitVec.allOnes 64

/-- TFIRST (R298). -/
def execTfirst (o : FS) (s : State) : Out := run (tagWait o anyTag firstTag) s

/-- TCLR (R299). The tags of a replica group are one set, which its lead clears for it (log 32). -/
def execTclr (o : FS) (s : State) : Out :=
  let T : Word := if follower s then 0 else s.me.sreg o.a
  let s' := (List.range 64).foldl (fun s t =>
    if T.getLsbD t then mapTag (homeOf s s.cur.cid) s.cur.lcore t (fun x => { x with err := false, status := 0 }) s else s) s
  .next (s'.mapMe Slot.advance)

/-! Barriers (R165, R300). -/

/-- The instance of level `l` that a slot belongs to: its indices of levels 0 to `l` (R163, R164). -/
def instanceOf (v : Slot) (l : Nat) : List Nat := (v.lvl.take (l + 1)).map (·.1)

/-- The slots of a context that belong to an instance. -/
def instanceSlots (s : State) (cid level : Nat) (inst : List Nat) : List SlotKey :=
  (s.allSlots.filter fun e => e.1.cid == cid && e.2.st != .absent && instanceOf e.2 level == inst).map (·.1)

/-- The barrier of an instance. -/
def barrierOf (c : Ctx) (level : Nat) (inst : List Nat) : Barrier :=
  (c.bars.find? fun b => b.level == level && b.inst == inst).getD ⟨level, inst, [], 0⟩

/-- Replace the barrier of an instance. -/
def putBarrier (cid : Nat) (b : Barrier) (s : State) : State :=
  s.mapCtx cid fun c => { c with bars := c.bars.filter (fun x => !(x.level == b.level && x.inst == b.inst)) ++ [b] }

/-- Whether every slot of an instance has arrived or ended (R165). -/
def barrierFull (s : State) (cid : Nat) (b : Barrier) : Bool :=
  (instanceSlots s cid b.level b.inst).all fun k =>
    b.arrived.contains k || (match s.slotAt (leadKey s k) with | some v => v.st == .ended | none => true)

/-- Barriers that an ended slot may have completed. -/
def barrierCheck (cid : Nat) (s : State) : State :=
  (s.ctxOf cid).bars.foldl (fun s b =>
    if b.arrived.isEmpty || !barrierFull s cid b then s else s.pushOnce (.barrierComplete cid b.level b.inst)) s

/-- BAR (R300): the slot arrives and parks; an arrival that a stop kept is not repeated. -/
def execBar (o : FS) (s : State) : Out :=
  run (do
    let n := Nat.max 1 s.ctx.nlvl
    let rel := o.imm.getLsbD 3
    let named := Bits.field o.imm 0 3
    let l := if rel then n - 2 else named
    if (rel && named != 0) || l ≥ n then illegal (.bar o) else pure ()
    orderPoint
    let s ← get
    let home := homeOf s s.cur.cid
    let b := barrierOf (s.ctxOf home) l (instanceOf s.me l)
    let k : SlotKey := ⟨home, s.cur.lcore, s.cur.slot⟩
    let b := if b.arrived.contains k then b else { b with arrived := b.arrived ++ [k] }
    modify fun s =>
      let s := (putBarrier home b s).mapMe fun v => { v with st := .parked .barrier }
      barrierCheck home s) s

/-- BARRIER_COMPLETE (R165): every slot of the instance goes on; one that is stopped resumes after its BAR. -/
def execBarrierComplete (cid level : Nat) (inst : List Nat) (s : State) : Out :=
  let b := barrierOf (s.ctxOf cid) level inst
  if b.arrived.isEmpty || !barrierFull s cid b then .next s
  else
    let s := putBarrier cid { b with arrived := [], gen := b.gen + 1 } s
    .next (b.arrived.foldl (fun s k => completeSlot (leadKey s k) [] id s) s)

end Sys2Proof.Machine
end

