-- ==== Sys2Proof/Machine/Messages.lean ====
section
/-!
DEFINITION. Messages between the slots of a context (R173 to R176, R307, R308, R349).
-/
namespace Sys2Proof.Machine

/-- The sizes of an inbox and a mailbox (R174, R175). -/
def inboxSize : Nat := 8
def mailboxSize : Nat := 256

/-- The colour bit of a context on a core (R176). -/
def colourOf (s : State) (core cid : Nat) : Bool :=
  let c := s.coreOf core
  match (List.range 4).find? fun i => c.res[i % 4]'(Nat.mod_lt _ (by decide)) == some cid with
  | some i => c.colour[i % 4]'(Nat.mod_lt _ (by decide))
  | none => false

/-- One more at a key. -/
def countUp (t : Tab Nat) (k : Nat) : Tab Nat := Tab.set t k (Tab.getD t k 0 + 1)

/-- A message enters the target's inbox, or its core's mailbox when the core no longer hosts the context, has stopped it,
or still has the former colour (R174, R175, R349): none when that is full, or older messages of the mailbox come first. -/
def deliverMsg (k : SlotKey) (m : Msg) (s : State) : Option State :=
  let c := s.ctxOf k.cid
  let core := coreOfSlot s k
  let newColour := c.st == .running && colourOf s core k.cid != m.colour
  let older := ((Tab.get c.mail k.lcore).getD []).any (·.1 == k.slot)
  let counted (s : State) : State := s.mapCtx k.cid fun c =>
    { c with sentOld := countUp c.sentOld m.core, recvOld := countUp c.recvOld k.lcore }
  if c.st == .running && !newColour then
    match s.slotAt k with
    | none => none
    | some v =>
      if v.inbox.length < inboxSize && !older then
        let s := s.mapSlot k fun v =>
          { v with inbox := v.inbox ++ [m], st := if v.st = .parked .recv then .ready else v.st }
        some (counted s)
      else none
  else
    let box := (Tab.get c.mail k.lcore).getD []
    if box.length < mailboxSize then
      let s := s.mapCtx k.cid fun c => { c with mail := Tab.set c.mail k.lcore (box ++ [(k.slot, m)]) }
      some (if newColour then s.pushOnce (.preemptStop k.cid) else counted s)
    else none

/-- Waiting senders of a target enter in order of arrival while there is room (R174). -/
def admitList (k : SlotKey) : List (SlotKey × SlotKey × Msg) → State → State
  | [], s => s
  | w :: t, s =>
    if w.2.1 = k then
      match deliverMsg k w.2.2 s with
      | some s' =>
        let i := (s'.slotAt w.1).bind (·.rpend)
        let regs := match i with | some (.msend o) => fieldRegs 1 o.d | _ => []
        admitList k t (completeSlot w.1 regs (fun v =>
          { (match i with | some (.msend o) => v.putS o.d 0 | _ => v) with rpend := none })
          { s' with senders := s'.senders.erase w })
      | none => s
    else admitList k t s

/-- Messages of the mailbox enter the inbox of their slot, oldest first, while it has room (R175). -/
def drainMail (k : SlotKey) (s : State) : State :=
  match s.slotAt k with
  | none => s
  | some v =>
    let box := (Tab.get (s.ctxOf k.cid).mail k.lcore).getD []
    let mine := (box.filter (·.1 == k.slot)).take (inboxSize - v.inbox.length)
    if mine.isEmpty then s
    else
      (s.mapSlot k fun v =>
        { v with inbox := v.inbox ++ mine.map (·.2), st := if v.st = .parked .recv then .ready else v.st }).mapCtx k.cid
        fun c => { c with mail := Tab.set c.mail k.lcore (mine.foldl (fun b m => b.erase m) box) }

/-- Admit what waits for room in the inbox of a slot: its mailbox first, then the senders (R174, R175). -/
def admitSenders (k : SlotKey) (s : State) : State := admitList k s.senders (drainMail k s)

/-- Whether a context has a logical core and slot (R153, R173). -/
def hasSlot (c : Ctx) (lcore slot : Nat) : Bool := slot < Part.slots c.part && c.shares.any (·.lcore == lcore)

/-- MSEND (R307): a full inbox or mailbox parks the sender, which is served in order of arrival. -/
def execMsend (o : FS) (s : State) : Out :=
  run (do
    let t := s.me.sreg o.a
    let lcore := Bits.field t 0 32
    let slot := Bits.field t 32 4
    if Bits.field t 36 28 ≠ 0 ∨ !hasSlot s.ctx lcore slot then do
      modify fun s => s.mapMe fun v => v.putS o.d 1
      retire
    else do
      orderPoint
      let s ← get
      let k := leadKey s ⟨s.cur.cid, lcore, slot⟩
      let m : Msg := ⟨s.me.sreg o.b, o.imm.extractLsb' 0 16, s.cur.lcore, s.cur.slot, colourOf s s.core s.cur.cid⟩
      match (if s.senders.any (·.2.1 = k) then none else deliverMsg k m s) with
      | some s' => do
        set (s'.mapMe fun v => v.putS o.d 0)
        retire
      | none => modify fun s =>
          { s.mapMe (fun v => { v with st := .parked .send, rpend := some (.msend o) }) with
            senders := s.senders ++ [(s.cur, k, m)] }) s

/-- Take the oldest message into sD and s(D + 1) (R308). -/
def takeMsg (d : Reg) (m : Msg) (s : State) : State :=
  let x : Word := BitVec.ofNat 64 (m.core * 2 ^ 32 + 2 ^ 31 + m.slot * 2 ^ 16 + m.tag.toNat)
  admitSenders s.cur (s.mapMe fun v =>
    let v := { v with inbox := v.inbox.drop 1 }
    match d with
    | .s i => (v.setS i m.payload).setS (Fin.ofNat 64 (i.val + 1)) x
    | _ => v)

/-- The D of MRECV and MPOLL (R308). -/
def recvDest : Reg → Bool | .s i => 1 ≤ i.val && i.val ≤ 62 | _ => false

/-- MRECV (R308). -/
def execMrecv (o : FS) (s : State) : Out :=
  run (do
    if recvDest o.d then pure () else illegal (.mrecv o)
    match s.me.inbox with
    | m :: _ => do
      orderPoint
      modify (takeMsg o.d m)
      retire
    | [] => wait .recv) s

/-- MPOLL (R308). -/
def execMpoll (o : FS) (s : State) : Out :=
  run (do
    if recvDest o.d then pure () else illegal (.mpoll o)
    match s.me.inbox with
    | m :: _ => do
      orderPoint
      modify (takeMsg o.d m)
    | [] => modify fun s => s.mapMe fun v =>
        match o.d with
        | .s i => (v.setS i 0).setS (Fin.ofNat 64 (i.val + 1)) 0
        | _ => v
    retire) s

/-- COLOUR_CUT_SUM (R349): the root sums what each core has counted of old-colour messages; it repeats the sums until they match,
and the cut then closes. -/
def execColourCutSum (cid : Nat) (s : State) : Out :=
  let c := s.ctxOf cid
  let sum (t : Tab Nat) : Nat := (t.map (·.2)).sum
  if sum c.sentOld = sum c.recvOld then .next (s.report (.cut cid true))
  else .next ((s.report (.cut cid false)).push (.colourCutSum cid))

end Sys2Proof.Machine
end

