-- ==== Sys2Proof/Machine/Tasks.lean ====
section
/-!
DEFINITION. Tasks, futures, tiles and retirement (R166 to R172, R182 to R188, R301 to R306), with the fields of the launch
record (R178).
-/
namespace Sys2Proof.Machine

/-! The launch record (R178). -/
namespace Rec
/-- The doubleword at an offset. -/
def at' (r : List Word) (off : Nat) : Word := Dw.w r (off / 8)
def nlvl (r : List Word) : Nat := Bits.field (at' r 0) 52 4
def ndim (r : List Word) : Nat := Bits.field (at' r 0) 48 4
def cpg (r : List Word) : Nat := Bits.field (at' r 0) 40 8
def entry (r : List Word) : Word := at' r 0x08
def codeb (r : List Word) : Word := at' r 0x10
def codel (r : List Word) : Word := at' r 0x18
def arg (r : List Word) : Word := at' r 0x20
def compl (r : List Word) : Word := at' r 0x28
def part (r : List Word) : Word := at' r 0x30
def compat (r : List Word) : Word := at' r 0x38
/-- The descriptor of level L (R180). -/
def lvld (r : List Word) (l : Nat) : Nat := Bits.field (at' r (0x40 + 8 * (l / 2))) (32 * (l % 2)) 32
def bind (r : List Word) (l : Nat) : Nat := lvld r l / 2 ^ 29 % 8
def scope (r : List Word) (l : Nat) : Nat := lvld r l / 2 ^ 26 % 8
def xt (r : List Word) (l : Nat) : Nat := lvld r l % 2 ^ 24 + 1
def extn (r : List Word) (d : Nat) : Nat := Bits.field (at' r (0x60 + 8 * d)) 32 32
def tsz (r : List Word) (d : Nat) : Nat := Bits.field (at' r (0x60 + 8 * d)) 16 16
def order (r : List Word) : Word := at' r 0x90
def mdb (r : List Word) : Nat := Bits.field (order r) 28 3
def mda (r : List Word) : Nat := Bits.field (order r) 25 3
def mort (r : List Word) : Bool := (order r).getLsbD 24
def serp (r : List Word) (d : Nat) : Bool := (order r).getLsbD (18 + d)
def perm (r : List Word) (p : Nat) : Nat := Bits.field (order r) (3 * p) 3
def ftab (r : List Word) : Bool := (at' r 0x98).getLsbD 44
def fdim (r : List Word) : Nat := Bits.field (at' r 0x98) 41 3
def ftbl (r : List Word) : Word := at' r 0xC0
def mode (r : List Word) : Nat := Bits.field (at' r 0xC8) 62 2
def plc (r : List Word) : Bool := (at' r 0xC8).getLsbD 61
def pimg (r : List Word) : Word := at' r 0xD0
def pspl (r : List Word) : Word := at' r 0xD8
def ppc (r : List Word) : Word := at' r 0xE0
def vspl (r : List Word) (i : Nat) : Bool := (at' r 0xE8).getLsbD (32 + i)
def mspl (r : List Word) (j : Nat) : Bool := (at' r 0xE8).getLsbD (24 + j)
def vlsp (r : List Word) : Bool := (at' r 0xE8).getLsbD 23
/-- The format context of the record (R181). -/
def fmt (r : List Word) : FmtCtx :=
  fmtOfWord { FmtCtx.reset with scla := at' r 0xA0, sclb := at' r 0xA8, cbka := at' r 0xB0, cbkb := at' r 0xB8 } (at' r 0x98)
/-- n_d: the tiles of dimension d (R184). -/
def tilesOf (r : List Word) (d : Nat) : Nat := Bits.cdiv (extn r d) (tsz r d)
/-- T: the tiles of the launch (R184). -/
def total (r : List Word) : Nat := (List.range (ndim r)).foldl (fun t d => t * tilesOf r d) 1
end Rec

/-- `morton` of R184: the pair with the m-th lowest interleaved key in the block of side 2^i at (a, b). -/
def mortonPair (na nb : Nat) : Nat → Nat → Nat → Nat → Nat × Nat
  | 0, a, b, _ => (a, b)
  | i + 1, a, b, m =>
    let size (x y : Nat) : Nat := Nat.min (na - x) (2 ^ i) * Nat.min (nb - y) (2 ^ i)
    let q0 := size a b
    let q1 := size (a + 2 ^ i) b
    let q2 := size a (b + 2 ^ i)
    if m < q0 then mortonPair na nb i a b m
    else if m < q0 + q1 then mortonPair na nb i (a + 2 ^ i) b (m - q0)
    else if m < q0 + q1 + q2 then mortonPair na nb i a (b + 2 ^ i) (m - q0 - q1)
    else mortonPair na nb i (a + 2 ^ i) (b + 2 ^ i) (m - q0 - q1 - q2)

/-- The tile indices g by dimension, over the positions left (R184). -/
def tileIndices (r : List Word) : List Nat → Nat → List (Nat × Nat)
  | [], _ => []
  | p :: ps, q =>
    let d := Rec.perm r p
    if Rec.mort r && d == Rec.mdb r then tileIndices r ps q
    else if Rec.mort r && d == Rec.mda r then
      let na := Rec.tilesOf r (Rec.mda r)
      let nb := Rec.tilesOf r (Rec.mdb r)
      let g := mortonPair na nb 33 0 0 (q % (na * nb))
      (Rec.mda r, g.1) :: (Rec.mdb r, g.2) :: tileIndices r ps (q / (na * nb))
    else
      let n := Rec.tilesOf r d
      let q' := q / n
      let g := if Rec.serp r d && q' % 2 == 1 then n - 1 - q % n else q % n
      (d, g) :: tileIndices r ps q'

/-- g of dimension d for tile t. -/
def tileIndex (r : List Word) (t d : Nat) : Nat := (Assoc.get (tileIndices r (List.range (Rec.ndim r)) t) d).getD 0

/-- tc of dimension d for tile t (R184); 0 beyond NDIM. -/
def tileCoord (r : List Word) (t d : Nat) : Word :=
  if d < Rec.ndim r then BitVec.ofNat 64 (tileIndex r t d * Rec.tsz r d) else 0

/-! Cruisers (R185 to R188). -/

/-- The launch record of the executing slot's launch. -/
def recordOf (s : State) : List Word := match Tab.get s.launches s.ctx.lid with | some l => l.recd | none => []

/-- The share of the executing slot's logical core in the context that holds what its launch shares: placement fixes the groves of
its tasks and cruisers (R185). -/
def homeShare (s : State) : Share := (s.shareAt (homeOf s s.cur.cid) s.cur.lcore).getD s.share

/-- The number of the executing slot's own cruiser (R185). -/
def ownCruiser (s : State) : Nat :=
  let c := s.ctxOf (homeOf s s.cur.cid)
  let sh := homeShare s
  sh.lgrove * c.cpg + sh.pos % Nat.max 1 c.cpg

/-- Change a cruiser of a context. -/
def mapCruiser (cid crid : Nat) (f : Cruiser → Cruiser) (s : State) : State :=
  s.mapCtx cid fun c => { c with cruisers := c.cruisers.map fun x => if x.crid = crid then f x else x }

/-- The remaining tiles of a cruiser. -/
def Cruiser.left (c : Cruiser) : Nat := c.limit - c.next

/-- The victim of RIVE among some cruisers: the largest remainder of at least 2, ties to the lowest CRID (R188). -/
def bestVictim : List Cruiser → Option Cruiser
  | [] => none
  | c :: t =>
    match bestVictim t with
    | some b => if 2 ≤ c.left ∧ b.left ≤ c.left then some c else some b
    | none => if 2 ≤ c.left then some c else none

/-- The logical die of a logical grove of a context. -/
def dieOfGrove (c : Ctx) (lg : Nat) : Nat := ((c.shares.find? (·.lgrove == lg)).map (·.ldie)).getD 0

/-- The victim of a RIVE for cruiser `own`, by class: the grove, the die, the module (R188). -/
def riveVictim (c : Ctx) (own : Nat) : Option Cruiser :=
  let cpg := Nat.max 1 c.cpg
  let others := c.cruisers.filter (·.crid != own)
  let g := own / cpg
  match bestVictim (others.filter fun x => x.crid / cpg == g) with
  | some v => some v
  | none =>
    match bestVictim (others.filter fun x => dieOfGrove c (x.crid / cpg) == dieOfGrove c g) with
    | some v => some v
    | none => bestVictim others

/-- The image of a cruiser (R186). -/
def cruiserImage (c : Cruiser) : Nat :=
  packElems 64 [c.base, c.next, c.limit, c.crid * 2 ^ 40 + c.gen.toNat * 2 ^ 8, c.donec, 0, 0, 0]

/-- The device address of a context's save area, which begins with its cruiser area (R56, R186); it leaves room for the largest image
(log 57). -/
def Ctx.saveBase (c : Ctx) : Nat := c.area.toNat % (Config.deviceBytes - 2 ^ 32) / 128 * 128

/-- Write the image of a cruiser into the cruiser area of its context (R186). -/
def putCruiserImage (cid : Nat) (c : Cruiser) (s : State) : State :=
  let a := (s.ctxOf cid).saveBase + 64 * c.crid
  performWrite (valueCells a 64 (cruiserImage c)) (dirRecall (Key.line a) s)

/-- A victim step on a cruiser whose context is swapped out rewrites its image (R189). -/
def victimImage (cid crid : Nat) (s : State) : State :=
  let c := s.ctxOf cid
  match (if c.st = .swapped then c.cruisers.find? (·.crid == crid) else none) with
  | some x => putCruiserImage cid x s
  | none => s

/-- RIVE (R188, R305). -/
def execRive (o : FS) (s : State) : Out :=
  let home := homeOf s s.cur.cid
  let own := ownCruiser s
  let c := s.ctxOf home
  let finish (d : Nat) (s : State) : Out := .next (s.mapMe fun v => (v.putS o.d (BitVec.ofNat 64 d)).advance)
  if (match c.cruisers.find? (·.crid == own) with | some x => decide (x.next < x.limit) | none => false) then finish 1 s
  else match riveVictim c own with
    | none => finish 2 s
    | some v =>
      let mid := v.next + Bits.cdiv v.left 2
      finish 0 (mapCruiser home own (fun x => { x with base := mid, next := mid, limit := v.limit, gen := x.gen + 1 })
        (victimImage home v.crid (mapCruiser home v.crid (fun x => { x with limit := mid, gen := x.gen + 1 }) s)))

/-! NEXTT (R168, R187, R304). -/

/-- A read of a cruiser: through the grove's L2 TLB, and past the core's caches and the slot's release buffer (R76, R182). -/
def cruiserRead (va : Word) (n : Nat) : M Nat := do
  let s ← get
  let r := resolve s { slotReq s with ownTlb := false } va n .load .load
  set r.1
  match r.2 with
  | .error f => trap (f.trap .load 0)
  | .ok a => do
    notBusy a.keys
    readChecked none va a.keys fun s k => s.mem.byte k

/-- The format context of a tile (R182). -/
def tileFmt (r : List Word) (t : Nat) : M FmtCtx := do
  if Rec.ftab r then do
    let a := Rec.ftbl r + BitVec.ofNat 64 (64 * tileIndex r t (Rec.fdim r))
    let x ← cruiserRead a 64
    let dw (i : Nat) : Word := BitVec.ofNat 64 (x / 2 ^ (64 * i))
    let old := (← get).me.fmt
    loadFmt (fmtOfWord { old with scla := dw 2, sclb := dw 3, cbka := dw 4, cbkb := dw 5 } (dw 7))
  else
    let old := (← get).me.fmt
    loadFmt { Rec.fmt r with tabA := old.tabA, tabB := old.tabB }

/-- NEXTT (R304): HELD, a task in preference to a tile, a tile of the own cruiser, or NONE. -/
def execNextt (o : FS) (s : State) : Out :=
  run (do
    let home := homeOf s s.cur.cid
    if s.me.work ≠ .none then do
      modify fun s => s.mapMe fun v => (v.putS o.d 3).advance
    else match takeTask home (homeShare s).lgrove s with
      | some (p, _) => do
        orderPoint
        let old := (← get).me.fmt
        let f ← loadFmt { old with fa := p.fa, fb := p.fb, fo := p.fo, spa := p.spa, scla := p.scla, sclb := p.sclb,
                                   cbka := p.cbka, cbkb := p.cbkb }
        match takeTask home (homeShare (← get)).lgrove (← get) with
        | some (_, t) => set t
        | none => pure ()
        modify fun s => s.mapMe fun v =>
          let v := v.putS o.d 1
          let v := (v.setS 1 (v.pc + 16)).setS 3 p.arg
          let v := (v.setS 4 (p.usr.setWidth 64)).setS 5 (if p.flt then 1 else 0)
          { v with saved := old, fmt := f, work := .task p, pc := p.entry }
      | none =>
        let own := ownCruiser s
        match (s.ctxOf home).cruisers.find? (·.crid == own) with
        | none => modify fun s => s.mapMe fun v => (v.putS o.d 2).advance
        | some x =>
          if x.next ≥ x.limit then modify fun s => s.mapMe fun v => (v.putS o.d 2).advance
          else do
            let r := recordOf s
            let t := x.next
            let f ← tileFmt r t
            modify fun s => (mapCruiser home own (fun x => { x with next := x.next + 1 }) s).mapMe fun v =>
              { (v.putS o.d 0) with
                saved := v.fmt, fmt := f, work := .tile own t, tid := BitVec.ofNat 64 t,
                tc := #v[tileCoord r t 0, tileCoord r t 1, tileCoord r t 2, tileCoord r t 3, tileCoord r t 4, tileCoord r t 5] }
            retire) s

/-! Task and future instructions (R301 to R303). -/

/-- Read the 64-byte packet at an aligned address as plain loads. -/
def readPacket (a : Word) : M Nat := loadBytes a 64

/-- TSPAWN (R301). -/
def execTspawn (o : FS) (s : State) : Out :=
  run (do
    let a := s.me.sreg o.a
    if isMisaligned a 64 then misaligned a .load else pure ()
    let x ← readPacket a
    let s ← get
    let home := homeOf s s.cur.cid
    let named := o.sub.getLsbD 0
    let lg := if named then (s.me.sreg o.b).toNat else (homeShare s).lgrove
    let finish (d : Word) : M Unit := do
      modify fun s => s.mapMe fun v => v.putS o.d d
      retire
    if packetRefused x then finish 1
    else if !(s.ctxOf home).shares.any (·.lgrove == lg) then finish 2
    else do
      orderPoint
      match placeTask home lg (packetOf x) (← get) with
      | some t => do
        set t
        finish 0
      | none => wait (.spawn lg)) s

/-- The future word at an address (R170, R302): aligned, in this module's device memory or the local half, and free. Its key and
its value. -/
def futureAt (a : Word) : M (Nat × Word) := do
  let acc ← resolveM a 8 .rmw .future
  atomicFree acc.keys
  let k := acc.keys.headD 0
  modify fun s => amoLine (some (s.core, s.cur.cid)) k s
  let w ← readChecked (some (← get).core) a acc.keys fun s k => s.mem.byte k
  pure (k, BitVec.ofNat 64 w)

/-- FUTREG (R302). -/
def execFutreg (o : FS) (s : State) : Out :=
  run (do
    let fa := s.me.sreg o.a
    let pa := s.me.sreg o.b
    if isMisaligned fa 8 then misaligned fa .rmw else pure ()
    if isMisaligned pa 64 then misaligned pa .load else pure ()
    orderPoint
    let f ← futureAt fa
    let x ← readPacket pa
    let s ← get
    let finish (d : Nat) : M Unit := do
      modify fun s => s.mapMe fun v => v.putS o.d (BitVec.ofNat 64 d)
      retire
    if packetRefused x then finish 2
    else match futRegister (s.core, s.cur.cid) (homeOf s s.cur.cid) f.1 (homeShare s).lgrove f.2 (packetOf x) s with
      | none => wait .record
      | some (d, t) => do
        set t
        finish d) s

/-- FUTRES and FUTRES.FAULT (R303). -/
def futresBody (o : FS) (flt : Bool) : M Unit := do
  let v := (← get).me
  let a := v.sreg o.a
  if isMisaligned a 8 then misaligned a .rmw else pure ()
  orderPoint
  let f ← futureAt a
  let s ← get
  match futResolve (some (s.core, s.cur.cid)) s.ctx.tenant f.1 f.2 (Bits.field (v.sreg o.b) 0 32) flt s with
  | none => trap { code := Cause.doubleResolve, tv := a }
  | some t => do
    set t
    retire

/-- FUTRES (R303). -/
def execFutres (o : FS) (s : State) : Out := run (futresBody o false) s
/-- FUTRES with fault (R303). -/
def execFutresFault (o : FS) (s : State) : Out := run (futresBody o true) s

/-- TASK_SPILL_REFILL (R166): the spill rings refill a grove's hardware queue, pending continuations take the space that this frees
in them, and the TSPAWNs for which there is room then go on. -/
def execTaskSpillRefill (grove : Nat) (s : State) : Out :=
  let t := refillGrove grove taskLimit s
  .next (wakeSpawners (t.ctxs.foldl (fun t c => settle c.1 t) t))

/-- CONTINUATION_PLACE (R166, R172): pending continuations enter the spill ring while it has space, ahead of parked TSPAWNs. -/
def execContinuationPlace (cid : Nat) (s : State) : Out := .next (wakeSpawners (settle cid s))

/-! Retirement (R169, R187, R306). -/

/-- The join word of a task. Under JF a word in host or peer memory is not supported, also when its target would refuse the access
(R27, R169). -/
def resolveJoin (p : TaskPacket) : M Acc := do
  let far : M Acc :=
    trap { code := Cause.accessFault, tv := p.join, ti := tinfoWord 0 0 false 0 (kindCode .rmw) Reason.unsupportedOp }
  match ← tryResolve p.join 8 .rmw .amoAddSwap with
  | .ok a => if p.jf && decide (2 ^ 62 ≤ a.keys.headD 0) then far else pure a
  | .error f =>
    if p.jf && (f.reason == Reason.peerAbsent || f.reason == Reason.peerRejected || f.reason == Reason.hostRejected) then far
    else trap (f.trap .rmw 0)

/-- The join-word decrement of a task (R169). -/
def joinDecrement (p : TaskPacket) : M Unit := do
  if p.join = 0 then pure ()
  else do
    orderPoint
    let a ← resolveJoin p
    let k := a.keys.headD 0
    atomicFree a.keys
    peerRoom a.keys
    match ← elemAtomic p.join k ⟨true, 0, false, 0, 2 ^ 64 - 1⟩ with
    | none => trap (absentTrap p.join k 0)
    | some (old, _) => if old = 1 ∧ p.jf then modify fun s => feChanged k (setFull k true s) else pure ()

/-- Retire the held work item. A replica that does not lead its group only drops its copy (R356). -/
def retireItem : M Unit := do
  let s ← get
  if follower s then modify fun s => s.mapMe Slot.dropItem
  else match s.me.work with
  | .none => pure ()
  | .tile crid _ => do
    modify fun s => (mapCruiser (homeOf s s.cur.cid) crid (fun x => { x with donec := x.donec + 1 }) s).mapLaunch s.ctx.lid
      fun l => { l with tiles := l.tiles + 1 }
    modify fun s => s.mapMe fun v => { v with work := .none, fmt := v.saved }
  | .task p => do
    joinDecrement p
    modify fun s => s.mapMe fun v => { v with work := .none, fmt := v.saved }

/-- DONE (R306). -/
def execDone (_o : FS) (s : State) : Out := run (do retireItem; retire) s

/-- The linear index of a slot (R183). -/
def linearIndex (v : Slot) : Nat := v.lvl.foldl (fun n l => n * l.2 + l.1) 0

/-- Write the spill record of an ending slot under PRELOAD (R183). -/
def writeSpill : M Unit := do
  let s ← get
  let r := recordOf s
  let v := s.me
  match Tab.get s.launches s.ctx.lid with
  | none => pure ()
  | some l =>
    if l.pre then do
      let vr := s.vrCount
      let base := Rec.pspl r + BitVec.ofNat 64 (linearIndex v * (0x200 + 512 * vr))
      let put (off n x : Nat) : M Unit := storeBytes (base + BitVec.ofNat 64 off) n x
      if Rec.vlsp r then do
        put 0 8 v.vl
        put 8 8 v.vt.toNat
      else pure ()
      forL (fun j => if Rec.mspl r j then put (0x40 + 64 * (j - 1)) 64 (v.getM (Fin.ofNat 8 j)).toNat else pure ())
        [1, 2, 3, 4, 5, 6, 7]
      forL (fun i => if Rec.vspl r i then do
          let fix ← checkVregs i 1
          put (0x200 + 512 * i) 512 ((v.v[i % 32]'(Nat.mod_lt _ (by decide))).toNat ^^^ fix)
        else pure ()) (List.range (Nat.min vr 32))
    else pure ()

/-- DONE with end (R306): the slot becomes ENDED once its spill record is written, also to memory of another module (R183, R194). -/
def execDoneEnd (_o : FS) (s : State) : Out :=
  run (do
    orderPoint
    retireItem
    if resumeElem (← get).me = 0 then do
      writeSpill
      if (← get).me.inflight.isEmpty then pure () else waitHere 1 0 .reply
    else pure ()
    orderPoint
    modify fun s =>
      let s := s.mapMe fun v => { v.unhold with st := .ended, inbox := [] }
      let s := { s with resvs := s.resvs.filter fun r => r.key ≠ s.cur }
      barrierCheck (homeOf s s.cur.cid) (coreCheck s.cur.cid s.cur.lcore (admitSenders s.cur s))) s

end Sys2Proof.Machine
end

