-- ==== Sys2Proof/Machine/Replica.lean ====
section
/-!
DEFINITION. Replicated execution: the replica instructions (R309 to R311), the records of an operation at a comparison point
(R351), the vote and its outcomes (R354, R357).
-/
namespace Sys2Proof.Machine

/-- RLEAD (R309): the lead's value; another replica takes it by forwarding. -/
def execRlead (o : FS) (s : State) : Out := .next (s.mapMe fun v => (v.putS o.d (v.sreg o.a)).advance)

/-- A component of the slot's signature (R310). -/
def sigPart (v : Slot) (sel : Nat) : Word :=
  match sel with
  | 0 => v.sig.crc1
  | 1 => v.sig.crc2
  | 2 => BitVec.ofNat 64 v.sig.seq
  | 3 => v.sig.sitepc
  | _ => v.sig.sitedyn.setWidth 64

/-- RSIG (R310). -/
def execRsig (o : FS) (s : State) : Out :=
  let x := if replicated s then sigPart s.me o.sub.toNat else 0
  .next (s.mapMe fun v => (v.putS o.d x).advance)

/-- RCHK (R311): its comparison point is taken as it issues; D says whether the vote went against a minority. -/
def execRchk (o : FS) (s : State) : Out :=
  let x : Word := if s.me.minority then 1 else 0
  .next (s.mapMe fun v => { (v.putS o.d x).advance with minority := false })

/-! Records of the operation at a comparison point (R351). -/

/-- A record: KIND, ADDR, DATA, BMASK, SIZE, OPC. -/
structure SigRec where
  kind : Nat
  addr : Word
  data : Word
  bmask : Nat := 0xFF
  size : Nat := 3
  opc : Nat := 0

/-- The record of an atomic's operand of `n` bytes at `ea`, in place in its word. -/
def atomRec (ea : Word) (n x opc : Nat) : SigRec :=
  ⟨1, ea &&& ~~~7#64, BitVec.ofNat 64 (x % 2 ^ (8 * n) * 2 ^ (8 * (ea.toNat % 8))), 0xFF, sizeLog n, opc⟩

/-- The records of a plain store of `n` bytes in elements of `eb`. -/
def storeRecs (ea : Word) (n x eb : Nat) : List SigRec :=
  (storeParts ea n x).map fun p => ⟨0, p.1, p.2.1, p.2.2, sizeLog eb, 0⟩

/-- The stream that a data field of a store holds. -/
def dataStream (v : Slot) (r : Reg) (span : Nat) : Nat :=
  match r with
  | .v i => groupStream v (Vt.regBits v.vt) i.val span
  | .q i => ((v.q[i])[0]?.map fun e => e.data.toNat).getD 0
  | _ => 0

/-- The data of a vector store by element. -/
def storeData (v : Slot) (r : Reg) (i : Nat) : Nat :=
  match r with
  | .s k => (v.getS k).toNat % 2 ^ Vt.sew v.vt
  | r => elemAt (dataStream v r (Vt.grp v.vt)) (Vt.sew v.vt) i

/-- The records of a vector store's active elements. -/
def vecRecs (v : Slot) (o : FM) (at' : Nat → Word × Nat) (data : Nat → Nat) (skip : Nat → Bool) : List SigRec :=
  ((activeList o.toHdr v).filter fun i => !skip i).flatMap fun i => storeRecs (at' i).1 (at' i).2 (data i) (elemBytes v)

/-- The records of VSTN: each group's elements, then its add to the progress word (R265, log 28). -/
def vstnRecs (v : Slot) (o : FM) : List SigRec :=
  (List.range (Bits.cdiv v.vl 16)).flatMap fun q =>
    let mine := (activeList o.toHdr v).filter fun i => i / 16 == q
    vecRecs v o (contiguous v o) (storeData v o.c) (fun i => i / 16 != q) ++
      (if mine.isEmpty then [] else [atomRec (v.sreg o.d) 8 mine.length 0])

/-- One record per doubleword of an engine command or a packet. -/
def dwordRecs (kind : Nat) (d : List Word) : List SigRec :=
  d.zipIdx.map fun x => ⟨kind, BitVec.ofNat 64 (8 * x.2), x.1, 0xFF, 3, 0⟩

/-- The doublewords of a packet as the loaded slot reads it; none when the read fails, which the instruction reports. -/
def packetWords (a : Word) (s : State) : List Word :=
  match resolve s (slotReq s) a 64 .load .load with
  | (t, .ok acc) =>
    let x := ofBytes (acc.keys.map (byteFor t acc.ca))
    (List.range 8).map fun i => BitVec.ofNat 64 (x / 2 ^ (64 * i))
  | (_, .error _) => []

/-- The number of bytes of an atomic's word. -/
def amoBytes (w : BitVec 2) : Nat := if w = 3 then 8 else 4

/-- The records that an operation at a comparison point makes for the loaded slot (R351). -/
def opRecords (i : Instr) (s : State) : List SigRec :=
  let v := s.me
  let fe (o : FM) (k : Nat) : List SigRec := [⟨2, FM.ea o v, v.sreg o.c, 0xFF, 3, k⟩]
  let elems (o : FM) : List SigRec :=
    (activeList o.toHdr v).map fun i => atomRec (indexed v o i).1 (elemBytes v) (storeData v o.c i) o.aop.toNat
  match i with
  | .st o => storeRecs (FM.ea o v) (FM.bytes o) (v.sreg o.c).toNat (FM.bytes o)
  | .vst o => vecRecs v o (contiguous v o) (storeData v o.c) fun _ => false
  | .vsts o => vecRecs v o (strided v o) (storeData v o.c) fun _ => false
  | .vstx o => vecRecs v o (indexed v o) (storeData v o.c) fun _ => false
  | .vsseg o => vecRecs v o (segments v o) (segmentData v o.c (Vt.sew v.vt) (Vt.grp v.vt) (o.nf.toNat + 1)) fun _ => false
  | .vstt o => vecRecs v o (shaped v o) (storeData v o.c) fun i => !shapeInside v o.b i
  | .vstn o => vstnRecs v o
  | .ldfe o => fe o 0
  | .ldff o => fe o 1
  | .stef o => fe o 2
  | .stff o => fe o 3
  | .feq o => fe o 4
  | .amo o => [atomRec (FM.ea o v) (amoBytes o.w) (v.sreg o.c).toNat o.aop.toNat]
  | .cas o =>
    let ea := v.sreg o.a + sextImm o.imm
    [atomRec ea (amoBytes o.w) (v.sreg o.b).toNat 10, atomRec ea (amoBytes o.w) (v.sreg o.c).toNat 11]
  | .vamo o => elems o
  | .vscc o => elems o
  | .ecmd o =>
    let x := dataStream v o.a (Vt.grp v.vt)
    ((List.range (v.vl / 16)).filter fun g => (activeMask o.toHdr v).getLsbD g).flatMap fun g =>
      dwordRecs 3 ((List.range 16).map fun j => BitVec.ofNat 64 (elemAt x 64 (16 * g + j)))
  | .tcp o => dwordRecs 3 (tcpCommand v o)
  | .msend o => [⟨4, 0, v.sreg o.b, 0xFF, 3, 0⟩, ⟨4, 8, v.sreg o.a, 0xFF, 3, 0⟩,
      ⟨4, 16, BitVec.ofNat 64 (Bits.field o.imm 0 16), 0xFF, 3, 0⟩]
  | .tspawn o => dwordRecs 4 (packetWords (v.sreg o.a) s) ++
      (if o.sub.getLsbD 0 then [⟨4, 64, v.sreg o.b, 0xFF, 3, 0⟩] else [])
  | .futreg o => ⟨1, v.sreg o.a, v.sreg o.b, 0xFF, 3, 13⟩ :: dwordRecs 4 (packetWords (v.sreg o.b) s)
  | .futres o => [⟨1, v.sreg o.a, Fut.word Fut.resolved 0 (Bits.field (v.sreg o.b) 0 32), 0xFF, 3, 12⟩]
  | .futresFault o => [⟨1, v.sreg o.a, Fut.word Fut.faulted 0 (Bits.field (v.sreg o.b) 0 32), 0xFF, 3, 12⟩]
  | .done _ | .doneEnd _ =>
    (match v.work with
     | .task p => if p.join = 0 then [] else [atomRec p.join 8 (2 ^ 64 - 1) 0]
     | _ => [])
  | _ => []

/-- A member passes a comparison point (R354, step 5): a new interval, which starts with the records of the operation. -/
def passPoint (op : Option Instr) (s : State) : State :=
  let s := s.mapMe fun v => v.nextInterval v.pc
  match op with
  | none => s
  | some i =>
    let l := opRecords i s
    s.mapMe fun v => countStore v (l.foldl (fun v r => v.record r.kind r.addr r.data r.bmask r.size r.opc) v)

/-! The vote (R354, R357). -/

/-- What the comparator compares: the five doublewords of R352. -/
def Sig.five (g : Sig) : Word × Word × Nat × Word × BitVec 32 := (g.crc1, g.crc2, g.cnt, g.sitepc, g.sitedyn)

/-- The context of a replica on this module. -/
def replicaCid (s : State) (lid r : Nat) : Option Nat :=
  (s.ctxs.find? fun c => c.2.lid == lid && c.2.replica == r).map (·.1)

/-- The outcome of a vote: pass, pass without a minority member, or a mismatch. -/
inductive Vote where
  | pass | without (r : Nat) | mismatch
  deriving DecidableEq, Repr

/-- The vote of R357 on the members' signatures; an absent one differs from every other. -/
def voteOf (l : List (Nat × Option (Word × Word × Nat × Word × BitVec 32))) : Vote :=
  let same (a b : Nat × Option (Word × Word × Nat × Word × BitVec 32)) : Bool := a.2.isSome && a.2 == b.2
  match l with
  | [a, b] => if same a b then .pass else .mismatch
  | [a, b, c] =>
    if same a b && same b c then .pass
    else if same a b then .without c.1
    else if same a c then .without b.1
    else if same b c then .without a.1
    else .mismatch
  | _ => .pass

/-- The signatures of a group: a replica on another module agrees with the lead or not, freely (log 33). -/
def groupSigs (s : State) (g : Group) : List (Nat × Option (Word × Word × Nat × Word × BitVec 32)) :=
  g.members.map fun r =>
    let mine := (Assoc.get g.sigs r).map Sig.five
    if (replicaCid s g.lid r).isSome then (r, mine)
    else if (Config.freeWord (s.free + r)).getLsbD 0 then (r, (Assoc.get g.sigs g.lead).map Sig.five)
    else (r, some (Config.freeWord (s.free + 8 + r), 0, 0, 0, 0))

/-- The physical core of a group's replica. -/
def memberCore (s : State) (g : Group) (r : Nat) : Option Nat :=
  (replicaCid s g.lid r).map fun cid => coreOfSlot s ⟨cid, g.lcore, g.slot⟩

/-- Change the group of a logical slot. -/
def mapGroup (lid lcore slot : Nat) (f : Group → Group) (s : State) : State :=
  { s with groups := s.groups.map fun g => if g.lid == lid && g.lcore == lcore && g.slot == slot then f g else g }

/-- A core is quarantined for a launch (R344). -/
def quarantineCore (lid core : Nat) (suspect : Bool) (s : State) : State :=
  noteUid [lid] (.core core) (quarantine (.core core) suspect s)

/-- REPLICA_MISMATCH (R344, R357): the cores of all members are suspect, and the launch is killed. -/
def mismatchGroup (g : Group) (s : State) : State :=
  let s := g.members.foldl (fun s r =>
    match memberCore s g r with
    | some c => quarantineCore g.lid c true s
    | none => s) s
  let s := mapGroup g.lid g.lcore g.slot (fun g => { g with sigs := [] }) s
  match replicaCid s g.lid g.lead with
  | some cid =>
    let k : SlotKey := ⟨cid, g.lcore, g.slot⟩
    onSlot k (fun s => deliver { code := Cause.replicaMismatch, tv := s.me.sig.sitedyn.setWidth 64 } s) s
  | none => s

/-- The minority replica of a TMR vote takes no further part (R357): its slot counts as ENDED; a new lead takes over what
was addressed to the former one. -/
def dropMinority (g : Group) (r : Nat) (s : State) : State :=
  let s := match memberCore s g r with | some c => quarantineCore g.lid c false s | none => s
  let s := s.mapLaunch g.lid fun l => { l with tmrv := Nat.min (2 ^ 32 - 1) (l.tmrv + 1) }
  let members := g.members.filter (· != r)
  let lead := if g.lead = r then members.headD 0 else g.lead
  let s := mapGroup g.lid g.lcore g.slot (fun g => { g with members := members, lead := lead }) s
  match replicaCid s g.lid r with
  | none => s
  | some cid =>
    let k : SlotKey := ⟨cid, g.lcore, g.slot⟩
    let box := ((s.slotAt k).map (·.inbox)).getD []
    let s := leaveAtoms (fun q => q.who == .slot k) (s.mapSlot k fun v =>
      { v with st := .ended, rbuf := [], inbox := [], fwd := [], sig := .start, rpend := none, passed := false, pf := none,
               startTrap := none, startDue := false })
    let s := if g.lead ≠ r then s else
      match replicaCid s g.lid lead with
      | some c =>
        let k' : SlotKey := ⟨c, g.lcore, g.slot⟩
        { s.mapSlot k' (fun v => { v with inbox := v.inbox ++ box }) with
          senders := s.senders.map fun w => if w.2.1 = k then (w.1, k', w.2.2) else w }
      | none => s
    s.pushOnce (.coreDoneMessage g.lid g.lcore)

/-- The lead commits its buffered stores in program order as plain stores (R128, R354). -/
def commitBuffer (s : State) : State :=
  let l := s.me.rbuf
  l.foldl (fun s b => commitStore b s) (s.mapMe fun v => { v with rbuf := [] })

/-- The point passes (R354, steps 4 and 5): the lead's stores are performed, every replica starts a new interval, and the
lead performs the operation; the others wait for its results. -/
def passGroup (g : Group) (minority : Bool) (s : State) : State :=
  match replicaCid s g.lid g.lead with
  | none => s
  | some cid =>
    let lead : SlotKey := ⟨cid, g.lcore, g.slot⟩
    let op := ((s.slotAt lead).map (·.rpend)).getD none
    let keys := g.members.filterMap fun r => (replicaCid s g.lid r).map fun c => (⟨c, g.lcore, g.slot⟩ : SlotKey)
    let s := onSlot lead commitBuffer s
    let s := keys.foldl (fun s k => onSlot k (fun s =>
      (passPoint op s).mapMe fun v =>
        { v with rpend := none, minority := minority && op.isSome,
                 st := if op.isSome && k != lead then .parked .forward else .ready }) s) s
    let s := s.mapLaunch g.lid fun l => { l with cmps := Nat.min (2 ^ 32 - 1) (l.cmps + 1) }
    let s := mapGroup g.lid g.lcore g.slot (fun g => { g with sigs := [] }) s
    match op with
    | none => s
    | some i =>
      let s := s.focus lead (coreOfSlot s lead)
      { s.mapMe (fun v => { v with passed := true }) with issue := some i }

/-- The vote of a group, with the signatures that have come. Buffered stores wait for a line that a command owns and for queued
atomics (R83, R114); the event `e` then comes again. -/
def voteGroup (e : Instr) (g : Group) (s : State) : State :=
  let commit (g : Group) (minority : Bool) (s : State) : State :=
    match replicaCid s g.lid g.lead with
    | none => mapGroup g.lid g.lcore g.slot (fun g => { g with sigs := [] }) s
    | some _ => passGroup g minority s
  let bytes (r : Nat) : List Nat :=
    match replicaCid s g.lid r with
    | some cid => (((s.slotAt ⟨cid, g.lcore, g.slot⟩).map fun v => v.rbuf.flatMap fun b => b.bytes.map (·.1)).getD [])
    | none => []
  match eventWaits e (g.members.flatMap bytes) s with
  | some t => t
  | none =>
    let v := voteOf (groupSigs s g)
    let s := { leavePlaces (.event e) s with free := s.free + 16 }
    match v with
    | .pass => commit g false s
    | .mismatch => mismatchGroup g s
    | .without r =>
      let s := dropMinority g r s
      match s.groups.find? fun x => x.lid == g.lid && x.lcore == g.lcore && x.slot == g.slot with
      | some g' => commit g' true s
      | none => s

/-- The group of a logical slot. -/
def groupAt (s : State) (lid lcore slot : Nat) : Option Group :=
  s.groups.find? fun g => g.lid == lid && g.lcore == lcore && g.slot == slot

/-- Whether every member on this module has sent its signature. -/
def allArrived (s : State) (g : Group) : Bool :=
  g.members.all fun r => (replicaCid s g.lid r).isNone || (Assoc.get g.sigs r).isSome

/-- Whether a launch has been stopped for good (R191, R321). -/
def launchOver (s : State) (lid : Nat) : Bool :=
  match Tab.get s.launches lid with | some l => l.st == .killed || l.st == .aborted || l.st == .ended | none => false

/-- Whether a member of a group is stopped for pre-emption: the comparator's state then waits with it (R358). -/
def memberStopped (s : State) (g : Group) : Bool :=
  g.members.any fun r => match replicaCid s g.lid r with
    | some cid => (s.ctxOf cid).st != .running || (s.ctxOf cid).stopping
    | none => false

/-- COMPARATOR_VOTE (R354): once every signature has arrived, and every member runs. -/
def execComparatorVote (lid lcore slot : Nat) (s : State) : Out :=
  match groupAt s lid lcore slot with
  | none => .next s
  | some g =>
    if g.sigs.isEmpty || !allArrived s g || launchOver s lid then .next s
    else if memberStopped s g then .next (s.push (.comparatorVote lid lcore slot))
    else .next (voteGroup (.comparatorVote lid lcore slot) g s)

/-- SIGNATURE_TIMEOUT (R354): 2^24 cycles of the lead's core after the first signature, one that is missing differs from
every other. -/
def execSignatureTimeout (lid lcore slot : Nat) (s : State) : Out :=
  match groupAt s lid lcore slot with
  | none => .next s
  | some g =>
    if g.sigs.isEmpty || allArrived s g || launchOver s lid then .next s
    else if memberStopped s g then .next (s.push (.signatureTimeout lid lcore slot))
    else
      let now := (s.coreOf ((memberCore s g g.lead).getD 0)).cyc
      if (now - g.since).toNat ≥ 2 ^ 24 then .next (voteGroup (.signatureTimeout lid lcore slot) g s) else .next (s.push (.signatureTimeout lid lcore slot))

end Sys2Proof.Machine
end

