-- ==== Sys2Proof/Machine/System.lean ====
section
/-!
DEFINITION. Control registers (R231 to R234), ERET, ICSYNC, SLOTW and TLBINV (R312 to R315), the slot table's
configuration port (R156), and the registers that Naruno writes (R7, R48, R53 to R55, R69, R71, R75).
-/
namespace Sys2Proof.Machine

/-! Control registers (R231, R232). -/

/-- The partition word as the slot reads it, with its resident index (R44). -/
def partWord (s : State) : Word := Bits.insert s.ctx.part 62 2 s.share.rix

/-- The value of a control register (R151, R153, R164, R184, R223, R231). -/
def readCr (s : State) (r : CReg) : Word :=
  let v := s.me
  let nat (n : Nat) : Word := BitVec.ofNat 64 n
  match r with
  | .vl => nat v.vl
  | .vt => v.vt
  | .fill => v.fill
  | .rmode => v.rmode
  | .frm => v.frm
  | .fflags => v.fflags
  | .sat => v.sat
  | .cyc => (s.coreOf s.core).cyc
  | .hmc => v.hmc.setWidth 64
  | .slot => nat s.cur.slot
  | .core => nat s.share.lcore
  | .grove => nat s.share.lgrove
  | .die => nat s.share.ldie
  | .dev => nat Config.moduleId
  | .part => partWord s
  | .epc => v.epc
  | .cause => v.cause
  | .tval => v.tval
  | .tinfo => v.tinfo
  | .hbase => v.hbase
  | .fmtA => v.fmt.fa.setWidth 64
  | .fmtB => v.fmt.fb.setWidth 64
  | .fmtO => v.fmt.fo.setWidth 64
  | .sclA => v.fmt.scla
  | .sclB => v.fmt.sclb
  | .cbkA => v.fmt.cbka
  | .cbkB => v.fmt.cbkb
  | .lvl i => match v.lvl[i.val]? with | some l => nat (l.2 * 2 ^ 32 + l.1) | none => 0
  | .tc i => v.tc[i]
  | .tid => v.tid
  | .xroot => s.ctx.xroot
  | .stab i => (s.coreOf s.core).tab[i]
  | .lix i => match v.loop with | some l => nat ((l.idx[i.val]?).getD 0) | none => 0

/-- Registers with access "none" in user mode (R231). -/
def crHidden : CReg → Bool
  | .xroot => true
  | .stab _ => true
  | _ => false

/-- Registers that software may write (R231). -/
def crWritable : CReg → Bool
  | .vl | .vt | .fill | .rmode | .frm | .fflags | .sat | .hmc | .epc | .cause | .tval | .tinfo | .hbase => true
  | _ => false

/-- The bits of tinfo that no field named reserved covers, in the layout of the rule that R339 names for a cause: that of R284 for
ILLEGAL_INSTRUCTION; for MISALIGNED, PAGE_FAULT and ACCESS_FAULT that of R33, with the column of R292 in [47:32]; the layouts of
the other causes name no reserved field (R7, R336). -/
def tinfoMask (cause : Word) : Word :=
  if cause = 1 then 0xF3F else if cause = 3 ∨ cause = 4 ∨ cause = 5 then 0xFFFFFFFF0000CFFF else BitVec.allOnes 64

/-- Write a control register by its own write rule (R7, R138, R139, R232, R235, R239, R240, R336). -/
def writeCr (v : Slot) (r : CReg) (x : Word) : Slot :=
  match r with
  | .vl => { v with vl := Nat.min x.toNat (Vt.vlmax v.vt) }
  | .vt => if vtRefused x then v else v.setVt x
  | .fill => { v with fill := x }
  | .rmode => if x.toNat < 4 then { v with rmode := x } else v
  | .frm =>
    let rm := if Bits.field x 0 3 ≥ 6 then Bits.field v.frm 0 3 else Bits.field x 0 3
    { v with frm := Bits.insert (x &&& 0x3F) 0 3 rm }
  | .fflags => { v with fflags := x &&& 0x1F }
  | .sat => { v with sat := x &&& 0x3 }
  | .hmc => { v with hmc := x.setWidth 32 }
  | .epc => { v with epc := x &&& ~~~0xF#64 }
  | .cause => { v with cause := x &&& 0xFF }
  | .tval => { v with tval := x }
  | .tinfo => { v with tinfo := x &&& tinfoMask v.cause }
  | .hbase => { v with hbase := x &&& ~~~0xF#64 }
  | _ => v

/-- PRIVILEGE of an instruction (R339). -/
def privilegeTrap {α : Type} (i : Instr) : M α := trap { code := Cause.privilege, tv := (encode i).setWidth 64 }

/-- A control-register access (R232): the checks, the new value of a write, the former value into D. -/
def crBody (i : Instr) (o : FS) (new : Option (Word → Word → Word)) : M Unit := do
  match o.a with
  | .cr r => do
    let s ← get
    if crHidden r && !s.ctx.priv then privilegeTrap i else pure ()
    if new.isSome && !crWritable r then (if s.ctx.priv then illegal i else privilegeTrap i) else pure ()
    let old := readCr s r
    let b := s.me.sreg o.b
    modify fun s => s.mapMe fun v =>
      let v := match new with | some f => writeCr v r (f old b) | none => v
      v.putS o.d old
    retire
  | _ => illegal i

/-- CRR (R232). -/
def execCrr (o : FS) (s : State) : Out := run (crBody (.crr o) o none) s
/-- CRW (R232). -/
def execCrw (o : FS) (s : State) : Out := run (crBody (.crw o) o (some fun _ b => b)) s
/-- CRS (R232). -/
def execCrs (o : FS) (s : State) : Out := run (crBody (.crs o) o (some fun old b => old ||| b)) s
/-- CRC (R232). -/
def execCrc (o : FS) (s : State) : Out := run (crBody (.crc o) o (some fun old b => old &&& ~~~b)) s

/-! ERET, ICSYNC (R312, R313). -/

/-- ERET (R312). -/
def execEret (_o : FS) (s : State) : Out := .next (eret s)

/-- Whether a line holds a byte of a range, or the range covers everything (R313). -/
def lineCovered (l : ILine) (cid : Nat) (start len : Word) : Bool :=
  l.cid == cid && (65536 ≤ len.toNat || (l.va.toNat < start.toNat + len.toNat && start.toNat < l.va.toNat + 128))

/-- ICSYNC (R313). -/
def execIcsync (o : FS) (s : State) : Out :=
  let start := s.me.sreg o.a
  let len := s.me.sreg o.b
  if len = 0 then .next (s.mapMe Slot.advance)
  else
    let s := s.mapCore s.core fun c => { c with icache := c.icache.filter fun l => !lineCovered l s.cur.cid start len }
    .next (s.mapMe fun v => Slot.advance { v with loop := v.loop.filter (·.active) })

/-! Slot tables (R154 to R157, R314). -/

/-- The entries of a table image; the reserved bit of each reads as 0 (R7). -/
def tableImage (t : Vector Word 4) : Vector Word 4 := t.map fun w => w &&& 0xBFBFBFBFBFBFBFBF

/-- The distance from entry e to the next valid entry with the same RIX and SLOT, counted cyclically. -/
def nextSame (t : Vector Word 4) (e : Nat) : Nat :=
  ((List.range 32).find? fun d =>
    let x := tabEntry t ((e + d + 1) % 32)
    x / 128 == 1 && x % 64 == tabEntry t e % 64).getD 31 + 1

/-- The lowest entry whose next one of the same slot is fewer than 4 entries away (R156, R314). -/
def badEntry (t : Vector Word 4) : Option Nat :=
  (List.range 32).find? fun e => tabEntry t e / 128 == 1 && decide (nextSame t e < 4)

/-- SLOTW (R314). -/
def execSlotw (o : FS) (s : State) : Out :=
  run (do
    if s.ctx.priv then pure () else privilegeTrap (.slotw o)
    let a := s.me.sreg o.a
    if isMisaligned a 32 then misaligned a .load else pure ()
    let x ← loadBytes a 32
    let w (i : Nat) : Word := BitVec.ofNat 64 (x / 2 ^ (64 * i))
    let t : Vector Word 4 := #v[w 0, w 1, w 2, w 3]
    match badEntry t with
    | some e => trap { code := Cause.slotTableInvalid, tv := BitVec.ofNat 64 e }
    | none => do
      modify fun s => (s.mapCore s.core fun c => { c with newTab := some (tableImage t) })
      retire) s

/-- SLOT_TABLE_PORT_WRITE (R156): the status is 0, or the cause code of a refused table. -/
def execSlotTablePortWrite (core : Nat) (t0 t1 t2 t3 : Word) (s : State) : Out :=
  let t : Vector Word 4 := #v[t0, t1, t2, t3]
  match badEntry t with
  | some _ => .next (s.report (.slotTable core Cause.slotTableInvalid))
  | none => .next ((s.mapCore core fun c => { c with newTab := some (tableImage t) }).report (.slotTable core 0))

/-! TLBINV (R315). -/

/-- Whether a held translation of a space, of 2^`bits` bytes from `va` on, is covered by the operands of a TLBINV. -/
def tlbCovered (o : FS) (start len space : Word) (of va bits : Nat) : Bool :=
  match o.sub.toNat with
  | 0 => of == space.toNat && va < start.toNat + len.toNat && start.toNat < va + 2 ^ bits
  | 1 => of == space.toNat % 256
  | _ => true

/-- Whether a leaf translation stays. -/
def keepsLeaf (o : FS) (v : Slot) (e : TlbEntry) : Bool :=
  !tlbCovered o (v.sreg o.a) (v.sreg o.b) (v.sreg o.c) e.space e.va e.bits

/-- Whether a walk-cache entry stays. -/
def keepsWalk (o : FS) (v : Slot) (e : WalkEntry) : Bool :=
  let lo := ((walkLevels.find? (·.1 == e.lvl)).map (·.2.1)).getD 0
  !tlbCovered o (v.sreg o.a) (v.sreg o.b) (v.sreg o.c) e.space (e.va * 2 ^ lo) lo

/-- Whether a cached line of a peer page goes: it was reached by a page that is covered (R25). -/
def losesLine (o : FS) (v : Slot) (c : CLine) : Bool :=
  c.data.isSome && c.vas.any fun p => tlbCovered o (v.sreg o.a) (v.sreg o.b) (v.sreg o.c) p.1 p.2.1 p.2.2

/-- The errors of the words of the lines that go, go with them. -/
def forgetLost (o : FS) (s : State) : State :=
  if s.flips.isEmpty && s.poison.isEmpty then s
  else
    let t := s.cores.foldl (fun t c => (c.2.l1.filter (losesLine o s.me)).foldl (fun t l => l1Forget c.1 l.line t) t) s
    s.groves.foldl (fun t g => (g.2.cache.filter (losesLine o s.me)).foldl (fun t l => groveForget g.1 l t) t) t

/-- Discard the covered translations of every core, grove and die, and the cached lines of covered peer pages (R25, R315). -/
def invalidate (o : FS) (s : State) : State :=
  let s := forgetLost o s
  let v := s.me
  { s with
    cores := s.cores.map fun c => (c.1, { c.2 with tlb := c.2.tlb.filter (keepsLeaf o v), l1 := c.2.l1.filter (!losesLine o v ·) }),
    groves := s.groves.map fun g =>
      (g.1, { g.2 with tlb := g.2.tlb.filter (keepsLeaf o v), cache := g.2.cache.filter (!losesLine o v ·) }),
    walks := s.walks.map fun w => (w.1, w.2.filter (keepsWalk o v)) }

/-- The space of a command's translations. -/
def cmdSpace (s : State) (c : Cmd) : Nat := xrootSpace (cmdReq s c).xroot

/-- The commands that a TLBINV waits for. -/
def tlbCommands (o : FS) (s : State) : List Nat :=
  (s.cmds.filter fun c => 2 ≤ o.sub.toNat || cmdSpace s c == (s.me.sreg o.c).toNat % 256).map (·.id)

/-- Whether a slot is of the executing slot's replica group. Its release buffer empties only at a comparison point of the group,
which no TLBINV is, so a TLBINV of the group does not wait for its stores (log 28). -/
def sameGroup (s : State) (k : SlotKey) : Bool :=
  (s.ctxOf k.cid).lid == s.ctx.lid && k.lcore == s.cur.lcore && k.slot == s.cur.slot

/-- A slot's accesses that have been translated and not performed, with the size of the leaf in bits, 0 in the local half: late
stores, stores in flight and in a release buffer, a request to a peer, and entries of wait lists and reservation queues (R28, R62,
R114, R128, R359, log 4). -/
def openAccesses (s : State) (k : SlotKey) (v : Slot) : List (Word × Nat) :=
  ((s.late.filter (·.key == k)).map (·.store) ++ v.inflight ++ (if sameGroup s k then [] else v.rbuf)).flatMap (fun b =>
    [(b.va, b.bits), (b.va + BitVec.ofNat 64 (b.bytes.length - 1), b.bits)]) ++
    ((v.peerReq.map (·.va)).toList ++
      ((s.waits ++ s.overflow.map (·.2)).filter (·.key == k)).map (·.va) ++
      ((s.atoms ++ s.atomWait).filter fun q => !q.access && q.who == .slot k).map (·.va)).map (fun va => (va, v.leaf))

/-- Whether an access that used a covered translation has not been performed (R315). -/
def accessesOpen (o : FS) (s : State) : Bool :=
  s.allSlots.any fun e => (openAccesses s e.1 e.2).any fun a => a.2 != 0 &&
    tlbCovered o (s.me.sreg o.a) (s.me.sreg o.b) (s.me.sreg o.c) (xrootSpace (s.ctxOf e.1.cid).xroot)
      (a.1.toNat / 2 ^ a.2 * 2 ^ a.2) a.2

/-- TLBINV (R315). -/
def execTlbinv (o : FS) (s : State) : Out :=
  run (do
    if s.ctx.priv then pure () else privilegeTrap (.tlbinv o)
    if o.sub.toNat < 2 && 256 ≤ (s.me.sreg o.c).toNat then illegal (.tlbinv o) else pure ()
    modify (invalidate o)
    let s ← get
    let ids := tlbCommands o s
    if ids.isEmpty && !accessesOpen o s then retire
    else modify fun s =>
      ({ s.mapMe (fun v => { v with st := .parked .tlbinv, rpend := some (.tlbinv o) }) with
          tlbinvs := s.tlbinvs ++ [(s.cur, ids)] } : State).push (.tlbinvComplete s.cur)) s

/-- TLBINV_COMPLETE (R315). -/
def execTlbinvComplete (k : SlotKey) (s : State) : Out :=
  match s.tlbinvs.find? (·.1 = k), (s.slotAt k).bind (·.rpend) with
  | some e, some (.tlbinv o) =>
    let f := s.focus k (coreOfSlot s k)
    if s.cmds.any (fun c => e.2.contains c.id) || accessesOpen o f then .next (s.push (.tlbinvComplete k))
    else .next (completeSlot k [] (fun v => { v with rpend := none })
      (onSlot k (invalidate o) { s with tlbinvs := s.tlbinvs.filter (·.1 ≠ k) }))
  | _, _ => .next s

end Sys2Proof.Machine
end

