-- ==== Sys2Proof/Machine/PeerEvents.lean ====
section
/-!
DEFINITION. Page walks and Naruno's page-fault service (R22, R32), overflow service (R64), and accesses of other modules and
the host (R26, R28, R98, R359).
-/
namespace Sys2Proof.Machine

/-- PAGE_WALK (R22): the walk of a miss of the context's first core fills the TLBs and sets AC and DT as R21 states; one that fails
changes nothing. -/
def execPageWalk (cid : Nat) (va : Word) (kind : AccKind) (s : State) : Out :=
  let c := s.ctxOf cid
  match translate s { cid := cid, tenant := c.tenant, xroot := c.xroot, pcore := c.shares.head?.map (·.pcore) } va kind with
  | .ok (s', _, _) => .next s'
  | .error _ => .next s

/-- Naruno writes page-table entries. -/
def writePtes (l : List PteWrite) (s : State) : State :=
  l.foldl (fun s p => { s with mem := s.mem.write p.pa 8 p.value.toNat }) s

/-- A slot of a context that is not running stays STOPPED. -/
def holdStopped (s : State) : State :=
  if s.ctx.st = .running then s else s.mapMe fun v => { v with st := .stopped }

/-- The page fault of the loaded slot is served: the instruction at the fault is performed again with its held progress, a
stream-queue load fills its entry again, or the fault is delivered (R32, R337, R341). What the slot holds for other instructions
stays. -/
def serveSlot (valid : Bool) (s : State) : State :=
  match s.me.pf with
  | none => s
  | some p =>
    let s := s.mapMe fun v => { v with pf := none }
    if valid then
      if s.ctx.st = .running then
        let s := s.mapMe fun v => { v with st := .ready }
        match (if p.stream then s.me.sres else none) with
        | some r => (s.mapMe fun v => v.useStream p.e).push (.streamEntryFill s.cur r.q)
        | none => s.mapMe fun v => v.served p.e
      else s.mapMe fun v => { v with pc := p.e }
    else
      let t := holdStopped (deliverToHandler Cause.pageFault p.e p.tv p.ti p.fetch s)
      match (if p.fwd then leadGroup s else none) with
      | some g => forwardTo g p.e [] none false (some (Cause.pageFault, p.tv, p.ti)) (t.mapMe fun v => { v with passed := false })
      | none => t

/-- PAGE_FAULT_SERVICE (R32): Naruno makes the mapping valid and the access is performed again, or it delivers the fault. -/
def execPageFaultService (t : FaultTarget) (valid : Bool) (ptes : List PteWrite) (s : State) : Out :=
  let s := if valid then writePtes ptes s else s
  match t with
  | .slot k => .next (onSlot k (serveSlot valid) s)
  | .command id =>
    match cmdAt s id with
    | none => .next s
    | some c =>
      match c.wait with
      | some va =>
        .next ((mapCmd id (fun c => { c with wait := none, served := if valid then c.served else va :: c.served }) s).pushOnce
          (cmdEvent c))
      | none => .next s

/-! Overflow service (R64). -/

/-- Perform an overflowed operation whose condition holds, with the scan of R62. -/
def serveEntry (e : WaitEntry) (s : State) : State :=
  match feRead e.op e.word s with
  | (s, none) => feFail e s
  | (s, some x) =>
    let r := feDo e.op e.word x e.data.toNat s
    feComplete e r.2 r.1

/-- Perform overflowed operations of a home, at most `n`: each time the oldest whose condition holds, so that none overtakes an
older one (R62, R64). -/
def serveOverflow (home : Nat) : Nat → State → State
  | 0, s => s
  | n + 1, s =>
    match s.overflow.find? fun e => e.1 == home && feReady s e.2.op e.2.word with
    | some e => serveOverflow home n (serveEntry e.2 { s with overflow := s.overflow.erase e })
    | none => s

/-- OVERFLOW_SERVICE (R64): overflow mode ends once the area is empty and the list holds fewer than 3,072 entries. -/
def execOverflowService (home : Nat) (s : State) : Out :=
  if s.ovfHomes.contains home then
    let s := serveOverflow home s.overflow.length s
    let n := (s.waits.filter fun x => feHome s x.word == home).length
    if s.overflow.any (·.1 == home) || n ≥ waitResume then .next (s.push (.overflowService home))
    else .next { s with ovfHomes := Sorted.erase s.ovfHomes home }
  else .next s

/-! Incoming accesses (R26, R98, R359). -/

/-- Bytes, kind and natural alignment of an incoming operation. -/
def peerOpShape : PeerOp → Nat × AccKind × Nat
  | .load n => (n, .load, 1)
  | .store n _ => (n, .store, 1)
  | .amo w8 _ _ => (if w8 then 8 else 4, .rmw, if w8 then 8 else 4)
  | .cas w8 _ _ => (if w8 then 8 else 4, .rmw, if w8 then 8 else 4)
  | .fullEmpty op fn _ => (8, feKind (feNumber op fn), 8)

/-- Whether device memory serves a range: within the module, on no page whose tag is 255 and on no fenced pseudo-channel (R23,
R40). -/
def servable (s : State) (pa n : Nat) : Bool :=
  pa + n ≤ Config.deviceBytes && (keyRange pa n).all fun k => ownerTag s k != 255 && !s.fenced.contains (pseudoChannel s.memcfg k)

/-- An incoming read of device bytes with the checks of R73. -/
def plainRead (pa n : Nat) (s : State) : State × Option Word :=
  let r := checkedWord none pa n s
  (r.1, r.2.map (BitVec.ofNat 64))

/-- An incoming plain store: the directory recalls the line. -/
def plainWrite (pa n : Nat) (x : Word) (s : State) : State :=
  performWrite (valueCells pa n x.toNat) (dirRecall (Key.line (pa + n - 1)) (dirRecall (Key.line pa) s))

/-- An atomic at its home for another party; one that meets an uncorrectable word meets it once more (R116, R343). -/
def homeAtomic (k : Nat) (f : AmoFun) (s : State) : State × Option (Nat × Nat) :=
  match amoApply none k f s with
  | (s, none) => amoApply none k f s
  | r => r

/-- The atomic of a peer operation. -/
def peerFun : PeerOp → Option AmoFun
  | .amo w8 aop x => some ⟨w8, aop.toNat, false, 0, x.toNat⟩
  | .cas w8 e x => some ⟨w8, 0, true, e.toNat, x.toNat⟩
  | _ => none

/-- Perform a permitted peer operation. An uncorrectable word makes an atomic or a full/empty operation fail. -/
def peerPerform (p : PeerAccess) (s : State) : State :=
  let failed (s : State) : State := s.report (.peerReply p.src p.seq false 0)
  match peerFun p.op, p.op with
  | some f, _ =>
    match homeAtomic p.pa f s with
    | (s, some (m, _)) => peerAnswer p.src p.seq (amoResult f.w8 m) s
    | (s, none) => failed s
  | none, .load n =>
    let r := plainRead p.pa n s
    r.1.report (.peerReply p.src p.seq r.2.isSome (r.2.getD 0))
  | none, .store n x => (plainWrite p.pa n x s).report (.peerReply p.src p.seq true 0)
  | none, .fullEmpty op fn x =>
    let k := feNumber op fn
    let home := feHome s p.pa
    if s.ovfHomes.contains home || !feReady s k p.pa then feEnter home ⟨⟨0, p.src, 0⟩, p.pa, 0, k, x, p.seq.toNat⟩ s
    else match feRead k p.pa s with
      | (s, none) => failed s
      | (s, some v) =>
        let r := feDo k p.pa v x.toNat s
        peerAnswer p.src p.seq (BitVec.ofNat 64 r.2) r.1
  | none, _ => s

/-- Whether a request waits here already: it was sent again (R359). -/
def peerWaiting (s : State) (p : PeerAccess) : Bool :=
  let same (e : WaitEntry) : Bool := e.key == ⟨0, p.src, 0⟩ && e.dest == p.seq.toNat
  s.waits.any same || s.overflow.any fun e => same e.2

/-- PEER_ACCESS_ARRIVE (R26, R359): the export table decides; a request found in the replay filter is answered from it; one
whose line is owned or queued for waits, and so does an atomic whose home is full (R115). -/
def execPeerAccessArrive (p : PeerAccess) (s : State) : Out :=
  let sh := peerOpShape p.op
  match s.filter.find? fun f => f.1 == p.src && f.2.1 == p.seq && sh.2.2 != 1 with
  | some f => .next (s.report (.peerReply p.src p.seq true f.2.2))
  | none =>
    if sh.2.2 != 1 && peerWaiting s p then .next s
    else if (exportAllows s.exports p.src p.pa sh.1 sh.2.1).isNone || !servable s p.pa sh.1 || p.pa % sh.2.2 != 0 then
      .next (s.report (.peerReply p.src p.seq false 0))
    else match eventWaits (.peerAccessArrive p) (keyRange p.pa sh.1) s (peerFun p.op).isSome with
      | some t => .next t
      | none => .next (peerPerform p (leavePlaces (.event (.peerAccessArrive p)) s))

/-- PEER_STORE_REPLY (R28): the oldest store in flight of a slot is accepted or refused; the earliest refusal is kept for
the next ordering point. Slots that wait for replies look again, those of the slot's replica group too (R128), and a core whose
slots have been stopped may be done (R191). -/
def execPeerStoreReply (k : SlotKey) (accepted : Bool) (s : State) : Out :=
  match (s.slotAt k).map (·.inflight) with
  | some (b :: t) =>
    let reach := peerReachable s b.modId
    let s := if accepted && reach then onSlot k (performWrite b.bytes) s else s
    let reason := if reach then Reason.peerRejected else Reason.peerAbsent
    let stopped := ((s.slotAt k).map (·.st)) == some .stopped
    let s := wake .reply (s.mapSlot k fun v =>
      { (if accepted && reach then v else v.refuse ⟨b.ord, b.va, b.modId, reason, b.elem⟩) with inflight := t })
    .next (if stopped && t.isEmpty then s.pushOnce (.coreDoneMessage (s.ctxOf k.cid).lid k.lcore) else s)
  | _ => .next s

/-- PEER_ABSENT of a request whose sends have all failed (R28, R359). -/
def requestTrap (r : PeerReq) : Trap :=
  { code := Cause.accessFault, tv := r.va, ti := tinfoWord 0 r.modId false 0 r.kind Reason.peerAbsent }

/-- A slot's request to a peer has ended: those that wait for one fewer outstanding go on (R359). -/
def endRequest (k : SlotKey) (s : State) : State := wake .reply (s.mapSlot k fun v => { v with peerReq := none })

/-- The target applies a slot's request once, and the reply completes the instruction; a full/empty operation may wait at
the target (R61, R359). -/
def requestApply (k : SlotKey) (r : PeerReq) (s : State) : State :=
  let d : Reg := .s (Fin.ofNat 64 r.dest)
  let finish (writes : Bool) (x : Word) (fl : Nat) (s : State) : State :=
    endRequest k (completeSlot k (if writes then fieldRegs 1 d else []) (fun v =>
      let v := v.dropPend.raise fl
      if writes then v.putS d x else v) s)
  let failed (s : State) : State := endRequest k (checkSlot none k r.key r.va s)
  match peerFun r.op, r.op with
  | some f, _ =>
    match homeAtomic r.key f s with
    | (s, some (m, fl)) => finish true (amoResult f.w8 m) fl s
    | (s, none) => failed s
  | none, .fullEmpty op fn x =>
    let n := feNumber op fn
    if feReady s n r.key then
      match feRead n r.key s with
      | (s, some v) =>
        let a := feDo n r.key v x.toNat s
        finish (feWrites n) (BitVec.ofNat 64 a.2) 0 a.1
      | (s, none) => failed s
    else
      feEnter (feHome s r.key) ⟨k, r.key, r.va, n, x, r.dest⟩
        (endRequest k (s.mapSlot k fun v => { v with st := .parked .fullEmpty }))
  | none, _ => endRequest k s

/-- The effect of a request alone, without a reply. -/
def requestEffect (r : PeerReq) (s : State) : State :=
  match peerFun r.op, r.op with
  | some f, _ => (homeAtomic r.key f s).1
  | none, .fullEmpty op fn x =>
    let n := feNumber op fn
    if feReady s n r.key then
      match feRead n r.key s with
      | (s, some v) => (feDo n r.key v x.toNat s).1
      | (s, none) => s
    else s
  | none, _ => s

/-- PEER_REQUEST_RESEND (R359): a send is answered, or none of 16 was; then the request was applied once or not at all. -/
def execPeerRequestResend (k : SlotKey) (reply : Bool) (s : State) : Out :=
  match (s.slotAt k).bind (·.peerReq) with
  | none => .next s
  | some r =>
    if reply && peerReachable s r.modId then .next (requestApply k r s)
    else if r.tries < 16 then
      .next ((s.mapSlot k fun v => { v with peerReq := some { r with tries := r.tries + 1 } }).push (.peerRequestResend k true))
    else
      let applied := (Config.freeWord s.free).getLsbD 0
      let s := { s with free := s.free + 1 }
      let s := if applied then requestEffect r s else s
      .next (endRequest k (trapSlot k (requestTrap r) (s.mapSlot k fun v => v.dropPend)))

/-- HOST_ACCESS_ARRIVE (R23, R98): a host access is performed on device memory that its tenant owns, once PCIe is ready (R334), and
waits for a line that a command owns and for queued atomics; any other has no effect and returns no data. -/
def execHostAccessArrive (tenant pa : Nat) (op : HostOp) (s : State) : Out :=
  let n := match op with | .load n => n | .store n _ => n
  if !isReady s .pcie || (keyRange pa n).any fun k => (deviceCheck s tenant k 1).isSome then .next s
  else match eventWaits (.hostAccessArrive tenant pa op) (keyRange pa n) s with
    | some t => .next t
    | none =>
      let s := leavePlaces (.event (.hostAccessArrive tenant pa op)) s
      match op with
      | .load n =>
        let r := plainRead pa n s
        .next (match r.2 with | some x => r.1.report (.hostData tenant x) | none => r.1)
      | .store n x => .next (plainWrite pa n x s)

end Sys2Proof.Machine
end

