-- ==== Sys2Proof/Machine/Queues.lean ====
section
/-!
DEFINITION. User queues (R317 to R322): the accesses of the landing (R371), control blocks, doorbells, ports, halts (R327),
the event ring (R328, R329), reading and checking packets (R323, R324), and the arbiter (R330).
-/
namespace Sys2Proof.Machine

/-! Accesses of the landing (R371): they have no core, and page faults go first to Naruno (R32). -/

/-- The landing, one party (R98), in reservation queues. -/
def landId : Nat := 2 ^ 60

/-- The landing as the requester of a tenant's accesses. -/
def landCmd (s : State) (t : Nat) : Cmd := { newCmd s (.skidder 0) (.packet t 0 0) 0 t 0 [] with id := landId }

/-- An access for a tenant; after a page fault that Naruno resolves it is performed again (R32, log 20). -/
def land {α : Type} (t : Nat) (f : Cmd → EM α) : EM α := fun s =>
  match f (landCmd s t) s with
  | .error (.fault x) s' =>
    if x.code = Cause.pageFault then
      match pageInFor s' t x.va with
      | some p => f (landCmd s t) (writePtes p.ptes s')
      | none => .error (.fault x) s'
    else .error (.fault x) s'
  | r => r

/-- Read `n` bytes for a tenant. -/
def landRead (t : Nat) (va : Word) (n : Nat) : EM Nat := land t fun c => engRead c va n

/-- The directory recalls the line of a device byte. -/
def recallKey (k : Nat) (s : State) : State := if Key.isDevice k then dirRecall (Key.line k) s else s

/-- Store `n` bytes for a tenant. -/
def landStore (t : Nat) (va : Word) (n v : Nat) : EM Unit := land t fun c => do
  let keys ← engDest c va n
  engFree c keys
  modify fun s => performWrite (cellsFor keys v) (recallKey (keys.headD 0) s)

/-- An atomic on an 8-byte word for a tenant. -/
def landAtomic (t : Nat) (va : Word) (f : AmoFun) : EM Unit := land t fun c => do
  let keys ← engResolve c va 8 .rmw (amoClass f.aop)
  engFree c keys
  let r := homeAtomic (keys.headD 0) f (← get)
  set r.1
  if r.2.isSome then pure () else throw .bad

/-- Try an access: none when it fails. A wait is passed on. -/
def attempt {α : Type} (m : EM α) : EM (Option α) := fun s =>
  match m s with
  | .ok x t => .ok (some x) t
  | .error (.busy w) t => .error (.busy w) t
  | .error _ t => .ok none t

/-- Run a step of the landing. One that meets a line of a command, or queued atomics, only takes its place there and is due again
(R83, R114). -/
def landing (again : Instr) (m : EM Unit) (s : State) : Out :=
  match m s with
  | .ok _ t => .next t
  | .error (.busy w) _ => .next ((waitAt (.command landId) w s).push again)
  | .error _ t => .next t

/-! Queues (R317). -/

/-- The queue of a tenant's qid. -/
def queueAt (s : State) (t qid : Nat) : Option Queue := s.queues.find? fun q => q.tenant == t && q.qid == qid

/-- Change a queue. -/
def mapQueue (t qid : Nat) (f : Queue → Queue) (s : State) : State :=
  { s with queues := s.queues.map fun q => if q.tenant = t ∧ q.qid = qid then f q else q }

/-- The STATE codes of a control block. -/
def queueCode : QueueSt → Nat
  | .mapped => 0 | .unmapped => 1 | .halted => 2 | .draining => 3 | .destroyed => 4

/-! CODE values of a control block. -/
namespace QCode
def badPacket : Nat := 1
def fetchFault : Nat := 2
def wordFault : Nat := 3
def overrun : Nat := 4
def badJump : Nat := 5
def copyFailed : Nat := 6
def aborted : Nat := 7
def recordFault : Nat := 8
def qcbFault : Nat := 9
end QCode

/-- DW4 of a control block. -/
def statusWord (q : Queue) : Nat := queueCode q.st * 2 ^ 56 + q.code % 256 * 2 ^ 48 + q.pidx % 2 ^ 48

/-- The packet slots of a ring. -/
def Queue.size (q : Queue) : Nat := 2 ^ q.log2n

/-! Interrupts and the event ring (R326, R328, R329). -/

/-- Raise a vector of a tenant's function, which PCIe must be ready for (R334, log 34). -/
def raiseIrq (t vec : Nat) (s : State) : State :=
  if !functionOn s t then s else s.mapTenant t fun x => { x with irqs := Tab.set x.irqs vec (Tab.getD x.irqs vec 0 + 1) }

/-- A doubleword of a tenant's event ring. -/
def ringRead (s : State) (t : Nat) (x : Tenant) (off : Nat) : Nat := ofBytes ((hostKeys s t (x.ring + off) 8).map s.mem.byte)
def ringWrite (t : Nat) (x : Tenant) (off v : Nat) (s : State) : State :=
  if functionOn s t then performWrite (cellsFor (hostKeys s t (x.ring + off) 8) v) s else s

/-- Whether a tenant's event ring has no room: it is full (R329), or PCIe is not ready to reach it (R334, log 34). -/
def ringFull (s : State) (t : Nat) (x : Tenant) : Bool := !functionOn s t || (ringRead s t x 0 + 2 ^ 64 - ringRead s t x 8) % 2 ^ 64 == 2 ^ x.en

/-- Write an entry, then WIDX, then raise vector 0 (R328). -/
def putEvent (t : Nat) (x : Tenant) (dw0 dw1 : Nat) (s : State) : State :=
  let w := ringRead s t x 0
  let e := 64 + 16 * (w % 2 ^ x.en)
  raiseIrq t 0 (ringWrite t x 0 (w + 1) (ringWrite t x (e + 8) dw1 (ringWrite t x e dw0 s)))

/-- The one OVERFLOW event after a loss (R329); its CODE and qid are not defined. -/
def putOverflow (t : Nat) (x : Tenant) (s : State) : State :=
  let w := (Config.freeWord s.free).toNat
  let s := ({ s with free := s.free + 1 } : State).mapTenant t fun x => { x with overflow := false }
  putEvent t x (2 + w % 2 ^ 20 * 2 ^ 8) (ringRead s t x 16) s

/-- Post an event (R328, R329). -/
def postEvent (t typ code qid pidx : Nat) (s : State) : State :=
  match Tab.get s.tenants t with
  | none => s
  | some x =>
    let s := if x.overflow && !ringFull s t x then putOverflow t x s else s
    if ringFull s t x then
      ((raiseIrq t 0 (ringWrite t x 24 (ringRead s t x 24 ||| 1) (ringWrite t x 16 (ringRead s t x 16 + 1) s))).mapTenant t
        fun x => { x with overflow := true }).pushOnce (.eventOverflowPost t)
    else putEvent t x (typ + code % 256 * 2 ^ 8 + qid % 4096 * 2 ^ 16) pidx s

/-- EVENT_OVERFLOW_POST (R329): once HIDX shows free space. -/
def execEventOverflowPost (tenant : Nat) (s : State) : Out :=
  match Tab.get s.tenants tenant with
  | none => .next s
  | some x =>
    if !x.overflow then .next s
    else if ringFull s tenant x then .next (s.push (.eventOverflowPost tenant))
    else .next (putOverflow tenant x s)

/-! Control blocks and halts (R317, R327). -/

/-- Write a doubleword of the control block: whether it was written. -/
def qcbWrite (q : Queue) (off v : Nat) : EM Bool := do
  let r ← attempt (landStore q.tenant (q.qcb + BitVec.ofNat 64 off) 8 v)
  pure r.isSome

/-- Halt a queue (R327): STATE, CODE and PIDX are written, QUEUE_HALTED is posted and vector 0 raised. When the control
block cannot be written, the code is QCB_FAULT in the landing's copy (R317). A packet at or after PIDX that has not started
is fetched again later. A queue that is halted, draining or destroyed stays as it is. -/
def haltQueue (t qid code pidx : Nat) : EM Unit := do
  match queueAt (← get) t qid with
  | none => pure ()
  | some q =>
    if q.st ≠ .mapped ∧ q.st ≠ .unmapped then pure ()
    else do
      let keep := match q.fetched with | some f => decide (f.1 < pidx) | none => false
      let q := { q with st := .halted, code := code, pidx := pidx,
                        fetched := if keep then q.fetched else none, granted := keep && q.granted }
      let ok ← qcbWrite q 32 (statusWord q)
      let q := if ok then q else { q with code := QCode.qcbFault }
      modify fun s =>
        let s := postEvent t 1 q.code qid pidx (mapQueue t qid (fun _ => q) s)
        if (match Tab.get s.tenants t with | some x => x.plugin | none => false) then
          ({ s with free := s.free + 1 } : State).push (.onHalt t qid (Config.freeWord s.free))
        else s

/-- The index that a QCB_FAULT names: the packet being handled, or RDIDX. -/
def qcbFail (t qid pidx : Nat) : EM Unit := haltQueue t qid QCode.qcbFault pidx

/-- Replace a queue's record and write its status doubleword. -/
def setStatus (q : Queue) : EM Unit := do
  modify (mapQueue q.tenant q.qid fun _ => q)
  let ok ← qcbWrite q 32 (statusWord q)
  if ok then pure () else qcbFail q.tenant q.qid q.rdidx

/-- The event that starts a packet. -/
def startEvent (t qid : Nat) (d : List Word) : Instr :=
  match Bits.field (Dw.w d 0) 0 8 with
  | 1 => .launch t qid
  | 2 => .copy t qid
  | 3 => .cond t qid
  | 4 => .signal t qid
  | _ => .barrierAnd t qid

/-- The events by which a queue goes on after a change of its state or of its packets. -/
def queueGoesOn (t qid : Nat) (s : State) : State :=
  match queueAt s t qid with
  | none => s
  | some q =>
    match q.st with
    | .mapped =>
      let s := (s.pushOnce (.packetFetch t qid)).pushOnce .arbiterCycle
      match q.fetched with
      | some f => if q.granted then s.pushOnce (startEvent t qid f.2) else s
      | none => s
    | .draining => if q.started.isEmpty then s.pushOnce (.queueDrainDone t qid) else s
    | _ => s

/-- A started packet has completed: the start of a number. -/
def finishPacket (t qid start : Nat) (s : State) : State :=
  queueGoesOn t qid (mapQueue t qid (fun q =>
    { q with started := q.started.filter (·.start != start), waiting := if q.waiting = some start then none else q.waiting }) s)

/-! Doorbells, ports and states (R318 to R321). -/

/-- The fold of R320: SHADOW := max(SHADOW, v) at the control block, with the tenant's pending bit. -/
def foldShadow (q : Queue) (v : Nat) : EM Unit := do
  modify (mapQueue q.tenant q.qid fun q => { q with pending := true })
  match ← attempt (landAtomic q.tenant (q.qcb + 24) ⟨true, 7, false, 0, v⟩) with
  | some _ => pure ()
  | none => qcbFail q.tenant q.qid q.rdidx

/-- A doorbell write (R318, R320). -/
def doorbell (t qid : Nat) (v : Word) : EM Unit := do
  match queueAt (← get) t qid with
  | none => pure ()
  | some q =>
    match q.st with
    | .mapped =>
      if v.toNat > q.rdidx + q.size then haltQueue t qid QCode.overrun q.rdidx
      else modify fun s => queueGoesOn t qid (mapQueue t qid (fun q => { q with nidx := Nat.max q.nidx v.toNat }) s)
    | .unmapped => do
      foldShadow q v.toNat
      modify fun s => s.pushOnce (.queueMap t qid)
    | .halted | .draining => foldShadow q v.toNat
    | .destroyed => pure ()

/-- DOORBELL_WRITE (R318), through the tenant's function once PCIe is ready (R334). -/
def execDoorbellWrite (tenant qid : Nat) (v : Word) (s : State) : Out :=
  if !functionOn s tenant then .next s else landing (.doorbellWrite tenant qid v) (doorbell tenant qid v) s

/-- The queue ports (R319). -/
def portCount : Nat := 1024

/-- A free port. -/
def freePort (s : State) : Option Nat := (List.range portCount).find? fun p => !s.queues.any (·.port == some p)

/-- NIDX := max(SHADOW, saved NIDX) and the pending bit is cleared (R320); a notify index beyond the ring halts the queue as
its doorbell would have (R318). -/
def takeShadow (q : Queue) : EM Unit := do
  match ← attempt (landRead q.tenant (q.qcb + 24) 8) with
  | none => qcbFail q.tenant q.qid q.rdidx
  | some v => do
    let q := { q with nidx := Nat.max v q.nidx, pending := false }
    setStatus q
    if v > q.rdidx + q.size then haltQueue q.tenant q.qid QCode.overrun q.rdidx else pure ()
    modify (queueGoesOn q.tenant q.qid)

/-- Map a queue to a port (R319, R320), once Naruno's scheduler is ready (R322, R334). Without a free port, an idle queue
gives up its own. -/
def mapBody (t qid : Nat) : EM Unit := do
  let s ← get
  match queueAt s t qid with
  | none => pure ()
  | some q =>
    if q.st ≠ .unmapped then pure ()
    else if !isReady s .firmware then modify fun s => s.push (.queueMap t qid)
    else match freePort s with
      | some p => takeShadow { q with st := .mapped, port := some p }
      | none => modify fun s =>
        let idle := s.queues.find? fun x => x.st == .mapped && decide (x.nidx ≤ x.next) && x.fetched.isNone
        (match idle with | some x => s.pushOnce (.queueUnmap x.tenant x.qid) | none => s).push (.queueMap t qid)

/-- QUEUE_MAP (R320). -/
def execQueueMap (tenant qid : Nat) (s : State) : Out := landing (.queueMap tenant qid) (mapBody tenant qid) s

/-- QUEUE_UNMAP (R320): the fold of NIDX, then the port is free. A queue that still has packets to fetch is mapped again
later. -/
def unmapBody (t qid : Nat) : EM Unit := do
  match queueAt (← get) t qid with
  | none => pure ()
  | some q =>
    if q.st ≠ .mapped then pure ()
    else do
      foldShadow q q.nidx
      match queueAt (← get) t qid with
      | none => pure ()
      | some q =>
        if q.st ≠ .mapped then pure ()
        else do
          setStatus { q with st := .unmapped, port := none }
          modify fun s => if q.next < q.nidx || q.fetched.isSome then s.pushOnce (.queueMap t qid) else s

/-- QUEUE_UNMAP (R320). -/
def execQueueUnmap (tenant qid : Nat) (s : State) : Out := landing (.queueUnmap tenant qid) (unmapBody tenant qid) s

/-- Resume a halted queue (R320): CODE := 0, PIDX kept, fetch restarts at PIDX; one that still has its port is MAPPED. -/
def resumeBody (t qid : Nat) : EM Unit := do
  match queueAt (← get) t qid with
  | none => pure ()
  | some q =>
    if q.st ≠ .halted then pure ()
    else
      let q := { q with code := 0, next := q.pidx }
      if q.port.isSome then takeShadow { q with st := .mapped }
      else do
        setStatus { q with st := .unmapped }
        modify fun s => s.pushOnce (.queueMap t qid)

/-- A request that Naruno's scheduler serves waits until it is ready (R322, R334). -/
def byNaruno (again : Instr) (m : EM Unit) (s : State) : Out :=
  if isReady s .firmware then landing again m s else .next (s.push again)

/-- QUEUE_RESUME (R320). -/
def execQueueResume (tenant qid : Nat) (s : State) : Out := byNaruno (.queueResume tenant qid) (resumeBody tenant qid) s

/-- The first phase of destroying a queue (R321): fetching stops. -/
def drainBody (t qid : Nat) (abort : Bool) : EM Bool := do
  match queueAt (← get) t qid with
  | none => pure false
  | some q =>
    if q.st = .draining ∨ q.st = .destroyed then pure false
    else do
      setStatus { q with st := .draining, abort := abort, port := none, fetched := none, granted := false }
      modify (queueGoesOn t qid)
      pure true

/-- QUEUE_DESTROY with FINISH (R321). -/
def execQueueDestroyFinish (tenant qid : Nat) (s : State) : Out :=
  byNaruno (.queueDestroyFinish tenant qid) (do let _ ← drainBody tenant qid false; pure ()) s

/-- QUEUE_DRAIN_DONE (R321): no started packet remains. -/
def drainDone (t qid : Nat) : EM Unit := do
  match queueAt (← get) t qid with
  | none => pure ()
  | some q =>
    if q.st ≠ .draining ∨ !q.started.isEmpty then pure ()
    else do
      let q := { q with st := .destroyed, code := if q.abort then QCode.aborted else 0, pidx := q.rdidx }
      setStatus q
      modify (postEvent t 3 q.code qid q.pidx)

/-- QUEUE_DRAIN_DONE (R321). -/
def execQueueDrainDone (tenant qid : Nat) (s : State) : Out := landing (.queueDrainDone tenant qid) (drainDone tenant qid) s

/-- The control block of a new queue. -/
def qcbInit (q : Queue) : Nat :=
  packElems 64 [q.base.toNat, q.log2n, 0, 0, statusWord q, 0, 0, 0]

/-- QUEUE_CREATE (R317, R371): the control block in the UNMAPPED state. Naruno refuses a ring or a control block in the local
half, a misaligned one, and a size, qid or tenant that does not exist; it serves no one until FW is set (R334). -/
def execQueueCreate (tenant qid : Nat) (qcb base : Word) (log2n : Nat) (s : State) : Out :=
  landing (.queueCreate tenant qid qcb base log2n) (do
    let s ← get
    let used := match queueAt s tenant qid with | some q => q.st != .destroyed | none => false
    if used || (Tab.get s.tenants tenant).isNone || 4096 ≤ qid || qcb.getLsbD 56 || base.getLsbD 56 || qcb.toNat % 64 != 0 ||
        base.toNat % 4096 != 0 || log2n < 4 || 20 < log2n || !isReady s .firmware then pure ()
    else do
      let q : Queue :=
        { tenant := tenant, qid := qid, qcb := qcb, base := base, log2n := log2n, rdidx := 0, nidx := 0, next := 0,
          st := .unmapped, code := 0, pidx := 0, port := none, pending := false, fetched := none, granted := false,
          started := [], waiting := none, abort := false }
      modify fun s => { s with queues := s.queues.filter (fun x => !(x.tenant == tenant && x.qid == qid)) ++ [q] }
      match ← attempt (landStore tenant qcb 64 (qcbInit q)) with
      | some _ => pure ()
      | none => qcbFail tenant qid 0) s

/-! Packets (R323 to R325). -/

/-! The fields of a packet's header (R323, R324). -/
namespace Pkt
def typ (d : List Word) : Nat := Bits.field (Dw.w d 0) 0 8
def bar (d : List Word) : Bool := (Dw.w d 0).getLsbD 8
def ts (d : List Word) (lo n : Nat) : Nat := Bits.field (Dw.w d 0) lo n
def pre (d : List Word) : Bool := (Dw.w d 0).getLsbD 16
def cmp (d : List Word) : Nat := ts d 16 3
def act (d : List Word) : Nat := ts d 20 2
def cnt (d : List Word) : Nat := ts d 24 8
def op (d : List Word) : Nat := ts d 16 2
def intr (d : List Word) : Bool := (Dw.w d 0).getLsbD 18
def coal (d : List Word) : Bool := (Dw.w d 0).getLsbD 19
def vec (d : List Word) : Nat := ts d 20 11
def nw (d : List Word) : Nat := ts d 16 3
end Pkt

/-- Whether doublewords `j` and on are zero. -/
def zeroFrom (d : List Word) (j : Nat) : Bool := (d.drop j).all (· == 0)

/-- Whether the landing refuses a packet with BAD_PACKET (R323, R324). -/
def packetBad (d : List Word) : Bool :=
  let al (j n : Nat) : Bool := (Dw.w d j).toNat % n == 0
  Pkt.ts d 9 7 != 0 ||
    (match Pkt.typ d with
     | 1 => Pkt.ts d 17 47 != 0 || !al 1 256 || !zeroFrom d 2
     | 2 => Pkt.ts d 17 47 != 0 || !al 4 8 || Dw.w d 3 == 0 || decide (2 ^ 40 < (Dw.w d 3).toNat) || !zeroFrom d 6
     | 3 => Pkt.ts d 19 1 != 0 || Pkt.ts d 22 2 != 0 || Pkt.ts d 32 32 != 0 || 6 ≤ Pkt.cmp d || Pkt.act d == 3 || !al 1 8 ||
         !zeroFrom d 4
     | 4 => Pkt.ts d 31 33 != 0 || 2 ≤ Pkt.op d || !al 1 8 || !zeroFrom d 4
     | 5 => Pkt.ts d 19 45 != 0 || Pkt.nw d == 0 || 6 ≤ Pkt.nw d || Dw.w d 7 != 0 ||
         !((List.range 5).all fun i => if i < Pkt.nw d then al (i + 1) 8 else Dw.w d (i + 1) == 0)
     | _ => true)

/-- The packet slot of an index. -/
def packetAddr (q : Queue) (x : Nat) : Word := q.base + BitVec.ofNat 64 (64 * (x % q.size))

/-- Whether a queue can fetch its next packet (R318, R319, R325). -/
def canFetch (q : Queue) : Bool :=
  q.st == .mapped && q.fetched.isNone && q.waiting.isNone && decide (q.next < q.nidx)

/-- Read the next packet of a queue whole, once the landing is ready (R334), count it in RDIDX, and check it (R317, R321, R324,
R327). -/
def fetchBody (t qid : Nat) : EM Unit := do
  match queueAt (← get) t qid with
  | none => pure ()
  | some q =>
    if !canFetch q then pure ()
    else if !isReady (← get) .landing then modify fun s => s.push (.packetFetch t qid)
    else
      let x := q.next
      match ← attempt (landRead t (packetAddr q x) 64) with
      | none => haltQueue t qid QCode.fetchFault x
      | some w => do
        let d := (List.range 8).map fun i => BitVec.ofNat 64 (w / 2 ^ (64 * i))
        let q := { q with rdidx := Nat.max q.rdidx (x + 1), next := x + 1 }
        modify (mapQueue t qid fun _ => q)
        let ok ← qcbWrite q 16 q.rdidx
        if !ok then qcbFail t qid x
        else if packetBad d then haltQueue t qid QCode.badPacket x
        else modify fun s => (mapQueue t qid (fun q => { q with fetched := some (x, d) }) s).pushOnce .arbiterCycle

/-- PACKET_FETCH (R325). -/
def execPacketFetch (tenant qid : Nat) (s : State) : Out := landing (.packetFetch tenant qid) (fetchBody tenant qid) s

/-! The arbiter (R330). -/

/-- BUD and DCAP of tbud. -/
def Tenant.bud (x : Tenant) : Nat := Bits.field x.tbud 0 24
def Tenant.dcap (x : Tenant) : Nat := Bits.field x.tbud 24 24

/-- A tenant at a period start (R330, R333): its balance is topped up, and the tenant may have reloaded a disabled plug-in, a free
choice `w` (log 37). -/
def Tenant.nextPeriod (x : Tenant) (w : Word) : Tenant :=
  { x with bal := min (x.bal + x.bud) x.bud, plugin := x.plugin || w.getLsbD 0 }

/-- Every 64 periods an enabled plug-in is asked for a budget (R333). -/
def askBudget (s : State) (t : Nat × Tenant) : State :=
  if t.2.plugin && s.periods % 64 == 0 then
    ({ s with free := s.free + 1 } : State).pushOnce (.onBudget t.1 (Config.freeWord s.free))
  else s

/-- A launch whose placement was put off by a period is due for its plug-in's decision again, or for its placement when the plug-in
is disabled (R333). -/
def launchPeriod (s : State) (l : Nat × Launch) : State :=
  if l.2.st = .waiting && l.2.deferred then
    let ret : Word := if (Tab.get s.tenants l.2.tenant).any (·.plugin) then Config.freeWord s.free else 0
    (({ s with free := s.free + 1 } : State).mapLaunch l.1 fun l => { l with deferred := false }).push (.onLaunch l.1 ret)
  else s

/-- ARBITER_PERIOD_START (R330, R333): balances are topped up, the lending count is reset, and plug-ins are called. -/
def execArbiterPeriodStart (s : State) : Out :=
  let s := s.tenants.foldl askBudget { s with lent := 0, periods := s.periods + 1 }
  let s : State := { s with
    tenants := s.tenants.zipIdx.map fun t => (t.1.1, t.1.2.nextPeriod (Config.freeWord (s.free + t.2))), free := s.free + s.tenants.length }
  let s := s.launches.foldl launchPeriod s
  .next (if s.queues.any (·.fetched.isSome) then s.pushOnce .arbiterCycle else s)

/-- Whether a launch of a queue waits at its head (R331). -/
def launchWaits (s : State) (q : Queue) : Bool :=
  s.launches.any fun l => l.2.tenant == q.tenant && l.2.qid == q.qid && l.2.st == .waiting

/-- Whether the next packet of a queue is ready to start (R325). -/
def packetReady (s : State) (q : Queue) : Bool :=
  match q.fetched with
  | none => false
  | some f =>
    q.st == .mapped && !q.granted && q.waiting.isNone && q.started.length < 64 && !launchWaits s q &&
      (!Pkt.bar f.2 || q.started.isEmpty)

/-- The member of a rising list that follows a number, cyclically. -/
def nextAfter (l : List Nat) (x : Nat) : Option Nat :=
  match l.find? (x < ·) with
  | some y => some y
  | none => l.head?

/-- The tenant whose packet starts in this cycle, and whether the token is borrowed (R330). -/
def arbiterPick (s : State) : Option (Nat × Bool) :=
  let ready (t : Nat) : Bool := s.queues.any fun q => q.tenant == t && packetReady s q
  let names (p : Nat × Tenant → Bool) : List Nat := (s.tenants.filter p).map (·.1)
  let e := names fun t => ready t.1 && decide (0 < t.2.bal)
  match nextAfter e s.rrTenant with
  | some t => some (t, false)
  | none =>
    let pool := ((s.tenants.filter fun t => !ready t.1 && decide (0 < t.2.bal)).map (·.2.bal)).sum
    let b := names fun t => ready t.1 && decide (-(t.2.dcap : Int) < t.2.bal)
    if (s.lent : Int) < pool then (nextAfter b s.rrTenant).map fun t => (t, true) else none

/-- ARBITER_CYCLE (R330): a tenant by tokens or by borrowing, then the next of its ready queues in round robin; the start of
its packet is granted. When a packet is ready and no tenant may start one, the period goes on. -/
def execArbiterCycle (s : State) : Out :=
  if !isReady s .landing then .next (s.push .arbiterCycle)
  else match arbiterPick s with
  | none =>
    if s.queues.any (packetReady s) then .next ((s.pushOnce .arbiterPeriodStart).pushOnce .arbiterCycle) else .next s
  | some (t, borrowed) =>
    let rr := ((Tab.get s.tenants t).map (·.rr)).getD 0
    let qs := Sorted.ofList ((s.queues.filter fun q => q.tenant == t && packetReady s q).map (·.qid))
    match nextAfter qs rr with
    | none => .next s
    | some qid =>
      let s := ({ s with rrTenant := t, lent := if borrowed then s.lent + 1 else s.lent } : State).mapTenant t
        fun x => { x with bal := x.bal - 1, rr := qid }
      let d := (((queueAt s t qid).bind (·.fetched)).map (·.2)).getD []
      let s := (mapQueue t qid (fun q => { q with granted := true }) s).push (startEvent t qid d)
      .next (if s.queues.any (packetReady s) then s.pushOnce .arbiterCycle else s)

/-- Take the granted packet of a queue for its start: its index and doublewords, when it is of the given type and the queue
is MAPPED. -/
def takePacket (t qid typ : Nat) : EM (Option (Queue × Nat × List Word)) := do
  match queueAt (← get) t qid with
  | none => pure none
  | some q =>
    match q.fetched with
    | none => pure none
    | some (x, d) =>
      if q.granted && q.st == .mapped && Pkt.typ d == typ then do
        let q := { q with fetched := none, granted := false }
        modify (mapQueue t qid fun _ => q)
        pure (some (q, x, d))
      else pure none

/-- Add a started packet to its queue (R325), under a start number of its own. -/
def addStarted (t qid x : Nat) (d : List Word) (waits : Bool) (s : State) : State :=
  queueGoesOn t qid (mapQueue t qid (fun q =>
    { q with started := q.started ++ [⟨s.nextId, x, d, [], 0, none⟩], waiting := if waits then some s.nextId else q.waiting })
    { s with nextId := s.nextId + 1 })

/-- The oldest start of a packet index that meets a condition: a packet can be started again before it has completed, by a jump
back or a resume (R320, R325). -/
def startedAt (s : State) (t qid x : Nat) (p : Started → Bool) : Option Started :=
  (queueAt s t qid).bind fun q => q.started.find? fun y => y.idx == x && p y

/-- The start that blocks its queue (R325). -/
def waitingStart (s : State) (t qid : Nat) : Option Started :=
  (queueAt s t qid).bind fun q => q.waiting.bind fun n => q.started.find? (·.start == n)

end Sys2Proof.Machine
end

