-- ==== Sys2Proof/Machine/Place.lean ====
section
/-!
DEFINITION. The check of a launch record (R46, R163, R179, R180), the choice of cores for a hierarchy (R163, R331), and the
assignment of granules and scratchpad regions (R41, R43, R53, R54).
-/
namespace Sys2Proof.Machine

/-! The record check (R179). -/

/-- Whether positions hold a permutation of the dimensions below `n` (R179). -/
def permOk (r : List Word) (n : Nat) : Bool :=
  (List.range n).all (fun d => (List.range n).any fun p => Rec.perm r p == d) &&
    (List.range 6).all fun p => p < n || Rec.perm r p == 0

/-- The position of a dimension in PERM. -/
def permPos (r : List Word) (d : Nat) : Nat := ((List.range 6).find? fun p => Rec.perm r p == d).getD 6

/-- The low part of a doubleword that must be zero. -/
def reservedZero (r : List Word) (off lo n : Nat) : Bool := Bits.field (Rec.at' r off) lo n == 0

/-- Whether an address lies in the code range, on an instruction boundary (R178). -/
def inCode (r : List Word) (a : Word) : Bool :=
  a.toNat % 16 == 0 && (Rec.codeb r).toNat ≤ a.toNat && a.toNat < (Rec.codeb r).toNat + (Rec.codel r).toNat

/-- RECORD_INVALID (R179, R180). -/
def recordInvalid (r : List Word) (pre : Bool) : Bool :=
  let nl := Rec.nlvl r
  let nd := Rec.ndim r
  let cl := (Rec.codel r).toNat
  let al (off n : Nat) : Bool := (Rec.at' r off).toNat % n == 0
  let good :=
    Bits.field (Rec.at' r 0) 56 8 == 3 && 1 ≤ nl && nl ≤ 8 && 1 ≤ nd && nd ≤ 6 && 1 ≤ Rec.cpg r && Rec.cpg r ≤ 4 &&
    Rec.mode r != 3 &&
    reservedZero r 0 0 40 && reservedZero r 0x90 31 33 && reservedZero r 0x98 0 41 && reservedZero r 0xC8 0 61 &&
    reservedZero r 0xF0 0 64 && reservedZero r 0xF8 0 64 &&
    (List.range 8).all (fun l =>
      if l < nl then Rec.bind r l ≤ 5 && Rec.scope r l ≤ 4 && Rec.lvld r l / 2 ^ 24 % 4 == 0 else Rec.lvld r l == 0) &&
    (List.range 6).all (fun d =>
      reservedZero r (0x60 + 8 * d) 0 16 &&
        (if d < nd then Rec.extn r d != 0 && Rec.tsz r d != 0 else Rec.at' r (0x60 + 8 * d) == 0)) &&
    permOk r nd && (List.range 6).all (fun d => d < nd || !Rec.serp r d) &&
    (!Rec.mort r || (Rec.mda r < nd && Rec.mdb r < nd && permPos r (Rec.mdb r) == permPos r (Rec.mda r) + 1)) &&
    (!Rec.ftab r || (Rec.fdim r < nd && al 0xC0 64)) && Rec.total r ≤ 2 ^ 48 &&
    al 0x10 16 && 16 ≤ cl && cl ≤ 2 ^ 32 && cl % 16 == 0 && inCode r (Rec.entry r) && Rec.compl r != 0 && al 0x28 64 &&
    (!pre || (al 0xD0 64 && al 0xD8 64 && inCode r (Rec.ppc r) && reservedZero r 0xE8 0 23 && reservedZero r 0xE8 24 1))
  !good

/-- PARTITION_INVALID (R46). -/
def partitionInvalid (p : Word) : Bool :=
  Part.slots p == 0 || 16 < Part.slots p || 16 < Part.frames p || 96 < Part.spg p || 128 < Part.gsg p || 96 < Part.total p ||
    Bits.field p 56 8 != 0 || Bits.field p 39 9 != 0 || Bits.field p 29 3 != 0 || Bits.field p 21 3 != 0 ||
    Bits.field p 10 6 != 0 || Bits.field p 0 8 != 0

/-! The hierarchy (R163). -/

/-- The levels of a record: binding domain and extent, outermost first. -/
def levels (r : List Word) : List (Nat × Nat) := (List.range (Rec.nlvl r)).map fun l => (Rec.bind r l, Rec.xt r l)

/-- The least scope that covers a binding domain (R101, R163). -/
def needScope (bind : Nat) : Nat := if bind = 0 then 4 else if bind = 1 then 3 else if bind = 2 then 2 else if bind = 3 then 1 else 0

/-- Whether binding domains become finer or stay equal. -/
def finer : List (Nat × Nat) → Bool
  | a :: b :: t => decide (a.1 ≤ b.1) && finer (b :: t)
  | _ => true

/-- The levels that give cores of their own: all but the SLOT level and the CORE-bound levels under a CORE-bound parent,
with the binding of each and whether it is finer than its parent's (R163). -/
def coreLevels : Nat → List (Nat × Nat) → List (Nat × Nat × Bool)
  | _, [] => []
  | parent, l :: t =>
    if l.1 = 5 ∨ (l.1 = 4 ∧ parent = 4) then coreLevels l.1 t
    else (l.1, l.2, decide (parent < l.1)) :: coreLevels l.1 t

/-- The slots on one core: the other levels (R163). -/
def slotsPer : Nat → List (Nat × Nat) → Nat
  | _, [] => 1
  | parent, l :: t => (if l.1 = 5 ∨ (l.1 = 4 ∧ parent = 4) then l.2 else 1) * slotsPer l.1 t

/-- The product of the extents of some levels. -/
def extents (l : List (Nat × Nat × Bool)) : Nat := l.foldl (fun n x => n * x.2.1) 1

/-- The cores of one replica. -/
def coresNeeded (l : List (Nat × Nat)) : Nat := extents (coreLevels 0 l)

/-- How many cores in a row share the domain instance of the level bound to `bind` that is finer than its parent's; none
when the hierarchy has no such level (R163). -/
def runLength (bind : Nat) : List (Nat × Nat × Bool) → Option Nat
  | [] => none
  | l :: t => if l.1 = bind ∧ l.2.2 then some (extents t) else runLength bind t

/-- Whether the core numbers `p j` of one replica fit the hierarchy (R163): cores of one domain instance lie in one unit, and
those of different ones in different units. -/
def fitsDomain (unit : Nat → Nat) (run : Option Nat) (cores : List Nat) : Bool :=
  match run with
  | none => true
  | some n =>
    let tags := cores.zipIdx.map fun c => (c.2 / Nat.max 1 n, unit c.1)
    tags.all fun a => tags.all fun b => (a.1 == b.1) == (a.2 == b.2)

/-- Whether a list rises strictly. -/
def risingNat : List Nat → Bool
  | a :: b :: t => decide (a < b) && risingNat (b :: t)
  | _ => true

/-- The dies are R1's four; the units of a core. -/
def coresFit (l : List (Nat × Nat)) (cores : List Nat) : Bool :=
  let cl := coreLevels 0 l
  cores.length == extents cl && risingNat cores && fitsDomain dieOfCore (runLength 2 cl) cores &&
    fitsDomain groveOfCore (runLength 3 cl) cores && (match runLength 1 cl with | some n => extents cl ≤ n | none => true)

/-- Whether a unit is in service (R163, R344) and its die ready (R334). -/
def inService (s : State) (core : Nat) : Bool :=
  !s.quarantined.contains (.core core) && !s.quarantined.contains (.grove (groveOfCore core))

/-- Whether a die may take launches (R334). -/
def dieReady (s : State) (core : Nat) : Bool := s.rdymap.getLsbD (dieOfCore core)

/-- Choose cores for a run of demands: `groups` cores-in-a-row lists, each within one unit of size `size`, taking units in
increasing order, each at most once. `sub` chooses within a unit. -/
def chooseUnits (sub : Nat → Option (List Nat)) : List Nat → Nat → Option (List Nat)
  | _, 0 => some []
  | [], _ + 1 => none
  | u :: us, n + 1 =>
    match sub u with
    | some l => (chooseUnits sub us n).map (l ++ ·)
    | none => chooseUnits sub us (n + 1)

/-- The first `n` cores that are allowed, from a list. -/
def firstCores (ok : Nat → Bool) (l : List Nat) (n : Nat) : Option (List Nat) :=
  let m := (l.filter ok).take n
  if m.length = n then some m else none

/-- The cores of a grove and the groves of a die. -/
def coresOfGrove (g : Nat) : List Nat := keyRange (g * Config.coresPerGrove) Config.coresPerGrove
def grovesOfDie (d : Nat) : List Nat := keyRange (d * 24) 24

/-- Cores for a hierarchy on some dies, among those allowed, in increasing physical order (R331): the first that fit. -/
def chooseOn (ok : Nat → Bool) (l : List (Nat × Nat)) (dies : List Nat) : Option (List Nat) :=
  let cl := coreLevels 0 l
  let total := extents cl
  let inGroves (gs : List Nat) (n : Nat) : Option (List Nat) :=
    match runLength 3 cl with
    | some k => chooseUnits (fun g => firstCores ok (coresOfGrove g) k) gs (n / Nat.max 1 k)
    | none => firstCores ok (gs.flatMap coresOfGrove) n
  if (match runLength 1 cl with | some n => decide (n < total) | none => false) then none
  else match runLength 2 cl with
    | some k => chooseUnits (fun d => inGroves (grovesOfDie d) k) dies (total / Nat.max 1 k)
    | none => inGroves (dies.flatMap grovesOfDie) total

/-- The replicas that this module holds: under PLC 1 one, the others on paired modules (R331). -/
def replicasHere (r : List Word) : Nat := if Rec.mode r = 0 ∨ Rec.plc r then 1 else Rec.mode r + 1

/-- The number of replicas. -/
def replicaCount (r : List Word) : Nat := if Rec.mode r = 0 then 1 else Rec.mode r + 1

/-- Choose cores for every replica (R331): each on a die of its own under PLC 0, the lowest dies first. -/
def chooseAll (ok : Nat → Bool) (r : List Word) : Option (List (List Nat)) :=
  let l := levels r
  if replicasHere r = 1 then
    (chooseOn ok l [0, 1, 2, 3]).map fun x => [x]
  else
    let each := [0, 1, 2, 3].filterMap fun d => chooseOn ok l [d]
    if replicasHere r ≤ each.length then some (each.take (replicasHere r)) else none

/-- HIERARCHY_INVALID (R163, R331), judged as if every unit in service were free. Naruno makes no unit of another module
available (log 12), but for the replicas of PLC 1. -/
def hierarchyInvalid (s : State) (tenant : Nat) (r : List Word) : Bool :=
  let l := levels r
  let n := l.length
  let bad := (l.getLast?.map (·.1)) != some 5 || (l.take (n - 1)).any (·.1 == 5) || !finer l ||
    (List.range n).any (fun i => Rec.scope r i < needScope (Rec.bind r i)) ||
    Part.slots (Rec.part r) < slotsPer 0 l ||
    (Rec.mode r != 0 && !Rec.plc r && l.any fun x => x.1 ≤ 1) ||
    (Rec.mode r != 0 && Rec.plc r && (s.pairs.filter (·.1 == tenant)).length < Rec.mode r)
  bad || (chooseAll (inService s) r).isNone

/-- The errata masks OLD and RET of a tenant's function (R360). -/
def errataOf (s : State) (tenant : Nat) : Word × Word := Tab.getD s.errata tenant (0, 0)

/-- The launch status of the check (R179, R193): 0, or the first failure. -/
def recordCheck (s : State) (tenant : Nat) (r : List Word) (pre : Bool) : Nat :=
  if recordInvalid r pre then 3
  else if Rec.compat r &&& (errataOf s tenant).2 != 0 then 6
  else if partitionInvalid (Rec.part r) then 4
  else if hierarchyInvalid s tenant r then 5
  else 0

/-! Free resources (R43, R46, R53, R54, R331). -/

/-- The contexts resident on a core. -/
def residents (s : State) (core : Nat) : List Nat := (s.coreOf core).res.toList.filterMap id

/-- The granules of a core that resident contexts hold. -/
def usedGranules (s : State) (core : Nat) : List Nat :=
  (residents s core).flatMap fun cid => ((s.ctxOf cid).shares.filter (·.pcore == core)).flatMap (·.grans)

/-- The free granules of a core in increasing number. -/
def freeGranules (s : State) (core : Nat) : List Nat :=
  let used := usedGranules s core
  (List.range Config.granules).filter fun g => !used.contains g

/-- The lowest free resident index of a core. -/
def freeRix (s : State) (core : Nat) : Option Nat :=
  (List.range 4).find? fun i => ((s.coreOf core).res[i % 4]'(Nat.mod_lt _ (by decide))).isNone

/-- The slots of the contexts resident on a core. -/
def slotsOn (s : State) (core : Nat) : Nat := ((residents s core).map fun cid => Part.slots (s.ctxOf cid).part).sum

/-- CSZ in 64 KiB units, and SHD (R53). -/
def cacheUnits (g : Word) : Nat := if Bits.field g 8 2 = 0 then 0 else 16 * 2 ^ (Bits.field g 8 2)
def shadowUnits (g : Word) : Nat := Bits.field g 0 8

/-- The 64 KiB units of a grove's grant area (R54). -/
def grantUnits (s : State) (g : Nat) : Nat := 128 - cacheUnits (s.groveOf g).gcfg - shadowUnits (s.groveOf g).gcfg

/-- The grants of the contexts resident on a grove: base and length (R54). -/
def grantsOn (s : State) (g : Nat) : List (Nat × Nat) :=
  (s.ctxs.filter fun c => isResident c.2 && c.2.shares.any fun sh => groveOfCore sh.pcore == g).map fun c =>
    (Tab.getD c.2.gbase g 0, Part.gsg c.2.part)

/-- Whether a grant fits a grove (R54): within the grant area, and overlapping no other. -/
def grantFits (s : State) (g base len : Nat) : Bool :=
  base + len ≤ grantUnits s g && (grantsOn s g).all fun x => x.1 + x.2 ≤ base || base + len ≤ x.1 || len == 0 || x.2 == 0

/-- The lowest base at which a grant fits. -/
def chooseBase (s : State) (g len : Nat) : Option Nat :=
  if len = 0 then some 0 else (List.range 128).find? fun b => grantFits s g b len

/-- Whether a core has room for a context of a partition (R43, R331): granules, a resident index, slot-table entries. -/
def coreRoom (s : State) (part : Word) (core : Nat) : Bool :=
  inService s core && dieReady s core && (freeRix s core).isSome && Part.total part ≤ (freeGranules s core).length &&
    slotsOn s core + Part.slots part ≤ 32

/-- Whether every stack that serves memory of a tenant is ready (R334). -/
def stacksReady (s : State) (tenant : Nat) : Bool :=
  (s.owners.filter (·.2 == tenant)).all fun o => (List.range 16).all fun i =>
    s.rdymap.getLsbD (4 + pseudoChannel s.memcfg (o.1 * 65536 + 4096 * i) / 64)

/-- The pool numbers of a tenant's live contexts (R172). -/
def usedPools (s : State) (tenant : Nat) : List Nat :=
  (s.ctxs.filter fun c => c.2.tenant == tenant && c.2.st != .destroyed).map (·.2.pool)

/-- Whether a tenant may have `n` more live contexts (R172). -/
def poolsFree (s : State) (tenant n : Nat) : Bool := (usedPools s tenant).length + n ≤ 1024

/-- Whether a grant lies within the grant areas of enough groves in service for a launch (R54); if not, its start is refused. -/
def grantPossible (s : State) (r : List Word) : Bool :=
  (chooseAll (fun core => inService s core && Part.gsg (Rec.part r) ≤ grantUnits s (groveOfCore core)) r).isSome

/-- Whether a core has room for a launch, its grove's grant included (R54). -/
def coreFree (s : State) (part : Word) (core : Nat) : Bool :=
  coreRoom s part core && (chooseBase s (groveOfCore core) (Part.gsg part)).isSome

/-- The grant bases of the groves that some cores lie in. -/
def chooseBases (s : State) (part : Word) (cores : List Nat) : List (Nat × Nat) :=
  (Sorted.ofList (cores.map groveOfCore)).map fun g => (g, (chooseBase s g (Part.gsg part)).getD 0)

/-- The landing's own choice for a launch on the resources that are free: the first that fits (log 12). -/
def firstFit (s : State) (r : List Word) : Option PlaceChoice :=
  (chooseAll (coreFree s (Rec.part r)) r).map fun cs => ⟨cs, chooseBases s (Rec.part r) cs.flatten⟩

/-- The choice with which a launch is placed: the one that is given, or the landing's own where none is. -/
def choiceFor (s : State) (r : List Word) (c : PlaceChoice) : PlaceChoice :=
  if c.cores.isEmpty then (firstFit s r).getD c else c

/-- The lowest die of some cores. -/
def lowDie (l : List Nat) : Nat := dieOfCore (l.headD 0)

/-- Whether a choice suits a launch but for its grants: cores that fit the hierarchy and have room, and a grant base for each of
their groves (R331). -/
def coresOk (s : State) (r : List Word) (c : PlaceChoice) : Bool :=
  let part := Rec.part r
  let all := c.cores.flatten
  c.cores.length == replicasHere r && c.cores.all (coresFit (levels r)) && all.all (coreRoom s part) &&
    (c.cores.length == 1 || (c.cores.all (fun l => l.all fun x => dieOfCore x == lowDie l) && risingNat (c.cores.map lowDie))) &&
    (all.map groveOfCore).all fun g => (Assoc.get c.gbase g).isSome

/-- Whether the grants of a choice lie within the grant areas and overlap no others (R54). -/
def grantsOk (s : State) (r : List Word) (c : PlaceChoice) : Bool :=
  (c.cores.flatten.map groveOfCore).all fun g => grantFits s g ((Assoc.get c.gbase g).getD 0) (Part.gsg (Rec.part r))

/-- Whether a choice can be carried out for a launch (R54, R331). -/
def choiceOk (s : State) (r : List Word) (c : PlaceChoice) : Bool := coresOk s r c && grantsOk s r c

/-! Assignment (R41, R44, R153). -/

/-- Zero a range of SRAM and set its full/empty bits full (R41): sound words, unless an injection matches. -/
def zeroRange (lo len : Nat) (s : State) : State :=
  let out (k : Nat) : Bool := k < lo || lo + len ≤ k
  let quiet := rasQuiet s
  let s := { s with mem := s.mem.clear lo len, empties := s.empties.filter out, flips := s.flips.filter fun f => out f.1 }
  if quiet then s else (List.range (len / 8)).foldl (fun s i => rasWrite [lo + 8 * i] s) s

/-- Zero a granule of a core. -/
def zeroGranule (core g : Nat) (s : State) : State := zeroRange (Key.pool core (g * Config.granuleBytes)) Config.granuleBytes s

/-- Zero a grant of a grove. -/
def zeroGrant (g base len : Nat) (s : State) : State := zeroRange (Key.scratch g (base * 65536)) (len * 65536) s

/-- GRANULE_ASSIGN (R41): a granule that is assigned is zeroed and its words are full. -/
def execGranuleAssign (core granule : Nat) (s : State) : Out :=
  if Config.cores ≤ core ∨ Config.granules ≤ granule then .next s else .next (zeroGranule core granule s)

/-- The position of a number in a rising list. -/
def rankIn (l : List Nat) (x : Nat) : Nat := (l.filter (· < x)).length

/-- The shares of a context on cores in logical order (R43, R153, R185). -/
def makeShares (s : State) (part : Word) (cores : List Nat) : List Share :=
  let groves := Sorted.ofList (cores.map groveOfCore)
  let dies := Sorted.ofList (cores.map dieOfCore)
  cores.zipIdx.map fun c =>
    { lcore := c.2, pcore := c.1, rix := (freeRix s c.1).getD 0, grans := (freeGranules s c.1).take (Part.total part),
      lgrove := rankIn groves (groveOfCore c.1), ldie := rankIn dies (dieOfCore c.1),
      pos := ((cores.take c.2).filter fun x => groveOfCore x == groveOfCore c.1).length }

/-- A context takes its place on a core (R43). -/
def hostOn (cid : Nat) (sh : Share) (s : State) : State :=
  s.mapCore sh.pcore fun c =>
    { c with res := c.res.setIfInBounds sh.rix (some cid), colour := c.colour.setIfInBounds sh.rix false }

/-- A context leaves its cores. -/
def leaveCores (cid : Nat) (s : State) : State :=
  (s.ctxOf cid).shares.foldl (fun s sh => s.mapCore sh.pcore fun c =>
    { c with res := c.res.map (fun x => if x = some cid then none else x), icache := c.icache.filter (·.cid != cid) }) s

/-- Whether a table names every slot of the contexts on a core. -/
def tableNames (t : Vector Word 4) (l : List (Nat × Nat)) : Bool :=
  l.all fun x => (List.range 32).any fun e =>
    tabEntry t e / 128 == 1 && tabEntry t e / 16 % 4 == x.1 && tabEntry t e % 16 == x.2

/-- The slots on a core by resident index. -/
def namesOn (s : State) (core : Nat) : List (Nat × Nat) :=
  (List.range 4).flatMap fun i =>
    match (s.coreOf core).res[i % 4]'(Nat.mod_lt _ (by decide)) with
    | some cid => (List.range (Part.slots (s.ctxOf cid).part)).map fun k => (i, k)
    | none => []

/-- A table that gives every slot the same entries (log 12): 4, 8, 16 or 32 names in turn. -/
def evenTable (l : List (Nat × Nat)) : List Word :=
  let m := if l.length ≤ 4 then 4 else if l.length ≤ 8 then 8 else if l.length ≤ 16 then 16 else 32
  let entry (e : Nat) : Nat := match l[e % m]? with | some x => 128 + 16 * x.1 + x.2 | none => 0
  (List.range 4).map fun w => BitVec.ofNat 64 (packElems 8 ((List.range 8).map fun i => entry (8 * w + i)))

/-- Naruno gives a core a table that names its slots, when the present one does not (R156, log 12). -/
def serveTable (core : Nat) (s : State) : State :=
  let l := namesOn s core
  let c := s.coreOf core
  if tableNames (c.newTab.getD c.tab) l then s
  else
    let t := evenTable l
    s.push (.slotTablePortWrite core (t.getD 0 0) (t.getD 1 0) (t.getD 2 0) (t.getD 3 0))

end Sys2Proof.Machine
end

