-- ==== Sys2Proof/Machine/Preempt.lean ====
section
/-!
DEFINITION. Stopping, swapping, restoring and destroying contexts (R56, R65, R89, R116, R316, R345 to R349), and changes of
owner tags (R40, R60).
-/
namespace Sys2Proof.Machine

/-! Withdrawing what a slot waits for (R65, R89, R116, R269, R316, R345). -/

/-- A full/empty entry of a slot is withdrawn: its instruction reissues (R65). -/
def withdrawEntry (k : SlotKey) (s : State) : State :=
  { s with waits := s.waits.filter (·.key ≠ k), overflow := s.overflow.filter (·.2.key ≠ k) }

/-- The requests of a slot leave the reservation queues; its atomic is withdrawn (R116). -/
def withdrawAtom (k : SlotKey) : State → State := leaveAtoms fun q => q.who == .slot k

/-- Withdraw what a slot waits for, by the reason of its park. A request to a peer that was sent is answered first; a VWAIT
keeps its latched set, and a vote its signature (R358). -/
def withdraw (k : SlotKey) (s : State) : State :=
  match s.slotAt k with
  | none => s
  | some v =>
    let s := match v.peerReq with | some r => requestApply k r s | none => s
    let st : Option SlotSt := (s.slotAt k).map (·.st)
    match st with
    | some (.parked .fullEmpty) => withdrawEntry k s
    | some (.parked .send) =>
      ({ s with senders := s.senders.filter (·.1 ≠ k) } : State).mapSlot k fun v => { v with rpend := none }
    | some (.parked .tlbinv) =>
      ({ s with tlbinvs := s.tlbinvs.filter (·.1 ≠ k) } : State).mapSlot k fun v => { v with rpend := none }
    | some (.parked .vwait) =>
      s.mapSlot k fun v =>
        { (match v.vwait with | some w => v.hold 0 0 w.latched 0 | none => v) with vwait := none }
    | _ => withdrawAtom k s

/-- The slots of a context. -/
def slotsOf (s : State) (cid : Nat) : List SlotKey :=
  (s.allSlots.filter fun e => e.1.cid == cid && e.2.st != .absent).map (·.1)

/-- The waits that go on after a stop: for a vote, for the lead's results, for registers and for the start (R158, R181, R358). -/
def keptWait : SlotSt → Option ParkWhy
  | .parked .vote => some .vote
  | .parked .forward => some .forward
  | .parked .hazard => some .hazard
  | .parked .switchMarker => some .switchMarker
  | .parked .start => some .start
  | _ => none

/-- A slot that has not ended becomes STOPPED. An instruction that is not in a wait that goes on has not issued: it counts under no
SET counter, and reads its operands afresh (R200, R291). -/
def haltSlot (v : Slot) : Slot :=
  if v.st = .ended ∨ v.st = .absent ∨ v.st = .stopped then v
  else match keptWait v.st with
    | some w => { v with st := .stopped, kept := some w }
    | none => { v.dropPend with st := .stopped, kept := none, snap := none }

/-- Stop the slots of a context: waits are withdrawn and reservations cleared (R266, R345); slots that wait for fewer requests
outstanding to a peer look again (R359). -/
def stopSlots (cid : Nat) (s : State) : State :=
  let ks := slotsOf s cid
  let s := ks.foldl (fun s k => withdraw k s) s
  let s := ks.foldl (fun s k => s.mapSlot k haltSlot) s
  wake .reply { s with resvs := s.resvs.filter fun r => r.key.cid ≠ cid }

/-- The late stores of a context (log 4). -/
def lateOf (s : State) (cid : Nat) : List Late := s.late.filter (·.key.cid == cid)

/-- Those whose bytes are free are performed. -/
def settleOf (cid : Nat) (s : State) : State := (lateOf s cid).foldl (fun s l => settleOne l s) s

/-- The cores of a context flip its colour (R176). -/
def flipColours (cid : Nat) (s : State) : State :=
  (s.ctxOf cid).shares.foldl (fun s sh => s.mapCore sh.pcore fun c =>
    { c with colour := c.colour.setIfInBounds sh.rix (!(c.colour[sh.rix]?).getD false) }) s

/-- Whether every core of a context is in service. -/
def coresServe (s : State) (c : Ctx) : Bool := c.shares.all fun sh => inService s sh.pcore

/-- The contexts of a launch's other replicas (R350). -/
def replicasBeside (s : State) (cid : Nat) : List Nat :=
  (s.ctxs.filter fun c => c.1 != cid && c.2.lid == (s.ctxOf cid).lid && c.2.st != .destroyed).map (·.1)

/-- Those that run: a stop takes every replica (R358). -/
def siblings (s : State) (cid : Nat) : List Nat :=
  (replicasBeside s cid).filter fun x => (s.ctxOf x).st == .running && !(s.ctxOf x).stopping

/-- A stop has been requested (R345): no slot issues from now on, but for an instruction that is in flight in the back end, which
ends at an element group or a row, freely which (R291, R346, log 3). -/
def beginStop (cid : Nat) (s : State) : State :=
  let go (s : State) (k : SlotKey) : State :=
    let w := Config.freeWord s.free
    ({ s with free := s.free + 1 } : State).mapSlot k fun v =>
      if v.st = .ready && w.getLsbD 63 then { v with cut := some (w.toNat % 33) } else v
  let s := (slotsOf s cid).foldl go (s.mapCtx cid fun c => { c with stopping := true })
  ((siblings s cid).foldl (fun s x => s.pushOnce (.preemptStop x)) s).push (.preemptStop cid)

/-- Whether a slot has not reached its stop point: its ECMD or TCP has begun and completes first (R296, R347). -/
def slotRuns (v : Slot) : Bool := v.st == .parked .engineLines

/-- The stop is reached (R345): waits are withdrawn, the slots are STOPPED, the colours flip, and the cut of the cores is summed
(R349). A context on a quarantined unit is then swapped out, and goes on elsewhere; the other replicas of its launch, which stopped
with it, go on where they are (R344, R357, R358). -/
def endStop (cid : Nat) (s : State) : State :=
  let s := (flipColours cid (stopSlots cid s)).mapCtx cid fun c => { c with st := .stopped, stopping := false }
  let s := s.mapSlots (fun k _ => k.cid == cid) fun v => { v with cut := none }
  let s := s.pushOnce (.colourCutSum cid)
  if coresServe s (s.ctxOf cid) then s
  else (replicasBeside s cid).foldl (fun s x => s.pushOnce (.contextRestore x ⟨[], []⟩))
    (s.pushOnce (.contextSwapOut cid (s.ctxOf cid).area))

/-- PREEMPT_STOP (R345): the first one begins the stop, and later ones end it once every slot is at its stop point and its stores are
performed. An instruction in flight that has not issued by then, freely when, has not started. -/
def execPreemptStop (cid : Nat) (s : State) : Out :=
  let c := s.ctxOf cid
  if (Tab.get s.ctxs cid).isNone || c.st != .running || launchOver s c.lid then .next s
  else if !c.stopping then .next (beginStop cid s)
  else
    let mine (p : Slot → Bool) : Bool := s.allSlots.any fun e => e.1.cid == cid && p e.2
    let more := (Config.freeWord s.free).getLsbD 0
    let s := settleOf cid s
    if mine slotRuns || !(lateOf s cid).isEmpty || (mine fun v => v.cut.isSome && v.st == .ready) && more then
      .next (({ s with free := s.free + 1 } : State).push (.preemptStop cid))
    else .next (endStop cid { s with free := s.free + 1 })

/-! Swap images (R56). -/

/-- The regions of a context: first key, length, first logical key. -/
def regionsOf (c : Ctx) : List (Nat × Nat × Nat) :=
  let pools := c.shares.flatMap fun sh => sh.grans.zipIdx.map fun g =>
    (Key.pool sh.pcore (g.1 * Config.granuleBytes), Config.granuleBytes, sh.lcore * 2 ^ 21 + g.2 * Config.granuleBytes)
  let groves := Assoc.get (c.shares.map fun sh => (sh.lgrove, groveOfCore sh.pcore))
  let scratch := (Sorted.ofList (c.shares.map (·.lgrove))).filterMap fun lg => (groves lg).map fun g =>
    (Key.scratch g (Tab.getD c.gbase g 0 * 65536), Part.gsg c.part * 65536, 2 ^ 40 + lg * 2 ^ 23)
  pools ++ scratch

/-- Whether a key lies in a region. -/
def inRegion (r : Nat × Nat × Nat) (k : Nat) : Bool := r.1 ≤ k && k < r.1 + r.2.1

/-- The 64 KiB units of a context's image on a grove (log 57): the shares of its cores there and its grant, with one more for
the states of its slots and its cruisers. -/
def imageUnits (c : Ctx) (g : Nat) : Nat :=
  Bits.cdiv ((c.shares.filter fun sh => groveOfCore sh.pcore == g).length * Part.total c.part * Config.granuleBytes) 65536 +
    Part.gsg c.part + 1

/-- The units of a grove's shadow storage that images occupy. -/
def usedShadow (s : State) (g : Nat) : Nat :=
  (s.ctxs.map fun c => match c.2.img with
    | some i => ((i.shadow.filter (·.1 == g)).map (·.2)).sum
    | none => 0).sum

/-- The shadow storage that a context's image takes: on each grove where it fits what is free (R56). -/
def shadowFor (s : State) (c : Ctx) : List (Nat × Nat) :=
  (Sorted.ofList (c.shares.map fun sh => groveOfCore sh.pcore)).filterMap fun g =>
    if usedShadow s g + imageUnits c g ≤ shadowUnits (s.groveOf g).gcfg then some (g, imageUnits c g) else none

/-- The grove that a region lies in. -/
def regionGrove (r : Nat × Nat × Nat) : Nat :=
  match arrayOf r.1 with
  | some (.pool c, _, _) => groveOfCore c
  | some (.scratch g, _, _) => g
  | _ => 0

/-- Regions with device addresses, one behind the other from an address on. -/
def placeRegions : Nat → List (Nat × Nat × Nat) → List ((Nat × Nat × Nat) × Nat)
  | _, [] => []
  | a, r :: t => (r, a) :: placeRegions (a + r.2.1) t

/-- The regions of a context with their places in its save area, behind the cruiser area (log 57). -/
def savePlaces (c : Ctx) : List ((Nat × Nat × Nat) × Nat) := placeRegions (c.saveBase + 65536) (regionsOf c)

/-- Keyed data that lies in a range of keys, moved with the range. -/
def moveKeys {α : Type} (lo len dst : Nat) (l : List (Nat × α)) : List (Nat × α) :=
  (l.filter fun x => lo ≤ x.1 && x.1 < lo + len).map fun x => (x.1 - lo + dst, x.2)

/-- Words that are empty, as keyed data. -/
def keyed (l : List Nat) : List (Nat × Unit) := l.map fun k => (k, ())

/-- The image of a context's SRAM and queued tasks (R56, R166). -/
def takeImage (cid : Nat) (s : State) : Image :=
  let c := s.ctxOf cid
  let rs := regionsOf c
  let sh := shadowFor s c
  let inShadow (r : Nat × Nat × Nat) : Bool := sh.any (·.1 == regionGrove r)
  let move {α : Type} (rs : List (Nat × Nat × Nat)) (l : List (Nat × α)) : List (Nat × α) := rs.flatMap fun r => moveKeys r.1 r.2.1 r.2.2 l
  { cells := move (rs.filter inShadow) s.mem.cells, empties := (move (rs.filter inShadow) (keyed s.empties)).map (·.1),
    flips := move rs s.flips, shadow := sh,
    spilled := ((savePlaces c).filter fun p => !inShadow p.1).map fun p => (p.1.2.2, p.1.2.1, p.2),
    tasks := s.groves.flatMap fun g => (g.2.tasks.filter (·.cid == cid)).map fun t => (t.lgrove, t.pkt) }

/-- The swap hardware writes a range of device memory: the bytes and full/empty bits that are given, in words that are otherwise zero
and full (R56, R59). Copies of its lines leave the caches, and errors that its words held are gone. -/
def writeSaved (lo len : Nat) (cells : List Host.Cell) (empties : List Nat) (s : State) : State :=
  let out (k : Nat) : Bool := k < lo || lo + len ≤ k
  let s := (s.dir.filter fun d => !out d.1).foldl (fun s d => dirRecall d.1 s) s
  performWrite cells { s with
    mem := s.mem.zero lo len, empties := empties.foldl Sorted.insert (s.empties.filter out), flips := s.flips.filter fun f => out f.1,
    poison := s.poison.filter fun f => out f.1, symbols := s.symbols.filter fun f => out f.1, resvs := s.resvs.filter fun r => out r.word }

/-- The regions of a context that shadow storage does not take go to its save area (R56). -/
def spillRegions (l : List ((Nat × Nat × Nat) × Nat)) (s : State) : State :=
  l.foldl (fun s p => writeSaved p.2 p.1.2.1 (moveKeys p.1.1 p.1.2.1 p.2 s.mem.cells)
    ((moveKeys p.1.1 p.1.2.1 p.2 (keyed s.empties)).map (·.1)) s) s

/-- The part of a swapped-out context's image that lies in a grove's shadow storage moves to its save area (R55, R56). -/
def spillImage (grove cid : Nat) (s : State) : State :=
  let c := s.ctxOf cid
  match c.img with
  | none => s
  | some i =>
    let ps := (savePlaces c).filter fun p => regionGrove p.1 == grove && i.shadow.any (·.1 == grove)
    let gone (k : Nat) : Bool := ps.any fun p => p.1.2.2 ≤ k && k < p.1.2.2 + p.1.2.1
    let i' : Image := { i with
      cells := i.cells.filter fun x => !gone x.1, empties := i.empties.filter fun k => !gone k,
      shadow := i.shadow.filter (·.1 != grove), spilled := i.spilled ++ ps.map fun p => (p.1.2.2, p.1.2.1, p.2) }
    ps.foldl (fun s p => writeSaved p.2 p.1.2.1 (moveKeys p.1.2.2 p.1.2.1 p.2 i.cells)
      ((moveKeys p.1.2.2 p.1.2.1 p.2 (keyed i.empties)).map (·.1)) s) (s.mapCtx cid fun c => { c with img := some i' })

/-- An image with what it has in the save area read back (R56). -/
def wholeImage (i : Image) (s : State) : Image :=
  { i with
    cells := i.cells ++ i.spilled.flatMap fun p => moveKeys p.2.2 p.2.1 p.1 (s.mem.contents p.2.2 p.2.1),
    empties := i.empties ++ i.spilled.flatMap fun p => (moveKeys p.2.2 p.2.1 p.1 (keyed s.empties)).map (·.1) }

/-- The regions and queued tasks that an image has taken are given up. -/
def dropRegions (cid : Nat) (s : State) : State :=
  let rs := regionsOf (s.ctxOf cid)
  let out (k : Nat) : Bool := !rs.any fun r => inRegion r k
  { s with mem := rs.foldl (fun m r => m.clear r.1 r.2.1) s.mem, empties := s.empties.filter out,
           flips := s.flips.filter fun f => out f.1,
           groves := s.groves.map fun g => (g.1, { g.2 with tasks := g.2.tasks.filter (·.cid ≠ cid) }) }

/-- Put an image into the regions of a context, which hold nothing else from then on (R41, R56, R59): a write of every word
(R69), which keeps the errors that the image holds. -/
def putImage (cid : Nat) (i : Image) (s : State) : State :=
  let rs := regionsOf (s.ctxOf cid)
  let move {α : Type} (l : List (Nat × α)) : List (Nat × α) := rs.flatMap fun r => moveKeys r.2.2 r.2.1 r.1 l
  let s := rs.foldl (fun s r => zeroRange r.1 r.2.1 s) s
  { s with mem := s.mem.writeCells (move i.cells),
           empties := (move (keyed i.empties)).foldl (fun l x => Sorted.insert l x.1) s.empties,
           flips := (move i.flips).foldl (fun t x => if (Tab.get t x.1).isSome then t else Tab.set t x.1 x.2) s.flips }

/-- Whether the cores of a stopped context count as halted: their commands have completed and their stores to peers have
been answered (R28, R89). -/
def coresHalted (s : State) (cid : Nat) : Bool :=
  !s.cmds.any (fun c => match c.issuer with | .slot k => k.cid == cid | _ => false) &&
    !s.allSlots.any fun e => e.1.cid == cid && !e.2.inflight.isEmpty

/-- Cores for a context that is swapped out, one group for each of its groves (R153): the first that fit (log 12). -/
def chooseGroves (s : State) (c : Ctx) : List Nat → List (Nat × Nat) → List Nat → Option (List Nat)
  | [], _, _ => some []
  | lg :: t, dies, used =>
    let mine := c.shares.filter (·.lgrove == lg)
    let ld := dieOfGrove c lg
    let dieOk (g : Nat) : Bool :=
      let d := g / 24
      match Assoc.get dies ld with | some x => x == d | none => !dies.any (·.2 == d)
    let ok (g : Nat) : Bool := !used.contains g && dieOk g && (firstCores (coreFree s c.part) (coresOfGrove g) mine.length).isSome
    match (List.range Config.groves).find? ok with
    | none => none
    | some g =>
      match firstCores (coreFree s c.part) (coresOfGrove g) mine.length, chooseGroves s c t (Assoc.set dies ld (g / 24)) (g :: used) with
      | some l, some r => some (l ++ r)
      | _, _ => none

/-- Naruno's own choice for a restore (log 12). -/
def restoreChoice (s : State) (cid : Nat) : Option PlaceChoice :=
  let c := s.ctxOf cid
  let lgs := Sorted.ofList (c.shares.map (·.lgrove))
  (chooseGroves s c lgs [] []).map fun l =>
    let order := lgs.flatMap fun lg => (c.shares.filter (·.lgrove == lg)).map (·.lcore)
    let at' (lc : Nat) : Nat := (Assoc.get (order.zip l) lc).getD 0
    ⟨[(c.shares.map (·.lcore)).map at'], chooseBases s c.part l⟩

/-- CONTEXT_SWAP_OUT (R56, R166, R186): the image goes to shadow storage, and to the save area where it does not fit; the cruiser
images are written, their addresses are reported, and the cores are free. A context whose cores are not yet halted waits; one that left
a quarantined unit is restored elsewhere (R344). -/
def execContextSwapOut (cid : Nat) (area : Word) (s : State) : Out :=
  if (Tab.get s.ctxs cid).isNone || (s.ctxOf cid).st != .stopped then .next s
  else if !coresHalted s cid then .next (s.push (.contextSwapOut cid area))
  else
    let moved := !coresServe s (s.ctxOf cid)
    let s := s.mapCtx cid fun c => { c with area := area }
    let i := takeImage cid s
    let s := spillRegions ((savePlaces (s.ctxOf cid)).filter fun p => i.spilled.any (·.2.2 == p.2)) s
    let s := leaveCores cid (dropRegions cid s)
    let s := s.mapCtx cid fun c => { c with st := .swapped, img := some i }
    let s := ((s.ctxOf cid).cruisers.foldl (fun s x => putCruiserImage cid x s) s).report (.saveArea cid area area)
    .next (if moved then s.pushOnce (.contextRestore cid ⟨[], []⟩) else s)

/-! Restore (R41, R175, R190, R345). -/

/-- The state of a slot that runs again: READY, or in the wait that the stop interrupted (R158, R316, R358). -/
def Slot.restored (v : Slot) : SlotSt :=
  match v.kept with
  | some .hazard => if v.pending v.awaits then .parked .hazard else .ready
  | some .switchMarker => if v.pend.isEmpty then .ready else .parked .switchMarker
  | some w => .parked w
  | none => .ready

/-- What ends a wait that the stop interrupted. -/
def keptEvents (s : State) (w : Option ParkWhy) : List Instr :=
  let lid := s.ctx.lid
  match w with
  | some .vote => [.comparatorVote lid s.cur.lcore s.cur.slot, .signatureTimeout lid s.cur.lcore s.cur.slot]
  | some .forward => [.replicaForwardArrive s.cur]
  | some .start => [.launchPlace lid ⟨[], []⟩]
  | _ => []

/-- The loaded slot of a restored context: it runs again, with its progress at its saved address armed, and reports the refusals
of stores made before the stop (R28). What it holds for another address stays with it (log 35). -/
def restoreSlot (s : State) : State :=
  let v := s.me
  if v.st ≠ .stopped ∨ v.pf.isSome then s
  else
    let held := v.held.map fun h => if h.pc == v.pc then { h with live := true } else h
    let w : Slot := { v with st := v.restored, kept := none, refDue := v.refused.isSome || !v.inflight.isEmpty, held := held }
    let w := if w.sres.any (·.pc == w.pc) then w.useStream w.pc else w
    let fills := [(0 : Fin 4), 1, 2, 3].filter fun q => w.q[q].any fun e => e.load.isSome
    { s with me := w, agenda := s.agenda ++ fills.map (fun q => Instr.streamEntryFill s.cur q) ++ keptEvents s v.kept }

/-- The time-outs of a launch's comparators begin anew (R354, R358). -/
def renewGroups (lid : Nat) (s : State) : State :=
  { s with groups := s.groups.map fun g =>
      if g.lid = lid then { g with since := (s.coreOf ((memberCore s g g.lead).getD 0)).cyc } else g }

/-- The slots of a context run again; mailboxes move to the inboxes first (R175, R345). The counts of old-colour messages are those
of the next cut (R349). -/
def resumeContext (cid : Nat) (s : State) : State :=
  let s := s.mapCtx cid fun c => { c with st := .running, sentOld := [], recvOld := [] }
  let ks := slotsOf s cid
  let s := ks.foldl (fun s k => drainMail k s) s
  let s := ks.foldl (fun s k => onSlot k restoreSlot s) s
  renewGroups (s.ctxOf cid).lid (ks.foldl (fun s k => admitSenders k s) s)

/-- Whether cores take a context back: each logical grove and die in a unit of its own (R153, R190). -/
def restoreFits (s : State) (c : Ctx) (cores : List Nat) (gbase : List (Nat × Nat)) : Bool :=
  let ps := c.shares.zip cores
  cores.length == c.shares.length && cores.all (coreRoom s c.part) && (Sorted.ofList cores).length == cores.length &&
    ps.all (fun a => ps.all fun b =>
      ((a.1.lgrove == b.1.lgrove) == (groveOfCore a.2 == groveOfCore b.2)) &&
        ((a.1.ldie == b.1.ldie) == (dieOfCore a.2 == dieOfCore b.2))) &&
    cores.all fun x => match Assoc.get gbase (groveOfCore x) with
      | some b => grantFits s (groveOfCore x) b (Part.gsg c.part)
      | none => false

/-- A swapped-out context takes cores and its image; frames that it left in granules of its former cores come with it, unless they
were saved (R51). -/
def reside (cid : Nat) (cores : List Nat) (gbase : List (Nat × Nat)) (s : State) : State :=
  let c := s.ctxOf cid
  let shares := (c.shares.zip cores).map fun x =>
    { x.1 with pcore := x.2, rix := (freeRix s x.2).getD 0, grans := (freeGranules s x.2).take (Part.total c.part) }
  let i := wholeImage (c.img.getD ⟨[], [], [], [], [], []⟩) s
  let s := ({ s with former := [], heldBy := s.heldBy.filter (·.2.2 ≠ cid) } : State).mapCtx cid fun c =>
    { c with shares := shares, gbase := gbase.foldl (fun t g => Tab.set t g.1 g.2) [], img := none, spill := i.tasks ++ c.spill,
             st := .stopped }
  let s := putImage cid i (shares.foldl (fun s sh => hostOn cid sh s) s)
  let s := (Sorted.ofList (cores.map groveOfCore)).foldl (fun s g => refillGrove g taskLimit s) s
  cores.foldl (fun s x => serveTable x s) s

/-- Whether a stop of a context has been requested, or will be, and has not been reached. -/
def stopComes (s : State) (cid : Nat) : Bool := (s.ctxOf cid).stopping || s.agenda.contains (.preemptStop cid)

/-- CONTEXT_RESTORE (R345): a stopped context goes on where it is, unless a unit of it is quarantined (R344); one that is swapped
out first takes the chosen cores, and one that is being stopped is stopped first. Where Naruno is left to choose the cores, the context
waits until some are free (log 12). -/
def execContextRestore (cid : Nat) (choice : PlaceChoice) (s : State) : Out :=
  if (Tab.get s.ctxs cid).isNone || launchOver s (s.ctxOf cid).lid then .next s
  else
    let c := s.ctxOf cid
    match c.st with
    | .stopped => .next (if coresServe s c then resumeContext cid s else s.pushOnce (.contextSwapOut cid c.area))
    | .swapped =>
      let fits (p : PlaceChoice) : Bool := restoreFits s c (p.cores.headD []) p.gbase
      let go (p : PlaceChoice) : State := resumeContext cid (reside cid (p.cores.headD []) p.gbase s)
      let own := (restoreChoice s cid).getD choice
      if fits choice then .next (go choice)
      else if !choice.cores.isEmpty then .next s
      else .next (if fits own then go own else s.push (.contextRestore cid choice))
    | .running => if stopComes s cid then .next (s.push (.contextRestore cid choice)) else .next s
    | .destroyed => .next s

/-! Destruction (R65, R89, R172). -/

/-- Abort a command (R89): its lines are released, no tag or future is touched, and its destination bytes are left with
values that are not defined (log 16). What the boom had formed of its reduction is dropped (R93). -/
def abortCmd (s : State) (c : Cmd) : State :=
  let s := leavePlaces (.command c.id)
    (if Dw.kind c.dw = 4 ∨ Dw.kind c.dw = 5 then { s with partials := s.partials.filter (·.seq != Dw.seq c.dw) } else s)
  let keys := Sorted.ofList c.dest.flatten
  let cells := keys.zipIdx.map fun k => (k.1, BitVec.ofNat 8 (Config.freeWord (s.free + k.2)).toNat)
  let s := { s with cmds := s.cmds.filter (·.id != c.id), free := s.free + keys.length }
  let s := if cells.isEmpty then s else performWrite cells (keys.foldl (fun s k => recallKey k s) s)
  c.owned.foldl (fun s l => releaseLine l s) s

/-- Abort the commands that meet a condition. -/
def abortCmds (p : Cmd → Bool) (s : State) : State := (s.cmds.filter p).foldl abortCmd s

/-- The commands of a context. -/
def cmdOf (cid : Nat) (c : Cmd) : Bool := match c.issuer with | .slot k => k.cid == cid | _ => false

/-- Take a context's slots away. -/
def removeSlots (cid : Nat) (s : State) : State :=
  { s with slots := s.slots.filter (·.1.cid ≠ cid), me := if s.cur.cid = cid then .reset else s.me,
           issue := if s.cur.cid = cid then none else s.issue }

/-- Stores to peers in flight whose slot is taken away are performed or not, freely (R28). -/
def settleStores (l : List BufStore) (s : State) : State :=
  l.foldl (fun s b =>
    let s' : State := { s with free := s.free + 1 }
    if peerReachable s b.modId && (Config.freeWord s.free).getLsbD 0 then performWrite b.bytes s' else s') s

/-- Destroy a context: its entries are withdrawn, its commands aborted, its records and cores freed (R65, R89, R172). -/
def destroyContext (cid : Nat) (s : State) : State :=
  let s := abortCmds (cmdOf cid) (stopSlots cid s)
  let s := settleOf cid s
  let s := settleStores ((s.allSlots.filter (·.1.cid == cid)).flatMap (·.2.inflight)) s
  let s := leaveCores cid (if isResident (s.ctxOf cid) then dropRegions cid s else s)
  let s := { s with late := s.late.filter (·.key.cid ≠ cid), senders := s.senders.filter (fun w => w.1.cid ≠ cid && w.2.1.cid ≠ cid),
                    heldBy := s.heldBy.filter (·.2.2 ≠ cid) }
  (removeSlots cid s).mapCtx cid fun c =>
    { c with st := .destroyed, shares := [], records := [], spill := [], img := none, mail := [], bars := [], frames := [],
             beams := [], tags := [] }

/-- CONTEXT_DESTROY (R89). -/
def execContextDestroy (cid : Nat) (s : State) : Out :=
  if (Tab.get s.ctxs cid).isNone || (s.ctxOf cid).st == .destroyed then .next s else .next (destroyContext cid s)

/-! Owner tags (R39, R40, R60). -/

/-- Runs of pages whose tag changes: first page and count. -/
def tagRuns (s : State) (tag page : Nat) : Nat → List (Nat × Nat)
  | 0 => []
  | n + 1 =>
    let rest := tagRuns s tag (page + 1) n
    if ownerTag s (page * 65536) = tag then rest
    else match rest with
      | (p, k) :: t => if p = page + 1 then (page, k + 1) :: t else (page, 1) :: rest
      | [] => [(page, 1)]

/-- A full/empty wait ends with ACCESS_FAULT, precisely at its instruction; a peer is refused (R28, R60, R65). -/
def failEntry (reason modId : Nat) (s : State) (e : WaitEntry) : State :=
  let s := { s with waits := s.waits.erase e, overflow := s.overflow.filter (·.2 ≠ e) }
  if e.key.cid = 0 then s.report (.peerReply e.key.lcore (BitVec.ofNat 32 e.dest) false 0)
  else
    wake .reply (trapSlot e.key
      { code := Cause.accessFault, tv := e.va, ti := tinfoWord 0 modId false 0 (kindCode (feKind e.op)) reason } s)

/-- The entries that wait on a word that meets a condition. -/
def entriesOn (p : Nat → Bool) (s : State) : List WaitEntry := (s.waits ++ s.overflow.map (·.2)).filter fun e => p e.word

/-- The contents of a run of pages are no longer defined, and its full/empty bits are full (R40); stores of former owners that
were late are lost with them. -/
def retag (tag : Nat) (s : State) (r : Nat × Nat) : State :=
  let lo := r.1 * 65536
  let len := r.2 * 65536
  let inside (k : Nat) : Bool := lo ≤ k && k < lo + len
  let owners := (s.owners.filter fun o => o.1 < r.1) ++ (if tag = 255 then [] else (keyRange r.1 r.2).map fun p => (p, tag)) ++
    s.owners.filter fun o => r.1 + r.2 ≤ o.1
  let s := (s.dir.filter fun d => inside d.1).foldl (fun s d => dirRecall d.1 s) s
  let s := { s with owners := owners, mem := s.mem.forget lo len s.free, free := s.free + 1, former := [],
                    late := s.late.filter fun l => !l.store.bytes.any fun c => inside c.1, empties := s.empties.filter fun k => !inside k }
  (entriesOn inside s).foldl (failEntry Reason.owner 0) s

/-- OWNER_TAG_CHANGE (R40): the tags of R39 other than the reserved ones, on pages of device memory. -/
def execOwnerTagChange (page count tag : Nat) (s : State) : Out :=
  if (64 < tag && tag != 255) || Config.deviceBytes / 65536 < page + count then .next s
  else .next ((tagRuns s tag page count).foldl (retag tag) s)

end Sys2Proof.Machine
end

