-- ==== Sys2Proof/Machine/Launch.lean ====
section
/-!
DEFINITION. Launches: placement and the start of slots (R181, R183, R185, R331, R350), the completion tree and its record
(R191 to R194), kills and aborts.
-/
namespace Sys2Proof.Machine

/-! The start of slots (R181, R183). -/

/-- The extents of the levels. -/
def levelExtents (r : List Word) : List Nat := (levels r).map (·.2)

/-- The mixed-radix digits of a number by some extents, outermost first. -/
def digits : List Nat → Nat → List Nat
  | [], _ => []
  | e :: t, n => (n / Nat.max 1 (t.foldl (· * ·) 1)) % Nat.max 1 e :: digits t n

/-- lvl of a slot (R164): index and extent of each level. Instances lie on cores and slots in increasing order (log 12). A
slot below SLOTS that the hierarchy does not use has indices that are not defined, and is in no instance with another slot: its
indices exceed those of every other by a multiple of 2^64, which no register shows (log 23). -/
def slotLevels (r : List Word) (free lcore slot : Nat) : List (Nat × Nat) :=
  let l := levels r
  let per := slotsPer 0 l
  if slot < per then
    -- the core levels come from the core's number, the others from the slot's
    let cl := coreLevels 0 l
    let cd := digits (cl.map (·.2.1)) lcore
    let others := (l.zipIdx.filter fun x => x.1.1 == 5 || (x.1.1 == 4 && (match x.2 with | 0 => false | i + 1 => (l[i]?.map (·.1)) == some 4)))
    let sd := digits (others.map (·.1.2)) slot
    let isOther (i : Nat) : Bool := others.any (·.2 == i)
    let go := l.zipIdx.foldl (fun (acc : List (Nat × Nat) × List Nat × List Nat) x =>
      if isOther x.2 then (acc.1 ++ [(acc.2.2.headD 0, x.1.2)], acc.2.1, acc.2.2.drop 1)
      else (acc.1 ++ [(acc.2.1.headD 0, x.1.2)], acc.2.1.drop 1, acc.2.2)) ([], cd, sd)
    go.1
  else l.zipIdx.map fun x => ((Config.freeWord (free + 8 * slot + x.2)).toNat % 2 ^ 32 + 2 ^ 64 * (16 * lcore + slot + 1), x.1.2)

/-- The start state of a slot before its format context's tables and its preload image are read (R181). -/
def startSlot (r : List Word) (pre : Bool) (lvl : List (Nat × Nat)) : Slot :=
  { ({ Slot.reset with st := .ready, pc := if pre then Rec.ppc r else Rec.entry r, lvl := lvl, fmt := Rec.fmt r } : Slot).setS 3 (Rec.arg r) with
    tid := 0 }

/-- An access of the loaded slot at its start, performed again after each page fault that Naruno resolves, at most `n` (R32). -/
def startRetry {α : Type} (m : M α) : Nat → M α
  | 0 => m
  | n + 1 => fun s =>
    match m s with
    | .error (.trap t) s' =>
      if t.code = Cause.pageFault then
        match pageInFor s' s'.ctx.tenant t.tv with
        | some p => startRetry m n (writePtes p.ptes s')
        | none => .error (.trap t) s'
      else .error (.trap t) s'
    | x => x

/-- An access of the loaded slot at its start: every mapping that Naruno installs can serve it. -/
def startRead' {α : Type} (m : M α) : M α := fun s => startRetry m s.pageIns.length s

/-- The codebook tables at start (R168, R181), and whether they must wait for a line that a command owns or for queued atomics. A
read that fails is reported at the slot's first instruction, and the tables are then not defined. -/
def startTables (s : State) : State × Bool :=
  match startRead' (do loadFmt (← get).me.fmt) s with
  | .ok f t => (t.mapMe fun v => { v with fmt := f }, false)
  | .error (.park _) t => (t, true)
  | .error (.trap x) t =>
    let w (i : Nat) : BitVec 256 := BitVec.ofNat 256 (packElems 64 ((List.range 4).map fun j => (Config.freeWord (t.free + 4 * i + j)).toNat))
    (({ t with free := t.free + 8 } : State).mapMe fun v =>
      { v with fmt := { v.fmt with tabA := w 0, tabB := w 1 }, startTrap := some (x.code, x.tv, x.ti) }, false)

/-- The preload image of a slot (R183): vt as CRW writes it, then vl as SETVL, then masks and registers, whose array words are
written (R69). -/
def preload (img : Word) : M Unit := do
  let at' (off n : Nat) : M Nat := startRead' (loadBytes (img + BitVec.ofNat 64 off) n)
  let vl ← at' 0 8
  let vt ← at' 8 8
  modify fun s => s.mapMe fun v =>
    let v := if vtRefused (BitVec.ofNat 64 vt) then v else v.setVt (BitVec.ofNat 64 vt)
    { v with vl := Nat.min vl (Vt.vlmax v.vt) }
  forL (fun j => do
    let x ← at' (0x40 + 64 * (j - 1)) 64
    modify fun s => s.mapMe fun v => v.setM (Fin.ofNat 8 j) (BitVec.ofNat 512 x)) [1, 2, 3, 4, 5, 6, 7]
  let vr := (← get).vrCount
  forL (fun i => do
    let x ← at' (0x200 + 512 * i) 512
    modify fun s =>
      let s := s.mapMe fun v => { v with v := v.v.set (i % 32) (BitVec.ofNat 4096 x) (Nat.mod_lt _ (by decide)) }
      if rasQuiet s then s else rasWrite (vregKeys s i) s) (List.range vr)

/-- What is read for the loaded slot before it starts (R181, R183). An image that cannot be read is reported at the first
instruction (log 36); a slot whose reads must wait starts after them. -/
def prepareSlot (r : List Word) (pre : Bool) (s : State) : State :=
  let a := startTables s
  let b : State × Bool :=
    if a.2 || !pre then a
    else match preload (Rec.pimg r) a.1 with
      | .ok _ t => (t, false)
      | .error (.trap x) t => (t.mapMe fun v => { v with startTrap := v.startTrap.or (some (x.code, x.tv, x.ti)) }, false)
      | .error (.park _) t => (t, true)
  (if b.2 then b.1 else leavePlaces (.slot b.1.cur) b.1).mapMe fun v =>
    { v with startDue := b.2, st := if b.2 then .parked .start else .ready }

/-- The slots of a launch whose start reads are still to be made. -/
def startsDue (s : State) (l : Launch) : List SlotKey :=
  (s.allSlots.filter fun e => l.cids.contains e.1.cid && e.2.startDue && e.2.st == .parked .start).map (·.1)

/-- The start reads that waited are made again. -/
def prepareDue (lid : Nat) (l : Launch) (s : State) : State :=
  let s := (startsDue s l).foldl (fun s k => onSlot k (prepareSlot l.recd l.pre) s) s
  if (startsDue s l).isEmpty then s else s.push (.launchPlace lid ⟨[], []⟩)

/-- A pool number that no live context of a tenant has (R172). -/
def freePool (s : State) (tenant : Nat) : Nat :=
  ((List.range 1024).find? fun p => !(usedPools s tenant).contains p).getD 0

/-- The cruisers of a launch (R185). -/
def makeCruisers (groves cpg total : Nat) : List Cruiser :=
  let n := groves * cpg
  (List.range n).map fun c => ⟨c, c * total / n, c * total / n, (c + 1) * total / n, 0, 0⟩

/-- Place one replica: its context, its share of each core, and its slots (R41, R43, R44, R181, R185). -/
def placeReplica (lid replica : Nat) (l : Launch) (xroot : Word) (cores : List Nat) (gbase : List (Nat × Nat)) (s : State) : State :=
  let r := l.recd
  let part := Rec.part r
  let cid := s.nextId
  let shares := makeShares s part cores
  let groves := Sorted.ofList (cores.map groveOfCore)
  let c : Ctx :=
    { Ctx.fresh with
      tenant := l.tenant, lid := lid, replica := replica, xroot := xroot, part := part, nlvl := Rec.nlvl r,
      scopes := (List.range (Rec.nlvl r)).map (Rec.scope r), shares := shares,
      gbase := (gbase.filter fun g => groves.contains g.1).foldl (fun t g => Tab.set t g.1 g.2) [],
      cpg := Rec.cpg r, pool := freePool s l.tenant, area := BitVec.ofNat 64 (Config.saveArea cid),
      cruisers := if replica = 0 then makeCruisers groves.length (Rec.cpg r) (Rec.total r) else [] }
  let s := ({ s with former := [], nextId := cid + 1, ctxs := Tab.set s.ctxs cid c } : State).mapLaunch lid fun l => { l with cids := l.cids ++ [cid] }
  let s := shares.foldl (fun s sh => sh.grans.foldl (fun s g => zeroGranule sh.pcore g s) (hostOn cid sh s)) s
  let s := groves.foldl (fun s g => zeroGrant g (Tab.getD c.gbase g 0) (Part.gsg part) s) s
  let keys := shares.flatMap fun sh => (List.range (Part.slots part)).map fun k => (⟨cid, sh.lcore, k⟩ : SlotKey)
  let s := keys.foldl (fun s k =>
    let v := startSlot r l.pre (slotLevels r s.free k.lcore k.slot)
    onSlot k (prepareSlot r l.pre) (s.addSlot k v)) s
  cores.foldl (fun s x => serveTable x s) { s with free := s.free + 128 }

/-- Place the replicas in order (R331). -/
def placeReplicas (lid : Nat) (l : Launch) (xroot : Word) (gbase : List (Nat × Nat)) : Nat → List (List Nat) → State → State
  | _, [], s => s
  | i, c :: t, s => placeReplicas lid l xroot gbase (i + 1) t (placeReplica lid i l xroot c gbase s)

/-- The replica groups of a launch (R350): the lead is the first replica. -/
def makeGroups (lid : Nat) (r : List Word) (cores : Nat) : List Group :=
  if Rec.mode r = 0 then []
  else (List.range cores).flatMap fun lc => (List.range (Part.slots (Rec.part r))).map fun k =>
    { lid := lid, lcore := lc, slot := k, members := List.range (replicaCount r), lead := 0, sigs := [], since := 0 }

/-- Start a launch on chosen cores. -/
def startLaunch (lid : Nat) (l : Launch) (choice : PlaceChoice) (s : State) : State :=
  let xroot := ((Tab.get s.tenants l.tenant).map (·.xroot)).getD 0
  let s := placeReplicas lid l xroot choice.gbase 0 choice.cores s
  let s := { s with groups := s.groups ++ makeGroups lid l.recd (choice.cores.headD []).length }
  let s := s.mapLaunch lid fun l => { l with st := .running }
  let due := match Tab.get s.launches lid with | some l => startsDue s l | none => []
  queueGoesOn l.tenant l.qid (if due.isEmpty then s else s.push (.launchPlace lid ⟨[], []⟩))

/-! Completion (R191 to R194). -/

/-- The unit ID of R193. -/
def unitWord (u : UnitId) : Nat :=
  let x := match u with
    | .core n => (0, n) | .grove n => (1, n) | .pseudoChannel n => (2, n) | .linkPort n => (3, n)
  Config.moduleId * 2 ^ 18 + x.1 * 2 ^ 16 + x.2 % 2 ^ 11

/-- Insert by place, behind those of the same place. -/
def insertUnit (u : Nat × UnitId) : List (Nat × UnitId) → List (Nat × UnitId)
  | [] => [u]
  | x :: t => if u.1 < x.1 then u :: x :: t else x :: insertUnit u t

/-- The units in the order of the record: by the place that each had when it was reported (R192). -/
def sortUnits (l : List (Nat × UnitId)) : List UnitId := (l.foldl (fun r u => insertUnit u r) []).map (·.2)

/-- The eight doublewords of a completion record (R193). -/
def completionRecord (lst cause : Nat) (err : BitVec 32) (l : Option Launch) (first : Option (Nat × Word × Word)) : List Nat :=
  match l with
  | none => [2 ^ 63 + lst * 2 ^ 48 + cause * 2 ^ 40, 0, 0, 0, 0, 0, 0, 0]
  | some l =>
    let us := sortUnits l.uids
    let ids := (us.take 6).map unitWord
    let tiles := Nat.min (2 ^ 49 - 1) l.tiles
    [2 ^ 63 + (if 6 < us.length then 2 ^ 62 else 0) + (if l.tiles < l.total then 2 ^ 61 else 0) + ids.length * 2 ^ 56 +
        lst * 2 ^ 48 + cause * 2 ^ 40 + err.toNat,
     tiles, l.cmps % 2 ^ 32 * 2 ^ 32 + l.tmrv % 2 ^ 32,
     (match first with | some f => f.2.1.toNat | none => 0), (match first with | some f => f.2.2.toNat | none => 0),
     ids.getD 1 0 * 2 ^ 32 + ids.getD 0 0, ids.getD 3 0 * 2 ^ 32 + ids.getD 2 0, ids.getD 5 0 * 2 ^ 32 + ids.getD 4 0]

/-- Write a completion record, DW0 last (R194): whether it was written. -/
def writeRecord (tenant : Nat) (compl : Word) (dw : List Nat) : EM Bool := do
  let r ← attempt (do
    landStore tenant (compl + 8) 56 (packElems 64 (dw.drop 1))
    landStore tenant compl 8 (dw.headD 0))
  pure r.isSome

/-- A LAUNCH packet has completed; a record that could not be written halts its queue (R194). -/
def launchPacketDone (l : Launch) (ok : Bool) : EM Unit := do
  modify (finishPacket l.tenant l.qid l.start)
  if ok then pure () else haltQueue l.tenant l.qid QCode.recordFault l.pidx

/-- A launch that starts no slot ends with a status: one that is discarded has retired none of its tiles (R179, R193, R194, R321). -/
def refuseLaunch (l : Launch) (lst : Nat) : EM Unit := do
  let ok ← writeRecord l.tenant (Rec.compl l.recd)
    (completionRecord lst (if lst = 6 then Cause.erratumRetired else 0) 0 (if lst = 2 then some l else none) none)
  launchPacketDone l ok

/-- Refuse a waiting launch. -/
def refuseWaiting (lid lst : Nat) : EM Unit := do
  match Tab.get (← get).launches lid with
  | none => pure ()
  | some l =>
    if l.st ≠ .waiting then pure ()
    else do
      modify fun s => s.mapLaunch lid fun l => { l with st := .ended }
      refuseLaunch l lst

/-- LAUNCH_PLACE (R331): a waiting launch starts on the chosen cores once they and a context number are free (R172), while Naruno's
scheduler (R322) and the stacks of its tenant's memory (R334) are ready; where no choice is given, the landing makes it (log 12). A
choice whose grant lies outside the grant area or overlaps another is refused (R54). A launch that finds no room waits; one that no
unit in service could take ends the wait, and one whose grant fits no grant area is refused (R54). For a launch that runs, start
reads that waited are made. -/
def execLaunchPlace (lid : Nat) (choice : PlaceChoice) (s : State) : Out :=
  match Tab.get s.launches lid with
  | none => .next s
  | some l =>
    if l.st = .running then .next (prepareDue lid l s)
    else if l.st ≠ .waiting then .next s
    else if isReady s .firmware && coresOk s l.recd (choiceFor s l.recd choice) && poolsFree s l.tenant (replicasHere l.recd) &&
        stacksReady s l.tenant then
      (if grantsOk s l.recd (choiceFor s l.recd choice) then .next (startLaunch lid l (choiceFor s l.recd choice) s)
       else landing (.launchPlace lid choice) (refuseWaiting lid 4) s)
    else if hierarchyInvalid s l.tenant l.recd then .next (s.push (.launchWaitRefuse lid))
    else if !grantPossible s l.recd then landing (.launchPlace lid choice) (refuseWaiting lid 4) s
    else .next (s.push (.launchPlace lid ⟨[], []⟩))

/-- LAUNCH_WAIT_REFUSE (R331): too few units remain in service. -/
def execLaunchWaitRefuse (lid : Nat) (s : State) : Out :=
  match Tab.get s.launches lid with
  | none => .next s
  | some l =>
    if l.st = .waiting && hierarchyInvalid s l.tenant l.recd then landing (.launchWaitRefuse lid) (refuseWaiting lid 5) s
    else .next s

/-- The home context of a launch. -/
def homeCtx (s : State) (l : Launch) : Ctx := s.ctxOf (l.cids.headD 0)

/-- Whether a core of a launch has nothing left to do (R191): its slots are ENDED, or STOPPED by a kill, its commands have
completed and its stores to other modules are answered, in every replica. -/
def coreIdle (s : State) (l : Launch) (lcore : Nat) : Bool :=
  let killed := l.st == .killed || l.st == .aborted
  let mine (k : SlotKey) : Bool := l.cids.contains k.cid && k.lcore == lcore
  !s.allSlots.any (fun e => mine e.1 &&
      (e.2.st != .ended && e.2.st != .absent && !(killed && e.2.st == .stopped) || !e.2.inflight.isEmpty)) &&
    !s.cmds.any fun c => match c.issuer with | .slot k => mine k | _ => false

/-- Combine summaries in order (R192). -/
def combine (l : List Summary) : Summary :=
  l.foldl (fun a b => ⟨a.err ||| b.err, match a.first with | some f => some f | none => b.first⟩) ⟨0, none⟩

/-- The summary of a core's slots: a replica group counts once, through its lead (R192). -/
def coreSummary (s : State) (l : Launch) (lcore : Nat) : Summary :=
  let cid := l.cids.headD 0
  combine ((List.range (Part.slots (homeCtx s l).part)).filterMap fun k =>
    (s.slotAt (leadKey s ⟨cid, lcore, k⟩)).map fun v => ⟨v.err, v.first⟩)

/-- The nodes of the completion tree (R191): groves by logical number, dies from 128 on, and the module, which is the root. -/
def dieNode (d : Nat) : Nat := 128 + d
def rootNode : Nat := 256

/-- CORE_DONE_MESSAGE (R191). -/
def execCoreDoneMessage (lid lcore : Nat) (s : State) : Out :=
  match Tab.get s.launches lid with
  | none => .next s
  | some l =>
    if (l.st != .running && l.st != .killed && l.st != .aborted) || !coreIdle s l lcore || (Tab.get l.coreMsgs lcore).isSome then .next s
    else match (homeCtx s l).shares.find? (·.lcore == lcore) with
      | none => .next s
      | some sh =>
        .next ((s.mapLaunch lid fun l => { l with coreMsgs := Tab.set l.coreMsgs lcore (coreSummary s l lcore) }).pushOnce
          (.nodeDoneMessage lid sh.lgrove))

/-- The messages of a node's children, in increasing logical index: none until each has come (R192). -/
def childMessages (s : State) (l : Launch) (node : Nat) : Option (List Summary) :=
  let sh := (homeCtx s l).shares
  let kids : List (Option Summary) :=
    if node < 128 then (Sorted.ofList ((sh.filter (·.lgrove == node)).map (·.lcore))).map (Tab.get l.coreMsgs)
    else if node < rootNode then
      (Sorted.ofList ((sh.filter (·.ldie == node - 128)).map (·.lgrove))).map (Tab.get l.nodeMsgs)
    else (Sorted.ofList (sh.map fun x => dieNode x.ldie)).map (Tab.get l.nodeMsgs)
  if kids.isEmpty || kids.any (·.isNone) then none else some (kids.filterMap id)

/-- The parent of a node. -/
def parentNode (s : State) (l : Launch) (node : Nat) : Nat :=
  if node < 128 then dieNode (dieOfGrove (homeCtx s l) node) else rootNode

/-- The root writes the completion record; the launch ends and its contexts with it (R193, R194). -/
def rootDone (lid : Nat) (m : Summary) : EM Unit := do
  let s ← get
  match Tab.get s.launches lid with
  | none => pure ()
  | some l =>
    let first := match m.first with | some f => some f | none => l.kill
    let err := match l.kill with | some k => m.err ||| BitVec.ofNat 32 (2 ^ k.1) | none => m.err
    let lst := match l.st with | .killed => 1 | .aborted => 2 | _ => 0
    let cause := match first with | some f => f.1 | none => 0
    let ok ← writeRecord l.tenant (Rec.compl l.recd) (completionRecord lst cause err (some l) first)
    modify fun s => (s.mapLaunch lid fun l => { l with st := .ended })
    modify fun s => { l.cids.foldl (fun s cid => destroyContext cid s) s with groups := s.groups.filter (·.lid != lid) }
    launchPacketDone l ok

/-- NODE_DONE_MESSAGE (R192): a node combines its children's messages, and the root ends the launch. -/
def execNodeDoneMessage (lid node : Nat) (s : State) : Out :=
  match Tab.get s.launches lid with
  | none => .next s
  | some l =>
    if l.st != .running && l.st != .killed && l.st != .aborted then .next s
    else match childMessages s l node with
      | none => .next s
      | some ms =>
        if node = rootNode then landing (.nodeDoneMessage lid node) (rootDone lid (combine ms)) s
        else
          .next ((s.mapLaunch lid fun l => { l with nodeMsgs := Tab.set l.nodeMsgs node (combine ms) }).pushOnce
            (.nodeDoneMessage lid (parentNode s l node)))

/-! Kills and aborts (R89, R191, R321). -/

/-- Stop a launch: every slot stops for good, its commands are aborted, and every node reports. -/
def stopLaunch (lid : Nat) (st : LaunchSt) (s : State) : State :=
  match Tab.get s.launches lid with
  | none => s
  | some l =>
    if l.st ≠ .running then s
    else
      let s := l.cids.foldl (fun s cid => abortCmds (cmdOf cid) (stopSlots cid s)) s
      let s := s.mapSlots (fun k _ => l.cids.contains k.cid) fun v => { v with pf := none, kept := none, startDue := false, cut := none }
      let s := s.mapLaunch lid fun l => { l with st := st }
      (homeCtx s l).shares.foldl (fun s sh => s.pushOnce (.coreDoneMessage lid sh.lcore)) s

/-- LAUNCH_KILL (R191): a fatal cause. -/
def execLaunchKill (lid : Nat) (s : State) : Out :=
  match Tab.get s.launches lid with
  | none => .next s
  | some l => if l.kill.isSome then .next (stopLaunch lid .killed s) else .next s

/-- Stop and discard the started packets of a queue under ABORT (R321). -/
def abortStarted (t qid : Nat) : EM Unit := do
  let s ← get
  let mine := s.launches.filter fun l => l.2.tenant == t && l.2.qid == qid
  let rec go : List (Nat × Launch) → EM Unit
    | [] => pure ()
    | l :: rest => do
      (if l.2.st = .waiting then refuseWaiting l.1 2 else modify (stopLaunch l.1 .aborted))
      go rest
  go mine
  let isLaunch (p : Started) : Bool := Pkt.typ p.dw == 1
  modify fun s =>
    let s := abortCmds (fun c => match c.issuer with | .packet t' q' _ => t' == t && q' == qid | _ => false) s
    queueGoesOn t qid (mapQueue t qid (fun q => { q with started := q.started.filter isLaunch, waiting := none }) s)

/-- QUEUE_DESTROY with ABORT (R321): started work is stopped and discarded. -/
def execQueueDestroyAbort (tenant qid : Nat) (s : State) : Out :=
  byNaruno (.queueDestroyAbort tenant qid) (do
    let first ← drainBody tenant qid true
    if first then abortStarted tenant qid else pure ()) s

/-- LAUNCH (R178, R179, R325): the record is read and checked; the launch waits for its placement, which the tenant's plug-in
may decide on first (R333). -/
def launchBody (t qid : Nat) : EM Unit := do
  match ← takePacket t qid 1 with
  | none => pure ()
  | some (_, x, d) => do
    let n := (← get).nextId
    modify (addStarted t qid x d false)
    match ← attempt (landRead t (Dw.w d 1) 256) with
    | none => do
      modify (finishPacket t qid n)
      haltQueue t qid QCode.recordFault x
    | some w => do
      let r := (List.range 32).map fun i => BitVec.ofNat 64 (w / 2 ^ (64 * i))
      let l : Launch :=
        { tenant := t, qid := qid, pidx := x, start := n, deferred := false, pre := Pkt.pre d, recd := r, st := .waiting, cids := [], tiles := 0,
          total := Rec.total r, coreMsgs := [], nodeMsgs := [], uids := [], cmps := 0, tmrv := 0, kill := none,
          old := Rec.compat r &&& (errataOf (← get) t).1 }
      let lst := recordCheck (← get) t r (Pkt.pre d)
      if lst ≠ 0 then refuseLaunch l lst
      else modify fun s =>
        let lid := s.nextId
        let s := { s with nextId := lid + 1, launches := Tab.set s.launches lid l }
        if (match Tab.get s.tenants t with | some x => x.plugin | none => false) then
          ({ s with free := s.free + 1 } : State).push (.onLaunch lid (Config.freeWord s.free))
        else s.push (.launchPlace lid ⟨[], []⟩)

/-- LAUNCH (R325). -/
def execLaunch (tenant qid : Nat) (s : State) : Out := landing (.launch tenant qid) (launchBody tenant qid) s

/-- ON_LAUNCH (R333): 0 place, 1 defer by one period, 2 refuse with LST 5. Another value places it (log 37). -/
def execOnLaunch (lid : Nat) (ret : Word) (s : State) : Out :=
  match Tab.get s.launches lid with
  | none => .next s
  | some l =>
    if l.st ≠ .waiting then .next s
    else if ret = 2 then landing (.onLaunch lid ret) (refuseWaiting lid 5) s
    else if ret = 1 then .next ((s.mapLaunch lid fun l => { l with deferred := true }).pushOnce .arbiterPeriodStart)
    else .next (s.push (.launchPlace lid ⟨[], []⟩))

end Sys2Proof.Machine
end

