-- ==== Sys2Proof/Machine/Landing.lean ====
section
/-!
DEFINITION. The packets that the landing carries out itself (R325, R326, R371): COPY, COND, SIGNAL and BARRIER-AND.
-/
namespace Sys2Proof.Machine

/-! COPY. -/

/-- The fields of a COPY packet (R324). -/
def copySrc (d : List Word) : Word := Dw.w d 1
def copyDst (d : List Word) : Word := Dw.w d 2
def copyLen (d : List Word) : Nat := (Dw.w d 3).toNat
def copyCw (d : List Word) : Word := Dw.w d 4
def copyCv (d : List Word) : Word := Dw.w d 5

/-- The bytes of the piece at an offset: up to the next 64 KiB boundary of the destination address (R325). -/
def pieceLen (d : List Word) (off : Nat) : Nat :=
  Nat.min (65536 - ((copyDst d).toNat + off) % 65536) (copyLen d - off)

/-- The command of a piece: bytes, SCOPE DOMAIN, FES from the packet (R325). -/
def pieceCmd (d : List Word) (off : Nat) : List Word :=
  let control := 4 * 2 ^ 35 + (if Pkt.pre d then 2 ^ 38 else 0)
  let o := BitVec.ofNat 64 off
  [BitVec.ofNat 64 control, copySrc d + o, copyDst d + o, 0, BitVec.ofNat 64 (pieceLen d off - 1)] ++ List.replicate 11 0

/-- The groves of a tenant. -/
def tenantGroves (s : State) (t : Nat) : List Nat :=
  Sorted.ofList ((s.ctxs.filter fun c => c.2.tenant == t && isResident c.2).flatMap fun c => c.2.shares.map fun sh => groveOfCore sh.pcore)

/-- The grove whose skidder takes the next command: one of the tenant's, with room if one has, else the first; grove 0 when
the tenant has none (log 12). -/
def chooseGrove (s : State) (t : Nat) : Nat :=
  let gs := tenantGroves s t
  ((gs.find? fun g => engineRoom s (.skidder g)).or gs.head?).getD 0

/-- Change a started packet. -/
def mapStarted (t qid start : Nat) (f : Started → Started) (s : State) : State :=
  mapQueue t qid (fun q => { q with started := q.started.map fun p => if p.start = start then f p else p }) s

/-- Whether a COPY has pieces to issue; after a failure it has none (R325). -/
def issuesOn (p : Started) : Bool := Pkt.typ p.dw == 2 && p.fail.isNone && decide (p.next < copyLen p.dw)

/-- Whether every issued command of a COPY has completed and, unless one failed, every piece was issued (R325). -/
def copyDone (p : Started) : Bool := Pkt.typ p.dw == 2 && p.cmds.isEmpty && !(p.fail.isNone && decide (p.next < copyLen p.dw))

/-- COPY (R325): the packet starts; its commands follow. -/
def execCopy (tenant qid : Nat) (s : State) : Out :=
  landing (.copy tenant qid) (do
    match ← takePacket tenant qid 2 with
    | none => pure ()
    | some (_, x, d) =>
      modify fun s =>
        let s := addStarted tenant qid x d false s
        s.push (.copyCommandIssue tenant qid x (chooseGrove s tenant))) s

/-- COPY_COMMAND_ISSUE (R325): the next piece goes to a skidder with room; after a failure none does. A grove that is not the
tenant's is replaced. -/
def execCopyCommandIssue (tenant qid pidx grove : Nat) (s : State) : Out :=
  match startedAt s tenant qid pidx issuesOn with
  | none => .next s
  | some p =>
      let gs := tenantGroves s tenant
      let own := if gs.isEmpty then grove == 0 else gs.contains grove
      if !own || !engineRoom s (.skidder grove) then
        .next (s.push (.copyCommandIssue tenant qid pidx (chooseGrove s tenant)))
      else
        let c := newCmd s (.skidder grove) (.packet tenant qid p.start) 0 tenant (grove * Config.coresPerGrove) (pieceCmd p.dw p.next)
        let off := p.next + pieceLen p.dw p.next
        let s := mapStarted tenant qid p.start (fun p => { p with cmds := p.cmds ++ [c.id], next := off })
          { s with nextCmd := s.nextCmd + 1 }
        let s := addCmd c s
        .next (if off < copyLen p.dw then s.push (.copyCommandIssue tenant qid pidx (chooseGrove s tenant)) else s)

/-- The completion word of a COPY packet (R325): whether a write that it asks for was made. -/
def writeCw (t : Nat) (d : List Word) (v : Word) : EM Bool := do
  if copyCw d = 0 then pure true
  else
    let r ← attempt (landStore t (copyCw d) 8 v.toNat)
    pure r.isSome

/-- COPY_PACKET_COMPLETE (R325): once every issued command has completed and, unless one failed, every piece was issued. -/
def execCopyPacketComplete (tenant qid pidx : Nat) (s : State) : Out :=
  match startedAt s tenant qid pidx copyDone with
  | none => .next s
  | some p => landing (.copyPacketComplete tenant qid pidx) (do
      let ok ← writeCw tenant p.dw (match p.fail with
        | none => copyCv p.dw
        | some f => 0x8000000000000000 ||| f.2.setWidth 64)
      modify (finishPacket tenant qid p.start)
      if p.fail.isSome then haltQueue tenant qid QCode.copyFailed pidx
      else if !ok then haltQueue tenant qid QCode.wordFault pidx
      else pure ()) s

/-! COND. -/

/-- CMP of a COND packet (R324, R325). -/
def packetTest (cmp : Nat) (w v : Word) : Bool :=
  match cmp with
  | 0 => w == v
  | 1 => w != v
  | 2 => w.ult v
  | 3 => !w.ult v
  | 4 => w.slt v
  | _ => !w.slt v

/-- The test of a COND packet: none when its word cannot be read. -/
def condTest (t : Nat) (d : List Word) : EM (Option Bool) := do
  let r ← attempt (landRead t (Dw.w d 1) 8)
  pure (r.map fun w => packetTest (Pkt.cmp d) (BitVec.ofNat 64 w &&& Dw.w d 3) (Dw.w d 2))

/-- Go on at a packet index. -/
def fetchAt (t qid x : Nat) : EM Unit := modify fun s => queueGoesOn t qid (mapQueue t qid (fun q => { q with next := x }) s)

/-- COND (R325). -/
def condBody (t qid : Nat) : EM Unit := do
  match ← takePacket t qid 3 with
  | none => pure ()
  | some (q, x, d) => do
    match ← condTest t d with
    | none => haltQueue t qid QCode.wordFault x
    | some b =>
      if Pkt.act d = 0 then fetchAt t qid (if b then x + 1 + Pkt.cnt d else x + 1)
      else if Pkt.act d = 1 then
        if !b then fetchAt t qid (x + 1)
        else if x < Pkt.cnt d ∨ x - Pkt.cnt d + q.size < q.nidx then haltQueue t qid QCode.badJump x
        else fetchAt t qid (x - Pkt.cnt d)
      else if b then fetchAt t qid (x + 1)
      else modify fun s => (addStarted t qid x d true s).push (.condWaitRetest t qid)

/-- COND (R325). -/
def execCond (tenant qid : Nat) (s : State) : Out := landing (.cond tenant qid) (condBody tenant qid) s

/-- Test a waiting packet again (R325): it completes, waits on, or halts its queue. -/
def retest (t qid : Nat) (p : Started) (test : EM (Option Bool)) (again : Instr) : EM Unit := do
  match ← test with
  | none => do
    modify (finishPacket t qid p.start)
    haltQueue t qid QCode.wordFault p.idx
  | some true => modify (finishPacket t qid p.start)
  | some false => modify fun s => s.push again

/-- COND_WAIT_RETEST (R325). -/
def execCondWaitRetest (tenant qid : Nat) (s : State) : Out :=
  match waitingStart s tenant qid with
  | none => .next s
  | some p =>
    if Pkt.typ p.dw != 3 then .next s
    else landing (.condWaitRetest tenant qid)
      (retest tenant qid p (condTest tenant p.dw) (.condWaitRetest tenant qid)) s

/-! SIGNAL. -/

/-- Raise the interrupt of a SIGNAL (R326): at once, or merged into an open hold-off window. -/
def signalIrq (t : Nat) (d : List Word) (s : State) : State :=
  let vec := Pkt.vec d
  if !Pkt.coal d then raiseIrq t vec s
  else
    let w := (Tab.get s.tenants t).bind fun x => Tab.get x.windows vec
    if (match w with | some w => decide (s.tick < w.close) | none => false) then
      s.mapTenant t fun x => { x with windows := Tab.modify x.windows vec fun w => { w with merged := true } }
    else
      let s := match w with | some w => (if w.merged then raiseIrq t vec s else s) | none => s
      let s := (raiseIrq t vec s).mapTenant t fun x =>
        { x with windows := Tab.set x.windows vec ⟨s.tick + 256 * (Dw.w d 3).toNat, false⟩ }
      s.pushOnce (.holdOffWindowClose t vec)

/-- SIGNAL (R325): the write or the AMO add, then the interrupt. -/
def signalBody (t qid : Nat) : EM Unit := do
  match ← takePacket t qid 4 with
  | none => pure ()
  | some (_, x, d) => do
    let v := (Dw.w d 2).toNat
    let r ← attempt (if Pkt.op d = 0 then landStore t (Dw.w d 1) 8 v else landAtomic t (Dw.w d 1) ⟨true, 0, false, 0, v⟩)
    if r.isNone then haltQueue t qid QCode.wordFault x
    else modify fun s => queueGoesOn t qid (if Pkt.intr d then signalIrq t d s else s)

/-- SIGNAL (R325). -/
def execSignal (tenant qid : Nat) (s : State) : Out := landing (.signal tenant qid) (signalBody tenant qid) s

/-- HOLD_OFF_WINDOW_CLOSE (R326): the merged raises give one interrupt. -/
def execHoldOffWindowClose (tenant vec : Nat) (s : State) : Out :=
  match (Tab.get s.tenants tenant).bind fun x => Tab.get x.windows vec with
  | none => .next s
  | some w =>
    if s.tick < w.close then .next (s.push (.holdOffWindowClose tenant vec))
    else
      let s := if w.merged then raiseIrq tenant vec s else s
      .next (s.mapTenant tenant fun x => { x with windows := Tab.erase x.windows vec })

/-! BARRIER-AND. -/

/-- Whether the first `n` words of a BARRIER-AND are at least VAL: none when one cannot be read. -/
def wordsMeet (t : Nat) (v : Nat) : List Word → EM (Option Bool)
  | [] => pure (some true)
  | a :: rest => do
    match ← attempt (landRead t a 8) with
    | none => pure none
    | some w =>
      match ← wordsMeet t v rest with
      | none => pure none
      | some b => pure (some (decide (v ≤ w) && b))

/-- The test of a BARRIER-AND packet (R325). -/
def barrierTest (t : Nat) (d : List Word) : EM (Option Bool) :=
  wordsMeet t (Dw.w d 6).toNat ((List.range (Pkt.nw d)).map fun i => Dw.w d (i + 1))

/-- BARRIER-AND (R325). -/
def barrierBody (t qid : Nat) : EM Unit := do
  match ← takePacket t qid 5 with
  | none => pure ()
  | some (_, x, d) => do
    match ← barrierTest t d with
    | none => haltQueue t qid QCode.wordFault x
    | some true => modify (queueGoesOn t qid)
    | some false => modify fun s => (addStarted t qid x d true s).push (.barrierAndRetest t qid x)

/-- BARRIER_AND (R325). -/
def execBarrierAnd (tenant qid : Nat) (s : State) : Out := landing (.barrierAnd tenant qid) (barrierBody tenant qid) s

/-- BARRIER_AND_RETEST (R325). -/
def execBarrierAndRetest (tenant qid pidx : Nat) (s : State) : Out :=
  match waitingStart s tenant qid with
  | none => .next s
  | some p =>
    if Pkt.typ p.dw != 5 || p.idx != pidx then .next s
    else landing (.barrierAndRetest tenant qid pidx)
      (retest tenant qid p (barrierTest tenant p.dw) (.barrierAndRetest tenant qid pidx)) s

end Sys2Proof.Machine
end

