-- ==== Sys2Proof/Machine/RasEvents.lean ====
section
/-!
DEFINITION. What Naruno and the outside do to the module: tests and failures of units (R344), error injection (R69),
privileged registers (R7, R16, R48, R53, R55, R68, R71, R75, R330), readiness (R334), checkpoints (R335), restarts (R322),
plug-ins (R333), tenants (R39, R328), and reset (R154).
-/
namespace Sys2Proof.Machine

/-! Units (R344). -/

/-- A quarantined unit returns to service. -/
def unquarantine (u : UnitId) (s : State) : State :=
  { s with quarantined := s.quarantined.filter (· != u),
           fenced := match u with | .pseudoChannel n => Sorted.erase s.fenced n | _ => s.fenced }

/-- SUSPECT_UNIT_TEST (R344): a suspect unit that passes returns to service, and one that fails stays fenced. -/
def execSuspectUnitTest (u : UnitId) (pass : Bool) (s : State) : Out :=
  if !s.suspects.contains u then .next s
  else
    let s := { s with suspects := s.suspects.filter (· != u) }
    .next (if pass then unquarantine u s else s)

/-- The launches that run. -/
def runningLaunches (s : State) : List Nat := (s.launches.filter fun l => l.2.st == .running).map (·.1)

/-- Waits at peers that are no longer reachable end with PEER_ABSENT (R28, R65). -/
def absentWaits (s : State) : State :=
  let lost (k : Nat) : Bool := match keyModule k with | some m => !peerReachable s m | none => false
  (entriesOn lost s).foldl (fun s e => failEntry Reason.peerAbsent ((keyModule e.word).getD 0) s e) s

/-- LINK_PORT_FAILURE (R344): the port is quarantined and its rdymap bit is clear; other ports take the traffic. -/
def execLinkPortFailure (port : Fin 24) (s : State) : Out :=
  let u : UnitId := .linkPort port.val
  let s := noteUid (runningLaunches s) u (quarantine u false s)
  .next (absentWaits { s with fencedLinks := Sorted.insert s.fencedLinks port.val,
                              rdymap := s.rdymap &&& ~~~(1#64 <<< (16 + port.val)) })

/-! Error injection (R69). -/

/-- Whether an array exists. -/
def arrayExists : ArrayId → Bool
  | .pool c | .l1 c | .icache c => c < Config.cores
  | .scratch g => g < Config.groves

/-- Whether an array has banks that can be marked failed (R66, R67). -/
def hasBanks : ArrayId → Bool
  | .pool _ | .scratch _ => true
  | _ => false

/-- A write of eictl (R69): reserved bits read 0; MODE 3 takes no effect; MODE 2 with ARM marks BANK failed at once, and ARM
then reads 0. -/
def writeEictl (a : ArrayId) (v : Word) (s : State) : State :=
  let x := v &&& 0xF0F80001FFFFFFFF
  if !arrayExists a || eiMode x == 3 then s
  else if eiMode x = 2 ∧ eiArm x then
    let s := s.mapRas a fun r => { r with eictl := x &&& 0x7FFFFFFFFFFFFFFF }
    if hasBanks a && eiBank x < 18 then failBank a (eiBank x) s else s
  else s.mapRas a fun r => { r with eictl := x }

/-- EICTL_INJECT_DATA (R69). -/
def execEictlInjectData (arr : ArrayId) (v : Word) (s : State) : Out := .next (writeEictl arr v s)
/-- EICTL_INJECT_CHECK (R69). -/
def execEictlInjectCheck (arr : ArrayId) (v : Word) (s : State) : Out := .next (writeEictl arr v s)
/-- EICTL_MARK_BANK_FAILED (R69). -/
def execEictlMarkBankFailed (arr : ArrayId) (v : Word) (s : State) : Out := .next (writeEictl arr v s)

/-! Privileged registers. -/

/-- Whether a grant overlaps the cache and shadow extents of a gcfg value (R54, R55). -/
def grantsOverlap (s : State) (g : Nat) (v : Word) : Bool :=
  (grantsOn s g).any fun x => x.2 != 0 && decide (128 - cacheUnits v - shadowUnits v < x.1 + x.2)

/-- The set of a line under a gcfg value; none without a cache portion (R75). -/
def setOf (v : Word) (line : Nat) : Option Nat :=
  let n := cacheSets { Grove.reset with gcfg := v }
  if n = 0 then none else some (line / 128 % n)

/-- Naruno moves images of a grove to their save areas until those that are left fit a shadow portion (R55, R56, log 57). -/
def fitShadow (grove units : Nat) (s : State) : State :=
  (s.ctxs.foldl (fun (acc : Nat × State) c =>
    match c.2.img with
    | none => acc
    | some i =>
      let mine := ((i.shadow.filter (·.1 == grove)).map (·.2)).sum
      if acc.1 + mine ≤ units then (acc.1 + mine, acc.2) else (acc.1, spillImage grove c.1 acc.2)) (0, s)).2

/-- A gcfg value takes effect (R55): lines whose place it takes away are written back and invalidated, and lines of a new portion
start invalid. -/
def applyGcfg (grove : Nat) (x : Word) (s : State) : State :=
  let g := s.groveOf grove
  let s := (g.cache.filter fun c => setOf g.gcfg c.line != setOf x c.line).foldl (fun s c => groveEvict grove c s) s
  (fitShadow grove (shadowUnits x) s).mapGrove grove fun g => { g with gcfg := x, grow := none }

/-- GCFG_WRITE (R53, R55): a write that does not fit takes no effect; one that grows a portion over a grant waits. -/
def execGcfgWrite (grove : Nat) (v : Word) (s : State) : Out :=
  let x := v &&& 0x3FF
  if Config.groves ≤ grove ∨ 128 < cacheUnits x + shadowUnits x then .next s
  else if grantsOverlap s grove x then
    .next ((s.mapGrove grove fun g => { g with grow := some x }).pushOnce (.gcfgGrowTakeEffect grove))
  else .next (applyGcfg grove x s)

/-- GCFG_GROW_TAKE_EFFECT (R55). -/
def execGcfgGrowTakeEffect (grove : Nat) (s : State) : Out :=
  match (s.groveOf grove).grow with
  | none => .next s
  | some x =>
    if grantsOverlap s grove x then .next (s.push (.gcfgGrowTakeEffect grove))
    else .next (applyGcfg grove x s)

/-- MEMCFG_WRITE (R71): only while every 64 KiB of device memory is unowned, and only IL 0 and 1. -/
def execMemcfgWrite (v : Word) (s : State) : Out :=
  let x := v &&& 3
  if 1 < x.toNat ∨ s.owners.any (·.2 != 255) then .next s else .next { s with memcfg := x }

/-- CMASK_WRITE (R48): a write that leaves IWAY or DWAY zero takes no effect. -/
def execCmaskWrite (cid : Nat) (v : Word) (s : State) : Out :=
  if Bits.field v 0 16 = 0 ∨ Bits.field v 16 8 = 0 then .next s
  else .next (s.mapCtx cid fun c => { c with cmask := v &&& 0xFFFFFF })

/-- GWMASK_WRITE (R75): a write of GWAY = 0 takes no effect. -/
def execGwmaskWrite (cid : Nat) (v : Word) (s : State) : Out :=
  if Bits.field v 0 16 = 0 then .next s else .next (s.mapCtx cid fun c => { c with gwmask := v &&& 0xFFFF })

/-- The fields of xroot (R16) and of tbud (R330) that are not reserved. -/
def xrootBits (v : Word) : Word := v &&& 0xFF00FFFFFFFF0003
def tbudBits (v : Word) : Word := v &&& 0x0000FFFFFFFFFFFF

/-- REGISTER_WRITE (R7): RW fields are stored, a 1 clears a W1C bit, RO and reserved bits are ignored. -/
def execRegisterWrite (r : DevReg) (v : Word) (s : State) : Out :=
  .next (match r with
    | .xroot cid => s.mapCtx cid fun c => { c with xroot := xrootBits v }
    | .tbud t => s.mapTenant t fun x => { x with tbud := tbudBits v }
    | .elog a => if arrayExists a then s.mapRas a fun r => { r with elog := r.elog &&& ~~~(v &&& 0xC000000000000000) } else s
    | .eimask a => if arrayExists a then s.mapRas a fun r => { r with eimask := v } else s
    | .eictl a => writeEictl a v s
    | .rdymap => s)

/-! Readiness, checkpoints and restarts (R322, R334, R335). -/

/-- Naruno maps every queue whose pending bit is set (R322). -/
def mapPending (s : State) : State :=
  (s.queues.filter fun q => q.pending && q.st == .unmapped).foldl (fun s q => s.pushOnce (.queueMap q.tenant q.qid)) s

/-- The pseudo-channels of a stack (R70). -/
def channelsOf (stack : Nat) : List Nat := (List.range 64).map (64 * stack + ·)

/-- A stack whose bit is clear is fenced, and one whose bit is set is not, but for quarantined pseudo-channels (R334, R344). -/
def fenceStack (f : DevFunction) (ready : Bool) (s : State) : State :=
  match f with
  | .hbm n =>
    let keep (c : Nat) : Bool := !(channelsOf n.val).contains c || s.quarantined.contains (.pseudoChannel c)
    { s with fenced := if ready then s.fenced.filter keep else (channelsOf n.val).foldl Sorted.insert s.fenced }
  | _ => s

/-- FUNCTION_READY (R334): a fenced link's bit stays clear (R344). A stack is fenced while its bit is clear, and waits at modules that
are no longer reachable end (R65). -/
def execFunctionReady (f : DevFunction) (ready : Bool) (s : State) : Out :=
  let bit := 1#64 <<< readyBit f
  let held := match f with | .link n => s.fencedLinks.contains n.val | _ => false
  if ready && !held then
    let s := fenceStack f true { s with rdymap := s.rdymap ||| bit }
    .next (if f = .firmware then mapPending s else s)
  else .next (absentWaits (fenceStack f false { s with rdymap := s.rdymap &&& ~~~bit }))

/-- CHECKPOINT (R335): only while every context is swapped out. -/
def execCheckpoint (area : Nat) (s : State) : Out :=
  if s.ctxs.any fun c => c.2.st != .swapped && c.2.st != .destroyed then .next s
  else
    .next (s.report (.checkpoint area { s.mem with cells := s.mem.cells.filter fun c => Key.isDevice c.1 } s.owners
      (s.empties.filter fun k => Key.isDevice k)))

/-- A profile triple with its minor number raised (R2, R211). -/
def raiseMinor (p : BitVec 32) : BitVec 32 :=
  if p.extractLsb' 12 12 = BitVec.allOnes 12 then p else p + 0x1000

/-- Naruno reports to a tenant's host the triples of the profiles and the errata masks of its function (R211, R360). -/
def reportFunction (tenant : Nat) (s : State) : State :=
  (s.report (.profiles tenant s.profiles)).report (.errata tenant (errataOf s tenant).1 (errataOf s tenant).2)

/-- The errata whose former behaviour a function can still run, after a firmware update that adds some of the bits of a word (R360). -/
def addErrata (tenant : Nat) (w : Word) (s : State) : State :=
  let e := errataOf s tenant
  { s with errata := Tab.set s.errata tenant (e.1 ||| w &&& ~~~e.2, e.2) }

/-- A restart may follow a firmware update, freely: it raises minor numbers of profiles, and for each function adds errata to those
whose former behaviour it can still run (R2, R211, R360, log 37). Naruno reports both to each tenant's host. -/
def updateFirmware (s : State) : State :=
  let w := Config.freeWord s.free
  let s : State := { s with
    free := s.free + 1, profiles := s.profiles.zipIdx.map fun p => if w.getLsbD p.2 then raiseMinor p.1 else p.1 }
  s.tenants.foldl (fun s t =>
    reportFunction t.1 (addErrata t.1 (if w.getLsbD 63 then Config.freeWord s.free else 0) { s with free := s.free + 1 })) s

/-- NARUNO_RESTART (R2, R322, R333). -/
def execNarunoRestart (s : State) : Out :=
  let s := updateFirmware (mapPending s)
  .next ((s.tenants.filter (·.2.plugin)).foldl (fun s t => s.pushOnce (.onRestart t.1 0)) s)

/-! Plug-in callbacks (R333). -/

/-- Whether a tenant's plug-in is enabled. -/
def pluginOn (s : State) (t : Nat) : Bool := match Tab.get s.tenants t with | some x => x.plugin | none => false

/-- ON_HALT (R333): 0 leave halted, 1 resume. -/
def execOnHalt (tenant qid : Nat) (ret : Word) (s : State) : Out :=
  if ret = 1 then landing (.onHalt tenant qid ret) (resumeBody tenant qid) s else .next s

/-- ON_BUDGET (R333): the new tbud is applied when valid: its reserved bits are zero (log 37). -/
def execOnBudget (tenant : Nat) (ret : Word) (s : State) : Out :=
  if tbudBits ret == ret then .next (s.mapTenant tenant fun x => { x with tbud := ret }) else .next s

/-- ON_QUARANTINE (R333): the return value is ignored. -/
def execOnQuarantine (_tenant : Nat) (_u : UnitId) (_ret : Word) (s : State) : Out := .next s

/-- ON_RESTART (R333): the return value is ignored. -/
def execOnRestart (_tenant : Nat) (_ret : Word) (s : State) : Out := .next s

/-- Whether an array belongs to a tenant's own resident contexts (R333). -/
def ownsArray (s : State) (t : Nat) (a : ArrayId) : Bool :=
  let here (sh : Share) : Bool :=
    match a with
    | .pool c | .l1 c | .icache c => sh.pcore == c
    | .scratch g => groveOfCore sh.pcore == g
  s.ctxs.any fun c => c.2.tenant == t && isResident c.2 && c.2.shares.any here

/-- INJECT (R333): 0 done, 1 refused; only arrays of the tenant's own resident contexts. A disabled plug-in counts as returning 0. -/
def execInject (tenant : Nat) (arr : ArrayId) (eictl eimask : Word) (s : State) : Out :=
  if !pluginOn s tenant then .next (s.report (.pluginDone tenant 0))
  else if ownsArray s tenant arr then
    .next ((writeEictl arr eictl (s.mapRas arr fun r => { r with eimask := eimask })).report (.pluginDone tenant 0))
  else .next (s.report (.pluginDone tenant 1))

/-- A callback of a tenant that has been called, as returning 0. -/
def timeoutEvent (s : State) (tenant : Nat) (i : Instr) : Instr :=
  match i with
  | .onLaunch lid ret => if ((Tab.get s.launches lid).map (·.tenant)) = some tenant then .onLaunch lid 0 else .onLaunch lid ret
  | .onHalt t qid ret => if t = tenant then .onHalt t qid 0 else .onHalt t qid ret
  | .onBudget t ret => if t = tenant then .onBudget t 0 else .onBudget t ret
  | .onQuarantine t u ret => if t = tenant then .onQuarantine t u 0 else .onQuarantine t u ret
  | .onRestart t ret => if t = tenant then .onRestart t 0 else .onRestart t ret
  | i => i

/-- Whether an event is a request of a tenant's plug-in for an injection. -/
def isInject (tenant : Nat) (i : Instr) : Bool := match i with | .inject t _ _ _ => t == tenant | _ => false

/-- PLUGIN_CALLBACK_TIMEOUT (R333): a callback that has been called counts as returning 0, and the plug-in is disabled. -/
def execPluginCallbackTimeout (tenant : Nat) (s : State) : Out :=
  let begun := s.agenda.filter (isInject tenant)
  let s : State := { s with agenda := (s.agenda.filter fun i => !isInject tenant i).map (timeoutEvent s tenant) }
  .next ((begun.foldl (fun s _ => s.report (.pluginDone tenant 0)) s).mapTenant tenant fun x => { x with plugin := false })

/-! Tenants (R39, R328). -/

/-- The pages of a tenant, under a key that has changed, hold values that are not defined (R39, R40). -/
def forgetPages (tag : Nat) (s : State) : State :=
  { s with mem := (s.owners.filter (·.2 == tag)).foldl (fun m o => m.forget (o.1 * 65536) 65536 s.free) s.mem,
           free := s.free + 1 }

/-- TENANT_CREATE (R39, R211, R328, R360): a new key, the header of the event ring, and the report of the profiles and errata. -/
def execTenantCreate (tenant : Nat) (ring en : Nat) (xroot : Word) (s : State) : Out :=
  if 64 ≤ tenant ∨ en < 4 ∨ 16 < en ∨ (Tab.get s.tenants tenant).isSome then .next s
  else
    let x : Tenant :=
      { ring := ring, en := en, fnOn := true, xroot := xrootBits xroot, irqs := [], windows := [], overflow := false,
        tbud := 0, bal := 0, plugin := true, rr := 0 }
    let s := forgetPages tenant { s with tenants := Tab.set s.tenants tenant x }
    let s := if functionOn s tenant then
        performWrite (cellsFor (hostKeys s tenant ring 64) (packElems 64 [0, 0, 0, 0, en, 0, 0, 0])) s else s
    .next (reportFunction tenant s)

/-- TENANT_DESTROY (R39): the key is erased from its slot. -/
def execTenantDestroy (tenant : Nat) (s : State) : Out :=
  if (Tab.get s.tenants tenant).isNone then .next s
  else .next (forgetPages tenant { s with tenants := Tab.erase s.tenants tenant })

/-! Reset (R154). -/

/-- RESET (R154): the reset values. Memory, its owners, bits and errors, what surrounds the module and what Naruno's firmware holds
stay (log 38). -/
def execReset (s : State) : Out :=
  .next { State.reset with
    mem := s.mem, owners := s.owners, empties := s.empties,
    flips := s.flips.filter fun f => f.1 < 2 ^ 62 || 2 ^ 110 ≤ f.1 && f.1 < 2 ^ 200,
    poison := s.poison, symbols := s.symbols, hostMaps := s.hostMaps, free := s.free, tick := s.tick, sched := s.sched,
    peers := s.peers, hostBad := s.hostBad, pageIns := s.pageIns, exports := s.exports, pairs := s.pairs,
    errata := s.errata, profiles := s.profiles, quarantined := s.quarantined,
    fenced := s.fenced, fencedLinks := s.fencedLinks, suspects := s.suspects, outbox := s.outbox }

end Sys2Proof.Machine
end

