-- ==== Sys2Proof/Machine/VectorAtomic.lean ====
section
/-!
DEFINITION. Vector reservations, indexed atomics and waits: row 0xA of the opcode map (R266 to R268), their events, and
the grove-neighbour packets of R90 to R92.
-/
namespace Sys2Proof.Machine

/-! VGLR and VSCC (R266). -/

/-- The reservations that VGLR makes for the elements it read. -/
def reservationsFor (k : SlotKey) (done : List (Nat × Word × Acc)) : List Resv :=
  done.map fun e => ⟨k, Key.word ((e.2.2.keys.head?).getD 0), e.1⟩

/-- VGLR (R266): after the slot's stores to other modules have been answered, it gathers, and sets a reservation for each active element. -/
def execVglr (o : FM) (s : State) : Out :=
  run (do
    checkGroups (.vglr o) [(o.d, Vt.grp s.me.vt), (o.b, indexSpan s.me.vt o.w)]
    readIndex o
    drainStores
    orderPointIf o.ord
    let v := (← get).me
    let n := Vt.sew v.vt
    let g := Vt.grp v.vt
    let start := resumeElem v
    let r ← reach (indexed v o) (some (elemBytes v)) .load .reserve ((activeList o.toHdr v).filter (start ≤ ·))
    readyToLoad r.keys
    let vals ← mapL (fun e => do
      let x ← loadAcc e.2.1 e.2.2
      pure (e.1, x)) r.done
    let tbl : Tab Nat := vals
    sendPackets .vglr 0 (n / 8) r.done (fun _ => 0) (fun i => (Tab.get tbl i).getD 0) fun _ => true
    modify fun s =>
      let old := if start = 0 then s.resvs.filter fun x => x.key ≠ s.cur else s.resvs
      { s with resvs := old ++ reservationsFor s.cur r.done }
    let res (i : Nat) : Option Nat := if i < start then none else Tab.get tbl i
    writeGroup o.d g n (mergeWrote v.vl (Vt.tail v.vt && r.stop.isNone) res) (mergeStream n (Vt.regBits v.vt * g) v.vl (Vt.tail v.vt && r.stop.isNone) (v.fill.toNat % 2 ^ n) res
      (destStream v o.d g))
    match r.stop with
    | some (j, t) => stopAt j 0 0 t
    | none => do
      modify fun s => longLatency (groupRegs o.d g) o.set (s.mapMe Slot.unhold)
      retire) s

/-- Whether element `i` of a VSCC of a slot succeeds at a word (R266). `lower` holds the words that lower active elements name. -/
def sccHolds (owner : SlotKey) (i w : Nat) (lower : List Nat) (s : State) : Bool :=
  s.resvs.any (fun x => x.key == owner && x.word == w && x.elem == i) && !lower.contains w

/-- The write of an element that succeeds, by a core of a context. -/
def sccWrite (core cid k n data : Nat) (s : State) : State :=
  performWrite (valueCells k n data) (if Key.isDevice k then dirStore core cid (Key.line k) s else s)

/-- The elements of VSCC in increasing order. One that succeeds is an atomic, whose word is read with the array checks (R116). -/
def sccElems (n : Nat) (data : Nat → Nat) : List (Nat × Word × Acc) → List Nat → M (List (Nat × Bool))
  | [], _ => pure []
  | e :: t, lower => do
    let k := e.2.2.keys.headD 0
    let s ← get
    let ok := sccHolds s.cur e.1 (Key.word k) lower s
    if ok then do
      let _ ← checkWords (some s.core) e.2.1 e.2.2.keys
      modify (sccWrite s.core s.cur.cid k n (data e.1))
    else pure ()
    let rest ← sccElems n data t (Key.word k :: lower)
    pure ((e.1, ok) :: rest)

/-- VSCC (R266): conditional stores; every reservation of the slot is cleared. -/
def execVscc (o : FM) (s : State) : Out :=
  run (do
    checkGroups (.vscc o) [(o.c, Vt.grp s.me.vt), (o.b, indexSpan s.me.vt o.w)]
    readIndex o
    orderPoint
    let x ← sourceElems [] o.c (Vt.grp s.me.vt) (Vt.sew s.me.vt)
    let v := (← get).me
    let start := resumeElem v
    let r ← reach (indexed v o) (some (elemBytes v)) .rmw .reserve ((activeList o.toHdr v).filter (start ≤ ·))
    atomicFree r.keys
    let rs ← sccElems (elemBytes v) x r.done []
    sendPackets .vscc 0 (elemBytes v) r.done x (fun _ => 0) fun i => rs.contains (i, true)
    modify fun s => { s with resvs := s.resvs.filter fun x => x.key ≠ s.cur }
    let res (i : Nat) : Option Bool := (rs.find? (·.1 == i)).map (·.2)
    modify fun s => s.mapMe fun v =>
      match o.d with
      | .m i => v.setM i (mergeMask v.vl (Vt.tail v.vt && r.stop.isNone) res (v.getM i))
      | _ => v
    match r.stop with
    | some (j, t) => stopAt j (BitVec.ofNat 512 (2 ^ j - 1) &&& activeMask o.toHdr v) 0 t
    | none => do
      modify fun s => longLatency (fieldRegs 1 o.d) o.set (s.mapMe Slot.unhold)
      retire) s

/-! VAMO (R267). -/

/-- The atomics of VAMO in increasing order: the former values, and the element at which no reply came. -/
def vamoElems (w8 : Bool) (aop : Nat) (data : Nat → Nat) :
    List (Nat × Word × Acc) → M (List (Nat × Nat) × Option (Nat × Trap))
  | [] => pure ([], none)
  | e :: t => do
    let k := (e.2.2.keys.head?).getD 0
    match ← elemAtomic e.2.1 k ⟨w8, aop, false, 0, data e.1⟩ with
    | none => pure ([], some (e.1, absentTrap e.2.1 k e.1))
    | some (m, fl) => do
      modify fun s => s.mapMe (·.raise fl)
      let r ← vamoElems w8 aop data t
      pure ((e.1, m) :: r.1, r.2)

/-- VAMO (R267). -/
def execVamo (o : FM) (s : State) : Out :=
  run (do
    let n := Vt.sew s.me.vt
    let g := Vt.grp s.me.vt
    if n < 32 then illegal (.vamo o) else pure ()
    checkGroups (.vamo o) [(o.d, g), (o.c, g), (o.b, indexSpan s.me.vt o.w)]
    readIndex o
    orderPoint
    let x ← sourceElems [] o.c g n
    let v := (← get).me
    let start := resumeElem v
    let r ← reach (indexed v o) (some (n / 8)) .rmw (amoClass o.aop.toNat) ((activeList o.toHdr v).filter (start ≤ ·))
    atomicFree r.keys
    peerRoom r.keys
    let out ← vamoElems (n == 64) o.aop.toNat x r.done
    sendPackets .vamo o.aop (n / 8) r.done x (fun i => (Tab.get out.1 i).getD 0) fun _ => true
    let stop := match out.2 with | some x => some x | none => r.stop
    let tbl : Tab Nat := out.1
    writeGroup o.d g n (mergeWrote v.vl (Vt.tail v.vt && stop.isNone) fun i => Tab.get tbl i) (mergeStream n (Vt.regBits v.vt * g) v.vl (Vt.tail v.vt && stop.isNone) (v.fill.toNat % 2 ^ n)
      (fun i => Tab.get tbl i) (destStream v o.d g))
    match stop with
    | some (j, t) => stopAt j (BitVec.ofNat 512 (2 ^ j - 1) &&& activeMask o.toHdr v) 0 t
    | none => do
      modify fun s => longLatency (groupRegs o.d g) o.set (s.mapMe Slot.unhold)
      retire) s

/-! VWAIT (R268). -/

/-- The condition of FN[4:3] on a word value and the expected value. -/
def waitHolds (c n x e : Nat) : Bool :=
  match c with
  | 0 => x == e
  | 1 => x != e
  | 2 => decide (e ≤ x)
  | _ => decide (Bits.sv n e ≤ Bits.sv n x)

/-- The words that VWAIT watches: the base is A, and IMM is the time-out (R255). -/
def watched (v : Slot) (o : FM) : Nat → Word × Nat := indexed v { o with imm := 0 }

/-- The elements still unmet. -/
def unmet (v : Slot) (o : FM) (latched : Mask) : List Nat := (activeList o.toHdr v).filter fun i => !latched.getLsbD i

/-- Read the unmet elements and latch those whose word meets its condition: the new set, and a fault with its element. -/
def watch (o : FM) (latched : Mask) : M (Mask × Option (Nat × Trap)) := do
  let v := (← get).me
  let n := Vt.sew v.vt
  let g := Vt.grp v.vt
  let fix ← match o.c with | .v i => checkVregs i.val g | _ => pure 0
  let e := destStream v o.c g ^^^ fix
  let r ← reach (watched v o) (some (n / 8)) .load .load (unmet v o latched)
  readyToLoad r.keys
  let vals ← mapL (fun a => do
    let x ← loadAcc a.2.1 a.2.2
    pure (a.1, waitHolds (o.fx.toNat % 4) n x (elemAt e n a.1))) r.done
  pure (vals.foldl (fun m p => if p.2 then m ||| BitVec.ofNat 512 (2 ^ p.1) else m) latched, r.stop)

/-- D at the end of VWAIT: the unlatched among the active elements. -/
def waitResult (o : FM) (latched : Mask) (v : Slot) : Slot :=
  match o.d with
  | .m i => v.setM i (mergeMask v.vl (Vt.tail v.vt)
      (fun k => if (activeMask o.toHdr v).getLsbD k then some (!latched.getLsbD k) else none) (v.getM i))
  | _ => v

/-- Whether the time-out of a VWAIT has passed: T × 256 cycles of the executing core (R268). -/
def waitExpired (s : State) (w : VWaitSt) : Bool :=
  w.op.imm != 0 && decide (w.op.imm.toNat * 256 ≤ ((s.coreOf s.core).cyc - w.start).toNat)

/-- Whether an unmet word lies outside this module, so that it is read again without a change (R268). -/
def watchesRemote (o : FM) (latched : Mask) (s : State) : Bool :=
  let v := s.me
  (unmet v o latched).any fun i =>
    match (resolve s (slotReq s) (watched v o i).1 (elemBytes v) .load .load).2 with
    | .ok a => a.keys.any (2 ^ 62 ≤ ·)
    | .error _ => false

/-- Wait on: the slot stays parked, and the events that re-examine it are due. -/
def waitOn (w : VWaitSt) (s : State) : State :=
  let s := s.mapMe fun v => { v with st := .parked .vwait, vwait := some w }
  let s := if watchesRemote w.op w.latched s then s.pushOnce (.vwaitReexamine s.cur) else s
  if w.op.imm = 0 then s else s.pushOnce (.vwaitTimeout s.cur)

/-- VWAIT (R268): completes at once when every element is met, else parks. Latched elements survive an interruption. -/
def execVwait (o : FM) (s : State) : Out :=
  run (do
    if Vt.sew s.me.vt < 32 then illegal (.vwait o) else pure ()
    checkGroups (.vwait o) [(o.c, Vt.grp s.me.vt), (o.b, indexSpan s.me.vt o.w)]
    readIndex o
    let v := (← get).me
    let before := match v.held.find? fun h => h.pc == v.pc && h.live with | some h => h.done | none => 0
    let r ← watch o before
    match r.2 with
    | some (j, t) => stopAt j r.1 0 t
    | none =>
      if (unmet v o r.1).isEmpty then do
        modify fun s => longLatency (fieldRegs 1 o.d) o.set (s.mapMe fun v => (waitResult o r.1 v).unhold)
        retire
      else modify fun s => waitOn ⟨o, r.1, (s.coreOf s.core).cyc⟩ (s.mapMe fun v => v.addPend (fieldRegs 1 o.d) o.set true)) s

/-- Re-examine a parked VWAIT: it completes, and its result is compared under lane protection (R242), faults, or waits on (R268). -/
def reexamine (k : SlotKey) (w : VWaitSt) (s : State) : State :=
  let s := s.focus k (coreOfSlot s k)
  match watch w.op w.latched s with
  | .error (.park _) t => t.pushOnce (.vwaitReexamine k)
  | .error (.trap x) t => trapSlot k x ((leavePlaces (.slot k) t).mapMe fun v => { v with vwait := none })
  | .ok (m, some (j, x)) t =>
    trapSlot k x ((leavePlaces (.slot k) t).mapMe fun v => { v.hold j 0 m 0 with vwait := none })
  | .ok (m, none) t =>
    let t := leavePlaces (.slot k) t
    if (unmet t.me w.op m).isEmpty || waitExpired t w then
      laneCheck (.vwait w.op) t (completeSlot k (fieldRegs 1 w.op.d) (fun v => { waitResult w.op m v with vwait := none }) t)
    else waitOn { w with latched := m } t

/-- The VWAIT that a slot waits in. -/
def waitOf (s : State) (k : SlotKey) : Option VWaitSt :=
  match s.slotAt k with
  | some v => if v.st = .parked .vwait then v.vwait else none
  | none => none

/-- VWAIT_REEXAMINE (R268). -/
def execVwaitReexamine (k : SlotKey) (s : State) : Out :=
  match waitOf s k with
  | some w => .next (reexamine k w s)
  | none => .next s

/-- VWAIT_TIMEOUT (R268): once T × 256 cycles have passed, the re-examination completes the instruction. -/
def execVwaitTimeout (k : SlotKey) (s : State) : Out :=
  match waitOf s k with
  | some w =>
    let f := s.focus k (coreOfSlot s k)
    if waitExpired f w then .next (reexamine k w s) else .next (s.pushOnce (.vwaitTimeout k))
  | none => .next s

/-! Grove-neighbour packets (R90 to R92). -/

/-- The pool bytes that a packet's element addresses on its owning core; none outside a share, which no core sends (R90). -/
def packetKeys (s : State) (p : NeighbourPacket) (e : NeighbourElem) (n : Nat) : List Nat :=
  let core := p.grove * Config.coresPerGrove + p.dcore.val
  match (s.coreOf core).res[p.rix.val] with
  | none => []
  | some cid =>
    match (s.ctxOf cid).shares.find? (·.pcore == core) with
    | none => []
    | some sh =>
      let off := e.offset % 2 ^ 21
      if off + n > Part.spg (s.ctxOf cid).part * Config.granuleBytes then [] else poolKeys (s.ctxOf cid).part sh off n

/-- The slot that issued a packet. -/
def packetSlot (s : State) (p : NeighbourPacket) : SlotKey :=
  let src := p.grove * Config.coresPerGrove + p.score.val
  let own := p.grove * Config.coresPerGrove + p.dcore.val
  match (s.coreOf own).res[p.rix.val] with
  | none => ⟨0, 0, 0⟩
  | some cid => ⟨cid, (((s.ctxOf cid).shares.find? (·.pcore == src)).map (·.lcore)).getD 0, p.slot.val⟩

/-- Apply one element: the state, the element returned and whether it succeeded. An element whose word is uncorrectable is
neither read nor written. -/
def packetElem (p : NeighbourPacket) (lower : List Nat) (e : NeighbourElem) (s : State) : State × Word × Bool :=
  let n := 2 ^ p.ew.val
  let keys := packetKeys s p e n
  let k := keys.headD 0
  let owner := packetSlot s p
  let core := p.grove * Config.coresPerGrove + p.dcore.val
  if keys.isEmpty then (s, 0, false)
  else match p.op with
  | .orderedScatter | .unorderedScatter => (performWrite (cellsFor keys e.data.toNat) s, 0, true)
  | .vamo =>
    match amoApply (some (core, owner.cid)) k ⟨n == 8, p.aop.toNat, false, 0, e.data.toNat⟩ s with
    | (s, some (m, _)) => (s, BitVec.ofNat 64 m, true)
    | (s, none) => (s, 0, false)
  | .vscc =>
    match sccHolds owner e.index (Key.word k) lower s, checkedWord (some core) k n s with
    | true, (s, some _) => (sccWrite core owner.cid k n e.data.toNat s, 0, true)
    | _, _ => (s, 0, false)
  | .gather | .vglr =>
    match rasRead (some core) keys s with
    | (s, flips, []) =>
      (if p.op = .vglr then { s with resvs := s.resvs ++ [⟨owner, Key.word k, e.index⟩] } else s,
        BitVec.ofNat 64 (fixBytes flips s.mem.byte keys), true)
    | (s, _, _) => (s, 0, false)

/-- Apply the elements of a packet in increasing element index (R92). -/
def packetElems (p : NeighbourPacket) : List NeighbourElem → List Nat → State → State × List Word × Mask
  | [], _, s => (s, [], 0)
  | e :: t, lower, s =>
    let keys := packetKeys s p e 1
    let r := packetElem p lower e s
    let rest := packetElems p t (Key.word (keys.headD 0) :: lower) r.1
    (rest.1, r.2.1 :: rest.2.1, if r.2.2 then rest.2.2 ||| BitVec.ofNat 512 (2 ^ e.index) else rest.2.2)

/-- NEIGHBOUR_PACKET (R92): the owning core applies the packet, once no command owns a line of it (R83), no atomic is queued
before it at one of its words (R114) and the home of its atomics has room (R115), and returns the response. -/
def execNeighbourPacket (p : NeighbourPacket) (s : State) : Out :=
  match eventWaits (.neighbourPacket p) (p.elems.flatMap fun e => packetKeys s p e (2 ^ p.ew.val)) s (p.op == .vamo || p.op == .vscc) with
  | some t => .next t
  | none =>
    let r := packetElems p p.elems [] (leavePlaces (.event (.neighbourPacket p)) s)
    .next (r.1.report (.neighbour p r.2.1 r.2.2 (responseWords p r.2.1 r.2.2)))

end Sys2Proof.Machine
end

