-- ==== Sys2Proof/Machine/Dispatch.lean ====
section
/-!
DEFINITION. One arm for each constructor of Instr: the meaning of each instruction and event.
-/
namespace Sys2Proof.Machine

def exec (i : Instr) (s : State) : Host.Outcome State Fault Refusal :=
  match i with
  | .add o => Sys2Proof.Machine.execAdd o s
  | .sub o => Sys2Proof.Machine.execSub o s
  | .mul o => Sys2Proof.Machine.execMul o s
  | .mulh o => Sys2Proof.Machine.execMulh o s
  | .mulhu o => Sys2Proof.Machine.execMulhu o s
  | .div o => Sys2Proof.Machine.execDiv o s
  | .divu o => Sys2Proof.Machine.execDivu o s
  | .rem o => Sys2Proof.Machine.execRem o s
  | .remu o => Sys2Proof.Machine.execRemu o s
  | .and o => Sys2Proof.Machine.execAnd o s
  | .or o => Sys2Proof.Machine.execOr o s
  | .xor o => Sys2Proof.Machine.execXor o s
  | .andn o => Sys2Proof.Machine.execAndn o s
  | .shl o => Sys2Proof.Machine.execShl o s
  | .shr o => Sys2Proof.Machine.execShr o s
  | .sra o => Sys2Proof.Machine.execSra o s
  | .rot o => Sys2Proof.Machine.execRot o s
  | .min o => Sys2Proof.Machine.execMin o s
  | .max o => Sys2Proof.Machine.execMax o s
  | .minu o => Sys2Proof.Machine.execMinu o s
  | .maxu o => Sys2Proof.Machine.execMaxu o s
  | .clz o => Sys2Proof.Machine.execClz o s
  | .ctz o => Sys2Proof.Machine.execCtz o s
  | .popc o => Sys2Proof.Machine.execPopc o s
  | .sext o => Sys2Proof.Machine.execSext o s
  | .cmp o => Sys2Proof.Machine.execCmp o s
  | .sel o => Sys2Proof.Machine.execSel o s
  | .movi o => Sys2Proof.Machine.execMovi o s
  | .movhi o => Sys2Proof.Machine.execMovhi o s
  | .fadd o => Sys2Proof.Machine.execFadd o s
  | .fsub o => Sys2Proof.Machine.execFsub o s
  | .fmul o => Sys2Proof.Machine.execFmul o s
  | .fma o => Sys2Proof.Machine.execFma o s
  | .fdiv o => Sys2Proof.Machine.execFdiv o s
  | .fsqrt o => Sys2Proof.Machine.execFsqrt o s
  | .fmin o => Sys2Proof.Machine.execFmin o s
  | .fmax o => Sys2Proof.Machine.execFmax o s
  | .fcmp o => Sys2Proof.Machine.execFcmp o s
  | .fcvt o => Sys2Proof.Machine.execFcvt o s
  | .fclass o => Sys2Proof.Machine.execFclass o s
  | .fsgn o => Sys2Proof.Machine.execFsgn o s
  | .br o => Sys2Proof.Machine.execBr o s
  | .jmp o => Sys2Proof.Machine.execJmp o s
  | .call o => Sys2Proof.Machine.execCall o s
  | .ret o => Sys2Proof.Machine.execRet o s
  | .jr o => Sys2Proof.Machine.execJr o s
  | .loopn o => Sys2Proof.Machine.execLoopn o s
  | .nop o => Sys2Proof.Machine.execNop o s
  | .trap o => Sys2Proof.Machine.execTrap o s
  | .ld o => Sys2Proof.Machine.execLd o s
  | .st o => Sys2Proof.Machine.execSt o s
  | .fence o => Sys2Proof.Machine.execFence o s
  | .pref o => Sys2Proof.Machine.execPref o s
  | .ldfe o => Sys2Proof.Machine.execLdfe o s
  | .ldff o => Sys2Proof.Machine.execLdff o s
  | .stef o => Sys2Proof.Machine.execStef o s
  | .stff o => Sys2Proof.Machine.execStff o s
  | .feq o => Sys2Proof.Machine.execFeq o s
  | .amo o => Sys2Proof.Machine.execAmo o s
  | .cas o => Sys2Proof.Machine.execCas o s
  | .atomicReservationGrant word => Sys2Proof.Machine.execAtomicReservationGrant word s
  | .crr o => Sys2Proof.Machine.execCrr o s
  | .crw o => Sys2Proof.Machine.execCrw o s
  | .crs o => Sys2Proof.Machine.execCrs o s
  | .crc o => Sys2Proof.Machine.execCrc o s
  | .eret o => Sys2Proof.Machine.execEret o s
  | .icsync o => Sys2Proof.Machine.execIcsync o s
  | .slotw o => Sys2Proof.Machine.execSlotw o s
  | .tlbinv o => Sys2Proof.Machine.execTlbinv o s
  | .tlbinvComplete k => Sys2Proof.Machine.execTlbinvComplete k s
  | .vadd o => Sys2Proof.Machine.execVadd o s
  | .vsub o => Sys2Proof.Machine.execVsub o s
  | .vmul o => Sys2Proof.Machine.execVmul o s
  | .vmulh o => Sys2Proof.Machine.execVmulh o s
  | .vmacc o => Sys2Proof.Machine.execVmacc o s
  | .vwmacc o => Sys2Proof.Machine.execVwmacc o s
  | .vmin o => Sys2Proof.Machine.execVmin o s
  | .vmax o => Sys2Proof.Machine.execVmax o s
  | .vand o => Sys2Proof.Machine.execVand o s
  | .vor o => Sys2Proof.Machine.execVor o s
  | .vxor o => Sys2Proof.Machine.execVxor o s
  | .vshl o => Sys2Proof.Machine.execVshl o s
  | .vshr o => Sys2Proof.Machine.execVshr o s
  | .vsra o => Sys2Proof.Machine.execVsra o s
  | .vnshr o => Sys2Proof.Machine.execVnshr o s
  | .vsadd o => Sys2Proof.Machine.execVsadd o s
  | .vssub o => Sys2Proof.Machine.execVssub o s
  | .vcmp o => Sys2Proof.Machine.execVcmp o s
  | .vmerge o => Sys2Proof.Machine.execVmerge o s
  | .vmv o => Sys2Proof.Machine.execVmv o s
  | .setvt o => Sys2Proof.Machine.execSetvt o s
  | .setvl o => Sys2Proof.Machine.execSetvl o s
  | .vfadd o => Sys2Proof.Machine.execVfadd o s
  | .vfsub o => Sys2Proof.Machine.execVfsub o s
  | .vfmul o => Sys2Proof.Machine.execVfmul o s
  | .vfma o => Sys2Proof.Machine.execVfma o s
  | .vfdiv o => Sys2Proof.Machine.execVfdiv o s
  | .vfsqrt o => Sys2Proof.Machine.execVfsqrt o s
  | .vfmin o => Sys2Proof.Machine.execVfmin o s
  | .vfmax o => Sys2Proof.Machine.execVfmax o s
  | .vfcmp o => Sys2Proof.Machine.execVfcmp o s
  | .vfcvt o => Sys2Proof.Machine.execVfcvt o s
  | .vfexp2 o => Sys2Proof.Machine.execVfexp2 o s
  | .vflog2 o => Sys2Proof.Machine.execVflog2 o s
  | .vfrsq o => Sys2Proof.Machine.execVfrsq o s
  | .vfrcp o => Sys2Proof.Machine.execVfrcp o s
  | .vftanh o => Sys2Proof.Machine.execVftanh o s
  | .vperm o => Sys2Proof.Machine.execVperm o s
  | .vslide o => Sys2Proof.Machine.execVslide o s
  | .vbcast o => Sys2Proof.Machine.execVbcast o s
  | .vred o => Sys2Proof.Machine.execVred o s
  | .vscan o => Sys2Proof.Machine.execVscan o s
  | .vcompr o => Sys2Proof.Machine.execVcompr o s
  | .vexpnd o => Sys2Proof.Machine.execVexpnd o s
  | .viota o => Sys2Proof.Machine.execViota o s
  | .vconfl o => Sys2Proof.Machine.execVconfl o s
  | .vspk o => Sys2Proof.Machine.execVspk o s
  | .vunpk o => Sys2Proof.Machine.execVunpk o s
  | .vpack o => Sys2Proof.Machine.execVpack o s
  | .mand o => Sys2Proof.Machine.execMand o s
  | .mor o => Sys2Proof.Machine.execMor o s
  | .mxor o => Sys2Proof.Machine.execMxor o s
  | .mnot o => Sys2Proof.Machine.execMnot o s
  | .mpopc o => Sys2Proof.Machine.execMpopc o s
  | .mfirst o => Sys2Proof.Machine.execMfirst o s
  | .vld o => Sys2Proof.Machine.execVld o s
  | .vldQ o => Sys2Proof.Machine.execVldQ o s
  | .streamEntryFill k q => Sys2Proof.Machine.execStreamEntryFill k q s
  | .vlds o => Sys2Proof.Machine.execVlds o s
  | .vldx o => Sys2Proof.Machine.execVldx o s
  | .vlseg o => Sys2Proof.Machine.execVlseg o s
  | .vldb o => Sys2Proof.Machine.execVldb o s
  | .vldt o => Sys2Proof.Machine.execVldt o s
  | .vst o => Sys2Proof.Machine.execVst o s
  | .vsts o => Sys2Proof.Machine.execVsts o s
  | .vstx o => Sys2Proof.Machine.execVstx o s
  | .vsseg o => Sys2Proof.Machine.execVsseg o s
  | .vstn o => Sys2Proof.Machine.execVstn o s
  | .vstt o => Sys2Proof.Machine.execVstt o s
  | .neighbourPacket p => Sys2Proof.Machine.execNeighbourPacket p s
  | .vglr o => Sys2Proof.Machine.execVglr o s
  | .vscc o => Sys2Proof.Machine.execVscc o s
  | .vamo o => Sys2Proof.Machine.execVamo o s
  | .vwait o => Sys2Proof.Machine.execVwait o s
  | .vwaitReexamine k => Sys2Proof.Machine.execVwaitReexamine k s
  | .vwaitTimeout k => Sys2Proof.Machine.execVwaitTimeout k s
  | .settl o => Sys2Proof.Machine.execSettl o s
  | .setfmt o => Sys2Proof.Machine.execSetfmt o s
  | .setfmtI o => Sys2Proof.Machine.execSetfmtI o s
  | .mzero o => Sys2Proof.Machine.execMzero o s
  | .ldb o => Sys2Proof.Machine.execLdb o s
  | .bflip o => Sys2Proof.Machine.execBflip o s
  | .mop o => Sys2Proof.Machine.execMop o s
  | .mops o => Sys2Proof.Machine.execMops o s
  | .mldr o => Sys2Proof.Machine.execMldr o s
  | .mstr o => Sys2Proof.Machine.execMstr o s
  | .mmovr o => Sys2Proof.Machine.execMmovr o s
  | .mmovrTo o => Sys2Proof.Machine.execMmovrTo o s
  | .mmovc o => Sys2Proof.Machine.execMmovc o s
  | .mmovcTo o => Sys2Proof.Machine.execMmovcTo o s
  | .mcvt o => Sys2Proof.Machine.execMcvt o s
  | .mrel o => Sys2Proof.Machine.execMrel o s
  | .ecmd o => Sys2Proof.Machine.execEcmd o s
  | .tcp o => Sys2Proof.Machine.execTcp o s
  | .engineLineAcquire id => Sys2Proof.Machine.execEngineLineAcquire id s
  | .engineLineFinish id line => Sys2Proof.Machine.execEngineLineFinish id line s
  | .engineCommandComplete id => Sys2Proof.Machine.execEngineCommandComplete id s
  | .boomReduce seq node => Sys2Proof.Machine.execBoomReduce seq node s
  | .boomRootResult seq => Sys2Proof.Machine.execBoomRootResult seq s
  | .twany o => Sys2Proof.Machine.execTwany o s
  | .twall o => Sys2Proof.Machine.execTwall o s
  | .tfirst o => Sys2Proof.Machine.execTfirst o s
  | .tclr o => Sys2Proof.Machine.execTclr o s
  | .bar o => Sys2Proof.Machine.execBar o s
  | .barrierComplete cid level inst => Sys2Proof.Machine.execBarrierComplete cid level inst s
  | .futreg o => Sys2Proof.Machine.execFutreg o s
  | .futres o => Sys2Proof.Machine.execFutres o s
  | .futresFault o => Sys2Proof.Machine.execFutresFault o s
  | .tspawn o => Sys2Proof.Machine.execTspawn o s
  | .taskSpillRefill grove => Sys2Proof.Machine.execTaskSpillRefill grove s
  | .continuationPlace cid => Sys2Proof.Machine.execContinuationPlace cid s
  | .nextt o => Sys2Proof.Machine.execNextt o s
  | .rive o => Sys2Proof.Machine.execRive o s
  | .done o => Sys2Proof.Machine.execDone o s
  | .doneEnd o => Sys2Proof.Machine.execDoneEnd o s
  | .msend o => Sys2Proof.Machine.execMsend o s
  | .mrecv o => Sys2Proof.Machine.execMrecv o s
  | .mpoll o => Sys2Proof.Machine.execMpoll o s
  | .rlead o => Sys2Proof.Machine.execRlead o s
  | .rsig o => Sys2Proof.Machine.execRsig o s
  | .rchk o => Sys2Proof.Machine.execRchk o s
  | .comparatorVote lid lcore slot => Sys2Proof.Machine.execComparatorVote lid lcore slot s
  | .signatureTimeout lid lcore slot => Sys2Proof.Machine.execSignatureTimeout lid lcore slot s
  | .replicaForwardArrive k => Sys2Proof.Machine.execReplicaForwardArrive k s
  | .longLatencyResultReturn k => Sys2Proof.Machine.execLongLatencyResultReturn k s
  | .slotIssue core => Sys2Proof.Machine.execSlotIssue core s
  | .slotTableTakeEffect core => Sys2Proof.Machine.execSlotTableTakeEffect core s
  | .slotTablePortWrite core t0 t1 t2 t3 => Sys2Proof.Machine.execSlotTablePortWrite core t0 t1 t2 t3 s
  | .pageWalk cid va kind => Sys2Proof.Machine.execPageWalk cid va kind s
  | .pageFaultService t valid ptes => Sys2Proof.Machine.execPageFaultService t valid ptes s
  | .overflowService home => Sys2Proof.Machine.execOverflowService home s
  | .peerAccessArrive p => Sys2Proof.Machine.execPeerAccessArrive p s
  | .hostAccessArrive tenant pa op => Sys2Proof.Machine.execHostAccessArrive tenant pa op s
  | .colourCutSum cid => Sys2Proof.Machine.execColourCutSum cid s
  | .onLaunch lid ret => Sys2Proof.Machine.execOnLaunch lid ret s
  | .onHalt tenant qid ret => Sys2Proof.Machine.execOnHalt tenant qid ret s
  | .onBudget tenant ret => Sys2Proof.Machine.execOnBudget tenant ret s
  | .onQuarantine tenant u ret => Sys2Proof.Machine.execOnQuarantine tenant u ret s
  | .onRestart tenant ret => Sys2Proof.Machine.execOnRestart tenant ret s
  | .queueCreate tenant qid qcb base log2n => Sys2Proof.Machine.execQueueCreate tenant qid qcb base log2n s
  | .gcfgGrowTakeEffect grove => Sys2Proof.Machine.execGcfgGrowTakeEffect grove s
  | .peerStoreReply k accepted => Sys2Proof.Machine.execPeerStoreReply k accepted s
  | .peerRequestResend k reply => Sys2Proof.Machine.execPeerRequestResend k reply s
  | .doorbellWrite tenant qid v => Sys2Proof.Machine.execDoorbellWrite tenant qid v s
  | .queueMap tenant qid => Sys2Proof.Machine.execQueueMap tenant qid s
  | .queueUnmap tenant qid => Sys2Proof.Machine.execQueueUnmap tenant qid s
  | .queueResume tenant qid => Sys2Proof.Machine.execQueueResume tenant qid s
  | .queueDestroyFinish tenant qid => Sys2Proof.Machine.execQueueDestroyFinish tenant qid s
  | .queueDestroyAbort tenant qid => Sys2Proof.Machine.execQueueDestroyAbort tenant qid s
  | .queueDrainDone tenant qid => Sys2Proof.Machine.execQueueDrainDone tenant qid s
  | .packetFetch tenant qid => Sys2Proof.Machine.execPacketFetch tenant qid s
  | .eventOverflowPost tenant => Sys2Proof.Machine.execEventOverflowPost tenant s
  | .launch tenant qid => Sys2Proof.Machine.execLaunch tenant qid s
  | .launchPlace lid choice => Sys2Proof.Machine.execLaunchPlace lid choice s
  | .launchWaitRefuse lid => Sys2Proof.Machine.execLaunchWaitRefuse lid s
  | .copy tenant qid => Sys2Proof.Machine.execCopy tenant qid s
  | .copyCommandIssue tenant qid pidx grove => Sys2Proof.Machine.execCopyCommandIssue tenant qid pidx grove s
  | .copyPacketComplete tenant qid pidx => Sys2Proof.Machine.execCopyPacketComplete tenant qid pidx s
  | .cond tenant qid => Sys2Proof.Machine.execCond tenant qid s
  | .condWaitRetest tenant qid => Sys2Proof.Machine.execCondWaitRetest tenant qid s
  | .signal tenant qid => Sys2Proof.Machine.execSignal tenant qid s
  | .holdOffWindowClose tenant vec => Sys2Proof.Machine.execHoldOffWindowClose tenant vec s
  | .barrierAnd tenant qid => Sys2Proof.Machine.execBarrierAnd tenant qid s
  | .barrierAndRetest tenant qid pidx => Sys2Proof.Machine.execBarrierAndRetest tenant qid pidx s
  | .arbiterPeriodStart => Sys2Proof.Machine.execArbiterPeriodStart s
  | .arbiterCycle => Sys2Proof.Machine.execArbiterCycle s
  | .coreDoneMessage lid lcore => Sys2Proof.Machine.execCoreDoneMessage lid lcore s
  | .nodeDoneMessage lid node => Sys2Proof.Machine.execNodeDoneMessage lid node s
  | .launchKill lid => Sys2Proof.Machine.execLaunchKill lid s
  | .preemptStop cid => Sys2Proof.Machine.execPreemptStop cid s
  | .contextSwapOut cid area => Sys2Proof.Machine.execContextSwapOut cid area s
  | .contextRestore cid choice => Sys2Proof.Machine.execContextRestore cid choice s
  | .contextDestroy cid => Sys2Proof.Machine.execContextDestroy cid s
  | .ownerTagChange page count tag => Sys2Proof.Machine.execOwnerTagChange page count tag s
  | .granuleAssign core granule => Sys2Proof.Machine.execGranuleAssign core granule s
  | .suspectUnitTest u pass => Sys2Proof.Machine.execSuspectUnitTest u pass s
  | .linkPortFailure port => Sys2Proof.Machine.execLinkPortFailure port s
  | .eictlInjectData arr v => Sys2Proof.Machine.execEictlInjectData arr v s
  | .eictlInjectCheck arr v => Sys2Proof.Machine.execEictlInjectCheck arr v s
  | .eictlMarkBankFailed arr v => Sys2Proof.Machine.execEictlMarkBankFailed arr v s
  | .gcfgWrite grove v => Sys2Proof.Machine.execGcfgWrite grove v s
  | .memcfgWrite v => Sys2Proof.Machine.execMemcfgWrite v s
  | .cmaskWrite cid v => Sys2Proof.Machine.execCmaskWrite cid v s
  | .gwmaskWrite cid v => Sys2Proof.Machine.execGwmaskWrite cid v s
  | .registerWrite r v => Sys2Proof.Machine.execRegisterWrite r v s
  | .functionReady f ready => Sys2Proof.Machine.execFunctionReady f ready s
  | .checkpoint area => Sys2Proof.Machine.execCheckpoint area s
  | .narunoRestart => Sys2Proof.Machine.execNarunoRestart s
  | .inject tenant arr eictl eimask => Sys2Proof.Machine.execInject tenant arr eictl eimask s
  | .pluginCallbackTimeout tenant => Sys2Proof.Machine.execPluginCallbackTimeout tenant s
  | .reset => Sys2Proof.Machine.execReset s
  | .tenantCreate tenant ring en xroot => Sys2Proof.Machine.execTenantCreate tenant ring en xroot s
  | .tenantDestroy tenant => Sys2Proof.Machine.execTenantDestroy tenant s

end Sys2Proof.Machine
end

