-- ==== Sys2Proof/Machine/Fetch.lean ====
section
/-!
DEFINITION. The place where the next instruction is fetched, for `State.withFetchWord` (log 7): a privileged context of
tenant 0 on core 0 with identity-mapped code pages, as Naruno and the landing would set it up.
-/
namespace Sys2Proof.Machine

/-- The code page of the placed context: device page 16, with its page tables in pages 1 to 3. -/
def placedCode : Nat := 0x100000
/-- A data page that the placed context may read and write. -/
def placedData : Nat := 0x110000

/-- The page tables of the placed context: level 3 at 0x10000, level 2 at 0x20000, level 1 at 0x30000, level 0 at
0x31000 (R17, R18). -/
def placedTables : List (Nat × Nat) :=
  [(0x10000, 0x20001), (0x20000, 0x30001), (0x30000, 0x31001),
   (0x31000 + 8 * 16, placedCode + 0x77), (0x31000 + 8 * 17, placedData + 0x6F)]

/-- The partition of the placed context: 32 vector registers, 1 slot, 16 frames, 4 scratchpad granules, 64 KiB of grove
scratchpad (R44). -/
def placedPart : Word := 0x0001000410010300

/-- The placed context: created by Naruno with the privileged attribute (R203), so that every row can run. -/
def placedCtx : Ctx :=
  { Ctx.fresh with tenant := 0, lid := 1, priv := true, xroot := 0x0100000000010003, part := placedPart, nlvl := 1,
                   scopes := [0], shares := [⟨0, 0, 0, List.range 9, 0, 0, 0⟩], gbase := [(0, 0)] }

/-- The slot of the placed context at its first instruction. -/
def placedSlot : Slot := { Slot.reset with st := .ready, pc := BitVec.ofNat 64 placedCode, lvl := [(0, 1)] }

/-- A state with the placed context resident on core 0, its slot loaded, and an instruction word at its pc. -/
def placeWord (s : State) (w : Nat) : State :=
  let mem := (placedTables.foldl (fun m p => m.write p.1 8 p.2) s.mem).write placedCode 16 w
  { s with
    cur := ⟨1, 0, 0⟩, core := 0, me := placedSlot, issue := none, sched := [.core 0],
    ctxs := Tab.set s.ctxs 1 placedCtx,
    cores := Tab.set s.cores 0 { s.coreOf 0 with res := #v[some 1, none, none, none], ptr := 0 },
    mem := mem,
    owners := Tab.set (Tab.set (Tab.set (Tab.set (Tab.set s.owners 1 64) 2 64) 3 64) 16 0) 17 0 }

end Sys2Proof.Machine
end

