-- ==== Sys2Proof/Machine/Step.lean ====
section
/-!
DEFINITION. One step: the next event moves, and the instruction that it latched, if any, is executed (log 2, log 3).
-/
namespace Sys2Proof.Machine

/-- Execute the latched instruction of a state in which SLOT_ISSUE has left one. -/
def runIssued (s : State) : Host.Outcome State Fault Refusal :=
  match s.issue with
  | none => .next s
  | some i =>
    match cutRun (exec i) i { s with issue := none } with
    | .next t => .next (afterIssue i s t)
    | o => o

/-- One step of the module. -/
def step (s : State) : Host.Outcome State Fault Refusal :=
  match exec (nextMove s).1 (nextMove s).2 with
  | .next t => runIssued t
  | o => o

/-- `s` with an instruction word placed where the next step fetches and runs it (log 7). -/
def State.withFetchWord (s : State) (_nbits w : Nat) : State := placeWord s w

end Sys2Proof.Machine
end

