-- ==== Sys2Proof/Safety.lean ====
section
/-!
DEFINITION. What holds of every state of a run, and the terms in which the statements about the machine are written.
-/
namespace Sys2Proof.Machine

/-- The invariant of the model: memory is in canonical form. -/
abbrev State.Inv (s : State) : Prop := s.mem.wf = true

/-- Whether a rounding mode takes `hi` for the magnitude of `x`, which lies from `lo`, the `n`-th value, to below `hi` (R140, R142).
Modes: 0 RNE, 1 RTZ, 2 RDN, 3 RUP, 4 RMM, 5 RTO, 6 SR with the random value `r`. -/
def RoundsUp (mode r : Nat) (x lo hi : ℝ) (n : Nat) : Prop :=
  |x| ≠ lo ∧ match mode with
    | 0 => lo + hi < 2 * |x| ∨ (lo + hi = 2 * |x| ∧ n % 2 = 1)
    | 1 => False
    | 2 => x < 0
    | 3 => 0 < x
    | 4 => lo + hi ≤ 2 * |x|
    | 5 => n % 2 = 0
    | _ => (2 : ℤ) ^ 32 ≤ ⌊(|x| - lo) / (hi - lo) * 2 ^ 32⌋ + r

/-- `out`, an encoding with flags, is what R140 to R142 make of a number `x` other than 0 in a format: the values of a format, extended
above its largest finite one, are in order those of its encodings without a sign. -/
def Rounds (f : Fmt) (mode r : Nat) (x : ℝ) (out : Nat × Nat) : Prop :=
  let value (n : Nat) : ℝ :=
    if n < 2 ^ f.mb then (n : ℝ) * 2 ^ (1 - (f.bias : ℤ) - f.mb)
    else ((n % 2 ^ f.mb + 2 ^ f.mb : Nat) : ℝ) * 2 ^ (((n / 2 ^ f.mb : Nat) : ℤ) - f.bias - f.mb)
  ∃ n c sign, value n ≤ |x| ∧ |x| < value (n + 1) ∧
    (RoundsUp mode r x (value n) (value (n + 1)) n → c = n + 1) ∧ (¬RoundsUp mode r x (value n) (value (n + 1)) n → c = n) ∧
    (0 < x → sign = 0) ∧ (x < 0 → sign = 2 ^ (f.eb + f.mb)) ∧
    (c ≤ f.maxBits → out.1 = sign + c ∧ (|x| = value n → out.2 = 0) ∧
      (|x| ≠ value n → out.2 = if c ≠ 0 ∧ c < 2 ^ f.mb then 3 else 1)) ∧
    (f.maxBits < c → out.2 = 5 ∧
      let infinite : Prop := f.inf = true ∧ (mode = 0 ∨ mode = 4 ∨ (mode = 2 ∧ x < 0) ∨ (mode = 3 ∧ 0 < x) ∨ (mode = 6 ∧ c = n + 1))
      (infinite → out.1 = sign + (2 ^ f.eb - 1) * 2 ^ f.mb) ∧ (¬infinite → out.1 = sign + f.maxBits))

/-- The next state that differs from `s` in the loaded slot alone. -/
def slotNext (s : State) (f : Slot → Slot) : Out := .next (s.mapMe f)

/-- A scalar instruction's end: `x` into D, and on to the next instruction. -/
def Slot.result (v : Slot) (d : Reg) (x : Word) : Slot := (v.putS d x).advance

/-- The frame of an instruction that writes one register field: nothing else changes but the program counter and, in a loop
body, the loop's indices; no byte of memory changes. -/
def FrameReg (d : Reg) (s t : State) : Prop :=
  (∃ x p l, t = s.mapMe fun v => { v.putS d x with pc := p, loop := l }) ∧ ∀ k, t.mem.byte k = s.mem.byte k

/-- No stored error, armed injection or failed bank: reads and writes of arrays need no check (R66, R69). -/
abbrev Sound (s : State) : Prop := rasQuiet s = true

/-- No choice of log 4 is left: every store has been performed, and a load sees the latest write. -/
abbrev InOrder (s : State) : Prop := s.weak = [] ∧ s.late = [] ∧ s.former = []

/-- What an access needs to be performed at once and see the latest write, without checks. -/
abbrev Quiet (s : State) : Prop := Sound s ∧ InOrder s

/-- The slot belongs to no replica group (R350). -/
abbrev Alone (s : State) : Prop := groupOf s s.cur = none

/-- No store of the slot is in flight or was refused (R28). -/
abbrev Settled (v : Slot) : Prop := v.inflight = [] ∧ v.refused = none

/-- The slot holds no store back: every store has reached memory. -/
abbrev NoHeldStores (v : Slot) : Prop := v.inflight = [] ∧ v.rbuf = []

/-- No store of the slot, nor of the other members of its replica group, is in flight (R28, R128). -/
abbrev NoneInFlight (s : State) : Prop := ∀ v ∈ storers s, v.inflight = []

/-- An access of `n` bytes at `va` that can be performed at once: it resolves to `a`, the translation leaves `t`, and no
command owns its lines, nor do queued atomics come first (R10 to R27, R83, R114). -/
def Reaches (s : State) (va : Word) (n : Nat) (kind : AccKind) (op : OpClass) (t : State) (a : Acc) : Prop :=
  resolve s (slotReq s) va n kind op = (t, .ok a) ∧ busyWhy t a.keys = none

/-- Bytes of this module, none of them in a cached copy of a peer's line. -/
abbrev OwnBytes (a : Acc) : Prop := a.ca = [] ∧ ∀ k ∈ a.keys, k < 2 ^ 62

/-- Two states with the same memory and the same loaded slot. -/
def SameView (s t : State) : Prop := t.mem = s.mem ∧ t.me = s.me ∧ t.cur = s.cur ∧ t.core = s.core

/-- Every byte outside `keys` reads as before. -/
def OnlyBytes (keys : List Nat) (s t : State) : Prop := ∀ k, k ∉ keys → t.mem.byte k = s.mem.byte k

/-- The control, status and exception registers of a slot, other than the flags that an instruction may raise, and its work
item are the same. -/
def SameControl (v w : Slot) : Prop :=
  w.vl = v.vl ∧ w.vt = v.vt ∧ w.fill = v.fill ∧ w.rmode = v.rmode ∧ w.frm = v.frm ∧ w.fmt = v.fmt ∧ w.saved = v.saved ∧
  w.tc = v.tc ∧ w.tid = v.tid ∧ w.work = v.work ∧ w.epc = v.epc ∧ w.cause = v.cause ∧ w.tval = v.tval ∧
  w.tinfo = v.tinfo ∧ w.hbase = v.hbase ∧ w.hmc = v.hmc ∧ w.tm = v.tm ∧ w.tn = v.tn ∧ w.tk = v.tk

/-- Element `i` of width `w` of a vector source: of a group of `g` registers, of the queue entry that the field pops after the
fields `before` it, or the low bits of a scalar for every element (R57, R237, R243, R342). -/
def vecSrc (v : Slot) (before : List Reg) (r : Reg) (g w i : Nat) : Nat :=
  match r with
  | .v k => elemAt (groupStream v (Vt.regBits v.vt) k.val g) w i
  | .q k => elemAt (((v.q[k][popIndex before r]?).map fun e => e.data.toNat % 2 ^ Vt.regBits v.vt).getD 0) w i
  | .s k => (v.getS k).toNat % 2 ^ w
  | _ => 0

/-- A source can be read: a queue has the entry to pop, filled and without a fault (R342). -/
abbrev SourceReady (v : Slot) (before : List Reg) (r : Reg) : Prop :=
  (match r with
   | .q k => (v.q[k][popIndex before r]?).any fun e => e.load.isNone && e.marker.isNone && !e.orphan
   | _ => true) = true

/-- No instruction of the slot is armed to resume at the program counter (R312). -/
abbrev Fresh (v : Slot) : Prop := ∀ h ∈ v.held, ¬(h.pc = v.pc ∧ h.live = true)

/-- The end of a vector instruction that writes elements of width `w` into a group of `g` registers at `d` (R241): active
elements below vl take `val`, inactive ones stay, those from vl on take the fill or stay; vl = 0 changes no element. Nothing
else changes but the popped queues (R161), flags and the record of outstanding results. -/
structure VecEnd (s t : State) (d : Fin 32) (g w : Nat) (sources : List Reg) (act : Nat → Bool) (val : Nat → Nat) : Prop where
  elems : ∀ i, i < Vt.regBits s.me.vt * g / w → vecSrc t.me [] (.v d) g w i =
    (if s.me.vl = 0 then vecSrc s.me [] (.v d) g w i
     else if i < s.me.vl then (if act i then val i % 2 ^ w else vecSrc s.me [] (.v d) g w i)
     else if Vt.tail s.me.vt then s.me.fill.toNat % 2 ^ w else vecSrc s.me [] (.v d) g w i)
  others : ∀ k : Fin 32, k.val < d.val ∨ d.val + g ≤ k.val → t.me.v[k] = s.me.v[k]
  scalars : t.me.s = s.me.s
  masks : t.me.m = s.me.m
  control : SameControl s.me t.me
  queues : ∀ k : Fin 4, t.me.q[k] = (s.me.q[k]).drop (sources.filter (· = .q k)).length
  memory : t.mem = s.mem
  goesOn : t.me.pc = s.me.advance.pc

/-- The same for a mask destination, whose tail is 0 (R241). -/
structure MaskEnd (s t : State) (d : Fin 8) (sources : List Reg) (act : Nat → Bool) (val : Nat → Bool) : Prop where
  bits : ∀ i, i < 512 → (t.me.getM d).getLsbD i =
    (if d = 0 ∨ s.me.vl = 0 then (s.me.getM d).getLsbD i
     else if i < s.me.vl then (if act i then val i else (s.me.getM d).getLsbD i)
     else if Vt.tail s.me.vt then false else (s.me.getM d).getLsbD i)
  others : ∀ k, k ≠ d → t.me.getM k = s.me.getM k
  vectors : t.me.v = s.me.v
  scalars : t.me.s = s.me.s
  control : SameControl s.me t.me
  queues : ∀ k : Fin 4, t.me.q[k] = (s.me.q[k]).drop (sources.filter (· = .q k)).length
  memory : t.mem = s.mem
  goesOn : t.me.pc = s.me.advance.pc

/-- An FX vector instruction can run: arrays are sound, its groups are legal in the partition, its sources can be read, and
nothing is armed to resume. `gd`, `ga`, `gb`, `gc` are the spans of its fields (R237). -/
abbrev VecReady (s : State) (o : FX) (gd ga gb gc : Nat) : Prop :=
  Sound s ∧ Fresh s.me ∧ groupOk s.vrCount gd o.d = true ∧ groupOk s.vrCount ga o.a = true ∧
  groupOk s.vrCount gb o.b = true ∧ groupOk s.vrCount gc o.c = true ∧
  SourceReady s.me [] o.a ∧ SourceReady s.me [o.a] o.b ∧ SourceReady s.me [o.a, o.b] o.c

/-- The elements `l` at their addresses and lengths can all be accessed at once: they resolve in order to `as`, the
translations leave `t`, and nothing holds their bytes (R258). -/
def ReachesAll (s : State) (at' : Nat → Word × Nat) (kind : AccKind) (op : OpClass) (l : List Nat) (t : State)
    (as : List (Nat × Word × Acc)) : Prop :=
  resolveElems at' kind op l s = .ok (as, none) t ∧ busyWhy t (as.flatMap fun e => e.2.2.keys) = none

/-- The little-endian number that the bytes of element `i` hold in memory (R4). -/
def loaded (t : State) (as : List (Nat × Word × Acc)) (i : Nat) : Nat :=
  match as.find? fun e => e.1 == i with
  | some e => ofBytes (e.2.2.keys.map t.mem.byte)
  | none => 0

/-- A memory instruction of the slot can run its elements: arrays are sound, nothing is armed to resume, and what an order
asks for holds: no store is in flight, and the addresses of `l` are aligned to `n` bytes (R28, R258). -/
abbrev MemReady (s : State) (o : FM) (at' : Nat → Word × Nat) (l : List Nat) (n : Nat) : Prop :=
  Quiet s ∧ Fresh s.me ∧ (o.ord ≠ .plain → Settled s.me ∧ ∀ i ∈ l, (at' i).1.toNat % n = 0)

/-- The memory after the elements are stored in increasing order. -/
def storedAll (m : Mem) (as : List (Nat × Word × Acc)) (data : Nat → Nat) : Mem :=
  as.foldl (fun m e => m.writeCells (cellsFor e.2.2.keys (data e.1))) m

/-- The slot after an instruction that popped field `c` (R161). -/
def Slot.popped (v : Slot) (c : Reg) : Slot :=
  match c with
  | .q k => { v with q := v.q.set k ((v.q[k]).drop 1) }
  | _ => v

/-- A matrix instruction of the slot can run: arrays are sound, the context has frames, and no progress is held (R283, R291). -/
abbrev MatrixRuns (s : State) : Prop :=
  Sound s ∧ Fresh s.me ∧ Part.frames s.ctx.part ≠ 0 ∧ (Tab.get s.ctxs s.cur.cid).isSome = true ∧
  ∀ h ∈ s.me.held, h.mat = false

/-- The same where none of the context's frames and planes is in its save area (R51). -/
abbrev MatrixReady (s : State) : Prop := MatrixRuns s ∧ s.ctx.savedFrames = [] ∧ s.ctx.savedBeams = []

/-- What a matrix instruction leaves: masks, control registers, and every frame but `j`; it goes on. -/
def MatrixEnd (s t : State) (j : Option Nat) : Prop :=
  t.me.m = s.me.m ∧ t.me.pc = s.me.advance.pc ∧ SameControl s.me t.me ∧ ∀ i, some i ≠ j → getFrame t i = getFrame s i

/-- The number that an index tuple stands for, loop 0 the lowest digit. -/
def loopNumber : List Nat → List Nat → Nat
  | i :: is, c :: cs => i + c * loopNumber is cs
  | _, _ => 0

/-- A full/empty operation on word `w` that need not wait for a line, a reservation or overflow mode. -/
def FreeWord (s : State) (o : FM) (op w : Nat) (t : State) : Prop :=
  Quiet s ∧ Settled s.me ∧ (FM.ea o s.me).toNat % 8 = 0 ∧
  (∃ a, Reaches s (FM.ea o s.me) 8 (feKind op) .fullEmpty t a ∧ a.keys = keyRange w 8) ∧
  w < 2 ^ 62 ∧ s.ovfHomes = [] ∧ s.Inv

/-- Whether the loaded slot has something to report before its next instruction: a refusal at its restore, a start trap, or the fault
of a stream-queue load (R28, R181, R341). -/
def Reports (s : State) : Bool :=
  s.me.refDue || s.me.startTrap.isSome || (s.me.sres.isNone && s.me.openEntries.any (·.2.marker.isSome))

/-- Why the loaded slot of `s` issues `i` from the word at its program counter: it has nothing to report first, the fetch gives
a word that decodes to `i` and leaves `t`, the context may run it, and no counter, hazard, stream-queue load, stop request or
replica group holds it back. -/
def Issues (s : State) (i : Instr) (t : State) : Prop :=
  Reports s = false ∧
  t.me.cut = none ∧ (entryWaits i && t.me.unfilled) = false ∧
  ∃ w h, fetchNext s = .ok w t ∧ decode w = .ok i ∧ (opPrivileged (wordOp w).toNat = false ∨ t.ctx.priv = true) ∧
    instrHdr i = some h ∧ [h.d, h.a, h.b, h.c].any (beyond t.ctx.part) = false ∧ hintsClear t.me.dropPend h = true ∧
    hazard t.me i = false ∧ groupOf t t.cur = none

/-- The records, with their contexts, that a name leads to for a future of a tenant: each names the next, and the last none that can be
followed (R172). -/
def Chain (s : State) (tenant fut : Nat) : Nat → List (Nat × CRec) → Prop
  | name, [] => followRec s tenant fut name = none
  | name, r :: rs => followRec s tenant fut name = some r ∧ Chain s tenant fut r.2.next rs

/-- A packet `x` of type `typ` whose start the arbiter has granted (R325, R330). -/
abbrev Granted (s : State) (t qid typ : Nat) (q : Queue) (x : Nat) (d : List Word) : Prop :=
  queueAt s t qid = some q ∧ q.fetched = some (x, d) ∧ q.granted = true ∧ q.st = .mapped ∧ Pkt.typ d = typ

/-- An access of the landing for tenant `n` that can be performed at once (R371): it resolves to `a`, the translation leaves `t`, and
no command owns its lines, nor do queued atomics come first. -/
def LandReaches (s : State) (n : Nat) (va : Word) (len : Nat) (kind : AccKind) (op : OpClass) (t : State) (a : Acc) : Prop :=
  resolve s (cmdReq s (landCmd s n)) va len kind op = (t, .ok a) ∧ busyFor t landId a.keys = none

/-- The state in which a queue's granted packet has been taken for its start. -/
def taken (s : State) (q : Queue) : State := mapQueue q.tenant q.qid (fun _ => { q with fetched := none, granted := false }) s

/-- `q` replaces its queue in `s`, and DW4 of its control block is written (R317). -/
def StatusWritten (s : State) (q : Queue) (t : State) : Prop :=
  landStore q.tenant (q.qcb + 32) 8 (statusWord q) (mapQueue q.tenant q.qid (fun _ => q) s) = .ok () t

end Sys2Proof.Machine
end

