-- ==== Sys2Proof/Certificates/Slice0/Obligations.lean ====
section
/-!
DEFINITION. The statements for the provers.
-/
open Sys2Proof Sys2Proof.Machine

/-- R195 to R204: the word of every well-formed instruction decodes to that instruction. -/
def Obligations.DecodeOfEncode : Prop :=
 ∀ i : Instr, i.wf = true → decode (encode i) = .ok i

/-- R195 to R204: a word that decodes is the word of the instruction it decodes to, so no two words mean the same. -/
def Obligations.EncodeOfDecode : Prop :=
  ∀ (w : IWord) (i : Instr), decode w = .ok i → i.wf = true ∧ encode i = w

/-- R204: the words that are refused whatever else they hold. R195 to R204: words written out from the encoding: the AMO of
R204's example, ADD s3, s1, s2, ADD.W s3, s1, -1, BR.LT with offset -2, and a predicated VADD. -/
def Obligations.EncodedWords : Prop :=
  (decode 0 = .error .allZeroOrOne ∧ decode (BitVec.allOnes 128) = .error .allZeroOrOne ∧
   (∀ w : IWord, w ≠ 0 → w ≠ BitVec.allOnes 128 → opAssigned (wordOp w).toNat = false → decode w = .error .unassignedOp) ∧
   ∀ w : IWord, w.extractLsb' 105 3 = 6#3 ∨ 5 ≤ (w.extractLsb' 55 3).toNat → ∃ e, decode w = .error e) ∧
  (decode 0x550002080050A00065E0000000000008 = .ok (.amo { set := some 1, wait := 1, d := .s 5, a := .s 10, c := .s 6, ord := .acquire, scope := .device, w := 3, imm := 8 }) ∧
   decode 0x550002080050A00066E0000000000008 = .error .reservedField ∧
   decode 0x00000E00003010200060000000000000 = .ok (.add { d := .s 3, a := .s 1, b := .s 2, w := 3 }) ∧
   decode 0x00800E000030100000400000FFFFFFFF = .ok (.add { d := .s 3, a := .s 1, im := true, w := 2, imm := 0xFFFFFFFF }) ∧
   decode 0x30000E000000102000100000FFFFFFFE = .ok (.br { a := .s 1, b := .s 2, cnd := 2, imm := 0xFFFFFFFE }) ∧
   decode 0x60000E00141424300060000000000000 = .ok (.vadd { pm := 1, d := .v 1, a := .v 2, b := .v 3, w := 3 }))

/-- R214: sum, difference, low product and the bitwise operations of the low n bits, sign-extended to 64 bits. R214: the high
n bits of the 2n-bit signed and unsigned products. R214: signed and unsigned minimum and maximum of the low n bits. R215:
quotient and remainder rounded towards zero for a nonzero divisor; with a zero divisor INT_DIVZERO is taken. R214: shifts and
the rotation by the low bits of B modulo n. R214: leading zeros, trailing zeros and one bits of the low n bits, and their sign
extension. R214: comparison, selection and immediates. R199: a predicated scalar instruction whose active bit 0 is 0 does
nothing but go on. R196, R214: a scalar integer instruction that gives a next state changes D and the place of execution
alone, or, for a division by zero, is the trap of the division statement; s0 as D is written nothing. -/
def Obligations.ScalarIntegers : Prop :=
  (∀ (o : FX) (s : State), scalarActive o.toHdr s.me = true →
     let n := FX.n o
     let a := (s.me.sreg o.a).setWidth n
     let b := (FX.opB o s.me).setWidth n
     let result (x : BitVec n) := slotNext s fun v => v.result o.d (x.signExtend 64)
     exec (.add o) s = result (a + b) ∧ exec (.sub o) s = result (a - b) ∧ exec (.mul o) s = result (a * b) ∧
     exec (.and o) s = result (a &&& b) ∧ exec (.or o) s = result (a ||| b) ∧ exec (.xor o) s = result (a ^^^ b) ∧
     exec (.andn o) s = result (a &&& ~~~b)) ∧
  (∀ (o : FX) (s : State), scalarActive o.toHdr s.me = true →
     let n := FX.n o
     let a := (s.me.sreg o.a).setWidth n
     let b := (FX.opB o s.me).setWidth n
     exec (.mulh o) s = slotNext s (fun v => v.result o.d
       (((a.signExtend (2 * n) * b.signExtend (2 * n)).extractLsb' n n).signExtend 64)) ∧
     exec (.mulhu o) s = slotNext s fun v => v.result o.d
       (((a.setWidth (2 * n) * b.setWidth (2 * n)).extractLsb' n n).signExtend 64)) ∧
  (∀ (o : FX) (s : State), scalarActive o.toHdr s.me = true →
     let n := FX.n o
     let a := (s.me.sreg o.a).setWidth n
     let b := (FX.opB o s.me).setWidth n
     let result (x : BitVec n) := slotNext s fun v => v.result o.d (x.signExtend 64)
     exec (.min o) s = result (if b.slt a then b else a) ∧ exec (.max o) s = result (if a.slt b then b else a) ∧
     exec (.minu o) s = result (if b.ult a then b else a) ∧ exec (.maxu o) s = result (if a.ult b then b else a)) ∧
  (∀ (o : FX) (s : State), scalarActive o.toHdr s.me = true →
    let n := FX.n o
    let a := (s.me.sreg o.a).setWidth n
    let b := (FX.opB o s.me).setWidth n
    let result (x : BitVec n) := slotNext s fun v => v.result o.d (x.signExtend 64)
    (b ≠ 0 → exec (.div o) s = result (a.sdiv b) ∧ exec (.divu o) s = result (a / b) ∧
      exec (.rem o) s = result (a.srem b) ∧ exec (.remu o) s = result (a % b)) ∧
    (b = 0 → ∀ i ∈ [Instr.div o, .divu o, .rem o, .remu o],
      exec i s = .next (deliver { code := Cause.intDivZero } s))) ∧
  (∀ (o : FX) (s : State), scalarActive o.toHdr s.me = true →
     let n := FX.n o
     let a := (s.me.sreg o.a).setWidth n
     let k := ((FX.opB o s.me).setWidth n).toNat % n
     let result (x : BitVec n) := slotNext s fun v => v.result o.d (x.signExtend 64)
     exec (.shl o) s = result (a <<< k) ∧ exec (.shr o) s = result (a >>> k) ∧
     exec (.sra o) s = result (a.sshiftRight k) ∧ exec (.rot o) s = result (a.rotateLeft k)) ∧
  (∀ (o : FX) (s : State), scalarActive o.toHdr s.me = true →
     let n := FX.n o
     let a := (s.me.sreg o.a).setWidth n
     let result (x : BitVec n) := slotNext s fun v => v.result o.d (x.signExtend 64)
     (∃ z, z ≤ n ∧ exec (.clz o) s = result (BitVec.ofNat n z) ∧ (∀ j, n - z ≤ j → j < n → a.getLsbD j = false) ∧
       (z < n → a.getLsbD (n - 1 - z) = true)) ∧
     (∃ z, z ≤ n ∧ exec (.ctz o) s = result (BitVec.ofNat n z) ∧ (∀ j, j < z → a.getLsbD j = false) ∧
       (z < n → a.getLsbD z = true)) ∧
     exec (.popc o) s = result (BitVec.ofNat n (((List.range n).filter fun j => a.getLsbD j).length)) ∧
     exec (.sext o) s = result a) ∧
  (∀ (o : FX) (s : State), scalarActive o.toHdr s.me = true →
     let n := FX.n o
     let a := (s.me.sreg o.a).setWidth n
     let b := (FX.opB o s.me).setWidth n
     let result (x : Word) := slotNext s fun v => v.result o.d x
     let holds : Bool := match o.sub.toNat with
       | 0 => a == b | 1 => a != b | 2 => a.slt b | 3 => !a.slt b | 4 => a.ult b | _ => !a.ult b
     exec (.cmp o) s = result (if holds then 1 else 0) ∧
     exec (.sel o) s = result (if s.me.sreg o.a ≠ 0 then s.me.sreg o.b else s.me.sreg o.c) ∧
     exec (.movi o) s = result (o.imm.signExtend 64) ∧
     exec (.movhi o) s = result (o.imm ++ (s.me.sreg o.a).setWidth 32)) ∧
  (∀ (o : FX) (m : FM) (s : State),
     (scalarActive o.toHdr s.me = false → ∀ i ∈ [Instr.add o, .sub o, .mul o, .mulh o, .mulhu o, .div o, .divu o, .rem o,
       .remu o, .and o, .or o, .xor o, .andn o, .shl o, .shr o, .sra o, .rot o, .min o, .max o, .minu o, .maxu o, .clz o,
       .ctz o, .popc o, .sext o, .cmp o, .sel o, .movi o, .movhi o, .fadd o, .fsub o, .fmul o, .fma o, .fdiv o, .fsqrt o,
       .fmin o, .fmax o, .fcmp o, .fcvt o, .fclass o, .fsgn o], exec i s = slotNext s Slot.advance) ∧
     (scalarActive m.toHdr s.me = false → exec (.ld m) s = slotNext s Slot.advance ∧ exec (.st m) s = slotNext s Slot.advance)) ∧
  (∀ (o : FX) (s t : State),
     (∀ i ∈ [Instr.add o, .sub o, .mul o, .mulh o, .mulhu o, .and o, .or o, .xor o, .andn o, .shl o, .shr o, .sra o, .rot o,
       .min o, .max o, .minu o, .maxu o, .clz o, .ctz o, .popc o, .sext o, .cmp o, .sel o, .movi o, .movhi o],
       exec i s = .next t → FrameReg o.d s t) ∧
     (∀ i ∈ [Instr.div o, .divu o, .rem o, .remu o], exec i s = .next t → (FX.opB o s.me).setWidth (FX.n o) ≠ 0 →
       FrameReg o.d s t) ∧
     ∀ x, s.me.putS (.s 0) x = s.me ∧ s.me.getS 0 = 0)

/-- R140 to R142: a finite number other than 0 is rounded to the neighbour that the mode names among the values of the format, extended
above its largest, with NX and UF by what was chosen, and overflows by R141. R145: sum, difference, product, quotient, root and
FMA of numbers round the exact result once; an exact zero sum of opposite signs is +0, or −0 under RDN; the first NaN operand is the
result, quieted, with NV for a signalling one; the invalid operations give the default NaN. R143: a conversion to an integer rounds
to an integer and takes the nearest bound of the range beyond it. -/
def Obligations.Rounding : Prop :=
  let formats : List Fmt := [.fp64, .fp32, .bf16, .fp16, .e4m3, .e5m2, .e3m2, .e2m3, .e2m1]
  let number (neg : Bool) (m : Nat) (e : Int) : ℝ := (if neg then -1 else 1) * (m : ℝ) * 2 ^ e
  (∀ f ∈ formats, ∀ (mode r : Nat) (neg : Bool) (m : Nat) (e : Int), mode ≤ 6 → r < 2 ^ 32 → m ≠ 0 →
     Rounds f mode r (number neg m e) (f.round mode r neg m e)) ∧
  (∀ f ∈ [Fmt.fp64, .fp32, .bf16, .fp16], ∀ (mode a b c : Nat) (p q r : Bool) (m n k : Nat) (d e g : Int), mode ≤ 5 →
     f.decode a = .fin p m d → f.decode b = .fin q n e → f.decode c = .fin r k g →
     let x := number p m d
     let y := number q n e
     let z := number r k g
     (x + y ≠ 0 → Rounds f mode 0 (x + y) (fAdd f mode a b)) ∧ (x - y ≠ 0 → Rounds f mode 0 (x - y) (fSub f mode a b)) ∧
     (x + y = 0 → p ≠ q → fAdd f mode a b = (if mode = 2 then 2 ^ (f.eb + f.mb) else 0, 0)) ∧
     (x * y ≠ 0 → Rounds f mode 0 (x * y) (fMul f mode a b)) ∧ (x * y + z ≠ 0 → Rounds f mode 0 (x * y + z) (fMa f mode a b c)) ∧
     (x ≠ 0 → y ≠ 0 → Rounds f mode 0 (x / y) (fDiv f mode a b)) ∧
     (x ≠ 0 → y = 0 → fDiv f mode a b = ((if p = q then 0 else 2 ^ (f.eb + f.mb)) + (2 ^ f.eb - 1) * 2 ^ f.mb, 8)) ∧
     (0 < x → Rounds f mode 0 (Real.sqrt x) (fSqrt f mode a))) ∧
  (∀ f ∈ [Fmt.fp64, .fp32, .bf16, .fp16], ∀ mode a b c : Nat, a < 2 ^ f.width → b < 2 ^ f.width → c < 2 ^ f.width →
     let nan (x : Nat) : Bool := (f.decode x).isNan
     let quiet (x : Nat) : Nat := x ||| 2 ^ (f.mb - 1)
     let signals (l : List Nat) : Bool := l.any fun x => nan x && !x.testBit (f.mb - 1)
     let first (out : Nat × Nat) (l : List Nat) : Prop := ∀ x, l.find? nan = some x → out.1 = quiet x ∧
       (signals l = true → out.2 = 16)
     first (fAdd f mode a b) [a, b] ∧ first (fSub f mode a b) [a, b] ∧ first (fMul f mode a b) [a, b] ∧
     first (fDiv f mode a b) [a, b] ∧ first (fSqrt f mode a) [a] ∧ first (fMa f mode a b c) [c, b, a] ∧
     (nan a = false → nan b = false →
       let zero (x : Nat) : Prop := x % 2 ^ (f.eb + f.mb) = 0
       let inf (x : Nat) : Prop := x % 2 ^ (f.eb + f.mb) = (2 ^ f.eb - 1) * 2 ^ f.mb
       let invalid : Nat × Nat := ((2 ^ f.eb - 1) * 2 ^ f.mb + 2 ^ (f.mb - 1), 16)
       ((inf a ∧ zero b) ∨ (zero a ∧ inf b) → fMul f mode a b = invalid) ∧
       ((inf a ∧ inf b) ∨ (zero a ∧ zero b) → fDiv f mode a b = invalid) ∧
       (inf a → inf b → a ≠ b → fAdd f mode a b = invalid) ∧ (inf a → a = b → fSub f mode a b = invalid) ∧
       (2 ^ (f.eb + f.mb) < a → fSqrt f mode a = invalid))) ∧
  (∀ (signed neg : Bool) (w mode r m : Nat) (e : Int), mode ≤ 6 → r < 2 ^ 32 → 2 ≤ w →
     let x := number neg m e
     let low : Int := if signed then (if w = 2 then -1 else -2 ^ (w - 1)) else 0
     let high : Int := if signed then 2 ^ (w - 1) - 1 else 2 ^ w - 1
     ∃ k c : Nat, (k : ℝ) ≤ |x| ∧ |x| < k + 1 ∧ (RoundsUp mode r x k (k + 1) k → c = k + 1) ∧ (¬RoundsUp mode r x k (k + 1) k → c = k) ∧
       let n : Int := if neg then -c else c
       (n < low → toInt signed w mode r (.fin neg m e) = ((BitVec.ofInt w low).toNat, 16)) ∧
       (high < n → toInt signed w mode r (.fin neg m e) = ((BitVec.ofInt w high).toNat, 16)) ∧
       (low ≤ n → n ≤ high → (toInt signed w mode r (.fin neg m e)).1 = (BitVec.ofInt w n).toNat ∧
         ((toInt signed w mode r (.fin neg m e)).2 = 0 ↔ x = n) ∧ (toInt signed w mode r (.fin neg m e)).2 ≤ 1))

/-- R10 to R15, R35: an address with nonzero high bits is NON_CANONICAL; one of the local half is checked for its form, the
neighbour's share, its offset and a fetch, in this order, and names the bytes of the share's scratchpad granules in order or those of
the grant. R16 to R22, R29, R34, R35: without a held translation the walk reads the entries from level 3 down, takes NOT_VALID before
FORMAT at each, then the permission, then AD_REQUIRED, and sets AC, and DT for a write, in the leaf; a held translation that serves
gives the page without a walk. R23, R24, R26, R27, R35: the page's target then refuses what it does not support, and device memory
what lies outside it, belongs to another tenant or is fenced. R226: an access across a 64 KiB boundary resolves as its two parts, and a
failure of the upper part alone reports its first byte, or the access's own where one larger page maps both; that an access may go on
over the end of the global half is the model's choice (log 50, DESIGN CHOICE). -/
def Obligations.Translation : Prop :=
  let fault (code reason lvl : Nat) (va : Word) (m : Nat) : Except XFault Acc := .error ⟨code, reason, lvl, va, m⟩
  (∀ (s : State) (r : Req) (va : Word) (n : Nat) (kind : AccKind) (op : OpClass), n ≤ 65536 - va.toNat % 65536 →
     (2 ^ 57 ≤ va.toNat → resolve s r va n kind op = (s, fault 5 0x10 0 va 0)) ∧
     ∀ (c : Nat), r.pcore = some c → 2 ^ 56 ≤ va.toNat → va.toNat < 2 ^ 57 →
       let x := va.toNat - 2 ^ 56
       let w := x / 2 ^ 25 % 4
       let core := if w = 2 then c / 16 * 16 + x / 2 ^ 21 % 16 else c
       let off := if w = 1 then x % 2 ^ 23 else x % 2 ^ 21
       let ctx := s.ctxOf r.cid
       let part := ctx.part.toNat
       let bad : Prop := 2 ^ 27 ≤ x ∨ w = 3 ∨ (w = 0 ∧ x / 2 ^ 21 % 16 ≠ 0) ∨ (w = 1 ∧ x / 2 ^ 23 % 4 ≠ 0)
       (bad → resolve s r va n kind op = (s, fault 5 0x11 0 va 0)) ∧
       (¬bad → w = 2 → (∀ sh ∈ ctx.shares, sh.pcore ≠ core) → resolve s r va n kind op = (s, fault 5 0x12 0 va 0)) ∧
       (¬bad → w = 1 →
         let size := part / 2 ^ 48 % 256 * 65536
         (size < off + n → resolve s r va n kind op = (s, fault 5 0x11 0 va 0)) ∧
         (off + n ≤ size → kind = .fetch → resolve s r va n kind op = (s, fault 5 0x13 0 va 0)) ∧
         (off + n ≤ size → kind ≠ .fetch → ∃ a, resolve s r va n kind op = (s, .ok a) ∧ a.dev = [] ∧ a.ca = [] ∧ a.bits = 0 ∧
           a.keys = (List.range n).map fun i => Key.scratch (c / 16) (Tab.getD ctx.gbase (c / 16) 0 * 65536 + off + i))) ∧
       (∀ sh, ¬bad → w ≠ 1 → ctx.shares.find? (·.pcore == core) = some sh →
         let size := part / 2 ^ 32 % 128 * 16384
         let first := (8 * (part / 2 ^ 8 % 4 + 1) * (part / 2 ^ 16 % 32) + 31) / 32 + (part / 2 ^ 24 % 32 + 3) / 4
         (size < off + n → resolve s r va n kind op = (s, fault 5 0x11 0 va 0)) ∧
         (off + n ≤ size → kind = .fetch → resolve s r va n kind op = (s, fault 5 0x13 0 va 0)) ∧
         (off + n ≤ size → kind ≠ .fetch → ∃ a, resolve s r va n kind op = (s, .ok a) ∧ a.dev = [] ∧ a.ca = [] ∧ a.bits = 0 ∧
           a.keys = (List.range n).map fun i =>
             Key.pool sh.pcore ((sh.grans[first + (off + i) / 16384]?).getD 0 * 16384 + (off + i) % 16384)))) ∧
  (∀ (s : State) (r : Req) (va : Word) (n : Nat) (kind : AccKind) (op : OpClass) (tab : Nat → Nat) (e : Nat → Word) (lvl : Nat),
     va.toNat < 2 ^ 56 → n ≤ 65536 - va.toNat % 65536 → r.xroot.getLsbD 0 = true → tlbHit s r va kind = none →
     (∀ l, walkHit s r va l = none) → lvl ≤ 3 →
     let lo (l : Nat) : Nat := match l with | 0 => 16 | 1 => 21 | 2 => 30 | _ => 43
     let len (l : Nat) : Nat := match l with | 0 => 5 | 1 => 9 | _ => 13
     let at' (l : Nat) : Nat := tab l + va.toNat / 2 ^ lo l % 2 ^ len l * 8
     let addr (p : Word) : Nat := p.toNat / 2 ^ 8 % 2 ^ 40 * 2 ^ 8
     let valid (p : Word) : Prop := p.getLsbD 0 = true
     let leaf (p : Word) : Prop := p.getLsbD 1 = true
     let class' (p : Word) : Nat := p.toNat / 2 ^ 48 % 4
     let module (p : Word) : Nat := p.toNat / 2 ^ 50
     let table (l : Nat) (p : Word) : Prop := 1 ≤ l ∧ p.toNat / 2 ^ 48 = 0 ∧ p.toNat / 4 % 64 = 0 ∧
       (l = 3 → addr p % 2 ^ 16 = 0) ∧ (l = 2 → addr p % 2 ^ 12 = 0) ∧ addr p < 768 * 2 ^ 30
     let page (l : Nat) (p : Word) : Prop := l ≤ 2 ∧ addr p % 2 ^ lo l = 0 ∧ class' p ≠ 3 ∧ (class' p ≠ 1 → module p = 0) ∧
       (p.getLsbD 3 = true → p.getLsbD 2 = true) ∧ (p.getLsbD 4 = true → class' p = 0) ∧
       (p.getLsbD 7 = true → class' p = 0 ∨ (class' p = 1 ∧ p.getLsbD 3 = false))
     tab 3 = r.xroot.toNat / 2 ^ 16 % 2 ^ 32 * 2 ^ 16 → (∀ l, e l = BitVec.ofNat 64 (s.mem.read (at' l) 8)) →
     (∀ l, lvl < l → l ≤ 3 → valid (e l) ∧ ¬leaf (e l) ∧ table l (e l) ∧ tab (l - 1) = addr (e l)) →
     let p := e lvl
     let stops (reason : Nat) : Prop := resolve s r va n kind op = (s, fault 4 reason lvl va 0)
     let lacks : Option Nat := match kind with
       | .load => if p.getLsbD 2 then none else some 2
       | .store => if p.getLsbD 3 then none else some 3
       | .rmw => if p.getLsbD 2 then (if p.getLsbD 3 then none else some 3) else some 2
       | .fetch => if p.getLsbD 4 then none else some 4
     let q : Word := p ||| 0x20 ||| (if kind = .store ∨ kind = .rmw then 0x40 else 0)
     (¬valid p → stops 1) ∧ (valid p → leaf p → ¬page lvl p → stops 5) ∧ (valid p → ¬leaf p → ¬table lvl p → stops 5) ∧
     (valid p → leaf p → page lvl p → (∀ x, lacks = some x → stops x) ∧
       (lacks = none → q ≠ p → r.xroot.getLsbD 1 = false → stops 6) ∧
       (lacks = none → q = p ∨ r.xroot.getLsbD 1 = true →
         let pa := addr p + va.toNat % 2 ^ lo lvl
         ∃ t, t.mem = (if q = p then s.mem else s.mem.write (at' lvl) 8 q.toNat) ∧ t.me = s.me ∧ t.slots = s.slots ∧
           tlbHit t r va kind = (if r.pcore = none then none else some ⟨r.xroot.toNat / 2 ^ 56, va.toNat - va.toNat % 2 ^ lo lvl, lo lvl, q⟩) ∧
           let refused (reason m : Nat) : Prop := resolve s r va n kind op = (t, fault 5 reason 0 va m)
           let reached (keys : List Nat) : Prop := ∃ a, resolve s r va n kind op = (t, .ok a) ∧ a.keys = keys ∧ a.bits = lo lvl
           (class' p = 0 →
             let fenced : Prop := ∃ i, i ≤ (pa + n - 1) / 128 - pa / 128 ∧ pseudoChannel t.memcfg (pa + 128 * i) ∈ t.fenced
             (768 * 2 ^ 30 ≤ pa → refused 0x15 0) ∧
             (pa < 768 * 2 ^ 30 → Tab.getD t.owners (pa / 65536) 255 ≠ r.tenant → refused 0x16 0) ∧
             (pa < 768 * 2 ^ 30 → Tab.getD t.owners (pa / 65536) 255 = r.tenant → fenced → refused 0x17 0) ∧
             (pa < 768 * 2 ^ 30 → Tab.getD t.owners (pa / 65536) 255 = r.tenant → ¬fenced → reached (keyRange pa n))) ∧
           (class' p = 1 → module p ≠ Config.moduleId →
             (op = .future ∨ op = .reserve → refused 0x1B 0) ∧
             (op ≠ .future → op ≠ .reserve → peerReachable t (module p) = false → refused 0x18 (module p)) ∧
             (op ≠ .future → op ≠ .reserve → peerReachable t (module p) = true →
               (kind = .store → reached (keyRange (Key.peer (module p) pa) n)) ∧
               (kind ≠ .store → p.getLsbD 7 = false →
                 let exports := ((Tab.get t.peers (module p)).map (·.exports)).getD []
                 let allowed : Prop := ∃ x ∈ exports, x.base ≤ pa ∧ pa + n ≤ x.base + x.len ∧ Config.moduleId ∈ x.sources ∧
                   (kind = .rmw → x.rd = true ∧ x.wr = true) ∧ (kind ≠ .rmw → x.rd = true)
                 (allowed → reached (keyRange (Key.peer (module p) pa) n)) ∧ (¬allowed → refused 0x19 (module p))))) ∧
           (class' p = 2 →
             (op = .amoOther ∨ op = .fullEmpty ∨ op = .future ∨ op = .reserve → refused 0x1B 0) ∧
             (op ≠ .amoOther → op ≠ .fullEmpty → op ≠ .future → op ≠ .reserve →
               (kind ≠ .store → functionOn t r.tenant = false → refused 0x1A 0) ∧
               (kind = .store → reached (hostKeys t r.tenant pa n))))))) ∧
  (∀ (s : State) (r : Req) (va : Word) (n : Nat) (kind : AccKind) (op : OpClass), va.toNat < 2 ^ 56 →
     (r.xroot.getLsbD 0 = false → n ≤ 65536 - va.toNat % 65536 → resolve s r va n kind op = (s, fault 5 0x14 0 va 0)) ∧
     (∀ e, r.xroot.getLsbD 0 = true → n ≤ 65536 - va.toNat % 65536 → tlbHit s r va kind = some e → e.pte.toNat / 2 ^ 48 % 4 = 0 →
       let pa := e.pte.toNat / 2 ^ 8 % 2 ^ 40 * 2 ^ 8 + va.toNat % 2 ^ e.bits
       deviceCheck s r.tenant pa n = none → ∃ t a, resolve s r va n kind op = (t, .ok a) ∧ t.mem = s.mem ∧ a.keys = keyRange pa n) ∧
     ∀ (low : Nat) (t : State) (a : Acc), low = 65536 - va.toNat % 65536 → low < n → n - low ≤ 65536 →
       resolve s r va low kind op = (t, .ok a) →
       let hi := va + BitVec.ofNat 64 low
       (∀ u b, resolve t r hi (n - low) kind op = (u, .ok b) →
         ∃ c, resolve s r va n kind op = (u, .ok c) ∧ c.keys = a.keys ++ b.keys ∧ c.dev = a.dev ++ b.dev ∧ c.ca = a.ca ++ b.ca) ∧
       ∀ u f, resolve t r hi (n - low) kind op = (u, .error f) → resolve s r va n kind op =
         (u, .error (if va.toNat / 2 ^ a.bits = hi.toNat / 2 ^ a.bits then { f with va := va } else f)))

/-- R66, R67: reading a word of the pool or a scratchpad: a sound word is served as it is; a word with one flipped bit is corrected,
and written back (log 24, DESIGN CHOICE: the rule writes back a rebuilt word only); one with two is rebuilt when its row is sound, and
else is uncorrectable; a word of the one failed bank of its group is rebuilt without a record; with two failed banks nothing of the
group can be read. The sixteenth rebuilt word of a bank fails it. R66: the code's columns tell one flipped bit from
two (log 13, DESIGN CHOICE: any such code). R68: the error log keeps its first record, counts all and notes that more came. R343, R344: a
load of a word that stays uncorrectable takes MACHINE_CHECK with its address in tval: the slot stops, the core whose pool it is is
quarantined, and the launch is told. R242, R344: a mirror copy that differs from element e on stops the slot with LANE_MISMATCH at
the instruction, the elements below e written, and the core quarantined. -/
def Obligations.MachineChecks : Prop :=
  (∀ (a : ArrayId) (bank index k : Nat) (s : State), arrayOf k = some (a, bank, index) →
     let failed := (s.rasOf a).failed
     let mates := failed.filter fun b => bankGroup b == bankGroup bank
     let row := symbolKey a bank k :: (rowWords a bank k).map (·.2)
     let recorded (kind : Nat) (u : State) : Prop := (s.rasOf a).elog = 0 →
       (u.rasOf a).elog.getLsbD 63 = true ∧ (u.rasOf a).elog.toNat / 2 ^ 60 % 4 = kind ∧ (u.rasOf a).elog.toNat / 2 ^ 47 % 32 = bank % 32 ∧
       (u.rasOf a).elog.toNat / 2 ^ 24 % 2 ^ 15 = 1 ∧ (u.rasOf a).elog.toNat % 2 ^ 24 = index % 2 ^ 24
     let same (u : State) : Prop := u.mem = s.mem ∧ u.me = s.me ∧ u.slots = s.slots
     (failed = [] → Tab.get s.flips k = none → readArray a bank index k s = (s, .ok 0)) ∧
     (∀ i, i < 64 → failed = [] → Tab.get s.flips k = some ⟨BitVec.ofNat 64 (2 ^ i), 0⟩ → ∃ u, readArray a bank index k s = (u, .ok 0) ∧
       u.flips = Tab.erase s.flips k ∧ recorded 0 u ∧ same u) ∧
     (∀ i j, i < 64 → j < i → failed = [] → Tab.get s.flips k = some ⟨BitVec.ofNat 64 (2 ^ i + 2 ^ j), 0⟩ →
       ((∀ w ∈ row, Tab.get s.flips w = none) →
         let rebuilt := Sorted.insert (s.rasOf a).rebuilt index
         let mine := rebuilt.filter fun w => w * 8 / bankSpan a % 16 == bank
         ∃ u, readArray a bank index k s = (u, .ok 0) ∧ u.flips = Tab.erase s.flips k ∧ (u.rasOf a).rebuilt = rebuilt ∧ same u ∧
           (mine.length < 16 → recorded 1 u ∧ (u.rasOf a).failed = []) ∧ (16 ≤ mine.length → (u.rasOf a).failed = [bank])) ∧
       ((∃ w ∈ row, Tab.get s.flips w = some ⟨BitVec.ofNat 64 (2 ^ i + 2 ^ j), 0⟩) →
         ∃ u, readArray a bank index k s = (u, .bad) ∧ u.flips = s.flips ∧ recorded 2 u ∧ same u)) ∧
     (failed = [bank] → (∀ w ∈ row, Tab.get s.flips w = none) → readArray a bank index k s = (s, .ok 0)) ∧
     (2 ≤ mates.length → ∃ u, readArray a bank index k s = (u, .bad) ∧ u.flips = s.flips ∧ recorded 2 u ∧ same u)) ∧
  (∀ i j l, i < 65 → j < 65 → l < 65 → 3 ≤ Bits.popcount 8 (codeColumn i).toNat ∧
     (i ≠ j → 2 ≤ Bits.popcount 8 (codeColumn i ^^^ codeColumn j).toNat ∧ codeColumn i ^^^ codeColumn j ≠ codeColumn l)) ∧
  (∀ (a : ArrayId) (kind bank synd index tenant rix : Nat) (s : State),
     let old := (s.rasOf a).elog
     let new := ((logError a kind bank synd index (tenant, rix) s).rasOf a).elog
     let count := min 32767 (old.toNat / 2 ^ 24 % 2 ^ 15 + 1)
     new.getLsbD 63 = true ∧ new.toNat / 2 ^ 24 % 2 ^ 15 = count ∧
     (old.getLsbD 63 = true → new.getLsbD 62 = true ∧ new.toNat % 2 ^ 24 = old.toNat % 2 ^ 24 ∧
       new.toNat / 2 ^ 39 % 2 ^ 23 = old.toNat / 2 ^ 39 % 2 ^ 23) ∧
     (old.getLsbD 63 = false → kind < 4 → tenant < 64 → rix < 4 → bank < 32 → synd < 256 → index < 2 ^ 24 →
       new.toNat / 2 ^ 60 % 4 = kind ∧ new.toNat / 2 ^ 54 % 64 = tenant ∧ new.toNat / 2 ^ 52 % 4 = rix ∧
       new.toNat / 2 ^ 47 % 32 = bank ∧ new.toNat / 2 ^ 39 % 256 = synd ∧ new.toNat % 2 ^ 24 = index)) ∧
  (∀ (o : FM) (s t : State) (a : Acc) (k core bank index : Nat), scalarActive o.toHdr s.me = true → InOrder s → NoneInFlight s →
     NoHeldStores s.me → o.ord = .plain → Reaches s (FM.ea o s.me) (FM.bytes o) .load .load t a → a.ca = [] → a.dev = [] →
     a.keys ≠ [] → (∀ x ∈ a.keys, Key.word x = k) → arrayOf k = some (.pool core, bank, index) →
     2 ≤ ((t.rasOf (.pool core)).failed.filter fun b => bankGroup b == bankGroup bank).length →
     ∃ u, exec (.ld o) s = .next u ∧ u.me.st = .stopped ∧ u.me.pc = s.me.pc ∧ u.me.s = s.me.s ∧ u.mem = t.mem ∧
       u.me.err = s.me.err ||| BitVec.ofNat 32 (2 ^ 0x13) ∧ (s.me.first = none → u.me.first = some (0x13, s.me.pc, FM.ea o s.me)) ∧
       UnitId.core core ∈ u.quarantined ∧ Instr.launchKill s.ctx.lid ∈ u.agenda) ∧
  ∀ (o : FX) (s before : State) (d : Fin 32) (e : Nat), (s.coreOf s.core).upset = some e → s.cur = before.cur →
     Vt.lp before.me.vt = true → s.me.vt = before.me.vt → s.me.st = .ready → s.me.pc = before.me.advance.pc → e < before.me.vl →
     o.d = .v d → d.val + Vt.grp before.me.vt ≤ 32 →
     let w := Vt.sew before.me.vt
     ∃ u, laneCheck (.vadd o) before s = u ∧ u.me.st = .stopped ∧ u.me.pc = before.me.pc ∧ u.me.tinfo = BitVec.ofNat 64 (e * 2 ^ 48) ∧
       u.me.err = s.me.err ||| BitVec.ofNat 32 (2 ^ 0x12) ∧ UnitId.core s.core ∈ u.quarantined ∧ u.mem = s.mem ∧
       Instr.launchKill s.ctx.lid ∈ u.agenda ∧
       ∀ k, k < Vt.regBits before.me.vt * Vt.grp before.me.vt / w → vecSrc u.me [] (.v d) (Vt.grp before.me.vt) w k =
         (if k < e then vecSrc s.me [] (.v d) (Vt.grp before.me.vt) w k else vecSrc before.me [] (.v d) (Vt.grp before.me.vt) w k)

/-- R145, R146, R216 to R219: without an enabled exception the result goes to D and the flags into fflags. R220: an enabled
exception raises its flags, leaves D as it was and is taken. R146, R217, R218: FCLASS names one class; FSGN replaces the sign
bit alone; minimum and maximum of two numbers is one of them; an unordered pair meets no ordered relation. -/
def Obligations.ScalarFloats : Prop :=
  (∀ (o : FX) (s : State), scalarActive o.toHdr s.me = true →
     let f := FX.fmt o
     let m := rmMode s.me o.rm
     let a := (s.me.sreg o.a).toNat % 2 ^ f.width
     let b := (s.me.sreg o.b).toNat % 2 ^ f.width
     let c := (s.me.sreg o.c).toNat % 2 ^ f.width
     let gives (i : Instr) (r : Nat × Nat) : Prop := fpCause s.me.frm r.2 = none →
       exec i s = slotNext s fun v => (v.raise r.2).result o.d (BitVec.ofNat 64 r.1)
     gives (.fadd o) (fAdd f m a b) ∧ gives (.fsub o) (fSub f m a b) ∧ gives (.fmul o) (fMul f m a b) ∧
     gives (.fma o) (fMa f m a b c) ∧ gives (.fdiv o) (fDiv f m a b) ∧ gives (.fsqrt o) (fSqrt f m a) ∧
     gives (.fmin o) (fMinMax f false a b) ∧ gives (.fmax o) (fMinMax f true a b) ∧
     gives (.fcmp o) ((if (fCmp f o.sub.toNat a b).1 then 1 else 0), (fCmp f o.sub.toNat a b).2) ∧
     gives (.fclass o) (fClass f a, 0) ∧ gives (.fsgn o) (fSgn f o.sub.toNat a b, 0) ∧
     (let r := convert (cvtFmt o.sub.toNat) (cvtFmt o.fc.toNat) m ((s.me.sreg o.c).toNat % 2 ^ 32) (s.me.sreg o.a).toNat
      gives (.fcvt o) ((if o.fc = 2 then ((BitVec.ofNat 32 r.1).signExtend 64).toNat else r.1), r.2))) ∧
  (∀ (o : FX) (s : State) (c : Nat), scalarActive o.toHdr s.me = true →
     let f := FX.fmt o
     let m := rmMode s.me o.rm
     let a := (s.me.sreg o.a).toNat % 2 ^ f.width
     let b := (s.me.sreg o.b).toNat % 2 ^ f.width
     let traps (i : Instr) (fl : Nat) : Prop := fpCause s.me.frm fl = some c →
       exec i s = .next (deliver { code := c, ti := BitVec.ofNat 64 fl } (s.mapMe (·.raise fl)))
     let x := (s.me.sreg o.c).toNat % 2 ^ f.width
     traps (.fadd o) (fAdd f m a b).2 ∧ traps (.fsub o) (fSub f m a b).2 ∧ traps (.fmul o) (fMul f m a b).2 ∧
     traps (.fma o) (fMa f m a b x).2 ∧ traps (.fdiv o) (fDiv f m a b).2 ∧ traps (.fsqrt o) (fSqrt f m a).2 ∧
     traps (.fmin o) (fMinMax f false a b).2 ∧ traps (.fmax o) (fMinMax f true a b).2 ∧
     traps (.fcmp o) (fCmp f o.sub.toNat a b).2 ∧
     traps (.fcvt o) (convert (cvtFmt o.sub.toNat) (cvtFmt o.fc.toNat) m ((s.me.sreg o.c).toNat % 2 ^ 32) (s.me.sreg o.a).toNat).2) ∧
  (∀ f ∈ [Fmt.fp32, Fmt.fp64], ∀ a b : Nat, a < 2 ^ f.width → b < 2 ^ f.width →
     (∃ k, k ≤ 9 ∧ fClass f a = 2 ^ k) ∧
     (∀ k, k ≤ 2 → fSgn f k a b % 2 ^ (f.width - 1) = a % 2 ^ (f.width - 1) ∧ fSgn f k a b < 2 ^ f.width) ∧
     ((f.decode a).isNan = false → (f.decode b).isNan = false →
       ((fMinMax f true a b).1 = a ∨ (fMinMax f true a b).1 = b) ∧
       ((fMinMax f false a b).1 = a ∨ (fMinMax f false a b).1 = b)) ∧
     (((f.decode a).isNan || (f.decode b).isNan) = true → (fCmp f 3 a b).1 = true ∧
       ∀ k, k ≤ 2 → (fCmp f k a b).1 = false))

/-- R221: targets, links and the next instruction. R221: an indirect transfer to an address with nonzero low bits raises
MISALIGNED and links nothing. -/
def Obligations.Transfers : Prop :=
  (∀ (o : FB) (s : State),
     let a := s.me.sreg o.a
     let b := s.me.sreg o.b
     let target := s.me.pc + o.imm.signExtend 64 * 16
     let holds : Bool := match o.cnd.toNat with
       | 0 => a == b | 1 => a != b | 2 => a.slt b | 3 => !a.slt b | 4 => a.ult b | _ => !a.ult b
     (exec (.br o) s = if holds then slotNext s fun v => { v with pc := target } else slotNext s Slot.advance) ∧
     exec (.jmp o) s = slotNext s (fun v => { v with pc := target }) ∧
     exec (.call o) s = slotNext s (fun v => { v.putS o.d (v.pc + 16) with pc := target }) ∧
     (a &&& 15 = 0 → exec (.ret o) s = slotNext s fun v => { v with pc := a }) ∧
     ((a + o.imm.signExtend 64 * 16) &&& 15 = 0 → exec (.jr o) s = slotNext s fun v =>
       { v.putS o.d (v.pc + 16) with pc := a + o.imm.signExtend 64 * 16 }) ∧
     exec (.nop o) s = slotNext s Slot.advance) ∧
  (∀ (o : FB) (s : State),
     let trapTo (t : Word) : Out := .next (deliver { code := Cause.misaligned, tv := t, ti := 0x300 } s)
     let t := s.me.sreg o.a + o.imm.signExtend 64 * 16
     (s.me.sreg o.a &&& 15 ≠ 0 → exec (.ret o) s = trapTo (s.me.sreg o.a)) ∧ (t &&& 15 ≠ 0 → exec (.jr o) s = trapTo t))

/-- R223, R224: LOOPN takes its counts from consecutive registers; a zero count skips the body, and otherwise the body runs from
its first word with every index 0. The words of the body are those that a fetch from each address gives, in order; one that fails
is reported at the LOOPN. R224: a body that holds a forbidden instruction is ILLEGAL_INSTRUCTION with the first one's word in tval, once
the whole body has been fetched (log 25, DESIGN CHOICE: neither rule says which of two such faults comes first). R123, R223: a
fetch that misses the instruction cache and does not translate fails with the reason of its translation and KIND 3. R223: at the end of
the body the indices go to the next tuple, loop 0 fastest, and the loop ends after the product of the counts of iterations. -/
def Obligations.Loops : Prop :=
  (∀ (o : FB) (s : State) (body : Nat → IWord) (st : Nat → State),
     let base := s.me.pc + 16
     let len := o.bl.toNat + 1
     let ws := (List.range len).map body
     let cnt := (List.range (o.nest.toNat + 1)).map fun j => (s.me.getS (Fin.ofNat 64 (Reg.sIdx o.a + j))).toNat % 2 ^ 32
     let fetch (i : Nat) := fetchWord (base + BitVec.ofNat 64 (16 * i)) false (st i)
     let fetched (k : Nat) : Prop := st 0 = s ∧ ∀ i, i < k → fetch i = .ok (body i) (st (i + 1))
     (fetched len → (∀ w ∈ ws, bodyForbids w = false) →
       exec (.loopn o) s = slotNext (st len) fun v =>
         if 0 ∈ cnt then { v with pc := base + BitVec.ofNat 64 (16 * len), loop := none }
         else { v with pc := base, loop := some ⟨base, ws, cnt, List.replicate (o.nest.toNat + 1) 0, true⟩ }) ∧
     (∀ i, fetched len → i < len → bodyForbids (body i) = true → (∀ j, j < i → bodyForbids (body j) = false) →
       exec (.loopn o) s = .next (deliver { code := Cause.illegal, tv := (body i).setWidth 64 } (st len))) ∧
     ∀ k x u, fetched k → k < len → fetch k = .error (.trap x) u → exec (.loopn o) s = .next (deliver x u)) ∧
  (∀ (w : IWord) (i : Instr), decode w = .ok i → bodyForbids w = (match i with
     | .br _ | .jmp _ | .call _ | .ret _ | .jr _ | .loopn _ | .trap _ | .eret _ | .icsync _ | .nextt _ | .done _ | .doneEnd _ => true
     | _ => false)) ∧
  (∀ (s t : State) (va : Word) (f : XFault), (∀ l ∈ (s.coreOf s.core).icache, ¬(l.cid = s.cur.cid ∧ l.va = va &&& ~~~0x7F#64)) →
     resolve s (slotReq s) va 16 .fetch .fetch = (t, .error f) →
     let x : Trap := { code := f.code, tv := f.va, ti := BitVec.ofNat 64 (f.modId <<< 34 ||| f.lvl <<< 14 ||| 3 <<< 8 ||| f.reason) }
     fetchWord va false s = .error (.trap x) t) ∧
  (∀ (v : Slot) (l : LoopBuf), v.loop = some l → l.active = true → l.idx.length = l.cnt.length → 0 < l.cnt.length →
     (∀ p ∈ l.idx.zip l.cnt, p.1 < p.2) → v.pc + 16 = l.base + BitVec.ofNat 64 (16 * l.body.length) →
     (loopNumber l.idx l.cnt + 1 < l.cnt.prod → ∃ t, v.advance = { v with pc := l.base, loop := some { l with idx := t } } ∧
       loopNumber t l.cnt = loopNumber l.idx l.cnt + 1) ∧
     (loopNumber l.idx l.cnt + 1 = l.cnt.prod → v.advance = { v with pc := v.pc + 16, loop := none }))

/-- R222: TRAP is taken with the next instruction's address in epc, the immediate in tval and 0 in tinfo, at the handler; an ERET
that leaves epc as it is goes on after the TRAP. Registers and memory stay. -/
def Obligations.SoftwareTrap : Prop :=
  ∀ (o : FB) (s : State), s.me.hbase ≠ 0 → ∃ t, exec (.trap o) s = .next t ∧
    t.me.epc = (s.me.pc + 16) &&& ~~~15#64 ∧ t.me.cause = 0x0A ∧ t.me.tval = o.imm.setWidth 64 ∧ t.me.tinfo = 0 ∧ t.me.pc = s.me.hbase ∧
    t.me.s = s.me.s ∧ t.me.v = s.me.v ∧ t.me.m = s.me.m ∧ t.mem = s.mem ∧ (∀ r ∈ t.resvs, r.key ≠ s.cur) ∧
    (s.me.pc.toNat % 16 = 0 → s.me.sres = none → ∀ e : FS, ∃ u, exec (.eret e) t = .next u ∧ u.me.pc = s.me.pc + 16)

/-- R337: what taking a trap saves and where it goes, for a cause that neither kills nor is a page fault. With no handler, or on
a fetch fault at the handler's first instruction, the slot stops and the launch is told. R337: a fatal cause stops the slot
even when it has a handler, and a page fault stops it until Naruno serves it. -/
def Obligations.Traps : Prop :=
  (∀ (x : Trap) (s : State), Cause.fatal x.code = false → x.code ≠ Cause.pageFault →
     let e := x.pc.getD s.me.pc
     let t := deliver x s
     (s.me.hbase ≠ 0 → ¬(x.fetch = true ∧ e = s.me.hbase) →
       t.me.epc = e &&& ~~~15#64 ∧ t.me.cause = BitVec.ofNat 64 x.code ∧ t.me.tval = x.tv ∧ t.me.tinfo = x.ti ∧
       t.me.pc = s.me.hbase ∧ t.me.st = .ready ∧ t.me.s = s.me.s ∧ t.me.v = s.me.v ∧ t.me.m = s.me.m ∧
       t.me.fflags = s.me.fflags ∧ t.me.vt = s.me.vt ∧ t.mem = s.mem ∧
       t.me.err = s.me.err ||| BitVec.ofNat 32 (2 ^ x.code)) ∧
     (s.me.hbase = 0 ∨ (x.fetch = true ∧ e = s.me.hbase) →
       t.me.st = .stopped ∧ t.me.pc = s.me.pc ∧ t.mem = s.mem ∧ Instr.launchKill s.ctx.lid ∈ t.agenda)) ∧
  (∀ (x : Trap) (s : State), let t := deliver x s
     (Cause.fatal x.code = true → t.me.st = .stopped ∧ Instr.launchKill s.ctx.lid ∈ t.agenda ∧ t.mem = s.mem) ∧
     (x.code = Cause.pageFault → t.me.st = .stopped ∧ (t.me.pf.map (·.e)) = some (x.pc.getD s.me.pc) ∧ t.mem = s.mem ∧
       ∃ valid ptes, t.agenda = s.agenda ++ [.pageFaultService (.slot s.cur) valid ptes]))

/-- R225, R226: LD writes the little-endian value of its bytes, zero- or sign-extended. R225, R226: ST writes the low bytes of C
to the bytes that its address names in this module, and no other byte. R105, R108, R112, as log 4 (DESIGN CHOICE) models them: a
plain ST may be performed later, with the same effect on memory; a plain LD may see a value that a later write has replaced,
but none older than what the slot has seen of the byte or than its last acquire. -/
def Obligations.ScalarMemory : Prop :=
  (∀ (o : FM) (s t : State) (a : Acc), scalarActive o.toHdr s.me = true → Quiet s → NoneInFlight s → NoHeldStores s.me →
     let n := FM.bytes o
     (o.ord ≠ .plain → s.me.refused = none ∧ (FM.ea o s.me).toNat % n = 0) →
     Reaches s (FM.ea o s.me) n .load .load t a → a.ca = [] →
     let x := ofBytes (a.keys.map t.mem.byte)
     ∃ u, exec (.ld o) s = .next u ∧ u.mem = t.mem ∧
       u.me = ((s.me.putS o.d (if o.sx then (BitVec.ofNat (8 * n) x).signExtend 64 else BitVec.ofNat 64 x)).addPend (fieldRegs 1 o.d) o.set).advance) ∧
  (∀ (o : FM) (s t : State) (a : Acc), scalarActive o.toHdr s.me = true → Quiet s → Alone s → s.Inv →
     let n := FM.bytes o
     (o.ord ≠ .plain → Settled s.me ∧ (FM.ea o s.me).toNat % n = 0) →
     Reaches s (FM.ea o s.me) n .store .store t a → OwnBytes a →
     ∃ u, exec (.st o) s = .next u ∧ u.mem = t.mem.writeCells (cellsFor a.keys (s.me.sreg o.c).toNat) ∧
       u.me = s.me.advance ∧ OnlyBytes a.keys t u) ∧
  (∀ (o : FM) (s t : State) (a : Acc) (n : Nat) (w : List Nat), scalarActive o.toHdr s.me = true → Sound s → Alone s →
     s.weak = n :: w → s.late = [] → o.ord = .plain →
     (Reaches s (FM.ea o s.me) (FM.bytes o) .store .store t a → OwnBytes a → n ≠ 0 →
       ∃ u, exec (.st o) s = .next u ∧ u.mem = t.mem ∧ u.weak = w ∧ u.me = s.me.advance ∧
         u.late = [⟨s.cur, s.core, false, ⟨FM.ea o s.me, 0, cellsFor a.keys (s.me.sreg o.c).toNat, a.dev, 0, 0, a.bits⟩⟩]) ∧
     (Reaches s (FM.ea o s.me) (FM.bytes o) .load .load t a → a.ca = [] → NoneInFlight s → NoHeldStores s.me →
       let asOf := readAsOf t n a.keys
       let x := ofBytes (a.keys.map fun k => (formerByte t asOf k).getD (t.mem.byte k))
       (∃ u, exec (.ld o) s = .next u ∧ u.mem = t.mem ∧ u.weak = w ∧ u.me.pc = s.me.advance.pc ∧
         u.me.s = (s.me.putS o.d (if o.sx then (BitVec.ofNat (8 * FM.bytes o) x).signExtend 64 else BitVec.ofNat 64 x)).s) ∧
       asOf ≤ t.writes ∧ t.writes - n ≤ asOf ∧ min t.me.floor t.writes ≤ asOf ∧
       ∀ k ∈ a.keys, min (Tab.getD t.me.seen (Key.word k) 0) t.writes ≤ asOf)) ∧
  ∀ (l : Late) (s : State), Sound s → s.weak = [] → (performLate l s).mem = s.mem.writeCells l.store.bytes ∧
    (performLate l s).late = s.late.erase l

/-- R28: a plain store to a peer module is in flight until its reply, and memory here does not change. R228: PREF changes no
register and no byte of memory, and a PREF of device memory for the L1 data cache leaves the line there unless a command owns it. R28,
R227: FENCE goes on once no store is in flight, waits while one is, and reports a refusal with DEFER set. R111: one that
releases keeps the slot's late stores (log 4, DESIGN CHOICE) before its later writes. -/
def Obligations.StoresAndFences : Prop :=
  (∀ (o : FM) (s t : State) (a : Acc) (m : Nat), scalarActive o.toHdr s.me = true → Quiet s → Alone s → o.ord = .plain →
     Reaches s (FM.ea o s.me) (FM.bytes o) .store .store t a → a.dev = [] → a.keys ≠ [] → a.keys.Nodup →
     (∀ k ∈ a.keys, 2 ^ 63 ≤ k ∧ (k - 2 ^ 63) / 2 ^ 48 = m) →
     ∃ u ok, exec (.st o) s = .next u ∧ u.mem = t.mem ∧
       u.me.inflight = s.me.inflight ++ [⟨FM.ea o s.me, m, cellsFor a.keys (s.me.sreg o.c).toNat, [], 0, s.me.stores + 1, a.bits⟩] ∧
       Instr.peerStoreReply s.cur ok ∈ u.agenda) ∧
  (∀ (o : FM) (s t : State), Sound s → ∃ u, exec (.pref o) s = .next u ∧ u.mem = s.mem ∧ u.me = s.me.advance ∧
     u.slots = s.slots ∧ u.agenda = s.agenda ∧
     (scalarActive o.toHdr s.me = false → u = s.mapMe Slot.advance) ∧
     (∀ f, resolve s (slotReq s) (FM.ea o s.me) 1 .load .load = (t, .error f) → u = s.mapMe Slot.advance) ∧
     ∀ a, scalarActive o.toHdr s.me = true → resolve s (slotReq s) (FM.ea o s.me) 1 .load .load = (t, .ok a) → a.ca = [] →
       o.fx.getLsbD 0 = false → ∀ line ∈ a.dev, (∀ x ∈ a.dev, x = line) → (∀ c, Tab.get s.dir line ≠ some (.engine c)) →
       inL1 u s.core line = true) ∧
  (∀ (o : FM) (s : State), o.ord = .release → Settled s.me → ∃ u, exec (.fence o) s = .next u ∧ u.me = s.me.advance ∧
     u.mem = s.mem ∧ u.late = s.late.map fun l => if l.key = s.cur then { l with fenced := true } else l) ∧
  (∀ (o : FM) (s : State), InOrder s →
     (Settled s.me → exec (.fence o) s = slotNext s Slot.advance) ∧
     (s.me.inflight ≠ [] → exec (.fence o) s = slotNext s fun v => { v with st := .parked .reply }) ∧
     ∀ r : Refused, s.me.inflight = [] → s.me.refused = some r →
       let x : Trap :=
         { code := Cause.accessFault, tv := r.va,
           ti := BitVec.ofNat 64 (r.elem <<< 48 ||| r.modId <<< 34 ||| 1 <<< 33 ||| 1 <<< 8 ||| r.reason) }
       exec (.fence o) s = .next (deliver x (s.mapMe fun v => { v with refused := none })))

/-- R61, R229: on a full word LDFE reads and empties, LDFF reads, STFF writes; on an empty word STEF writes and fills; FEQ
returns the bit and leaves it, fills or empties. Nothing else in memory changes. R62, R63: an operation whose condition fails
enters the wait list of its word and parks its slot. R62, R63: after a change of a word's bit the list is scanned from its
oldest entry: an entry of another word, or whose condition does not hold then, stays; one whose condition holds leaves the list, is
performed, and its slot takes its result and goes on. -/
def Obligations.FullEmptyWords : Prop :=
  (∀ (o : FM) (s t : State) (w : Nat), (∀ e ∈ s.waits, e.word ≠ w) →
     let x := t.mem.read w 8
     let c := (s.me.sreg o.c).toNat
     let ends (i : Instr) (full : Bool) (y : Nat) (d : Option Word) : Prop := ∃ u, exec i s = .next u ∧ isFull u w = full ∧
       u.mem.read w 8 = y ∧ OnlyBytes (keyRange w 8) t u ∧
       { u.me with leaf := s.me.leaf } =
         (((match d with | some z => s.me.putS o.d z | none => s.me).addPend (fieldRegs 1 o.d) o.set)).advance
     (FreeWord s o 0 w t → isFull t w = true → ends (.ldfe o) false x (some (BitVec.ofNat 64 x))) ∧
     (FreeWord s o 1 w t → isFull t w = true → ends (.ldff o) true x (some (BitVec.ofNat 64 x))) ∧
     (FreeWord s o 2 w t → isFull t w = false → ends (.stef o) true c none) ∧
     (FreeWord s o 3 w t → isFull t w = true → ends (.stff o) true c none) ∧
     (FreeWord s o 4 w t → o.fx = 0 → ends (.feq o) (isFull t w) x (some (if isFull t w then 1 else 0))) ∧
     (FreeWord s o 5 w t → o.fx = 1 → ends (.feq o) true x (some (if isFull t w then 1 else 0))) ∧
     (FreeWord s o 6 w t → o.fx = 2 → ends (.feq o) false x (some (if isFull t w then 1 else 0)))) ∧
  (∀ (o : FM) (s t : State) (w : Nat), s.waits = [] →
     let waits (i : Instr) (op : Nat) : Prop := ∃ u, exec i s = .next u ∧ u.mem = t.mem ∧ u.empties = t.empties ∧
       { u.me with leaf := s.me.leaf } = { s.me.addPend (fieldRegs 1 o.d) o.set true with st := .parked .fullEmpty } ∧
       u.waits = [⟨s.cur, w, FM.ea o s.me, op, s.me.sreg o.c, Reg.sIdx o.d⟩]
     (FreeWord s o 0 w t → isFull t w = false → waits (.ldfe o) 0) ∧
     (FreeWord s o 1 w t → isFull t w = false → waits (.ldff o) 1) ∧
     (FreeWord s o 2 w t → isFull t w = true → waits (.stef o) 2) ∧
     (FreeWord s o 3 w t → isFull t w = false → waits (.stff o) 3)) ∧
  (∀ (o : FM) (s t : State) (w : Nat), Key.isDevice w = false →
     let bit (u : State) (full : Bool) : State :=
       { u with empties := if full then Sorted.erase u.empties w else Sorted.insert u.empties w }
     let ends (i : Instr) (m : State) : Prop := ∃ u, exec i s = .next u ∧ u.mem = (feScan w t.waits m).mem ∧
       u.empties = (feScan w t.waits m).empties ∧ u.waits = (feScan w t.waits m).waits ∧
       u.me.pc = (feScan w t.waits m).me.advance.pc
     (FreeWord s o 0 w t → isFull t w = true → ends (.ldfe o) (bit t false)) ∧
     (FreeWord s o 2 w t → isFull t w = false →
       ends (.stef o) (bit (performWrite (cellsFor (keyRange w 8) (s.me.sreg o.c).toNat) t) true)) ∧
     (FreeWord s o (4 + o.fx.toNat) w t → (o.fx = 1 ∧ isFull t w = false) ∨ (o.fx = 2 ∧ isFull t w = true) →
       ends (.feq o) (bit t (o.fx = 1)))) ∧
  (∀ (w : Nat) (s : State), feScan w [] s = s) ∧
  (∀ (w : Nat) (e : WaitEntry) (l : List WaitEntry) (s : State),
     let holds : Bool := match e.op with | 0 => isFull s w | 1 => isFull s w | 2 => !isFull s w | 3 => isFull s w | _ => true
     ((e.word ≠ w ∨ holds = false) → feScan w (e :: l) s = feScan w l s) ∧
     ∀ (k : SlotKey) (v : Slot), e.word = w → holds = true → e.key = k → k.cid ≠ 0 → s.slotAt k = some v →
       v.st = .parked .fullEmpty → groupOf s k = none → Quiet s → s.Inv → w < 2 ^ 62 → e.op < 4 →
       let x := s.mem.read w 8
       let r := (if e.op < 2 then v.dropPend.putS (.s (Fin.ofNat 64 e.dest)) (BitVec.ofNat 64 x) else v.dropPend).unhold.advance
       ∃ u, feScan w (e :: l) s = feScan w l u ∧ u.waits = s.waits.erase e ∧
         u.mem = (if e.op < 2 then s.mem else s.mem.writeCells (cellsFor (keyRange w 8) e.data.toNat)) ∧
         (isFull u w = (e.op ≠ 0 : Bool)) ∧
         u.slotAt k = some { r with passed := false, retried := false, st := r.released })

/-- R106, R230: AMO and CAS return the former value and write the new one, as one step. R114, R152: the atomic at the head of a
word's queue applies its operation to memory, leaves the queue and completes at its slot, which takes the former value and
goes on. -/
def Obligations.Atomics : Prop :=
  (∀ (o : FM) (s t : State) (k : Nat) (a : Acc), Quiet s → Settled s.me → s.Inv → k < 2 ^ 62 → 2 ≤ o.w.toNat →
     homeRoom t (atomHome t (Key.word k)) = true →
     let b := if o.w = 3 then 8 else 4
     let n := 8 * b
     let m : BitVec n := BitVec.ofNat n (t.mem.read k b)
     let c := (s.me.sreg o.c).setWidth n
     let new : BitVec n := match o.aop.toNat with
       | 0 => m + c | 1 => m &&& c | 2 => m ||| c | 3 => m ^^^ c
       | 4 => if c.slt m then c else m | 5 => if m.slt c then c else m
       | 6 => if c.ult m then c else m | 7 => if m.ult c then c else m | 8 => c
       | _ => BitVec.ofNat n (fAdd (if o.w = 3 then .fp64 else .fp32) 0 m.toNat c.toNat).1
     let flags := if o.aop.toNat ≤ 8 then 0 else (fAdd (if o.w = 3 then .fp64 else .fp32) 0 m.toNat c.toNat).2
     let ends (i : Instr) (y : BitVec n) (fl : Nat) : Prop := ∃ u, exec i s = .next u ∧ u.mem.read k b = y.toNat ∧
       OnlyBytes (keyRange k b) t u ∧
       { u.me with leaf := s.me.leaf } =
         (((s.me.raise fl).putS o.d (m.signExtend 64)).addPend (fieldRegs 1 o.d) o.set).advance
     a.keys = keyRange k b →
     (o.aop.toNat ≤ 9 → (FM.ea o s.me).toNat % b = 0 →
       Reaches s (FM.ea o s.me) b .rmw (if o.aop = 0 ∨ o.aop = 8 then .amoAddSwap else .amoOther) t a →
       ends (.amo o) new flags) ∧
     (let ea := s.me.sreg o.a + o.imm.signExtend 64
      ea.toNat % b = 0 → Reaches s ea b .rmw .cas t a →
       ends (.cas o) (if m = (s.me.sreg o.b).setWidth n then c else m) 0)) ∧
  (∀ (s : State) (w : Nat) (q : AtomReq) (rest : List AtomReq) (k : SlotKey) (v : Slot), Quiet s → s.Inv →
     wordQueue s w = q :: rest → q.access = false → q.who = .slot k → lineOwner s w = none → q.addr < 2 ^ 62 →
     s.atomWait = [] → s.slotAt k = some v → v.st = .parked .atomic → groupOf s k = none →
     let f := q.fun
     let m := s.mem.read q.addr f.bytes
     let r := ((v.dropPend.raise (f.apply m).2).putS (.s (Fin.ofNat 64 q.dest)) (amoResult q.w8 m)).unhold.advance
     ∃ u, exec (.atomicReservationGrant w) s = .next u ∧ u.atoms = s.atoms.filter (· ≠ q) ∧
       u.mem.read q.addr f.bytes = ((f.apply m).1.getD m) % 256 ^ f.bytes ∧ OnlyBytes (keyRange q.addr f.bytes) s u ∧
       u.slotAt k = some { r with passed := false, retried := false, st := r.released })

/-- R7, R232 and the registers' own rules: the value that a write leaves, with reserved bits 0 and refused fields kept. R232: CRR
reads; CRW writes B, CRS sets and CRC clears the bits of B, and each returns the former value. R231, R232: in user mode a
hidden register, and a write of a read-only one, raises PRIVILEGE; in privileged mode the write raises ILLEGAL_INSTRUCTION. -/
def Obligations.ControlRegisterAccess : Prop :=
  (∀ (v : Slot) (x : Word),
     (writeCr v .vl x).vl = Nat.min x.toNat (Vt.vlmax v.vt) ∧ (writeCr v .fill x).fill = x ∧
     (writeCr v .rmode x).rmode = (if x.toNat ≤ 3 then x else v.rmode) ∧
     (∀ j, 6 ≤ j → (writeCr v .frm x).frm.getLsbD j = false) ∧
     (∀ j, 3 ≤ j → j ≤ 5 → (writeCr v .frm x).frm.getLsbD j = x.getLsbD j) ∧
     (writeCr v .frm x).frm.extractLsb' 0 3 = (if 6 ≤ (x.extractLsb' 0 3).toNat then v.frm else x).extractLsb' 0 3 ∧
     (writeCr v .fflags x).fflags = x &&& 31 ∧ (writeCr v .sat x).sat = x &&& 3 ∧
     (writeCr v .hmc x).hmc = x.setWidth 32 ∧ (writeCr v .epc x).epc = x &&& ~~~15#64 ∧
     (writeCr v .hbase x).hbase = x &&& ~~~15#64 ∧ (writeCr v .cause x).cause = x &&& 255 ∧
     (writeCr v .tval x).tval = x ∧ (writeCr v .tinfo x).tinfo = x &&& (if v.cause = 1 then 0xF3F
       else if v.cause = 3 ∨ v.cause = 4 ∨ v.cause = 5 then 0xFFFFFFFF0000CFFF else BitVec.allOnes 64) ∧
     (writeCr v .vt x).vt = (if vtRefused x then v.vt else x)) ∧
  (∀ (o : FS) (s : State) (r : CReg), o.a = .cr r →
     let old := readCr s r
     let b := s.me.sreg o.b
     ((crHidden r = false ∨ s.ctx.priv = true) → exec (.crr o) s = slotNext s fun v => v.result o.d old) ∧
     (crWritable r = true →
       exec (.crw o) s = slotNext s (fun v => (writeCr v r b).result o.d old) ∧
       exec (.crs o) s = slotNext s (fun v => (writeCr v r (old ||| b)).result o.d old) ∧
       exec (.crc o) s = slotNext s fun v => (writeCr v r (old &&& ~~~b)).result o.d old)) ∧
  (∀ (o : FS) (s : State) (r : CReg), o.a = .cr r →
     let traps (i : Instr) (code : Nat) : Prop := exec i s = .next (deliver { code := code, tv := (encode i).setWidth 64 } s)
     (crHidden r = true → s.ctx.priv = false → traps (.crr o) Cause.privilege) ∧
     (crWritable r = false → ∀ i ∈ [Instr.crw o, .crs o, .crc o],
       traps i (if s.ctx.priv then Cause.illegal else Cause.privilege)))

/-- R312: ERET goes to epc and clears the slot's reservations; registers and memory stay. R313: ICSYNC of no bytes does nothing
else; otherwise it discards the context's lines of the range, and a held loop. R25, R315: TLBINV discards the covered
translations of every core, grove and die, and the copies of a peer's lines that were reached by a covered page (a line that several
pages reached goes with any of them: log 34, DEDUCED); it goes on when no command and no access that has been translated uses
one, and else waits for TLBINV_COMPLETE, which lets it go on. -/
def Obligations.ReturnAndSync : Prop :=
  (∀ (o : FS) (s : State), s.me.sres = none → ∃ t, exec (.eret o) s = .next t ∧ t.me.pc = s.me.epc ∧
     (∀ r ∈ t.resvs, r.key ≠ s.cur) ∧ t.me.s = s.me.s ∧ t.me.v = s.me.v ∧ t.me.m = s.me.m ∧ t.me.epc = s.me.epc ∧
     t.me.cause = s.me.cause ∧ t.mem = s.mem ∧ (∀ h ∈ t.me.held, h.pc = s.me.epc ∧ h.live = true) ∧
     ∀ l, s.me.loop = some l → Slot.inBody l s.me.epc = false → t.me.loop = none) ∧
  (∀ (o : FS) (s : State), let a := s.me.sreg o.a; let n := s.me.sreg o.b
     (n = 0 → exec (.icsync o) s = slotNext s Slot.advance) ∧
     (n ≠ 0 → ∃ t, exec (.icsync o) s = .next t ∧ t.mem = s.mem ∧ t.me.s = s.me.s ∧
       (t.coreOf s.core).icache = (s.coreOf s.core).icache.filter (fun l => !(l.cid = s.cur.cid &&
         (65536 ≤ n.toNat || (l.va.toNat < a.toNat + n.toNat && a.toNat < l.va.toNat + 128)))) ∧
       ∀ l, t.me.loop = some l → l.active = true)) ∧
  (let gone (o : FS) (s u : State) : Prop := u.mem = s.mem ∧
     let start := (s.me.sreg o.a).toNat
     let stays (s : State) (l : CLine) : Bool := l.data.isNone || l.vas.all fun p => match o.sub.toNat with
       | 0 => !(p.1 == (s.me.sreg o.c).toNat && p.2.1 < start + (s.me.sreg o.b).toNat && start < p.2.1 + 2 ^ p.2.2)
       | 1 => p.1 != (s.me.sreg o.c).toNat % 256
       | _ => false
     (∀ c, (u.coreOf c).tlb = (s.coreOf c).tlb.filter (keepsLeaf o s.me) ∧
       (u.coreOf c).l1 = (s.coreOf c).l1.filter (stays s)) ∧
     (∀ g, (u.groveOf g).tlb = (s.groveOf g).tlb.filter (keepsLeaf o s.me) ∧
       (u.groveOf g).cache = (s.groveOf g).cache.filter (stays s)) ∧
     ∀ d, Tab.getD u.walks d [] = (Tab.getD s.walks d []).filter (keepsWalk o s.me)
   (∀ (o : FS) (s : State), s.ctx.priv = true → (o.sub.toNat < 2 → (s.me.sreg o.c).toNat < 256) →
     s.cmds = [] → accessesOpen o s = false →
     ∃ u, exec (.tlbinv o) s = .next u ∧ u.me = s.me.advance ∧ gone o s u) ∧
   (∀ (o : FS) (s : State), s.ctx.priv = false → exec (.tlbinv o) s =
     .next (deliver { code := Cause.privilege, tv := (encode (.tlbinv o)).setWidth 64 } s)) ∧
   ∀ (o : FS) (s : State) (ids : List Nat), s.me.rpend = some (.tlbinv o) → s.me.st = .parked .tlbinv → s.me.swWait = false →
     coreOfSlot s s.cur = s.core → (s.tlbinvs.find? (·.1 = s.cur)) = some (s.cur, ids) → s.cmds = [] →
     accessesOpen o s = false → leadGroup s = none →
     ∃ u, exec (.tlbinvComplete s.cur) s = .next u ∧ u.me.st = .ready ∧ u.me.pc = s.me.advance.pc ∧ u.me.rpend = none ∧
       (∀ e ∈ u.tlbinvs, e.1 ≠ s.cur) ∧ gone o s u)

/-- R156, R157, R314: SLOTW reads 32 aligned bytes; a table in which some slot comes back within 4 entries raises
SLOT_TABLE_INVALID, and any other waits for the pointer to wrap. The port refuses and takes the same tables. -/
def Obligations.SlotTables : Prop :=
  (∀ (o : FS) (s t : State) (a : Acc), s.ctx.priv = true → Quiet s → NoHeldStores s.me →
    (s.me.sreg o.a).toNat % 32 = 0 → Reaches s (s.me.sreg o.a) 32 .load .load t a → a.ca = [] →
    let x := ofBytes (a.keys.map t.mem.byte)
    let w (i : Nat) : Word := BitVec.ofNat 64 (x / 2 ^ (64 * i))
    let tab : Vector Word 4 := #v[w 0, w 1, w 2, w 3]
    (badEntry tab = none → ∃ u, exec (.slotw o) s = .next u ∧ u.me = s.me.advance ∧ u.mem = t.mem ∧
      (u.coreOf s.core).newTab = some (tableImage tab)) ∧
    ∀ e, badEntry tab = some e → s.me.hbase ≠ 0 → ∃ u, exec (.slotw o) s = .next u ∧ u.me.cause = 0x10 ∧
      u.me.tval = BitVec.ofNat 64 e ∧ (u.coreOf s.core).newTab = (s.coreOf s.core).newTab) ∧
  (∀ (o : FS) (s : State), s.ctx.priv = false → exec (.slotw o) s =
    .next (deliver { code := Cause.privilege, tv := (encode (.slotw o)).setWidth 64 } s)) ∧
  ∀ (c : Nat) (t0 t1 t2 t3 : Word) (s : State), let tab : Vector Word 4 := #v[t0, t1, t2, t3]
    ∃ u, exec (.slotTablePortWrite c t0 t1 t2 t3) s = .next u ∧ u.me = s.me ∧ u.mem = s.mem ∧
      (u.coreOf c).newTab = (if badEntry tab = none then some (tableImage tab) else (s.coreOf c).newTab) ∧
      u.outbox = s.outbox ++ [.slotTable c (if badEntry tab = none then 0 else 0x10)]

/-- R154 to R157, R233: an entry that names no slot which can issue passes the cycle on; a new table takes effect at entry 0.
R155, R204: a READY slot that the pointer's entry names issues the instruction that its word decodes to. R204: a word that does
not decode takes ILLEGAL_INSTRUCTION, and one with a privileged OP in user mode PRIVILEGE, before it is decoded further, with the low
64 bits of the word in tval. R158, R200: a slot whose WAIT names a counter that is not zero, or whose SET counter is full, issues
nothing and stays READY; one whose instruction reads a pending register is parked and counts a hint miss. R158, R200: a result
returns: its registers leave the list and its counter falls; the rules give no order, and the model takes the oldest that neither a
parked instruction nor a stream-queue load waits for (log 8), whose value its register holds already (log 3, both DEDUCED). A slot parked on a hazard is READY again once no register that its instruction reads is pending, and one parked by a switch
marker with the last result. -/
def Obligations.SlotIssue : Prop :=
  (∀ (core : Nat) (s : State),
     let c := takeTable (s.coreOf core)
     (entrySlot s core c = none ∨
       (∃ k r n v, entrySlot s core c = some (k, r, n) ∧ s.slotAt k = some v ∧ v.yld = 0 ∧ v.st ≠ .ready) →
       ∃ u, exec (.slotIssue core) s = .next u ∧ u.me = s.me ∧ u.slots = s.slots ∧ u.mem = s.mem ∧ u.issue = s.issue ∧
         (u.coreOf core).ptr = ((s.coreOf core).ptr + 1) % 32 ∧ (u.coreOf core).cyc = (s.coreOf core).cyc + 1 ∧
         (u.coreOf core).tab = c.tab) ∧
     (∀ k r n v, entrySlot s core c = some (k, r, n) → s.slotAt k = some v → v.yld ≠ 0 →
       ∃ u, exec (.slotIssue core) s = .next u ∧ u.slotAt k = some { v with yld := v.yld - 1 } ∧ u.mem = s.mem ∧ u.issue = s.issue) ∧
     exec (.slotTableTakeEffect core) s = .next (s.mapCore core fun x => c) ∧
     (∀ t, (s.coreOf core).newTab = some t → (s.coreOf core).ptr = 0 → c.tab = t ∧ c.newTab = none) ∧
     ((s.coreOf core).ptr ≠ 0 → c = s.coreOf core)) ∧
  (∀ (core : Nat) (s t : State) (k : SlotKey) (r n : Nat) (v : Slot) (i : Instr),
     let s' := s.mapCore core fun _ => takeTable (s.coreOf core)
     entrySlot s' core (takeTable (s.coreOf core)) = some (k, r, n) → s'.slotAt k = some v → v.st = .ready → v.yld = 0 →
     (s.ctxOf k.cid).stopping = false → Issues (s'.focus k core) i t →
     ∃ u h, exec (.slotIssue core) s = .next u ∧ instrHdr i = some h ∧ u.issue = some i ∧ u.cur = t.cur ∧ u.mem = t.mem ∧
       u.me = { t.me.dropPend with yld := h.y.toNat, swWait := h.sw }) ∧
  (∀ (core : Nat) (s t : State) (k : SlotKey) (r n : Nat) (v : Slot) (w : IWord),
     let s' := s.mapCore core fun _ => takeTable (s.coreOf core)
     entrySlot s' core (takeTable (s.coreOf core)) = some (k, r, n) → s'.slotAt k = some v → v.st = .ready → v.yld = 0 →
     (s.ctxOf k.cid).stopping = false → Reports (s'.focus k core) = false → fetchNext (s'.focus k core) = .ok w t → t.issue = none →
     t.cur = k →
     let shown : Bool := w != 0 && w != BitVec.allOnes 128 && opAssigned (wordOp w).toNat
     let refused (code : Nat) : Prop := t.me.hbase ≠ 0 → ∃ u, exec (.slotIssue core) s = .next u ∧ u.issue = none ∧ u.cur = k ∧
       u.mem = t.mem ∧ u.me.pc = t.me.hbase ∧ u.me.cause = BitVec.ofNat 64 code ∧ u.me.tval = w.setWidth 64 ∧ u.me.tinfo = 0 ∧
       u.me.epc = t.me.pc &&& ~~~15#64 ∧ u.me.s = t.me.s ∧ u.me.v = t.me.v ∧ u.me.m = t.me.m
     (shown = false → refused 1) ∧
     (shown = true → opPrivileged (wordOp w).toNat = true → t.ctx.priv = false → refused 2) ∧
     (shown = true → (opPrivileged (wordOp w).toNat = false ∨ t.ctx.priv = true) → (∀ i, decode w ≠ .ok i) → refused 1) ∧
     ∀ i h, shown = true → decode w = .ok i → (opPrivileged (wordOp w).toNat = false ∨ t.ctx.priv = true) →
       instrHdr i = some h → [h.d, h.a, h.b, h.c].any (beyond t.ctx.part) = false →
       let waits : Prop := (∃ c : Fin 6, h.wait.getLsbD c = true ∧ t.me.dropPend.sb[c] ≠ 0) ∨ ∃ c : Fin 6, h.set = some c ∧ t.me.dropPend.sb[c] = 63
       (waits → ∃ u, exec (.slotIssue core) s = .next u ∧ u.issue = none ∧ u.mem = t.mem ∧ u.me = { t.me with cut := none }) ∧
       (¬waits → (∃ r ∈ readRegs t.me.vt t.me.fmt.spa i, ∃ p ∈ t.me.pend, r ∈ p.regs) →
         ∃ u, exec (.slotIssue core) s = .next u ∧ u.issue = none ∧ u.mem = t.mem ∧ u.me.st = .parked .hazard ∧ u.me.pc = t.me.pc ∧
           u.me.awaits = readRegs t.me.vt t.me.fmt.spa i ∧
           u.me.hmc = (if t.me.hmc = BitVec.allOnes 32 then t.me.hmc else t.me.hmc + 1))) ∧
  (∀ (s : State) (k : SlotKey) (v : Slot) (p : Pend), s.slotAt k = some v →
     v.pend.find? (fun p => !p.parked && p.entry.isNone) = some p →
     let left := v.pend.erase p
     ∃ u w, exec (.longLatencyResultReturn k) s = .next u ∧ u.slotAt k = some w ∧ w.pend = left ∧ w.s = v.s ∧ u.mem = s.mem ∧
       (∀ i : Fin 6, p.set = some i → w.sb[i] = v.sb[i] - 1) ∧
       (v.st = .parked .hazard → w.st = if v.awaits.any (fun r => left.any fun p => p.regs.contains r) then .parked .hazard else .ready) ∧
       (v.st = .parked .switchMarker → w.st = if left = [] then .ready else .parked .switchMarker))

/-- R155: a step in which a core latches an instruction runs that instruction's meaning on the state of the latch, and then what
follows an issued instruction (R158, R242, R351, R356); one that a stop request reaches runs up to a group or row (R291,
R346). -/
def Obligations.StepRunsDecoded : Prop :=
  ∀ (s s1 s2 : State) (core : Nat) (i : Instr), nextMove s = (.slotIssue core, s1) → exec (.slotIssue core) s1 = .next s2 →
    s2.issue = some i →
    let runs (o : Out) : Prop := step s = (match o with
      | .next u => .next (afterIssue i s2 u)
      | .fault r => .fault r
      | .refused r => .refused r)
    runs (cutRun (exec i) i { s2 with issue := none }) ∧ (s2.me.cut = none → runs (exec i { s2 with issue := none }))

/-- R123, R204: the instruction word is the 16 bytes of memory at the translated address, lowest byte first, when the instruction
cache does not hold its line. -/
def Obligations.FetchReadsMemory : Prop :=
  ∀ (s t : State) (va : Word) (f : Bool) (a : Acc), Quiet s → va.toNat % 16 = 0 →
    (∀ l ∈ (s.coreOf s.core).icache, ¬(l.cid = s.cur.cid ∧ l.va = va &&& ~~~0x7F#64)) →
    resolve s (slotReq s) va 16 .fetch .fetch = (t, .ok a) → busyWhy t [Key.line ((a.keys.head?).getD 0)] = none →
    ((a.keys.head?).getD 0) % 128 = va.toNat % 128 →
    ∃ u, fetchWord va f s = .ok (BitVec.ofNat 128 (t.mem.read ((a.keys.head?).getD 0) 16)) u ∧ u.mem = t.mem ∧ u.me = s.me

/-- R241, R243, R245, R247: the integer instructions compute each active element below vl at width n from A and B, and VCMP a
mask bit; the other elements, registers and memory follow R241. R238, R242, R244: SETVT refuses a reserved type with 0 in D;
else it writes vt and gives VLMAX, clipping vl, and a change of LP zeroes the vector registers and vl. SETVL takes the
smaller of the request and VLMAX. -/
def Obligations.VectorIntegers : Prop :=
  (∀ (o : FX) (s : State),
     let n := Vt.sew s.me.vt
     let g := Vt.grp s.me.vt
     let act (k : Nat) : Bool := (activeMask o.toHdr s.me).getLsbD k
     let x (k : Nat) : BitVec n := BitVec.ofNat n (vecSrc s.me [] o.a g n k)
     let y (k : Nat) : BitVec n := if o.im then (o.imm.signExtend 64).setWidth n else BitVec.ofNat n (vecSrc s.me [o.a] o.b g n k)
     let z (k : Nat) : BitVec n := BitVec.ofNat n (vecSrc s.me [] o.d g n k)
     let wide (signed : Bool) (u : BitVec n) : BitVec (2 * n) := if signed then u.signExtend (2 * n) else u.setWidth (2 * n)
     let ends (i : Instr) (r : Nat → BitVec n) : Prop := ∀ d : Fin 32, o.d = .v d →
       ∃ t, exec i s = .next t ∧ VecEnd s t d g n [o.a, o.b] act fun k => (r k).toNat
     let holds (u v : BitVec n) : Bool := match o.sub.toNat with
       | 0 => u == v | 1 => u != v | 2 => u.slt v | 3 => !u.slt v | 4 => u.ult v | _ => !u.ult v
     VecReady s o g g g 1 →
     ends (.vadd o) (fun k => x k + y k) ∧ ends (.vsub o) (fun k => x k - y k) ∧ ends (.vmul o) (fun k => x k * y k) ∧
     ends (.vmulh o) (fun k => (wide (o.sub != 1) (x k) * wide (o.sub == 0) (y k)).extractLsb' n n) ∧
     ends (.vmacc o) (fun k => z k + x k * y k) ∧
     ends (.vmin o) (fun k => if (if o.sub = 1 then (y k).ult (x k) else (y k).slt (x k)) then y k else x k) ∧
     ends (.vmax o) (fun k => if (if o.sub = 1 then (x k).ult (y k) else (x k).slt (y k)) then y k else x k) ∧
     ends (.vand o) (fun k => x k &&& y k) ∧ ends (.vor o) (fun k => x k ||| y k) ∧ ends (.vxor o) (fun k => x k ^^^ y k) ∧
     ends (.vshl o) (fun k => x k <<< ((y k).toNat % n)) ∧ ends (.vshr o) (fun k => x k >>> ((y k).toNat % n)) ∧
     ends (.vsra o) (fun k => (x k).sshiftRight ((y k).toNat % n)) ∧
     ends (.vmerge o) (fun k => if (s.me.mreg o.c).getLsbD k then x k else y k) ∧
     ends (.vmv o) (fun k => if o.im then y k else x k) ∧
     ∀ d : Fin 8, o.d = .m d → ∃ t, exec (.vcmp o) s = .next t ∧ MaskEnd s t d [o.a, o.b] act fun k => holds (x k) (y k)) ∧
  (∀ (o : FX) (s : State),
     let x : Word := if o.im then o.imm.setWidth 64 else s.me.sreg o.a
     let sew (t : Word) : Nat := 8 * 2 ^ (t.toNat % 4)
     let grp (t : Word) : Nat := 2 ^ (t.toNat / 4 % 4)
     let most (t : Word) : Nat := min (4096 * grp t / sew t) 512 / (if t.getLsbD 7 then 2 else 1)
     let bad : Prop := x.toNat / 256 ≠ 0 ∨ x.toNat / 16 % 4 ≠ 0 ∨ x.toNat / 4 % 4 = 3
     (bad → exec (.setvt o) s = slotNext s fun v => v.result o.d 0) ∧
     (¬bad → ∃ t, exec (.setvt o) s = .next t ∧ t.mem = s.mem ∧ t.me.vt = x ∧ t.me.pc = s.me.advance.pc ∧
       t.me.m = s.me.m ∧ (∀ k, o.d = .s k → k ≠ 0 → t.me.getS k = BitVec.ofNat 64 (most x)) ∧
       (∀ k, o.d ≠ .s k → t.me.getS k = s.me.getS k) ∧
       (if x.getLsbD 7 = s.me.vt.getLsbD 7 then t.me.vl = min s.me.vl (most x) ∧ t.me.v = s.me.v
        else t.me.vl = 0 ∧ ∀ k : Fin 32, t.me.v[k] = 0)) ∧
     exec (.setvl o) s = slotNext s fun v =>
       ({ v with vl := min x.toNat (most v.vt) } : Slot).result o.d (BitVec.ofNat 64 (min x.toNat (most v.vt))))

/-- R239, R246, R248, R249: the saturating instructions clamp the exact value, the narrowing shift rounds it by rmode first, and
sat.SAT is set when a clamp changes an active element. -/
def Obligations.VectorSaturating : Prop :=
  ∀ (o : FX) (s : State) (d : Fin 32), o.d = .v d →
    let n := Vt.sew s.me.vt
    let g := Vt.grp s.me.vt
    let act (k : Nat) : Bool := (activeMask o.toHdr s.me).getLsbD k
    let num (signed : Bool) (w x : Nat) : Int := if signed then (BitVec.ofNat w x).toInt else (x % 2 ^ w : Nat)
    let low (signed : Bool) (w : Nat) : Int := if signed then -(2 : Int) ^ (w - 1) else 0
    let high (signed : Bool) (w : Nat) : Int := (2 : Int) ^ (if signed then w - 1 else w) - 1
    let y (k : Nat) : Nat := if o.im then ((o.imm.signExtend 64).setWidth n).toNat else vecSrc s.me [o.a] o.b g n k
    let ends (i : Instr) (gd w : Nat) (signed : Bool) (e : Nat → Int) : Prop :=
      let c (k : Nat) : Int := max (low signed w) (min (high signed w) (e k))
      ∃ t, exec i s = .next t ∧ VecEnd s t d gd w [o.a, o.b] act (fun k => (BitVec.ofInt w (c k)).toNat) ∧
        (t.me.sat.getLsbD 0 = true ↔ s.me.sat.getLsbD 0 = true ∨ ∃ k, k < s.me.vl ∧ act k = true ∧ c k ≠ e k)
    let x (k : Nat) : Nat := vecSrc s.me [] o.a g n k
    let sx : Bool := o.sub == 0
    (VecReady s o g g g 1 →
      ends (.vsadd o) g n sx (fun k => num sx n (x k) + num sx n (y k)) ∧
      ends (.vssub o) g n sx (fun k => num sx n (x k) - num sx n (y k))) ∧
    (n ≠ 64 → VecReady s o (2 * g) g g 1 → ends (.vwmacc o) (2 * g) (2 * n) (o.sub != 1)
      (fun k => num (o.sub != 1) (2 * n) (vecSrc s.me [] o.d (2 * g) (2 * n) k) + num (o.sub != 1) n (x k) * num sx n (y k))) ∧
    (n ≠ 64 → VecReady s o g (2 * g) g 1 → ends (.vnshr o) g n sx fun k =>
      let v := num sx (2 * n) (vecSrc s.me [] o.a (2 * g) (2 * n) k)
      let b : Int := (2 : Int) ^ (y k % (2 * n))
      let near := (2 * v + b) / (2 * b)
      match s.me.rmode.toNat % 4 with
      | 0 => near
      | 1 => if (2 * v + b) % (2 * b) = 0 ∧ near % 2 = 1 then near - 1 else near
      | 2 => v / b
      | _ => if v % b ≠ 0 ∧ v / b % 2 = 0 then v / b + 1 else v / b)

/-- R250, R251: without an enabled exception every active element below vl gets its rounded result, and fflags the OR of the
active elements' flags; VFCMP gives mask bits. R253: VFCVT converts each active element from its source to its destination
format, within the limits on vl; RM 6 takes random bits from C. Elements that LP leaves without architectural bits are free
values (log 27). -/
def Obligations.VectorFloats : Prop :=
  (∀ (o : FX) (s : State) (f : Fmt), vfFmt s.me.vt o.fc.toNat = some f →
     let g := Vt.grp s.me.vt
     let act (k : Nat) : Bool := (activeMask o.toHdr s.me).getLsbD k
     let m := rmMode s.me o.rm
     let a (k : Nat) : Nat := vecSrc s.me [] o.a g f.width k
     let b (k : Nat) : Nat := vecSrc s.me [o.a] o.b g f.width k
     let c (k : Nat) : Nat := vecSrc s.me [o.a, o.b] o.c g f.width k
     let quiet (fl : Nat → Nat) : Prop := ∀ k, k < s.me.vl → act k = true → fpCause s.me.frm (fl k) = none
     let flags (fl : Nat → Nat) : Word := s.me.fflags |||
       BitVec.ofNat 64 (((List.range s.me.vl).filter act).foldl (fun x k => x ||| fl k) 0)
     let ends (i : Instr) (r : Nat → Nat × Nat) : Prop := ∀ d : Fin 32, o.d = .v d → quiet (fun k => (r k).2) →
       ∃ t, exec i s = .next t ∧ VecEnd s t d g f.width [o.a, o.b, o.c] act (fun k => (r k).1) ∧
         t.me.fflags = flags fun k => (r k).2
     VecReady s o g g g g →
     ends (.vfadd o) (fun k => fAdd f m (a k) (b k)) ∧ ends (.vfsub o) (fun k => fSub f m (a k) (b k)) ∧
     ends (.vfmul o) (fun k => fMul f m (a k) (b k)) ∧ ends (.vfma o) (fun k => fMa f m (a k) (b k) (c k)) ∧
     ends (.vfdiv o) (fun k => fDiv f m (a k) (b k)) ∧ ends (.vfsqrt o) (fun k => fSqrt f m (a k)) ∧
     ends (.vfmin o) (fun k => fMinMax f false (a k) (b k)) ∧ ends (.vfmax o) (fun k => fMinMax f true (a k) (b k)) ∧
     (f.width ≠ 64 → ends (.vfexp2 o) (fun k => fExp2 f m (a k)) ∧ ends (.vflog2 o) (fun k => fLog2 f m (a k)) ∧
       ends (.vfrsq o) (fun k => fRsq f m (a k)) ∧ ends (.vfrcp o) (fun k => fDiv f m (f.bias * 2 ^ f.mb) (a k)) ∧
       ends (.vftanh o) (fun k => fTanh f m (a k))) ∧
     ∀ d : Fin 8, o.d = .m d → quiet (fun k => (fCmp f o.sub.toNat (a k) (b k)).2) →
       ∃ t, exec (.vfcmp o) s = .next t ∧ MaskEnd s t d [o.a, o.b] act (fun k => (fCmp f o.sub.toNat (a k) (b k)).1) ∧
         t.me.fflags = flags fun k => (fCmp f o.sub.toNat (a k) (b k)).2) ∧
  (∀ (o : FX) (s : State) (d : Fin 32) (src dst : NumFmt), o.d = .v d → numFmt o.sub.toNat = some src →
     numFmt o.fc.toNat = some dst →
     let g := Vt.grp s.me.vt
     let act (k : Nat) : Bool := (activeMask o.toHdr s.me).getLsbD k
     let sr : Bool := o.rm == 6
     let get (w k x : Nat) : Nat :=
       if (k + 1) * w ≤ Vt.regBits s.me.vt * g then x else (Config.freeWord (s.free + k)).toNat % 2 ^ w
     let r (k : Nat) : Nat × Nat := convert src dst (if sr then 6 else rmMode s.me o.rm)
       (get 32 k (if sr then vecSrc s.me [o.a] o.c g 32 k else 0)) (get src.width k (vecSrc s.me [] o.a g src.width k))
     VecReady s o g g 1 g →
     s.me.vl * max src.width dst.width ≤ 4096 * g → (sr = true → s.me.vl ≤ 128 * g) →
     SourceReady s.me [o.a] o.c →
     (∀ k, k < s.me.vl → act k = true → fpCause s.me.frm (r k).2 = none) →
     ∃ t, exec (.vfcvt o) s = .next t ∧ VecEnd s t d g dst.width [o.a, o.c] act (fun k => (r k).1) ∧
       t.me.fflags = s.me.fflags ||| BitVec.ofNat 64 (((List.range s.me.vl).filter act).foldl (fun x k => x ||| (r k).2) 0))

/-- R252: at the lowest active element with an enabled exception, the elements below it are written, that element and those above
stay, the flags up to it are raised, and the trap names it: the arithmetic, the special functions, the comparisons and VFCVT,
where elements that LP leaves without architectural bits are free values (log 27). -/
def Obligations.VectorFloatTrap : Prop :=
  let trapped (s t : State) (act : Nat → Bool) (j c : Nat) (fl : Nat → Nat) : Prop :=
    t.mem = s.mem ∧ t.me.s = s.me.s ∧ t.me.q = s.me.q ∧ t.me.vl = s.me.vl ∧ t.me.pc = s.me.hbase ∧
    t.me.epc = s.me.pc &&& ~~~15#64 ∧ t.me.cause = BitVec.ofNat 64 c ∧ t.me.tval = 0 ∧
    t.me.tinfo = BitVec.ofNat 64 (j * 2 ^ 48 + fl j) ∧
    t.me.fflags = s.me.fflags ||| BitVec.ofNat 64 (((List.range (j + 1)).filter act).foldl (fun x k => x ||| fl k) 0)
  let group (s t : State) (d : Fin 32) (g w : Nat) (act : Nat → Bool) (j : Nat) (val : Nat → Nat) : Prop := t.me.m = s.me.m ∧
    (∀ k : Fin 32, k.val < d.val ∨ d.val + g ≤ k.val → t.me.v[k] = s.me.v[k]) ∧
    ∀ k, k < Vt.regBits s.me.vt * g / w → vecSrc t.me [] (.v d) g w k =
      (if k < j ∧ act k = true then val k % 2 ^ w else vecSrc s.me [] (.v d) g w k)
  (∀ (o : FX) (s : State) (f : Fmt) (j c : Nat), vfFmt s.me.vt o.fc.toNat = some f →
    let g := Vt.grp s.me.vt
    let act (k : Nat) : Bool := (activeMask o.toHdr s.me).getLsbD k
    let m := rmMode s.me o.rm
    let x (k : Nat) : Nat := vecSrc s.me [] o.a g f.width k
    let y (k : Nat) : Nat := vecSrc s.me [o.a] o.b g f.width k
    let z (k : Nat) : Nat := vecSrc s.me [o.a, o.b] o.c g f.width k
    let lowest (fl : Nat → Nat) : Prop := (∀ k, k < j → act k = true → fpCause s.me.frm (fl k) = none) ∧
      fpCause s.me.frm (fl j) = some c
    let traps (i : Instr) (r : Nat → Nat × Nat) : Prop := ∀ d : Fin 32, o.d = .v d → lowest (fun k => (r k).2) →
      ∃ t, exec i s = .next t ∧ trapped s t act j c (fun k => (r k).2) ∧ group s t d g f.width act j fun k => (r k).1
    VecReady s o g g g g → s.me.hbase ≠ 0 → j < s.me.vl → act j = true →
    traps (.vfadd o) (fun k => fAdd f m (x k) (y k)) ∧ traps (.vfsub o) (fun k => fSub f m (x k) (y k)) ∧
    traps (.vfmul o) (fun k => fMul f m (x k) (y k)) ∧ traps (.vfma o) (fun k => fMa f m (x k) (y k) (z k)) ∧
    traps (.vfdiv o) (fun k => fDiv f m (x k) (y k)) ∧ traps (.vfsqrt o) (fun k => fSqrt f m (x k)) ∧
    traps (.vfmin o) (fun k => fMinMax f false (x k) (y k)) ∧ traps (.vfmax o) (fun k => fMinMax f true (x k) (y k)) ∧
    (f.width ≠ 64 → traps (.vfexp2 o) (fun k => fExp2 f m (x k)) ∧ traps (.vflog2 o) (fun k => fLog2 f m (x k)) ∧
      traps (.vfrsq o) (fun k => fRsq f m (x k)) ∧ traps (.vfrcp o) (fun k => fDiv f m (f.bias * 2 ^ f.mb) (x k)) ∧
      traps (.vftanh o) (fun k => fTanh f m (x k))) ∧
    ∀ d : Fin 8, o.d = .m d → d ≠ 0 →
      let r (k : Nat) : Bool × Nat := fCmp f o.sub.toNat (x k) (y k)
      lowest (fun k => (r k).2) → ∃ t, exec (.vfcmp o) s = .next t ∧ trapped s t act j c (fun k => (r k).2) ∧
        t.me.v = s.me.v ∧ (∀ k, k ≠ d → t.me.getM k = s.me.getM k) ∧
        ∀ k, k < 512 → (t.me.getM d).getLsbD k = (if k < j ∧ act k = true then (r k).1 else (s.me.getM d).getLsbD k)) ∧
  (∀ (o : FX) (s : State) (d : Fin 32) (src dst : NumFmt) (j c : Nat), o.d = .v d → numFmt o.sub.toNat = some src →
    numFmt o.fc.toNat = some dst →
    let g := Vt.grp s.me.vt
    let act (k : Nat) : Bool := (activeMask o.toHdr s.me).getLsbD k
    let sr : Bool := o.rm == 6
    let get (w k x : Nat) : Nat :=
      if (k + 1) * w ≤ Vt.regBits s.me.vt * g then x else (Config.freeWord (s.free + k)).toNat % 2 ^ w
    let r (k : Nat) : Nat × Nat := convert src dst (if sr then 6 else rmMode s.me o.rm)
      (get 32 k (if sr then vecSrc s.me [o.a] o.c g 32 k else 0)) (get src.width k (vecSrc s.me [] o.a g src.width k))
    VecReady s o g g 1 g → SourceReady s.me [o.a] o.c → s.me.vl * max src.width dst.width ≤ 4096 * g →
    (sr = true → s.me.vl ≤ 128 * g) → s.me.hbase ≠ 0 → j < s.me.vl → act j = true →
    (∀ k, k < j → act k = true → fpCause s.me.frm (r k).2 = none) → fpCause s.me.frm (r j).2 = some c →
    ∃ t, exec (.vfcvt o) s = .next t ∧ trapped s t act j c (fun k => (r k).2) ∧ group s t d g dst.width act j fun k => (r k).1)

/-- R271, R273, R274: gathers by index, slides, broadcast, expand, rank and conflict counts write each active element below vl; a
lane at or beyond vl reads as fill. VCOMPR packs the active elements at the front. -/
def Obligations.VectorPermute : Prop :=
  ∀ (o : FX) (s : State),
    let v := s.me
    let n := Vt.sew v.vt
    let g := Vt.grp v.vt
    let act (k : Nat) : Bool := (activeMask o.toHdr v).getLsbD k
    let a (k : Nat) : Nat := vecSrc v [] o.a g n k
    let lane (k : Nat) : Nat := if k < v.vl then a k else v.fill.toNat
    let live : List Nat := (List.range v.vl).filter act
    let rank (k : Nat) : Nat := (live.filter (· < k)).length
    let same (k : Nat) : Nat := (live.filter fun j => decide (j < k) && a j == a k).length
    let by' := (v.sreg o.b).toNat
    VecReady s o g g g 1 →
    (∀ d : Fin 32, o.d = .v d →
      (let ends (i : Instr) (r : Nat → Nat) : Prop := ∃ t, exec i s = .next t ∧ VecEnd s t d g n [o.a, o.b] act r
       ends (.vperm o) (fun k => lane (vecSrc v [o.a] o.b g n k)) ∧
       ends (.vslide o) (fun k => if o.sub = 0 then (if k < by' then v.fill.toNat else lane (k - by')) else lane (k + by')) ∧
       ends (.vbcast o) (fun _ => lane by') ∧ ends (.vexpnd o) (fun k => lane (rank k)) ∧ ends (.viota o) rank) ∧
      (o.sub ≠ 0 → ∃ t, exec (.vconfl o) s = .next t ∧ VecEnd s t d g n [o.a] act same) ∧
      ∃ t, exec (.vcompr o) s = .next t ∧ VecEnd s t d g n [o.a] (fun k => decide (k < live.length) || Vt.tail v.vt)
        fun k => match live[k]? with | some j => a j | none => v.fill.toNat) ∧
    ∀ d : Fin 8, o.d = .m d → o.sub = 0 → ∃ t, exec (.vconfl o) s = .next t ∧
      MaskEnd s t d [o.a] act fun k => decide (same k ≠ 0)

/-- R272: an integer reduction writes the fold of the active elements, from element 0 of B on, to element 0 of D, in both forms;
a floating-point one folds in order or as a tree, and raises its flags. A scan writes every prefix. R278: the mask operations
work on whole registers; MPOPC counts and MFIRST finds the lowest one bit below vl. -/
def Obligations.ReductionsAndMasks : Prop :=
  (∀ (o : FX) (s : State) (d : Fin 32), o.d = .v d →
     let v := s.me
     let n := Vt.sew v.vt
     let g := Vt.grp v.vt
     let act (k : Nat) : Bool := (activeMask o.toHdr v).getLsbD k
     let a (k : Nat) : Nat := vecSrc v [] o.a g n k
     let b : Nat := vecSrc v [o.a] o.b g n 0
     let live : List Nat := (List.range v.vl).filter act
     let int (x y : BitVec n) : BitVec n := match o.sub.toNat with
       | 0 => x + y | 1 => x &&& y | 2 => x ||| y | 3 => x ^^^ y
       | 4 => if y.slt x then y else x | 5 => if x.slt y then y else x
       | 6 => if y.ult x then y else x | _ => if x.ult y then y else x
     let total (l : List Nat) : BitVec n := l.foldl (fun x k => int x (BitVec.ofNat n (a k))) (BitVec.ofNat n b)
     let first (t : State) (x : Nat) : Prop := t.me.pc = v.advance.pc ∧ t.mem = s.mem ∧ SameControl v t.me ∧ t.me.s = v.s ∧
       (∀ k, k < Vt.regBits v.vt * g / n → vecSrc t.me [] o.d g n k =
         (if v.vl ≠ 0 ∧ k = 0 then x % 2 ^ n else vecSrc v [] o.d g n k)) ∧
       ∀ k : Fin 32, k.val < d.val ∨ d.val + g ≤ k.val → t.me.v[k] = v.v[k]
     VecReady s o g g g 1 →
     (o.fx.getLsbD 0 = false →
       (∃ t, exec (.vred o) s = .next t ∧ first t (total live).toNat ∧ t.me.fflags = v.fflags) ∧
       ∃ t, exec (.vscan o) s = .next t ∧
         VecEnd s t d g n [o.a, o.b] act (fun k => (total (live.filter (· ≤ k))).toNat)) ∧
     ∀ f, o.fx.getLsbD 0 = true → vfFmt v.vt o.fc.toNat = some f →
       let step := redStep (some f) (rmMode v o.rm) o.sub.toNat n
       let line (l : List Nat) : Nat × Nat := l.foldl (fun x k => ((step x.1 (a k)).1, x.2 ||| (step x.1 (a k)).2)) (b, 0)
       let tree : Nat × Nat := match redTree step live.length (live.map a) 0 with
         | (x :: _, fl) => ((step b x).1, fl ||| (step b x).2)
         | ([], fl) => (b, fl)
       let r := if o.fx.getLsbD 1 then tree else line live
       (fpCause v.frm r.2 = none →
         ∃ t, exec (.vred o) s = .next t ∧ first t r.1 ∧ t.me.fflags = v.fflags ||| BitVec.ofNat 64 r.2) ∧
       ((∀ l, l ≠ [] → l <+: live → fpCause v.frm (step (line l.dropLast).1 (a (l.getLast?.getD 0))).2 = none) →
         ∃ t, exec (.vscan o) s = .next t ∧
           VecEnd s t d g n [o.a, o.b] act (fun k => (line (live.filter (· ≤ k))).1) ∧
           t.me.fflags = v.fflags ||| BitVec.ofNat 64 (line live).2)) ∧
  (∀ (o : FX) (s : State),
     let v := s.me
     let a := v.mreg o.a
     let b := v.mreg o.b
     let ends (i : Instr) (w : Slot) : Prop := ∃ t, exec i s = .next t ∧ t.mem = s.mem ∧
       t.me = (w.addPend (fieldRegs 1 o.d) o.set).advance
     (∀ d, o.d = .m d → ends (.mand o) (v.setM d (a &&& b)) ∧ ends (.mor o) (v.setM d (a ||| b)) ∧
       ends (.mxor o) (v.setM d (a ^^^ b)) ∧ ends (.mnot o) (v.setM d (~~~a))) ∧
     (ends (.mpopc o) (v.putS o.d (BitVec.ofNat 64 ((List.range v.vl).filter fun k => a.getLsbD k).length)) ∧
       ends (.mfirst o) (v.putS o.d (match (List.range v.vl).find? fun k => a.getLsbD k with
         | some k => BitVec.ofNat 64 k
         | none => BitVec.allOnes 64))))

/-- R275: VSPK keeps of each four elements the two of the highest rank (active over inactive, then magnitude with a NaN above
all, then the lower index), in index order, and writes their indices as metadata. R277: VPACK narrows the active elements
into a stream of w-bit fields, wrapping or clamping, and clears what follows under TAIL; its unpacking forms extend fields to
elements. -/
def Obligations.Packing : Prop :=
  (∀ (o : FX) (s : State) (d : Fin 32) (c : Fin 8) (fmt : NumFmt), o.d = .v d → o.c = .m c → numFmt o.fc.toNat = some fmt →
     let v := s.me
     let n := Vt.sew v.vt
     let g := Vt.grp v.vt
     let lane (k : Nat) : Nat := if k < v.vl then vecSrc v [] o.a g n k else v.fill.toNat % 2 ^ n
     let active (k : Nat) : Bool := decide (k < v.vl) && (activeMask o.toHdr v).getLsbD k
     let size (x : Nat) : Nat := match fmt with
       | .flt f => if (f.decode x).isNan then 2 ^ 64 else x % 2 ^ (f.eb + f.mb)
       | .int _ w => (BitVec.ofNat w x).toInt.natAbs
     let beats (j k : Nat) : Prop := (active j = true ∧ active k = false) ∨
       (active j = active k ∧ (size (lane k) < size (lane j) ∨ (size (lane j) = size (lane k) ∧ j < k)))
     let groups := (v.vl + 3) / 4
     (Instr.vspk o).wf = true → VecReady s o g g g 1 → fmt.width = n → c ≠ 0 → 0 < v.vl → v.vl ≤ Vt.vlmax v.vt →
     ∃ (t : State) (p : Nat → Nat × Nat), exec (.vspk o) s = .next t ∧ t.mem = s.mem ∧ t.me.s = v.s ∧
       t.me.pc = v.advance.pc ∧
       (∀ q, q < groups → (p q).1 < (p q).2 ∧ (p q).2 < 4 ∧
         ∀ j, j < 4 → j ≠ (p q).1 → j ≠ (p q).2 → ¬beats (4 * q + j) (4 * q + (p q).1) ∧ ¬beats (4 * q + j) (4 * q + (p q).2)) ∧
       (∀ k, k < 2 * groups → k < Vt.regBits v.vt * g / n → vecSrc t.me [] o.d g n k =
         lane (4 * (k / 2) + if k % 2 = 0 then (p (k / 2)).1 else (p (k / 2)).2)) ∧
       (∀ q, q < groups → ((t.me.getM c).extractLsb' (4 * q) 4).toNat = (p q).1 + 4 * (p q).2) ∧
       ∀ k, 4 * groups ≤ k → k < 512 → (t.me.getM c).getLsbD k = (!Vt.tail v.vt && (v.getM c).getLsbD k)) ∧
  (∀ (o : FX) (s : State) (d : Fin 32), o.d = .v d →
     let v := s.me
     let n := Vt.sew v.vt
     let g := Vt.grp v.vt
     let act (k : Nat) : Bool := (activeMask o.toHdr v).getLsbD k
     let w := match o.fx.toNat % 8 with | 0 => 1 | 1 => 2 | 2 => 3 | 3 => 4 | _ => 6
     let a (k : Nat) : Nat := vecSrc v [] o.a g n k
     let exact (k : Nat) : Int := if o.sub = 1 then (BitVec.ofNat n (a k)).toInt else a k
     let least : Int := if o.sub = 1 then -(2 : Int) ^ (w - 1) else 0
     let most : Int := if o.sub = 1 then (2 : Int) ^ (w - 1) - 1 else (2 : Int) ^ w - 1
     let kept (k : Nat) : Int := if o.sub = 0 then exact k else max least (min most (exact k))
     VecReady s o g g g 1 → (∀ k, o.a ≠ .s k) → v.vl ≤ Vt.vlmax v.vt →
     (3 ≤ o.sub.toNat → ∃ t, exec (.vpack o) s = .next t ∧ VecEnd s t d g n [o.a] act fun k =>
       let x := vecSrc v [] o.a g w k
       if o.sub = 3 then x else ((BitVec.ofNat w x).signExtend n).toNat) ∧
     (o.sub.toNat < 3 → ∃ t, exec (.vpack o) s = .next t ∧ t.mem = s.mem ∧ t.me.s = v.s ∧ t.me.m = v.m ∧
       t.me.pc = v.advance.pc ∧
       (∀ k, k < v.vl → vecSrc t.me [] o.d g w k =
         (if act k then (BitVec.ofInt w (kept k)).toNat else vecSrc v [] o.d g w k)) ∧
       (∀ j, v.vl * w ≤ j → j < Vt.regBits v.vt * g → vecSrc t.me [] o.d g 1 j =
         (if v.vl ≠ 0 ∧ Vt.tail v.vt = true then 0 else vecSrc v [] o.d g 1 j)) ∧
       (t.me.sat.getLsbD 0 = true ↔ v.sat.getLsbD 0 = true ∨
         ∃ k, k < v.vl ∧ act k = true ∧ 1 ≤ o.sub.toNat ∧ kept k ≠ exact k)))

/-- R276: VUNPK puts kept elements 2q and 2q + 1 at the places that the metadata of group q names, and zero elsewhere in it. -/
def Obligations.SparseUnpack : Prop :=
  ∀ (o : FX) (s : State) (d : Fin 32), o.d = .v d →
    let v := s.me
    let n := Vt.sew v.vt
    let g := Vt.grp v.vt
    let lane (k : Nat) : Nat := if k < v.vl then vecSrc v [] o.a g n k else v.fill.toNat
    let place (q j : Nat) : Nat := ((v.mreg o.c).extractLsb' (4 * q + 2 * j) 2).toNat
    let active (k : Nat) : Bool := decide (k < v.vl) && (activeMask o.toHdr v).getLsbD k
    VecReady s o g g g 1 →
    ∃ t, exec (.vunpk o) s = .next t ∧ VecEnd s t d g n [o.a] (fun k => active (4 * (k / 4))) fun k =>
      if k % 4 = place (k / 4) 1 then lane (2 * (k / 4) + 1)
      else if k % 4 = place (k / 4) 0 then lane (2 * (k / 4)) else 0

/-- R255 to R263: the loads write the elements below vl from memory, each at its form's address: contiguous, strided, indexed,
packed bits, or a shape whose elements outside the data read as fill. R259: VLSEG splits each segment into its fields, field
f into the group f groups after D; VSSEG stores them joined. -/
def Obligations.VectorLoads : Prop :=
  (∀ (o : FM) (s t : State) (d : Fin 32) (as : List (Nat × Word × Acc)), o.d = .v d →
     let v := s.me
     let n := Vt.sew v.vt
     let g := Vt.grp v.vt
     let eb := n / 8
     let act (k : Nat) : Bool := (activeMask o.toHdr v).getLsbD k
     let live : List Nat := (List.range v.vl).filter act
     let base : Word := v.sreg o.a + o.imm.signExtend 64
     let ea : Word := v.sreg o.a + (v.sreg o.b <<< o.sh.toNat) + o.imm.signExtend 64
     let wi := 8 * 2 ^ o.w.toNat
     let ix (k : Nat) : BitVec wi := BitVec.ofNat wi (vecSrc v [] o.b (indexSpan v.vt o.w) wi k)
     let w := match o.fx.toNat % 8 with | 0 => 1 | 1 => 2 | 2 => 3 | 3 => 4 | _ => 6
     let bit (k : Nat) := o.boff.toNat + k * w
     let shape (j : Nat) : Nat := vecSrc v [] o.b 1 32 j
     let i0 (k : Nat) := k % shape 0
     let i1 (k : Nat) := k / shape 0 % shape 1
     let i2 (k : Nat) := k / (shape 0 * shape 1)
     let inside (k : Nat) : Bool := decide (k < shape 0 * shape 1 * shape 2) && decide (i0 k < shape 8) &&
       decide (i1 k < shape 9) && decide (i2 k < shape 10)
     let row (j : Nat) : Word := BitVec.ofNat 64 (shape j + 2 ^ 32 * shape (j + 1))
     let loads (i : Instr) (at' : Nat → Word × Nat) (l : List Nat) (align : Nat) (r : Nat → Nat) : Prop :=
       MemReady s o at' l align → ReachesAll s at' .load .load l t as →
       ∃ u, exec i s = .next u ∧ VecEnd t u d g n [] act r
     groupOk s.vrCount g o.d = true → NoneInFlight s → NoHeldStores v → (∀ e ∈ as, e.2.2.ca = []) →
     loads (.vld o) (fun k => (ea + BitVec.ofNat 64 (k * eb), eb)) live eb (loaded t as) ∧
     loads (.vlds o) (fun k => (base + BitVec.ofNat 64 k * (v.sreg o.b <<< o.sh.toNat), eb)) live eb (loaded t as) ∧
     (∀ b, o.b = .v b → groupOk s.vrCount (indexSpan v.vt o.w) o.b = true →
       loads (.vldx o) (fun k => (base + ((if o.sx then (ix k).signExtend 64 else (ix k).setWidth 64) <<< o.sh.toNat), eb))
         live eb (loaded t as)) ∧
     loads (.vldb o) (fun k => (ea + BitVec.ofNat 64 (bit k / 8), (bit k + w - 1) / 8 - bit k / 8 + 1)) live 1 (fun k =>
       let x : BitVec w := BitVec.ofNat w (loaded t as k / 2 ^ (bit k % 8))
       if o.sx then (x.signExtend n).toNat else x.toNat) ∧
     ∀ b, o.b = .v b → groupOk s.vrCount 1 o.b = true → (∀ j ∈ [3, 11, 12, 13, 14, 15], shape j = 0) →
       loads (.vldt o) (fun k => (base + BitVec.ofNat 64 (i0 k * eb) + BitVec.ofNat 64 (i1 k) * row 4 +
         BitVec.ofNat 64 (i2 k) * row 6, eb)) (live.filter inside) eb (fun k => if inside k then loaded t as k else v.fill.toNat)) ∧
  (∀ (o : FM) (s t : State) (d : Fin 32) (as : List (Nat × Word × Acc)),
     let v := s.me
     let n := Vt.sew v.vt
     let g := Vt.grp v.vt
     let fields := o.nf.toNat + 1
     let act (k : Nat) : Bool := (activeMask o.toHdr v).getLsbD k
     let live : List Nat := (List.range v.vl).filter act
     let ea : Word := v.sreg o.a + (v.sreg o.b <<< o.sh.toNat) + o.imm.signExtend 64
     let at' (k : Nat) : Word × Nat := (ea + BitVec.ofNat 64 (k * (fields * (n / 8))), fields * (n / 8))
     let reg (f : Nat) : Reg := .v (Fin.ofNat 32 (d.val + f * g))
     segmentOk s.vrCount g fields (.v d) = true → MemReady s o at' live (n / 8) →
     (o.d = .v d → NoneInFlight s → NoHeldStores v → (∀ e ∈ as, e.2.2.ca = []) → ReachesAll s at' .load .load live t as →
       ∃ u, exec (.vlseg o) s = .next u ∧ u.mem = t.mem ∧ u.me.s = v.s ∧ u.me.m = v.m ∧ u.me.pc = v.advance.pc ∧
         SameControl v u.me ∧
         (∀ k : Fin 32, k.val < d.val ∨ d.val + fields * g ≤ k.val → u.me.v[k] = v.v[k]) ∧
         ∀ f k, f < fields → k < Vt.regBits v.vt * g / n → vecSrc u.me [] (reg f) g n k =
           (if v.vl = 0 then vecSrc v [] (reg f) g n k
            else if k < v.vl then (if act k then loaded t as k / 2 ^ (n * f) % 2 ^ n else vecSrc v [] (reg f) g n k)
            else if Vt.tail v.vt then v.fill.toNat % 2 ^ n else vecSrc v [] (reg f) g n k)) ∧
     (o.c = .v d → Alone s → (∀ e ∈ as, OwnBytes e.2.2) → ReachesAll s at' .store .store live t as →
       ∃ u, exec (.vsseg o) s = .next u ∧ u.me = v.advance ∧
         u.mem = storedAll t.mem as fun k => ((List.range fields).map fun f => vecSrc v [] (reg f) g n k * 2 ^ (n * f)).sum))

/-- R36, R258: with FF = 1 a fault beyond element 0 shortens vl to the faulting element, and the elements from there on are tail
elements; otherwise the elements below the fault are written and the trap names the element. R161, R200, R261, R341, R342: VLD.Q
reserves an entry of its queue and counts under its SET counter until the fill, or raises STREAM_FAULT when four are in it; the fill
puts the memory's elements into the slot's oldest unfilled entry, unless an older entry whose fault is to be handled acquires or may
share a byte with it; a pop of an empty queue raises STREAM_FAULT. -/
def Obligations.LoadFaultsAndStreams : Prop :=
  (∀ (o : FM) (s t : State) (d : Fin 32) (as : List (Nat × Word × Acc)) (j : Nat) (x : XFault), o.d = .v d →
     let v := s.me
     let n := Vt.sew v.vt
     let g := Vt.grp v.vt
     let act (k : Nat) : Bool := (activeMask o.toHdr v).getLsbD k
     let live : List Nat := (List.range v.vl).filter act
     let at' (k : Nat) : Word × Nat := (FM.ea o v + BitVec.ofNat 64 (k * (n / 8)), n / 8)
     let below (u : State) : Prop := ∀ k, k < j → k < Vt.regBits v.vt * g / n → vecSrc u.me [] o.d g n k =
       if act k then loaded t as k % 2 ^ n else vecSrc v [] o.d g n k
     groupOk s.vrCount g o.d = true → NoneInFlight s → NoHeldStores v → (∀ e ∈ as, e.2.2.ca = []) → MemReady s o at' live (n / 8) →
     resolveElems at' .load .load live s = .ok (as, some (j, x)) t → busyWhy t (as.flatMap fun e => e.2.2.keys) = none →
     (o.ff = true → 0 < j → (x.trap .load j).code ≠ Cause.misaligned →
       ∃ u, exec (.vld o) s = .next u ∧ below u ∧ u.me.vl = j ∧ u.me.pc = v.advance.pc ∧ u.mem = t.mem ∧ u.me.s = v.s ∧
         ∀ k, j ≤ k → k < Vt.regBits v.vt * g / n → vecSrc u.me [] o.d g n k =
           if Vt.tail v.vt then v.fill.toNat % 2 ^ n else vecSrc v [] o.d g n k) ∧
     (o.ff = false ∨ j = 0 →
       ∃ u, exec (.vld o) s = .next (deliver (x.trap .load j) u) ∧ below u ∧ u.me.vl = v.vl ∧ u.me.pc = v.pc ∧ u.mem = t.mem ∧
         (∀ k, j ≤ k → k < Vt.regBits v.vt * g / n → vecSrc u.me [] o.d g n k = vecSrc v [] o.d g n k) ∧
         ∃ h ∈ u.me.held, h.pc = v.pc ∧ h.elem = j)) ∧
  ((∀ (o : FM) (s : State) (q : Fin 4), o.d = .q q → Vt.grp s.me.vt = 1 → o.ord = .plain →
     let v := s.me
     let n := Vt.sew v.vt
     let fault : Trap := { code := Cause.streamFault, tv := BitVec.ofNat 64 q.val }
     ((v.q[q]).length < 4 → ∃ u e l, exec (.vldQ o) s = .next u ∧ u.mem = s.mem ∧ u.me.v = v.v ∧ u.me.s = v.s ∧
       u.me.pc = v.advance.pc ∧ u.me.q = v.q.set q (v.q[q] ++ [e]) ∧ e.load = some l ∧ e.marker = none ∧ e.orphan = false ∧
       l.pc = v.pc ∧ l.ea = FM.ea o v ∧ l.vl = v.vl ∧ l.vt = v.vt ∧ l.mask = activeMask o.toHdr v ∧ l.start = 0 ∧ l.acq = false ∧
       u.me.pend = v.pend ++ [⟨[], o.set, false, some e.id⟩] ∧ (∀ i, o.set = some i → u.me.sb[i] = v.sb[i] + 1) ∧
       (∀ k, k < Vt.regBits v.vt / n → elemAt e.data.toNat n k =
         if k < v.vl ∨ Vt.tail v.vt = false then 0 else v.fill.toNat % 2 ^ n) ∧
       Instr.streamEntryFill s.cur q ∈ u.agenda) ∧
     (4 ≤ (v.q[q]).length → exec (.vldQ o) s = .next (deliver fault s))) ∧
   (∀ (k : SlotKey) (q : Fin 4) (s t : State) (v : Slot) (e : QEntry) (l : QLoad) (as : List (Nat × Word × Acc)),
     s.slotAt k = some v → v.st ≠ .ended → v.st ≠ .absent → (s.ctxOf k.cid).st = .running → Quiet s → NoHeldStores v →
     NoneInFlight (s.focus k (coreOfSlot s k)) → v.openEntries.find? (·.2.marker.isNone) = some (q, e) → e.load = some l →
     (∀ o ∈ v.openEntries, o.2.id < e.id → ∀ x, o.2.load = some x → x.acq = false ∧ x.meets l = false) →
     let n := Vt.sew l.vt
     let got (i : Nat) : Bool := decide (l.start ≤ i) && l.mask.getLsbD i
     ReachesAll (s.focus k (coreOfSlot s k)) (fun i => (l.ea + BitVec.ofNat 64 (i * (n / 8)), n / 8)) .load .load
       ((List.range l.vl).filter got) t as → (∀ e ∈ as, e.2.2.ca = []) →
     ∃ u w data, exec (.streamEntryFill k q) s = .next u ∧ u.slotAt k = some w ∧ u.mem = t.mem ∧
       w.s = v.s ∧ w.v = v.v ∧ w.pc = v.pc ∧
       (v.st ≠ .parked .switchMarker → w.st = if v.st = .parked .entry then .ready else v.st) ∧
       (∀ p, v.pend.find? (·.entry == some e.id) = some p → w.pend = v.pend.erase p ∧ (∀ i, p.set = some i → w.sb[i] = v.sb[i] - 1) ∧
         (v.st = .parked .switchMarker → w.st = if w.pend = [] then .ready else v.st)) ∧
       w.q = v.q.set q ((v.q[q]).map fun x =>
         if x.id = e.id then { x with data := data, load := none, marker := none } else x) ∧
       ∀ i, i < 4096 / n → elemAt data.toNat n i =
         if got i ∧ i < l.vl then loaded t as i % 2 ^ n else elemAt e.data.toNat n i) ∧
   ∀ (o : FX) (s : State) (q : Fin 4), o.a = .q q → s.me.q[q] = [] → Vt.grp s.me.vt = 1 →
     groupOk s.vrCount 1 o.d = true → groupOk s.vrCount 1 o.b = true →
     exec (.vadd o) s = .next (deliver { code := Cause.streamFault, tv := BitVec.ofNat 64 q.val } s))

/-- R257, R259, R262: the stores write the active elements below vl to memory, in increasing order, and nothing else; an
unordered scatter leaves each shared byte to one of the elements that name it (R122). R265: VSTN stores the active elements
and adds their number to the progress word. -/
def Obligations.VectorStores : Prop :=
  (∀ (o : FM) (s t : State) (as : List (Nat × Word × Acc)),
     let v := s.me
     let n := Vt.sew v.vt
     let g := Vt.grp v.vt
     let eb := n / 8
     let live : List Nat := (List.range v.vl).filter fun k => (activeMask o.toHdr v).getLsbD k
     let base : Word := v.sreg o.a + o.imm.signExtend 64
     let ea : Word := v.sreg o.a + (v.sreg o.b <<< o.sh.toNat) + o.imm.signExtend 64
     let wi := 8 * 2 ^ o.w.toNat
     let ix (k : Nat) : BitVec wi := BitVec.ofNat wi (vecSrc v [] o.b (indexSpan v.vt o.w) wi k)
     let indexed (k : Nat) : Word × Nat := (base + ((if o.sx then (ix k).signExtend 64 else (ix k).setWidth 64) <<< o.sh.toNat), eb)
     let shape (j : Nat) : Nat := vecSrc v [] o.b 1 32 j
     let i0 (k : Nat) := k % shape 0
     let i1 (k : Nat) := k / shape 0 % shape 1
     let i2 (k : Nat) := k / (shape 0 * shape 1)
     let inside (k : Nat) : Bool := decide (k < shape 0 * shape 1 * shape 2) && decide (i0 k < shape 8) &&
       decide (i1 k < shape 9) && decide (i2 k < shape 10)
     let row (j : Nat) : Word := BitVec.ofNat 64 (shape j + 2 ^ 32 * shape (j + 1))
     let data : Nat → Nat := vecSrc v [] o.c g n
     let reached (at' : Nat → Word × Nat) (l : List Nat) : Prop := MemReady s o at' l eb ∧ ReachesAll s at' .store .store l t as
     let stores (i : Instr) : Prop := ∃ u, exec i s = .next u ∧ u.me = (v.popped o.c).advance ∧ u.mem = storedAll t.mem as data
     groupOk s.vrCount g o.c = true → SourceReady v [] o.c → Alone s → s.Inv → (∀ e ∈ as, OwnBytes e.2.2) →
     (reached (fun k => (ea + BitVec.ofNat 64 (k * eb), eb)) live → stores (.vst o)) ∧
     (reached (fun k => (base + BitVec.ofNat 64 k * (v.sreg o.b <<< o.sh.toNat), eb)) live → stores (.vsts o)) ∧
     (∀ b, o.b = .v b → groupOk s.vrCount (indexSpan v.vt o.w) o.b = true → reached indexed live →
       (o.uo = false → stores (.vstx o)) ∧
       (o.uo = true → ∃ u, exec (.vstx o) s = .next u ∧ u.me = (v.popped o.c).advance ∧
         OnlyBytes (as.flatMap fun e => e.2.2.keys) t u ∧ ∀ k ∈ as.flatMap (fun e => e.2.2.keys),
           ∃ e ∈ as, (k, u.mem.byte k) ∈ cellsFor e.2.2.keys (data e.1))) ∧
     ∀ b, o.b = .v b → groupOk s.vrCount 1 o.b = true → (∀ j ∈ [3, 11, 12, 13, 14, 15], shape j = 0) →
       reached (fun k => (base + BitVec.ofNat 64 (i0 k * eb) + BitVec.ofNat 64 (i1 k) * row 4 +
         BitVec.ofNat 64 (i2 k) * row 6, eb)) (live.filter inside) → stores (.vstt o)) ∧
  (∀ (o : FM) (s t0 t : State) (a0 : Acc) (w : Nat) (as : List (Nat × Word × Acc)),
     let v := s.me
     let n := Vt.sew v.vt
     let g := Vt.grp v.vt
     let live : List Nat := (List.range v.vl).filter fun k => (activeMask o.toHdr v).getLsbD k
     let at' (k : Nat) : Word × Nat := (FM.ea o v + BitVec.ofNat 64 (k * (n / 8)), n / 8)
     MemReady s o at' live (n / 8) → (v.sreg o.d).toNat % 8 = 0 → Alone s → s.Inv → homeRoom t (atomHome t (Key.word w)) = true →
     (∀ b ∈ v.inflight, touches b [w] = false) →
     groupOk s.vrCount g o.c = true → SourceReady v [] o.c →
     resolve s (slotReq s) (v.sreg o.d) 8 .rmw .amoAddSwap = (t0, .ok a0) → a0.keys = keyRange w 8 → w % 8 = 0 → w < 2 ^ 62 →
     resolveElems at' .store .store live t0 = .ok (as, none) t →
     busyWhy t (keyRange w 8 ++ as.flatMap fun e => e.2.2.keys) = none →
     (∀ e ∈ as, OwnBytes e.2.2 ∧ ∀ k ∈ e.2.2.keys, k ∉ keyRange w 8) →
     ∃ u, exec (.vstn o) s = .next u ∧ u.me = (v.popped o.c).advance ∧
       u.mem.read w 8 = (t.mem.read w 8 + live.length) % 2 ^ 64 ∧
       ∀ k, k ∉ keyRange w 8 → u.mem.byte k = (storedAll t.mem as (vecSrc v [] o.c g n)).byte k)

/-- R266, R267: VGLR loads and reserves its words; VSCC stores the elements whose reservations still hold, no word twice, says
which in D, and clears the reservations; VAMO applies its operation element by element and returns the former values. -/
def Obligations.VectorAtomics : Prop :=
  ∀ (o : FM) (s t : State) (b : Fin 32) (as : List (Nat × Word × Acc)),
    let v := s.me
    let n := Vt.sew v.vt
    let g := Vt.grp v.vt
    let eb := n / 8
    let act (k : Nat) : Bool := (activeMask o.toHdr v).getLsbD k
    let live : List Nat := (List.range v.vl).filter act
    let at' := indexed v o
    let key (e : Nat × Word × Acc) : Nat := (e.2.2.keys.head?).getD 0
    let data : Nat → Nat := vecSrc v [] o.c g n
    let reach (kind : AccKind) (op : OpClass) : Prop := ReachesAll s at' kind op live t as
    let room : Prop := ∀ e ∈ as, homeRoom t (atomHome t (Key.word (key e))) = true
    Quiet s → Fresh v → s.Inv → o.b = .v b → groupOk s.vrCount (indexSpan v.vt o.w) o.b = true → NoneInFlight s → NoHeldStores v →
    (∀ k ∈ live, (at' k).1.toNat % eb = 0) → (∀ e ∈ as, e.2.2.ca = [] ∧ e.2.2.keys = keyRange (key e) eb ∧ key e % eb = 0 ∧
      key e + eb ≤ 2 ^ 62) →
    (∀ d : Fin 32, o.d = .v d → groupOk s.vrCount g o.d = true → (o.ord ≠ .plain → Settled v) → reach .load .reserve →
      ∃ u, exec (.vglr o) s = .next u ∧ VecEnd t u d g n [] act (loaded t as) ∧
        u.resvs = t.resvs.filter (fun r => r.key ≠ s.cur) ++ as.map fun e => ⟨s.cur, Key.word (key e), e.1⟩) ∧
    (∀ d : Fin 8, o.d = .m d → (∃ c, o.c = .v c) → groupOk s.vrCount g o.c = true → Settled v → room → reach .rmw .reserve →
      let ok (e : Nat × Word × Acc) : Bool := t.resvs.any (fun r => r.key == s.cur && r.word == Key.word (key e) && r.elem == e.1) &&
        !as.any fun x => decide (x.1 < e.1) && Key.word (key x) == Key.word (key e)
      ∃ u, exec (.vscc o) s = .next u ∧ u.mem = storedAll t.mem (as.filter ok) data ∧ (∀ r ∈ u.resvs, r.key ≠ s.cur) ∧
        MaskEnd t { u with mem := t.mem } d [] act fun k => as.any fun e => e.1 == k && ok e) ∧
    ∀ d : Fin 32, o.d = .v d → 32 ≤ n → (∃ c, o.c = .v c) → groupOk s.vrCount g o.d = true → groupOk s.vrCount g o.c = true →
      Settled v → room → reach .rmw (amoClass o.aop.toNat) →
      let f (k : Nat) : AmoFun := ⟨n == 64, o.aop.toNat, false, 0, data k⟩
      let step (p : Mem × List (Nat × Nat) × Nat) (e : Nat × Word × Acc) : Mem × List (Nat × Nat) × Nat :=
        let m := p.1.read (key e) eb
        (p.1.writeCells (cellsFor e.2.2.keys (((f e.1).apply m).1.getD m)), p.2.1 ++ [(e.1, m)], p.2.2 ||| ((f e.1).apply m).2)
      let r := as.foldl step (t.mem, [], 0)
      ∃ u, exec (.vamo o) s = .next u ∧ u.mem = r.1 ∧ u.me.fflags = v.fflags ||| BitVec.ofNat 64 r.2.2 ∧
        VecEnd t { u with mem := t.mem } d g n [] act fun k => ((r.2.1.find? (·.1 == k)).map (·.2)).getD 0

/-- R268: VWAIT completes with 0 in D when every active word meets its condition; else it parks with the met elements latched,
and its re-examination completes it when the rest are met, or when its time is over, with 1 for the unmet. R91, R92: the
owning core answers a gather packet with its elements, as a response packet, and writes those of an ordered scatter, in
order, when no command owns a line of the packet and no atomic is queued. -/
def Obligations.WaitsAndPackets : Prop :=
  (let met (o : FM) (v : Slot) (x : Nat → Nat) (k : Nat) : Bool :=
     let n := Vt.sew v.vt
     let y : BitVec n := BitVec.ofNat n (x k)
     let e : BitVec n := BitVec.ofNat n (vecSrc v [] o.c (Vt.grp v.vt) n k)
     match o.fx.toNat % 4 with | 0 => y == e | 1 => y != e | 2 => e.ule y | _ => e.sle y
   let word (o : FM) (v : Slot) (k : Nat) : Word × Nat :=
     let wi := 8 * 2 ^ o.w.toNat
     let x : BitVec wi := BitVec.ofNat wi (vecSrc v [] o.b (indexSpan v.vt o.w) wi k)
     (v.sreg o.a + ((if o.sx then x.signExtend 64 else x.setWidth 64) <<< o.sh.toNat), Vt.sew v.vt / 8)
   (∀ (o : FM) (s t : State) (b c : Fin 32) (d : Fin 8) (as : List (Nat × Word × Acc)),
     let v := s.me
     let n := Vt.sew v.vt
     let act (k : Nat) : Bool := (activeMask o.toHdr v).getLsbD k
     let live : List Nat := (List.range v.vl).filter act
     Quiet s → Fresh v → NoneInFlight s → NoHeldStores v → o.b = .v b → o.c = .v c → o.d = .m d → 32 ≤ n →
     groupOk s.vrCount (indexSpan v.vt o.w) o.b = true → groupOk s.vrCount (Vt.grp v.vt) o.c = true →
     (∀ k ∈ live, (word o v k).1.toNat % (n / 8) = 0) → ReachesAll s (word o v) .load .load live t as →
     (∀ e ∈ as, e.2.2.ca = []) →
     ((∀ k ∈ live, met o v (loaded t as) k = true) →
       ∃ u, exec (.vwait o) s = .next u ∧ MaskEnd t u d [] act fun _ => false) ∧
     ((∃ k ∈ live, met o v (loaded t as) k = false) →
       ∃ u w, exec (.vwait o) s = .next u ∧ u.me.st = .parked .vwait ∧ u.me.vwait = some w ∧ u.me.pc = v.pc ∧ u.mem = t.mem ∧
         u.me.s = v.s ∧ u.me.v = v.v ∧ u.me.m = v.m ∧
         ∀ k, w.latched.getLsbD k = (decide (k ∈ live) && met o v (loaded t as) k))) ∧
   ∀ (k : SlotKey) (s t : State) (v : Slot) (w : VWaitSt) (d : Fin 8) (as : List (Nat × Word × Acc)),
     let f := s.focus k (coreOfSlot s k)
     let act (j : Nat) : Bool := (activeMask w.op.toHdr v).getLsbD j
     let rest : List Nat := (List.range v.vl).filter fun j => act j && !w.latched.getLsbD j
     let good := met w.op v (loaded t as)
     s.slotAt k = some v → v.st = .parked .vwait → v.swWait = false → v.vwait = some w → Quiet s → NoHeldStores v → NoneInFlight f →
     (s.coreOf (coreOfSlot s k)).upset = none → w.op.d = .m d →
     (∃ c, w.op.c = .v c) → (∃ b, w.op.b = .v b) → 32 ≤ Vt.sew v.vt →
     (∀ j ∈ rest, (word w.op v j).1.toNat % (Vt.sew v.vt / 8) = 0) →
     ReachesAll f (word w.op v) .load .load rest t as → (∀ e ∈ as, e.2.2.ca = []) →
     ((∀ j ∈ rest, good j = true) ∨ waitExpired f w = true →
       ∀ i ∈ [Instr.vwaitReexamine k] ++ (if waitExpired f w then [Instr.vwaitTimeout k] else []),
       ∃ u x, exec i s = .next u ∧ u.slotAt k = some x ∧ x.st = .ready ∧ x.vwait = none ∧ x.pc = v.advance.pc ∧ u.mem = t.mem ∧
         (d ≠ 0 → ∀ j, j < v.vl → act j = true → (x.getM d).getLsbD j = (!w.latched.getLsbD j && !good j))) ∧
     ((∃ j ∈ rest, good j = false) → waitExpired f w = false →
       ∃ u x y, exec (.vwaitReexamine k) s = .next u ∧ u.slotAt k = some x ∧ x.st = .parked .vwait ∧ x.vwait = some y ∧
         ∀ j, j < 512 → y.latched.getLsbD j = (w.latched.getLsbD j || (decide (j ∈ rest) && good j)))) ∧
  (∀ (p : NeighbourPacket) (s : State),
     let keys (e : NeighbourElem) : List Nat := packetKeys s p e (2 ^ p.ew.val)
     Quiet s → s.atoms = [] → (∀ e ∈ p.elems, keys e ≠ [] ∧ ∀ k ∈ keys e, lineOwner s k = none) →
     (p.op = .gather → ∃ u all, exec (.neighbourPacket p) s = .next u ∧ u.mem = s.mem ∧
       (let data := p.elems.map fun e => BitVec.ofNat 64 (ofBytes ((keys e).map s.mem.byte))
        u.outbox = s.outbox ++ [.neighbour p data all (responseWords p data all)]) ∧
       ∀ e ∈ p.elems, e.index < 512 → all.getLsbD e.index = true) ∧
     (p.op = .orderedScatter → ∃ u, exec (.neighbourPacket p) s = .next u ∧ u.me = s.me ∧
       u.mem = p.elems.foldl (fun m e => m.writeCells (cellsFor (keys e) e.data.toNat)) s.mem))

/-- R136, R281, R282: SETTL limits and returns the tile sizes; SETFMT takes the formats and pointers of its record, SETFMT.I
those of its immediate, and the codebooks of the new formats are read. R285, R286: MZERO zeroes its frame and makes it live,
MREL releases it, BFLIP exchanges the planes; LDB fills the shadow plane row by row. R51, R294: a first use of a granule's
frames saves and counts the live frames that another context left there, and brings back those of its own that were saved. -/
def Obligations.MatrixState : Prop :=
  ((∀ (s t : State) (va : Word) (n : Nat) (a : Acc), Quiet s → NoneInFlight s → NoHeldStores s.me → Reaches s va n .load .load t a →
     a.ca = [] → ∃ u, loadBytes va n s = .ok (ofBytes (a.keys.map t.mem.byte)) u ∧ u.mem = t.mem ∧ u.me = s.me) ∧
   (∀ (f : FmtCtx) (s : State), f.fa ≠ 0x18 → f.fa ≠ 0x19 → f.fb ≠ 0x18 → f.fb ≠ 0x19 → loadFmt f s = .ok f s) ∧
   (∀ (ptr : Word) (old : BitVec 256) (s u : State) (x : Nat),
     (ptr.toNat % 32 = 0 → loadBytes ptr 32 s = .ok x u → readBook 0x18 ptr old s = .ok (BitVec.ofNat 256 x) u) ∧
     (ptr.toNat % 16 = 0 → loadBytes ptr 16 s = .ok x u → readBook 0x19 ptr old s = .ok (BitVec.ofNat 256 x) u)) ∧
   ∀ (o : FF) (s : State), Fresh s.me → (∀ h ∈ s.me.held, h.mat = false) →
     (∀ f, operFmt s.me.fmt.fb.toNat = some f →
       let w := f.width
       let most := if w = 32 then 32 else if w = 16 then 64 else if w = 8 ∨ w = 6 then 128 else 256
       let m := min (s.me.sreg o.d).toNat 32
       let n := min (s.me.sreg o.a).toNat 32
       let k := min (s.me.sreg o.b).toNat most
       ∃ t, exec (.settl o) s = .next t ∧ t.me.tm = m ∧ t.me.tn = n ∧ t.me.tk = k ∧ t.mem = s.mem ∧ t.me.v = s.me.v ∧
         t.me.pc = s.me.advance.pc ∧ t.me.s = (((s.me.putS o.d (BitVec.ofNat 64 m)).putS o.a (BitVec.ofNat 64 n)).putS o.b
           (BitVec.ofNat 64 k)).s) ∧
     (∀ f t, loadFmt { s.me.fmt with fa := o.imm.extractLsb' 0 6, fb := o.imm.extractLsb' 6 6, fo := o.imm.extractLsb' 12 6, spa := o.imm.getLsbD 18 } s = .ok f t →
       ∃ u, exec (.setfmtI o) s = .next u ∧ u.me.fmt = f ∧ u.mem = t.mem ∧ u.me.pc = t.me.advance.pc ∧ u.me.s = t.me.s) ∧
     ∀ x t1 f t, let a := s.me.sreg o.a + o.imm.signExtend 64
       a.toNat % 64 = 0 → loadBytes a 64 s = .ok x t1 →
       (let dw (i : Nat) : Word := BitVec.ofNat 64 (x / 2 ^ (64 * i))
        loadFmt { s.me.fmt with fa := (dw 7).extractLsb' 58 6, fb := (dw 7).extractLsb' 52 6, fo := (dw 7).extractLsb' 46 6, spa := (dw 7).getLsbD 45, scla := dw 2, sclb := dw 3, cbka := dw 4, cbkb := dw 5 } t1 = .ok f t) →
       ∃ u, exec (.setfmt o) s = .next u ∧ u.me.fmt = f ∧ u.mem = t.mem ∧ u.me.pc = t.me.advance.pc ∧ u.me.s = t.me.s) ∧
  ((∀ (o : FF) (s : State) (j : Fin 16), MatrixReady s → o.d = .fm j →
     (∃ t, exec (.mzero o) s = .next t ∧ getFrame t j = ⟨0, true⟩ ∧ MatrixEnd s t (some j) ∧ t.mem = s.mem) ∧
     ∃ t, exec (.mrel o) s = .next t ∧ getFrame t j = ⟨0, false⟩ ∧ MatrixEnd s t (some j) ∧ t.mem = s.mem) ∧
   (∀ (o : FF) (s : State), MatrixReady s →
     ∃ t, exec (.bflip o) s = .next t ∧ getBeam t = ⟨(getBeam s).shadow, (getBeam s).active⟩ ∧ MatrixEnd s t none ∧
       t.mem = s.mem ∧ t.me.v = s.me.v) ∧
   (∀ (base stride : Word) (f : OperFmt) (tn kb k : Nat) (s t : State) (a : Acc), f.block = 0 → tn * f.width ≠ 0 →
     (∃ c, Tab.get s.ctxs s.cur.cid = some c) → Quiet s → NoneInFlight s → NoHeldStores s.me →
     Reaches s (base + BitVec.ofNat 64 k * stride) ((tn * f.width + 7) / 8) .load .load t a → a.ca = [] →
     ∃ u, ldbRow base stride f tn kb k s = .ok () u ∧ u.mem = t.mem ∧ u.me = s.me ∧ (getBeam u).active = (getBeam s).active ∧
       (tn ≤ 32 → f.width ≤ 32 → ∀ j, j < tn → ∃ row, (getBeam u).shadow.rows[k]? = some row ∧
         (row.extractLsb' (32 * j) 32).toNat = ofBytes (a.keys.map t.mem.byte) / 2 ^ (f.width * j) % 2 ^ f.width) ∧
       ∀ i, i < k → i < (getBeam s).shadow.rows.length → (getBeam u).shadow.rows[i]? = (getBeam s).shadow.rows[i]?) ∧
   (∀ (o : FF) (s : State) (f : OperFmt), MatrixReady s → operFmt s.me.fmt.fb.toNat = some f →
     let v := s.me
     let kb := if o.c = .s 0 then 0 else (v.sreg o.c).toNat / 2 ^ 32 % 2 ^ 16
     let row (k : Nat) : M Unit := atRow k (ldbRow (v.sreg o.a + o.imm.signExtend 64) (v.sreg o.b) f v.tn kb k)
     ∀ r t, ldbReady (v.sreg o.a + o.imm.signExtend 64) (v.sreg o.b) f v.tn kb 0 v.tk s = .ok () r →
       (let q := claim planeUnit r
        let plane : Plane := { (getBeam q).shadow with fmt := v.fmt.fb, k := v.tk, n := v.tn, tab := if f.book = 0 then 0 else v.fmt.tabB }
        forN row 0 v.tk (putBeam ⟨(getBeam q).active, plane⟩ q) = .ok () t) →
       ∃ u, exec (.ldb o) s = .next u ∧ u.mem = t.mem ∧ u.me.pc = t.me.advance.pc ∧ u.me.s = t.me.s ∧
         ((Tab.get t.ctxs t.cur.cid).isSome = true → (getBeam u).active = (getBeam t).active ∧
           (getBeam u).shadow.fmt = (getBeam t).shadow.fmt ∧ (getBeam u).shadow.k = (getBeam t).shadow.k ∧
           (getBeam u).shadow.rows = (getBeam t).shadow.rows.take v.tk)) ∧
   ∀ (o : FF) (s : State) (j : Fin 16) (b : Nat) (c cb : Ctx), MatrixRuns s → o.d = .fm j → b ≠ s.cur.cid →
     Tab.get s.ctxs s.cur.cid = some c → Tab.get s.ctxs b = some cb →
     let gran := frameGranule s j
     gran < Config.granules → (s.heldBy.find? fun h => h.1 == s.core && h.2.1 == gran) = some (s.core, gran, b) →
     (cb.frames.map (·.1)).Nodup → (c.savedFrames.map (·.1)).Nodup →
     ∃ t cb', exec (.mzero o) s = .next t ∧ getFrame t j = ⟨0, true⟩ ∧ Tab.get t.ctxs b = some cb' ∧
       cb'.saves = cb.saves + liveIn cb s.core gran ∧
       (∀ i ∈ framesIn cb s.core gran, Tab.get cb'.frames i = none ∧
         ∀ f, Tab.get cb.frames i = some f → f.live = true → Tab.get cb'.savedFrames i = some f) ∧
       ∀ (i : Nat) (f : FrameSt), i ≠ j.val → frameKey s i ∈ framesIn c s.core gran →
         Tab.get c.savedFrames (frameKey s i) = some f → getFrame t i = f)

/-- R292: MMOVR and MMOVC convert a row or column of a frame into the elements of a vector register, their `.to` forms write one,
and MCVT converts every cell in place. R292: MLDR writes the cells of the selected rows below tm and the columns below tn
from memory, and MSTR stores the cells below tm and tn. -/
def Obligations.FrameTransfers : Prop :=
  (∀ (o : FF) (s : State), MatrixReady s → (o.fc = 0x3F → s.me.fmt.fo ≠ 0x3F ∧ FF.inFormat s.me.fmt.fo.toNat = true) →
     let v := s.me
     let code := if o.fc = 0x3F then v.fmt.fo.toNat else o.fc.toNat
     let w := outWidth code
     let ix := o.idx.toNat
     let out (f : Frame) (i j : Nat) : Nat × Nat := fromCell (o.fx.getLsbD 0) code (rmMode v 7) (cellOf f i j)
     let into (k : Fin 32) (j : Nat) : Nat × Nat := toCell (o.fx.getLsbD 0) code (rmMode v 7) (elemAt (v.v[k]).toNat w j)
     let quiet (g : Nat → Nat × Nat) : Prop := ∀ j, j < 32 → fpCause v.frm (g j).2 = none
     (∀ (k : Fin 32) (a : Fin 16), o.d = .v k → o.a = .fm a → 32 * w ≤ 4096 →
       let f := (getFrame s a).cells
       let ends (i : Instr) (g : Nat → Nat × Nat) : Prop := quiet g → ∃ t, exec i s = .next t ∧ MatrixEnd s t none ∧
         t.mem = s.mem ∧ t.me.s = v.s ∧ (∀ r, r ≠ k → t.me.v[r] = v.v[r]) ∧
         (∀ j, j < 32 → elemAt (t.me.v[k]).toNat w j = (g j).1 % 2 ^ w) ∧
         ∀ j, 32 * w ≤ j → (t.me.v[k]).getLsbD j = (v.v[k]).getLsbD j
       ends (.mmovr o) (fun j => out f ix j) ∧ ends (.mmovc o) (fun j => out f j ix)) ∧
     (∀ (k : Fin 32) (d : Fin 16), o.a = .v k → o.d = .fm d → quiet (into k) →
       let f := (getFrame s d).cells
       let ends (i : Instr) (g : Nat → Nat → Nat) : Prop := ∃ t, exec i s = .next t ∧ MatrixEnd s t (some d) ∧ t.mem = s.mem ∧
         t.me.s = v.s ∧ t.me.v = v.v ∧ (getFrame t d).live = true ∧
         ∀ i j, i < 32 → j < 32 → cellOf (getFrame t d).cells i j = g i j
       ends (.mmovrTo o) (fun i j => if i = ix then (into k j).1 % 2 ^ 32 else cellOf f i j) ∧
       ends (.mmovcTo o) (fun i j => if j = ix then (into k i).1 % 2 ^ 32 else cellOf f i j)) ∧
     ∀ d : Fin 16, o.d = .fm d → (let f := (getFrame s d).cells; ∀ i, i < 32 → quiet (out f i)) →
       ∃ t, exec (.mcvt o) s = .next t ∧ MatrixEnd s t (some d) ∧ t.mem = s.mem ∧ t.me.s = v.s ∧ t.me.v = v.v ∧
         ∀ i j, i < 32 → j < 32 → cellOf (getFrame t d).cells i j = (out (getFrame s d).cells i j).1 % 2 ^ 32) ∧
  (∀ (o : FF) (s t : State) (as : List ((Nat × Nat) × Word × Acc)) (d : Fin 16), MatrixReady s → InOrder s →
     s.me.tm ≤ 32 → s.me.tn ≤ 32 →
     let v := s.me
     let code := if o.fc = 0x3F then v.fmt.fo.toNat else o.fc.toNat
     let eb := outWidth code / 8
     let mask : Nat := if o.c = .s 0 then 2 ^ 32 - 1 else (v.sreg o.c).toNat % 2 ^ 32
     let at' (c : Nat × Nat) : Word :=
       v.sreg o.a + o.imm.signExtend 64 + BitVec.ofNat 64 c.1 * v.sreg o.b + BitVec.ofNat 64 (c.2 * eb)
     let rows (p : Nat → Bool) : List (Nat × Nat) := ((List.range v.tm).filter p).flatMap fun i => (List.range v.tn).map fun j => (i, j)
     let reached (kind : AccKind) (op : OpClass) (l : List (Nat × Nat)) : Prop :=
       resolveCells at' eb kind op l s = .ok (as, none) t ∧ busyWhy t (as.flatMap fun e => e.2.2.keys) = none
     (o.d = .fm d → NoneInFlight s → NoHeldStores v → (o.fc = 0x3F → v.fmt.fo ≠ 0x3F ∧ FF.inFormat v.fmt.fo.toNat = true) →
       (∀ e ∈ as, e.2.2.ca = []) → reached .load .load (rows mask.testBit) →
       let bytes (c : Nat × Nat) : Nat := match as.find? (·.1 == c) with
         | some e => ofBytes (e.2.2.keys.map t.mem.byte)
         | none => 0
       let value (c : Nat × Nat) : Nat × Nat := toCell (o.fx.getLsbD 0) code (rmMode v 7) (bytes c)
       (∀ c ∈ rows mask.testBit, fpCause v.frm (value c).2 = none) →
       ∃ u, exec (.mldr o) s = .next u ∧ u.mem = t.mem ∧ MatrixEnd s u (some d) ∧ u.me.s = v.s ∧ u.me.v = v.v ∧
         ∀ i j, i < 32 → j < 32 → cellOf (getFrame u d).cells i j =
           if i < v.tm ∧ mask.testBit i = true ∧ j < v.tn then (value (i, j)).1 % 2 ^ 32 else cellOf (getFrame s d).cells i j) ∧
     (o.c = .fm d → Alone s → v.snap = none → (o.fc = 0x3F → v.fmt.fo ≠ 0x3F ∧ FF.outFormat v.fmt.fo.toNat = true) →
       (∀ e ∈ as, OwnBytes e.2.2) →
       (let u := claim (frameGranule s d) s
        resolveCells at' eb .store .store (rows fun _ => true) u = .ok (as, none) t ∧ busyWhy t (as.flatMap fun e => e.2.2.keys) = none) →
       let value (c : Nat × Nat) : Nat × Nat :=
         fromCell (o.fx.getLsbD 0) code (rmMode v 7) (cellOf (getFrame s d).cells c.1 c.2)
       (∀ c ∈ rows (fun _ => true), fpCause v.frm (value c).2 = none) →
       ∃ u, exec (.mstr o) s = .next u ∧ MatrixEnd s u none ∧ u.me.s = v.s ∧ u.me.v = v.v ∧
         u.mem = as.foldl (fun m e => m.writeCells (cellsFor e.2.2.keys (value e.1).1)) t.mem))

/-- R147, R148, R150, R287, R288: an outer product of integer formats adds to each selected cell below tm and N the sum over K of the
products of A's row and B's column, modulo 2^32; MOP takes B from a register, MOPS B from the active plane and A from a queue
or the private pool window, outside of which it raises ACCESS_FAULT before any row is updated. Floating-point operands
accumulate group by group; those with scales read them from memory, A's for each selected row, before the row is updated. -/
def Obligations.OuterProducts : Prop :=
  ∀ (o : FF) (s : State) (d : Fin 16) (fa fb : OperFmt), MatrixReady s → s.me.tm ≤ 32 → o.d = .fm d →
    operFmt s.me.fmt.fa.toNat = some fa →
    let v := s.me
    let mask : Nat := if o.c = .s 0 then 2 ^ 32 - 1 else (v.sreg o.c).toNat % 2 ^ 32
    let kb : Nat := if o.c = .s 0 then 0 else (v.sreg o.c).toNat / 2 ^ 32 % 2 ^ 16
    let rows : List Nat := (List.range v.tm).filter mask.testBit
    let old (i j : Nat) : Nat := cellOf (getFrame s d).cells i j
    let num (f : OperFmt) (x : Nat) : Int := match f.num with
      | .int true w => if w = 2 ∧ x % 4 = 2 then 0 else (BitVec.ofNat w x).toInt
      | .int false w => (x % 2 ^ w : Nat)
      | .flt _ => 0
    let kept (spa : Bool) (k : Nat) : Option Nat := keptAt spa (v.getM 1) k
    let groups (b : BOper) (row : Nat → Nat) (sa : Nat → Nat → Option (Nat × Int)) (i j : Nat) : Nat × List (Nat × Nat) × Bool :=
      let size := min fa.cls.size b.f.cls.size
      cellLoop fa v.fmt.tabA b (fun k => (kept v.fmt.spa k).map fun x => elemAt (row i) fa.width x) (sa i) j size
        ((b.k + size - 1) / size) 0 (old i j) [] false
    let ends (i : Instr) (b : BOper) (row : Nat → Nat) (sa : Nat → Nat → Option (Nat × Int)) (m : Mem) : Prop :=
      (∀ r ∈ rows, firstEnabled v.frm ((List.range b.n).flatMap fun j => (groups b row sa r j).2.1) = none) →
      ∃ t, exec i s = .next t ∧ t.mem = m ∧ MatrixEnd s t (some d) ∧ t.me.s = v.s ∧ t.me.v = v.v ∧
        (∀ r j, r < 32 → j < 32 → cellOf (getFrame t d).cells r j =
          if r ∈ rows ∧ j < b.n ∧ b.k ≠ 0 then (groups b row sa r j).1 % 2 ^ 32 else old r j) ∧
        (intAcc fa.cls b.f.cls = true → v.fmt.spa = false → ∀ r ∈ rows, ∀ j, j < b.n →
          cellOf (getFrame t d).cells r j = (BitVec.ofInt 32 ((old r j : Nat) +
            ((List.range b.k).map fun k => num fa (elemAt (row r) fa.width k) * num fb (b.bits k j)).sum)).toNat)
    let one (_ : Nat) (_ : Nat) : Option (Nat × Int) := some (1, 0)
    let blocks (f : OperFmt) (k : Nat) : List Nat := (List.range ((kb + k - 1) / f.block + 1 - kb / f.block)).map (kb / f.block + ·)
    let scaled (i : Instr) (b : BOper) (row : Nat → Nat) (u : State) : Prop :=
      InOrder s → NoneInFlight s → NoHeldStores v → fa.block ≠ 0 → b.k ≠ 0 →
      ∀ (sc : List (Nat × List (Nat × Word × Acc))) (t : State), allScales fa kb b.k rows u = .ok (sc, none) t →
        (let as := sc.flatMap fun r => r.2.map (·.2.2)
         (∀ a ∈ as, a.ca = []) ∧ busyWhy t (as.flatMap (·.keys)) = none) →
        (sc.map (·.1) = rows ∧ ∀ r ∈ sc, r.2.map (·.1) = blocks fa b.k ∧
          ∀ e ∈ r.2, e.2.1 = v.fmt.scla + BitVec.ofNat 64 (e.1 * 32 + r.1)) ∧
        ends i b row (fun r k => fa.scale (ofBytes (((sc.find? (·.1 == r)).bind fun l =>
          (l.2.find? (·.1 == (kb + k) / fa.block)).map fun e => e.2.2.keys.map t.mem.byte).getD []))) t.mem
    (∀ p q : Fin 32, o.a = .v p → o.b = .v q → operFmt v.fmt.fb.toNat = some fb → v.tn ≤ 32 →
      let depth (w : Nat) := if w = 32 then 4 else if w = 16 then 8 else if w = 8 ∨ w = 6 then 16 else if w = 4 ∨ w = 3 then 32 else 64
      let k := min v.tk (min (if v.fmt.spa then 2 * depth fa.width else depth fa.width) (depth fb.width))
      let b (scale : Nat → Nat → Option (Nat × Int)) : BOper :=
        { f := fb, tab := v.fmt.tabB, k := k, n := v.tn, bits := fun k j => elemAt (v.v[q]).toNat fb.width (32 * k + j), scale := scale }
      let row (i : Nat) : Nat := (v.v[p]).toNat / 2 ^ (i * depth fa.width * fa.width) %
        2 ^ ((if v.fmt.spa then 2 * ((k + 3) / 4) else k) * fa.width)
      (fa.block = 0 → fb.block = 0 → ends (.mop o) (b one) row one s.mem) ∧
      (fb.block = 0 → scaled (.mop o) (b one) row s) ∧
      (fb.block ≠ 0 → k ≠ 0 → rows ≠ [] → ∀ (sb : List (Nat × List Nat)) (u : State),
        mapL (fun q => do
          let l ← mapL (fun j => loadBytes (v.fmt.sclb + BitVec.ofNat 64 (q * 32 + j)) 1) (List.range v.tn)
          pure (q, l)) (blocks fb k) s = .ok sb u →
        let c := b fun k j => fb.scale ((((sb.find? (·.1 == (kb + k) / fb.block)).map (·.2)).getD []).getD j 0)
        (fa.block = 0 → InOrder s → NoneInFlight s → NoHeldStores v → ends (.mop o) c row one u.mem) ∧ scaled (.mop o) c row u)) ∧
    (let p := (getBeam s).active
     let u := claim planeUnit s
     let rb := ((if v.fmt.spa then 2 * ((p.k + 3) / 4) else p.k) * fa.width + 7) / 8
     let b : BOper := { f := fb, tab := p.tab, k := p.k, n := p.n, bits := fun k j => ((p.rows[k]?).getD 0).toNat / 2 ^ (32 * j) % 2 ^ fb.width, scale := fun k j => fb.scale (((p.scl[k]?).getD 0).toNat / 2 ^ (8 * j) % 256) }
     let both (x : Nat) : Prop :=
       (fa.block = 0 → ends (.mops o) b (fun i => x / 2 ^ (8 * rb * i)) one s.mem) ∧ scaled (.mops o) b (fun i => x / 2 ^ (8 * rb * i)) u
     operFmt p.fmt.toNat = some fb → p.n ≤ 32 →
     (∀ (q : Fin 4) (e : QEntry), o.srcsel = 0 → o.a = .q q → v.q[q][0]? = some e → e.load = none → e.marker = none →
       e.orphan = false → v.tm * rb ≤ 512 → both e.data.toNat) ∧
     (o.srcsel ≠ 0 →
       let base : Word := v.sreg o.a + o.imm.signExtend 64
       let own : Prop := base.getLsbD 56 = true ∧ base.toNat / 2 ^ 57 = 0 ∧ base.toNat / 2 ^ 21 % 2 ^ 35 = 0
       (∀ a, own → InOrder s → NoneInFlight s → NoHeldStores v → localAcc u (slotReq u) base (v.tm * rb) .load = .ok a →
         busyWhy u a.keys = none → both (ofBytes (a.keys.map s.mem.byte))) ∧
       (¬own ∨ Part.spg s.ctx.part * Config.granuleBytes < base.toNat % 2 ^ 21 + v.tm * rb →
         exec (.mops o) s = .next (deliver { code := Cause.accessFault, tv := base, ti := BitVec.ofNat 64 Reason.windowRange } u))))

/-- R81, R82, R85, R296, R297: a command is taken when its engine has room and its tag counts fewer than 255; a format that R81
refuses completes at once with FORMAT. TCP copies rows of bytes; ECMD issues the active groups in order up to the first that
is not taken. Each completes once its commands hold their lines. R82, R83, R86: a command takes its lines one by one, each
when nobody else holds it; its values are planned as bytes; each line is then written and given up; and its completion clears
it from its engine and sets its tag. R93 to R97: a node of the boom whose own participants and children are all there adds
its partial, element by element in their order, and passes it on; a node with neither adds nothing. INT32 sums wrap and exact
sums add. The root's partial goes to every participant. The model's own choices in it: of the participants of one index the first
takes part, and an element that an input lacks leaves its result absent (log 31, DESIGN CHOICE); the corners of FORMAT that R81 does
not list, a destination that fails together with its source, and a future word that is uncorrectable (log 56). -/
def Obligations.Engines : Prop :=
  ((∀ (d : List Word) (s : State),
     let e := engineFor s.core d
     let home := homeOf s s.cur.cid
     let full : Prop := (match e with | .boom _ => Config.boomLimit | _ => Config.engineLimit) ≤ (s.cmds.filter (·.engine == e)).length ∨
       255 ≤ (tagOf (s.ctxOf home) s.cur.lcore (Dw.tag d)).cnt
     (full → issueCmd d s = none) ∧
     (¬full → ∃ c, c.id = s.nextCmd ∧ c.dw = d ∧ c.engine = e ∧ c.issuer = .slot s.cur ∧ c.st = .locate ∧
       issueCmd d s = some (addCmd c (mapTag home s.cur.lcore (Dw.tag d) (fun t => { t with bit := false, cnt := t.cnt + 1 })
         { s with nextCmd := s.nextCmd + 1 })))) ∧
   (∀ (c : Cmd) (s : State), formatRefused c.dw = true → c.owned = [] → (∀ x ∈ s.cmds, x.id ≠ c.id) →
     ∃ x, cmdAt (addCmd c s) c.id = some x ∧ x.st = .finish ∧ x.status.toNat / 2 ^ 28 = 3 ∧ x.dw = c.dw) ∧
   (∀ (act : Nat → Bool) (ds : List (List Word)) (g i j : Nat) (s : State), let r := (issueBatch act ds g s).2
     (r.testBit i = true → act i = true ∧ g ≤ i ∧ i < g + ds.length) ∧
     (r.testBit j = true → g ≤ i → i < j → act i = true → r.testBit i = true)) ∧
   (∀ (o : FS) (s : State), o.imm.toNat / 2 ^ 7 % 8 < 5 → InOrder s → Settled s.me →
     let v := s.me
     let d := tcpCommand v o
     let rows := (v.sreg o.c).toNat / 2 ^ 16 % 2 ^ 16 + 1
     let bytes := (v.sreg o.c).toNat % 2 ^ 16 + 1
     (Dw.kind d = 0 ∧ Dw.cv d = false ∧ Dw.ws d = 8 ∧ Dw.src d = v.sreg o.b ∧ Dw.dst d = v.sreg o.a ∧
       Dw.tag d = o.imm.toNat % 2 ^ 6 ∧ Dw.ext d = [bytes, rows, 1, 1, 1, 1]) ∧
     (issueCmd d s = none → ∃ u, exec (.tcp o) s = .next u ∧ u.mem = s.mem ∧ u.cmds = s.cmds ∧
       u.me = ((v.putS o.d 0).addPend (fieldRegs 1 o.d) o.set).advance) ∧
     ∀ t, issueCmd d s = some t → ∃ u, exec (.tcp o) s = .next u ∧ u.mem = t.mem ∧ u.cmds = t.cmds ∧
       u.me = (if t.cmds.any (needsLines t.cur) then
           { (t.me.putS o.d 1).addPend (fieldRegs 1 o.d) o.set true with st := .parked .engineLines, rpend := some (.tcp o) }
         else ((t.me.putS o.d 1).addPend (fieldRegs 1 o.d) o.set).advance)) ∧
   ∀ (o : FS) (s : State) (k : Fin 32), o.a = .v k → Vt.sew s.me.vt = 64 → s.me.vl % 16 = 0 → Quiet s → Settled s.me →
     groupOk s.vrCount (Vt.grp s.me.vt) o.a = true →
     let v := s.me
     let groups := (List.range (v.vl / 16)).map fun i =>
       (List.range 16).map fun j => BitVec.ofNat 64 (vecSrc v [] o.a (Vt.grp v.vt) 64 (16 * i + j))
     let r := issueBatch (fun i => (activeMask o.toHdr v).getLsbD i) groups 0 s
     let w := match o.d with | .m i => r.1.me.setM i (BitVec.ofNat 512 r.2) | _ => r.1.me
     ∃ u, exec (.ecmd o) s = .next u ∧ u.mem = r.1.mem ∧ u.cmds = r.1.cmds ∧
       u.me = (if r.1.cmds.any (needsLines r.1.cur) then
           { w.addPend [o.d] o.set true with st := .parked .engineLines, rpend := some (.ecmd o) }
         else (w.addPend [o.d] o.set).advance)) ∧
  (∀ (id : Nat) (s : State) (c : Cmd), cmdAt s id = some c → c.wait = none →
     let d := c.dw
     (∀ l t, c.st = .acquire → c.todo = l :: t →
       (∀ w, busyFor s id (keyRange l 128) = some w →
         exec (.engineLineAcquire id) s = .next ((waitAt (.command id) w s).push (.engineLineAcquire id))) ∧
       (busyFor s id (keyRange l 128) = none → Quiet s → ∃ u x, exec (.engineLineAcquire id) s = .next u ∧ u.mem = s.mem ∧
         Tab.get u.dir l = some (.engine id) ∧ cmdAt u id = some x ∧ x.todo = t ∧ x.owned = c.owned ++ [l] ∧
         x.st = (if t = [] then .read else .acquire))) ∧
     (∀ (line : Nat) (vals : List Nat) (t : State), c.st = .read → Dw.isBoom d = false → Dw.fes d ≠ 1 → Dw.wd d % 8 = 0 → 0 < Dw.wd d → c.owned ≠ [] →
       engElems (fun n => if Dw.kind d = 1 then pure (engValue d 0 ((Dw.src d).toNat % 2 ^ Dw.ws d))
         else do
           let x ← srcElem c n
           pure (engValue d n x)) 0 c.dest.length s = (vals, none, t) →
       cmdAt t id = some c → c.dest.flatten.Nodup → (∀ ks ∈ c.dest, ks.length = Dw.wd d / 8 ∧ ∀ k ∈ ks, k < 2 ^ 62) →
       ∃ u x, exec (.engineLineFinish id line) s = .next u ∧ u.mem = t.mem ∧ cmdAt u id = some x ∧ x.st = .write ∧
         x.owned = c.owned ∧ ∀ (n : Nat) (ks : List Nat) (y j k : Nat), c.dest[n]? = some ks → vals[n]? = some y → ks[j]? = some k →
           (k, BitVec.ofNat 8 (y / 256 ^ j)) ∈ x.plan) ∧
     (∀ l, c.st = .write → c.owned.contains l = true → Dw.fes d ≠ 1 → Quiet s →
       ∃ u x, exec (.engineLineFinish id l) s = .next u ∧ u.mem = s.mem.writeCells (c.plan.filter fun x => Key.line x.1 == l) ∧
         u.dir = Tab.erase s.dir l ∧ cmdAt u id = some x ∧ x.owned = c.owned.filter (· != l) ∧
         (x.owned = [] → x.st = .finish ∧ Instr.engineCommandComplete id ∈ u.agenda)) ∧
     (c.st = .finish →
       (∀ k, Dw.fut d = false ∨ (Dw.futa d).toNat % 8 ≠ 0 → c.issuer = .slot k →
         (Tab.get s.ctxs (homeOf s k.cid)).isSome = true →
         let t := tagOf (s.ctxOf (homeOf s k.cid)) k.lcore (Dw.tag d)
         let failed : Bool := c.status.toNat / 2 ^ 28 != 0
         ∃ u, exec (.engineCommandComplete id) s = .next u ∧ u.mem = s.mem ∧ (∀ x ∈ u.cmds, x.id ≠ id) ∧
           tagOf (u.ctxOf (homeOf s k.cid)) k.lcore (Dw.tag d) =
             ⟨t.bit || decide (t.cnt ≤ 1), t.cnt - 1, t.err || failed, if failed && !t.err then c.status else t.status⟩) ∧
       (Dw.fut d = true → (Dw.futa d).toNat % 8 = 0 →
         (∀ x t, cmdFuture c s = .inr (x, t) → exec (.engineCommandComplete id) s = .next (closeCmd x t)) ∧
         ∀ t, cmdFuture c s = .inl t → exec (.engineCommandComplete id) s = .next t))) ∧
  ((∀ (seq node : Nat) (s : State) (c : Cmd) (rest : List Cmd), (participants s seq).filter (·.st == .reduce) = c :: rest →
     let r := c.route
     let own := ((List.range (Route.cnt r node)).map (· + Route.first r node)).map fun p => (c :: rest).find? fun c => Dw.pidx c.dw == p
     let kids := (Route.kids r node).map fun k => s.partials.find? fun p => p.seq == seq && p.node == k
     let inputs := (kids.filterMap id).filter fun p => !p.elems.isEmpty
     node < Route.nnode r → Route.here r node = true → (∀ p ∈ s.partials, ¬(p.seq = seq ∧ p.node = node)) →
     (∀ x ∈ own, x.isSome = true) → (∀ x ∈ kids, x.isSome = true) →
     ∃ u, exec (.boomReduce seq node) s = .next u ∧ u.mem = s.mem ∧ u.me = s.me ∧
       u.partials = s.partials ++ [⟨seq, node, if own = [] ∧ inputs = [] then [] else (List.range (Dw.count c.dw)).map fun n =>
         boomFold c.dw (own.map (fun c => c.bind fun c => (c.input[n]?).map (boomInput c.dw)) ++
           inputs.map fun p => (p.elems[n]?).join)⟩] ∧
       (if node = Route.root r then Instr.boomRootResult seq ∈ u.agenda else Instr.boomReduce seq (Route.parent r node) ∈ u.agenda)) ∧
   (∀ (d : List Word) (x : Nat × Int) (xs : List (Nat × Int)), Dw.opr d = 0 →
     (Dw.xs d = true → boomFold d ((x :: xs).map some) = some (xs.foldl (fun m y => m ||| y.1) x.1, x.2 + (xs.map (·.2)).sum)) ∧
     (Dw.xs d = false → Dw.sfmt d = 3 → xs ≠ [] → (∀ y ∈ x :: xs, 0 ≤ y.2 ∧ y.2 < 2 ^ 32) →
       boomFold d ((x :: xs).map some) = some (0, (x.2 + (xs.map (·.2)).sum) % 2 ^ 32))) ∧
   ∀ (seq : Nat) (s : State) (c : Cmd) (rest : List Cmd) (p : BoomPartial),
     (participants s seq).filter (·.st == .reduce) = c :: rest →
     s.partials.find? (fun p => p.seq == seq && p.node == Route.root c.route) = some p →
     ∃ u, exec (.boomRootResult seq) s = .next u ∧ (∀ p ∈ u.partials, p.seq ≠ seq) ∧
       ∀ i, i < Route.npart c.route → ∀ x, (c :: rest).find? (fun c => Dw.pidx c.dw == i) = some x →
         ∃ y, cmdAt u x.id = some y ∧ (y.st = .write ∨ y.st = .finish))

/-- R298: the tag waits complete when some tag of T (TWANY, TFIRST) or every one (TWALL) is set, with the set tags, the errors,
or the lowest set tag's status, error and number; T = 0 completes at once; otherwise the slot parks. R299: TCLR clears the
error and the status of the selected tags and leaves their bits, their counts and every other tag; the shared tags of a
replica group are cleared by its lead (log 32). R165, R300: BAR arrives at the barrier of its level and parks; once every
slot of the instance has arrived or ended, all that arrived go on, and the barrier starts again. -/
def Obligations.TagsAndBarriers : Prop :=
  (∀ (o : FS) (s : State), InOrder s → Settled s.me →
     let T := s.me.sreg o.a
     let any : Prop := T = 0 ∨ ∃ t, T.getLsbD t = true ∧ (myTag s t).bit = true
     let all : Prop := ∀ t, T.getLsbD t = true → (myTag s t).bit = true
     let ends (i : Instr) (x : Word) : Prop := exec i s = slotNext s fun v => v.result o.d x
     let parks (i : Instr) : Prop := exec i s = slotNext s fun v => { v with st := .parked .tagWait }
     (any → (∃ x, ends (.twany o) x ∧ ∀ t, x.getLsbD t = (T.getLsbD t && (myTag s t).bit)) ∧
       (T = 0 → ends (.tfirst o) (BitVec.allOnes 64)) ∧
       ∀ t, T.getLsbD t = true → (myTag s t).bit = true → (∀ j, j < t → T.getLsbD j = true → (myTag s j).bit = false) →
         ends (.tfirst o) ((myTag s t).status ++ (if (myTag s t).err then 1#24 else 0#24) ++ BitVec.ofNat 8 t)) ∧
     (all → ∃ x, ends (.twall o) x ∧ ∀ t, x.getLsbD t = (T.getLsbD t && (myTag s t).err)) ∧
     (¬any → parks (.twany o) ∧ parks (.tfirst o)) ∧ (¬all → parks (.twall o))) ∧
  (∀ (o : FS) (s : State), follower s = false → (Tab.get s.ctxs (homeOf s s.cur.cid)).isSome = true →
     ∃ u, exec (.tclr o) s = .next u ∧ u.me = s.me.advance ∧ u.mem = s.mem ∧ u.cmds = s.cmds ∧
       ∀ t, t < 64 → tagOf (u.ctxOf (homeOf s s.cur.cid)) s.cur.lcore t =
         if (s.me.sreg o.a).getLsbD t then { myTag s t with err := false, status := 0 } else myTag s t) ∧
  ((∀ (o : FS) (s : State), InOrder s → Settled s.me →
     let n := max 1 s.ctx.nlvl
     let l := if o.imm.getLsbD 3 then n - 2 else o.imm.toNat % 8
     let home := homeOf s s.cur.cid
     ((o.imm.getLsbD 3 = true → o.imm.toNat % 8 = 0) → l < n → (Tab.get s.ctxs home).isSome = true →
       ∃ u, exec (.bar o) s = .next u ∧ u.me = { s.me with st := .parked .barrier } ∧ u.mem = s.mem ∧
         (⟨home, s.cur.lcore, s.cur.slot⟩ : SlotKey) ∈ (barrierOf (u.ctxOf home) l (instanceOf s.me l)).arrived ∧
         (barrierFull u home (barrierOf (u.ctxOf home) l (instanceOf s.me l)) = true →
           Instr.barrierComplete home l (instanceOf s.me l) ∈ u.agenda)) ∧
     ((o.imm.getLsbD 3 = true ∧ o.imm.toNat % 8 ≠ 0) ∨ n ≤ l →
       exec (.bar o) s = .next (deliver { code := Cause.illegal, tv := (encode (.bar o)).setWidth 64 } s))) ∧
   ∀ (cid l : Nat) (inst : List Nat) (s : State),
     let b := barrierOf (s.ctxOf cid) l inst
     b.arrived ≠ [] → b.arrived.Nodup → barrierFull s cid b = true → s.groups = [] → (Tab.get s.ctxs cid).isSome = true →
     ∃ u, exec (.barrierComplete cid l inst) s = .next u ∧ u.mem = s.mem ∧
       (barrierOf (u.ctxOf cid) b.level b.inst).arrived = [] ∧ (barrierOf (u.ctxOf cid) b.level b.inst).gen = b.gen + 1 ∧
       ∀ k ∈ b.arrived, ∀ v, s.slotAt k = some v → v.st = .parked .barrier → v.swWait = false →
         ∃ w, u.slotAt k = some w ∧ w.st = .ready ∧ w.pc = v.advance.pc ∧ w.s = v.s ∧ w.v = v.v)

/-- R173 to R175, R307, R308, R349: a message enters the end of its target's inbox, MRECV and MPOLL take the oldest; a full inbox
parks the sender, an empty one the receiver, and MPOLL then gives zeros. The cut closes when the sums of the cores' counts
match, and else the sums are made again. -/
def Obligations.Messages : Prop :=
  (∀ (o : FS) (s : State),
    let t := s.me.sreg o.a
    let k : SlotKey := leadKey s ⟨s.cur.cid, t.toNat % 2 ^ 32, t.toNat / 2 ^ 32 % 16⟩
    let m : Msg := ⟨s.me.sreg o.b, o.imm.setWidth 16, s.cur.lcore, s.cur.slot, colourOf s s.core s.cur.cid⟩
    let good : Prop := t.toNat / 2 ^ 36 = 0 ∧ hasSlot s.ctx (t.toNat % 2 ^ 32) (t.toNat / 2 ^ 32 % 16) = true
    (¬good → exec (.msend o) s = slotNext s fun v => v.result o.d 1) ∧
    (good → InOrder s → Settled s.me → (∀ x ∈ s.senders, x.2.1 ≠ k) →
      (∀ w, s.slotAt k = some w → w.inbox.length < 8 → (s.ctxOf k.cid).st = .running →
        colourOf s (coreOfSlot s k) k.cid = m.colour → (∀ x ∈ (Tab.get (s.ctxOf k.cid).mail k.lcore).getD [], x.1 ≠ k.slot) →
        ∃ u x, exec (.msend o) s = .next u ∧ u.me.pc = s.me.advance.pc ∧ u.me.s = (s.me.putS o.d 0).s ∧ u.mem = s.mem ∧
          u.slotAt k = some x ∧ x.inbox = w.inbox ++ [m]) ∧
      (deliverMsg k m s = none → ∃ u, exec (.msend o) s = .next u ∧
        u.me = { s.me with st := .parked .send, rpend := some (.msend o) } ∧ u.senders = s.senders ++ [(s.cur, k, m)]))) ∧
  (∀ (o : FS) (s : State) (i : Fin 64), o.d = .s i → 1 ≤ i.val → i.val ≤ 62 →
    (∀ m rest, s.me.inbox = m :: rest → InOrder s → Settled s.me → (∀ x ∈ s.senders, x.2.1 ≠ s.cur) →
      (∀ x ∈ (Tab.get (s.ctxOf s.cur.cid).mail s.cur.lcore).getD [], x.1 ≠ s.cur.slot) →
      let v := { s.me with inbox := rest }
      let info : Word := BitVec.ofNat 64 (m.core * 2 ^ 32 + 2 ^ 31 + m.slot * 2 ^ 16 + m.tag.toNat)
      ∀ j ∈ [Instr.mrecv o, .mpoll o], exec j s =
        .next { s with me := ((v.setS i m.payload).setS (Fin.ofNat 64 (i.val + 1)) info).advance }) ∧
    (s.me.inbox = [] → exec (.mrecv o) s = slotNext s (fun v => { v with st := .parked .recv }) ∧
      exec (.mpoll o) s = slotNext s fun v => ((v.setS i 0).setS (Fin.ofNat 64 (i.val + 1)) 0).advance)) ∧
  ∀ (cid : Nat) (s : State), exec (.colourCutSum cid) s = .next
    (if ((s.ctxOf cid).sentOld.map (·.2)).sum = ((s.ctxOf cid).recvOld.map (·.2)).sum then s.report (.cut cid true)
     else (s.report (.cut cid false)).push (.colourCutSum cid))

/-- R170, R171, R302, R303: FUTRES resolves an EMPTY or WAITING future with its value and raises DOUBLE_RESOLVE on any other; the
continuations that a WAITING word leads to are spawned in the order of their registration, with the value and the outcome. FUTREG
answers 2 for a refused packet, else what the registration answers: on an EMPTY future it records the packet and makes the word
WAITING on the record, on a WAITING one it links the record behind the last, and on a resolved one it spawns at once. R152, R166,
R301: TSPAWN answers 1 for a refused packet and 2 for a grove without a share, and else places its task behind those placed before;
the spill ring refills the hardware queue, a pending continuation enters the ring while it has space, and of the TSPAWNs that are
parked those go on for whose task there is space now. -/
def Obligations.FuturesAndTasks : Prop :=
  let calm (s : State) : Prop := ∀ c ∈ s.ctxs, c.2.spill = [] ∧ ∀ r ∈ c.2.records, r.pending = false
  let spawned (r : Nat × CRec) (x : Nat) (flt : Bool) : QTask :=
    ⟨r.1, r.2.lgrove, { r.2.pkt with usr := BitVec.ofNat 32 x, flt := flt }⟩
  ((∀ (o : FS) (s t : State) (acc : Acc) (k : Nat),
     let a := s.me.sreg o.a
     let w : Word := BitVec.ofNat 64 (t.mem.read k 8)
     let x := (s.me.sreg o.b).toNat % 2 ^ 32
     s.me.st = .ready → Quiet s → s.Inv → Settled s.me → a.toNat % 8 = 0 → Reaches s a 8 .rmw .future t acc → acc.keys = keyRange k 8 →
     k % 8 = 0 → homeRoom t (atomHome t k) = true →
     (Fut.state w < 2 →
       (∃ u, exec (.futres o) s = .next u ∧ u.me = s.me.advance ∧
         u.mem.read k 8 = (Fut.word 2 0 x).toNat ∧ OnlyBytes (keyRange k 8) t u) ∧
       ∃ u, exec (.futresFault o) s = .next u ∧ u.me = s.me.advance ∧
         u.mem.read k 8 = (Fut.word 3 0 x).toNat ∧ OnlyBytes (keyRange k 8) t u) ∧
     (∀ (rs : List (Nat × CRec)) (g : Nat), Fut.state w = 1 → Chain t s.ctx.tenant k (Fut.head w) rs →
       rs.length ≤ recCount t s.ctx.tenant → calm t → (∀ r ∈ rs, physGrove (t.ctxOf r.1) r.2.lgrove = some g) →
       (t.groveOf g).tasks.length + rs.length ≤ 256 → ∀ i flt, (i, flt) ∈ [(Instr.futres o, false), (.futresFault o, true)] →
       ∃ u, exec i s = .next u ∧ u.mem.read k 8 = (Fut.word (if flt then 3 else 2) 0 x).toNat ∧
         (u.groveOf g).tasks = (t.groveOf g).tasks ++ rs.map (fun r => spawned r x flt) ∧
         ∀ r ∈ rs, ∀ y ∈ (u.ctxOf r.1).records, y.idx ≠ r.2.idx) ∧
     (2 ≤ Fut.state w → ∀ i ∈ [Instr.futres o, .futresFault o],
       exec i s = .next (deliver { code := Cause.doubleResolve, tv := a } (amoLine (some (t.core, t.cur.cid)) k t)))) ∧
   (∀ (o : FS) (s t t2 : State) (acc : Acc) (k x : Nat),
     let fa := s.me.sreg o.a
     let pa := s.me.sreg o.b
     let w : Word := BitVec.ofNat 64 (t.mem.read k 8)
     Quiet s → Settled s.me → fa.toNat % 8 = 0 → pa.toNat % 64 = 0 → Reaches s fa 8 .rmw .future t acc → acc.keys = keyRange k 8 →
     k % 8 = 0 → homeRoom t (atomHome t k) = true → loadBytes pa 64 (amoLine (some (t.core, t.cur.cid)) k t) = .ok x t2 →
     let reg := futRegister (t2.core, t2.cur.cid) (homeOf t2 t2.cur.cid) k (homeShare t2).lgrove w (packetOf x) t2
     (packetRefused x = true → exec (.futreg o) s = slotNext t2 fun v => v.result o.d 2) ∧
     (packetRefused x = false → reg = none → exec (.futreg o) s = slotNext t2 fun v => { v with st := .parked .record }) ∧
     ∀ d u, packetRefused x = false → reg = some (d, u) → exec (.futreg o) s = slotNext u fun v => v.result o.d (BitVec.ofNat 64 d)) ∧
   ∀ (core : Nat × Nat) (cid k lg : Nat) (w : Word) (p : TaskPacket) (s : State) (c : Ctx), Tab.get s.ctxs cid = some c → Quiet s →
     s.Inv → c.records.length < Nat.min c.recSize recLimit →
     (Fut.state w = 0 →
       ∃ idx t r, futRegister core cid k lg w p s = some (0, t) ∧ t.mem.read k 8 = (Fut.word 1 (recName c.pool idx) 0).toNat ∧
         (∀ x ∈ c.records, x.idx ≠ idx) ∧ 0 < idx ∧ idx < 2 ^ 20 ∧ (t.ctxOf cid).records = c.records ++ [r] ∧ r.idx = idx ∧ r.fut = k ∧ r.pkt = p ∧
         r.lgrove = lg ∧ OnlyBytes (keyRange k 8) s t) ∧
     (∀ rs l, Fut.state w = 1 → Chain s c.tenant k (Fut.head w) (rs ++ [l]) → rs.length < recCount s c.tenant →
       l.2 ∈ (s.ctxOf l.1).records →
       ∃ idx t, futRegister core cid k lg w p s = some (0, t) ∧ t.mem = s.mem ∧ (∃ r ∈ (t.ctxOf cid).records, r.idx = idx ∧ r.fut = k ∧ r.pkt = p) ∧
         (∀ x ∈ c.records, x.idx ≠ idx) ∧ ∃ r ∈ (t.ctxOf l.1).records, r.idx = l.2.idx ∧ r.next = recName c.pool idx) ∧
     (∀ g, 2 ≤ Fut.state w → calm s → physGrove c lg = some g → (s.groveOf g).tasks.length < 256 →
       ∃ t, futRegister core cid k lg w p s = some (1, t) ∧ t.mem = s.mem ∧ (t.ctxOf cid).records = c.records ∧
         (t.groveOf g).tasks = (s.groveOf g).tasks ++
           [⟨cid, lg, { p with usr := BitVec.ofNat 32 (Fut.value w), flt := decide (Fut.state w = 3) }⟩])) ∧
  ((∀ (o : FS) (s t : State) (x : Nat), (s.me.sreg o.a).toNat % 64 = 0 → loadBytes (s.me.sreg o.a) 64 s = .ok x t →
     let lg := if o.sub.getLsbD 0 then (t.me.sreg o.b).toNat else (homeShare t).lgrove
     let home := homeOf t t.cur.cid
     let mine : Bool := (t.ctxOf home).shares.any (·.lgrove == lg)
     (packetRefused x = true → exec (.tspawn o) s = slotNext t fun v => v.result o.d 1) ∧
     (packetRefused x = false → mine = false → exec (.tspawn o) s = slotNext t fun v => v.result o.d 2) ∧
     (packetRefused x = false → mine = true → InOrder t → Settled t.me →
       (∀ u, placeTask home lg (packetOf x) t = some u → exec (.tspawn o) s = slotNext u fun v => v.result o.d 0) ∧
       (placeTask home lg (packetOf x) t = none → exec (.tspawn o) s = slotNext t fun v => { v with st := .parked (.spawn lg) }))) ∧
   (∀ (cid lg g : Nat) (p : TaskPacket) (s : State), calm s → physGrove (s.ctxOf cid) lg = some g →
     ((s.groveOf g).tasks.length < 256 →
       placeTask cid lg p s = some (s.mapGrove g fun x => { x with tasks := x.tasks ++ [⟨cid, lg, p⟩] })) ∧
     (256 ≤ (s.groveOf g).tasks.length →
       (0 < (s.ctxOf cid).spillSize → placeTask cid lg p s = some (s.mapCtx cid fun c => { c with spill := c.spill ++ [(lg, p)] })) ∧
       ((s.ctxOf cid).spillSize = 0 → placeTask cid lg p s = none))) ∧
   (let noPending (s : State) : Prop := ∀ c ∈ s.ctxs, ∀ r ∈ c.2.records, r.pending = false
    let space (s : State) (k : SlotKey) (lg : Nat) : Prop :=
      let c := s.ctxOf (homeOf s k.cid)
      c.spill.length < c.spillSize ∨ ∃ g, physGrove c lg = some g ∧ (s.groveOf g).tasks.length < 256 ∧ ∀ x ∈ c.spill, x.1 ≠ lg
    ∀ (g : Nat) (s : State), noPending s →
     (256 ≤ (s.groveOf g).tasks.length ∨ spillFor s g = none → ∃ u, exec (.taskSpillRefill g) s = .next u ∧ u.mem = s.mem ∧
       (u.groveOf g).tasks = (s.groveOf g).tasks ∧ u.ctxs = s.ctxs ∧
       ∀ k v, s.slotAt k = some v →
         ((∃ lg, v.st = .parked (.spawn lg) ∧ space s k lg) → u.slotAt k = some { v with st := .ready }) ∧
         ((∀ lg, v.st = .parked (.spawn lg) → ¬space s k lg) → u.slotAt k = some v)) ∧
     ∀ cid lg p, (s.groveOf g).tasks.length = 255 → spillFor s g = some (cid, lg, p) →
       ∃ u, exec (.taskSpillRefill g) s = .next u ∧ u.mem = s.mem ∧ (u.groveOf g).tasks = (s.groveOf g).tasks ++ [⟨cid, lg, p⟩] ∧
         (u.ctxOf cid).spill = ((s.ctxOf cid).spill).erase (lg, p)) ∧
   ∀ (cid : Nat) (s : State) (c : Ctx) (r : CRec), Tab.get s.ctxs cid = some c → c.records.filter (·.pending) = [r] →
     ∃ u, exec (.continuationPlace cid) s = .next u ∧ u.mem = s.mem ∧
       (c.spill.length < c.spillSize → (u.ctxOf cid).spill = c.spill ++ [(r.lgrove, r.pkt)] ∧
         (u.ctxOf cid).records = c.records.filter (·.idx != r.idx)) ∧
       (c.spillSize ≤ c.spill.length → u.ctxOf cid = c))

/-- R168, R184, R187, R304: NEXTT answers 3 while an item is held; a task comes before a tile and enters at its packet's entry
with its arguments; the next tile of the own cruiser is taken with its coordinates; else the answer is 2. R184: without
Morton order a tile number is the mixed-radix number of its indices in the order of the permutation, and each coordinate is
the index times the tile size; SERP reverses every second pass. -/
def Obligations.WorkItems : Prop :=
  (∀ (o : FS) (s : State),
     let home := homeOf s s.cur.cid
     let own := ownCruiser s
     (s.me.work ≠ .none → exec (.nextt o) s = slotNext s fun v => v.result o.d 3) ∧
     (∀ p t0 f t1 q u, s.me.work = .none → takeTask home (homeShare s).lgrove s = some (p, t0) → InOrder s → Settled s.me →
       loadFmt { s.me.fmt with fa := p.fa, fb := p.fb, fo := p.fo, spa := p.spa, scla := p.scla, sclb := p.sclb, cbka := p.cbka, cbkb := p.cbkb } s = .ok f t1 →
       takeTask home (homeShare t1).lgrove t1 = some (q, u) →
       exec (.nextt o) s = slotNext u fun v =>
         { (((((v.putS o.d 1).setS 1 (v.pc + 16)).setS 3 p.arg).setS 4 (p.usr.setWidth 64)).setS 5 (if p.flt then 1 else 0)) with
           saved := s.me.fmt, fmt := f, work := .task p, pc := p.entry }) ∧
     (s.me.work = .none → takeTask home (homeShare s).lgrove s = none →
       (∀ x f t, (s.ctxOf home).cruisers.find? (·.crid == own) = some x → x.next < x.limit → (Tab.get s.ctxs home).isSome = true →
         tileFmt (recordOf s) x.next s = .ok f t → t.ctxs = s.ctxs →
         ∃ u, exec (.nextt o) s = .next u ∧ u.mem = t.mem ∧ u.me.work = .tile own x.next ∧ u.me.tid = BitVec.ofNat 64 x.next ∧
           (∀ d : Fin 6, u.me.tc[d] = tileCoord (recordOf s) x.next d) ∧ u.me.fmt = f ∧ u.me.saved = t.me.fmt ∧
           u.me.s = (t.me.putS o.d 0).s ∧
           (u.ctxOf home).cruisers = (s.ctxOf home).cruisers.map fun y => if y.crid = own then { y with next := y.next + 1 } else y) ∧
       ((∀ x, (s.ctxOf home).cruisers.find? (·.crid == own) = some x → x.limit ≤ x.next) →
         exec (.nextt o) s = slotNext s fun v => v.result o.d 2))) ∧
  (∀ (r : List Word) (t p q : Nat), Rec.mort r = false → Rec.ndim r = 2 → Rec.perm r 0 = p → Rec.perm r 1 = q → p < 2 → q < 2 →
     p ≠ q → 0 < Rec.tilesOf r p →
     let n := Rec.tilesOf r p
     let first := if Rec.serp r p = true ∧ t / n % 2 = 1 then n - 1 - t % n else t % n
     let m := Rec.tilesOf r q
     let second := if Rec.serp r q = true ∧ t / n / m % 2 = 1 then m - 1 - t / n % m else t / n % m
     tileCoord r t p = BitVec.ofNat 64 (first * Rec.tsz r p) ∧ tileCoord r t q = BitVec.ofNat 64 (second * Rec.tsz r q) ∧
     ∀ d, 2 ≤ d → tileCoord r t d = 0)

/-- R188, R305: RIVE answers 1 while the own cruiser has tiles and 2 when no cruiser has two; else it takes the upper half of the
remainder of a victim, and no tile is lost. The victim is one of the own grove, else of the own die, else of the module, there the
one with the most tiles left, and of those the lowest CRID. R169, R187, R306, R356: DONE counts its tile or takes one from its
task's join word, which with JF a last decrement also makes full, and restores the format context; a replica that does not lead
only drops its item; DONE with end ends the slot and clears its reservations. -/
def Obligations.RivingAndRetirement : Prop :=
  (∀ (o : FS) (s : State),
     let home := homeOf s s.cur.cid
     let own := ownCruiser s
     let c := s.ctxOf home
     let has : Prop := ∃ x, c.cruisers.find? (·.crid == own) = some x ∧ x.next < x.limit
     (has → exec (.rive o) s = slotNext s fun v => v.result o.d 1) ∧
     (¬has → riveVictim c own = none → exec (.rive o) s = slotNext s fun v => v.result o.d 2) ∧
     ∀ v, ¬has → riveVictim c own = some v → c.st ≠ .swapped → (Tab.get s.ctxs home).isSome = true →
       let mid := v.next + (v.limit - v.next + 1) / 2
       v.next < mid ∧ mid < v.limit + 1 ∧ v.crid ≠ own ∧
       ∃ u, exec (.rive o) s = .next u ∧ u.me = s.me.result o.d 0 ∧ u.mem = s.mem ∧
         (u.ctxOf home).cruisers = (c.cruisers.map fun x =>
           if x.crid = v.crid then { x with limit := mid, gen := x.gen + 1 }
           else if x.crid = own then { x with base := mid, next := mid, limit := v.limit, gen := x.gen + 1 } else x)) ∧
  (∀ (c : Ctx) (own : Nat), c.cruisers.Pairwise (fun x y => x.crid < y.crid) →
     let grove (x : Nat) : Nat := x / max 1 c.cpg
     let far (x : Cruiser) : Nat :=
       if grove x.crid = grove own then 0 else if dieOfGrove c (grove x.crid) = dieOfGrove c (grove own) then 1 else 2
     let rich (x : Cruiser) : Prop := x ∈ c.cruisers ∧ x.crid ≠ own ∧ 2 ≤ x.limit - x.next
     (riveVictim c own = none ↔ ∀ x, ¬rich x) ∧
     ∀ v, riveVictim c own = some v → rich v ∧ ∀ x, rich x →
       far v < far x ∨ (far v = far x ∧ (x.limit - x.next < v.limit - v.next ∨
         (x.limit - x.next = v.limit - v.next ∧ v.crid ≤ x.crid)))) ∧
  (∀ (o : FS) (s : State),
     (s.me.work = .none → exec (.done o) s = slotNext s Slot.advance) ∧
     (follower s = true → s.me.work ≠ .none →
       exec (.done o) s = slotNext s fun v => { v with work := .none, fmt := v.saved }.advance) ∧
     (∀ crid t, follower s = false → s.me.work = .tile crid t → (Tab.get s.ctxs (homeOf s s.cur.cid)).isSome = true →
       ∃ u, exec (.done o) s = .next u ∧ u.me = { s.me with work := .none, fmt := s.me.saved }.advance ∧ u.mem = s.mem ∧
         (u.ctxOf (homeOf s s.cur.cid)).cruisers = (s.ctxOf (homeOf s s.cur.cid)).cruisers.map
           fun x => if x.crid = crid then { x with donec := x.donec + 1 } else x) ∧
     (∀ p, s.me.work = .task p → p.join = 0 →
       exec (.done o) s = slotNext s fun v => { v with work := .none, fmt := v.saved }.advance) ∧
     (∀ p t a k, follower s = false → s.me.work = .task p → p.join ≠ 0 → Settled s.me → Quiet s → s.Inv →
       Reaches s p.join 8 .rmw .amoAddSwap t a → a.keys = keyRange k 8 → k % 8 = 0 → k < 2 ^ 62 → homeRoom t (atomHome t k) = true →
       (p.jf = false ∨ t.mem.read k 8 ≠ 1 ∨ (∀ e ∈ t.waits, e.word ≠ k) →
         ∃ u, exec (.done o) s = .next u ∧ u.me = { s.me with work := .none, fmt := s.me.saved }.advance ∧
           u.mem.read k 8 = (t.mem.read k 8 + 2 ^ 64 - 1) % 2 ^ 64 ∧ OnlyBytes (keyRange k 8) t u ∧
           ∀ w, isFull u w = (isFull t w || (decide (w = k) && p.jf && decide (t.mem.read k 8 = 1)))) ∧
       (p.jf = true → t.mem.read k 8 = 1 → Key.isDevice k = false →
         let m := { performWrite (cellsFor (keyRange k 8) 0) t with empties := Sorted.erase t.empties k }
         ∃ u, exec (.done o) s = .next u ∧ u.mem = (feScan k t.waits m).mem ∧ u.empties = (feScan k t.waits m).empties ∧
           u.waits = (feScan k t.waits m).waits)) ∧
     ((s.me.work = .none ∨ ∃ crid t, s.me.work = .tile crid t) → InOrder s → Settled s.me →
       (∀ l, Tab.get s.launches s.ctx.lid = some l → l.pre = false) →
       ∃ u, exec (.doneEnd o) s = .next u ∧ u.me.st = .ended ∧ u.me.work = .none ∧ u.mem = s.mem ∧ u.cur = s.cur ∧
         ∀ r ∈ u.resvs, r.key ≠ s.cur))

/-- R309 to R311, R356: outside replica mode RLEAD copies its operand and RSIG gives 0; in it RSIG gives a part of the signature;
RCHK says whether a minority was dropped; a replica that waits takes the registers that the lead forwarded. R354, R357: the
signatures of two replicas must agree; of three, a minority of one is left out. A vote is taken when all have arrived or 2^24
cycles have passed, and waits while a member is stopped; one that passes lets every member go on, and a mismatch kills the
launch. -/
def Obligations.Replicas : Prop :=
  ((∀ (o : FS) (s : State),
     exec (.rlead o) s = slotNext s (fun v => v.result o.d (s.me.sreg o.a)) ∧
     (Alone s → exec (.rsig o) s = slotNext s fun v => v.result o.d 0) ∧
     (¬Alone s → exec (.rsig o) s = slotNext s fun v => v.result o.d (match o.sub.toNat with
       | 0 => v.sig.crc1 | 1 => v.sig.crc2 | 2 => BitVec.ofNat 64 v.sig.seq | 3 => v.sig.sitepc | _ => v.sig.sitedyn.setWidth 64)) ∧
     exec (.rchk o) s = slotNext s fun v => { v.result o.d (if v.minority then 1 else 0) with minority := false }) ∧
   ∀ (k : SlotKey) (s : State) (v : Slot) (f : Forward), Sound s → s.slotAt k = some v → v.st = .parked .forward →
     v.fwd.find? (·.pc == v.pc) = some f → f.trap = none → f.item = none → f.ended = false → f.retired = false →
     ∃ u w, exec (.replicaForwardArrive k) s = .next u ∧ u.slotAt k = some w ∧ w.st = .ready ∧ w.vl = f.vl.getD v.vl ∧ u.mem = s.mem ∧
       w.pc = v.advance.pc ∧ w.s = (f.sregs.foldl (fun v p => v.setS (Fin.ofNat 64 p.1) p.2) v).s ∧
       w.v = f.vregs.foldl (fun v p => v.set (Fin.ofNat 32 p.1) p.2) v.v ∧
       w.m = (f.mregs.foldl (fun v p => v.setM (Fin.ofNat 8 p.1) p.2) v).m ∧
       (f.entries = [] → ∀ q : Fin 4, w.q[q] = (v.q[q]).drop (f.pops.filter (Fin.ofNat 4 · = q)).length)) ∧
  ((∀ (p q r : Nat) (x y z : Word × Word × Nat × Word × BitVec 32),
     voteOf [(p, some x), (q, some y)] = (if x = y then .pass else .mismatch) ∧
     voteOf [(p, some x), (q, none)] = .mismatch ∧
     voteOf [(p, some x), (q, some y), (r, some z)] =
       (if x = y then (if y = z then .pass else .without r) else if x = z then .without q else if y = z then .without p
        else .mismatch)) ∧
   (∀ (lid lcore slot : Nat) (s : State) (g : Group), groupAt s lid lcore slot = some g → g.sigs ≠ [] →
     let vote : Instr := .comparatorVote lid lcore slot
     let timeout : Instr := .signatureTimeout lid lcore slot
     let waited := ((s.coreOf ((memberCore s g g.lead).getD 0)).cyc - g.since).toNat
     (launchOver s lid = true → exec vote s = .next s ∧ exec timeout s = .next s) ∧
     (launchOver s lid = false → memberStopped s g = true →
       (allArrived s g = true → exec vote s = .next (s.push vote)) ∧
       (allArrived s g = false → exec timeout s = .next (s.push timeout))) ∧
     (launchOver s lid = false → memberStopped s g = false →
       (allArrived s g = true → exec vote s = .next (voteGroup vote g s)) ∧
       (allArrived s g = false → exec timeout s = .next (if 2 ^ 24 ≤ waited then voteGroup timeout g s else s.push timeout)))) ∧
   ∀ (e : Instr) (g : Group) (s : State) (cid : Nat) (v : Slot), Quiet s → replicaCid s g.lid g.lead = some cid →
     s.slotAt ⟨cid, g.lcore, g.slot⟩ = some v → v.rpend = none → s.atoms = [] →
     (∀ r c w b x, r ∈ g.members → replicaCid s g.lid r = some c → s.slotAt ⟨c, g.lcore, g.slot⟩ = some w → b ∈ w.rbuf →
       x ∈ b.bytes → lineOwner s x.1 = none) →
     (voteOf (groupSigs s g) = .pass → ∀ r c w, r ∈ g.members → replicaCid s g.lid r = some c →
       s.slotAt ⟨c, g.lcore, g.slot⟩ = some w → ∃ x, (voteGroup e g s).slotAt ⟨c, g.lcore, g.slot⟩ = some x ∧ x.st = .ready ∧
         x.rbuf = [] ∧ x.sig.cnt = 0 ∧ x.sig.crc1 = BitVec.allOnes 64 ∧ x.sig.crc2 = BitVec.allOnes 64) ∧
     (voteOf (groupSigs s g) = .mismatch → Instr.launchKill (s.ctxOf cid).lid ∈ (voteGroup e g s).agenda))

/-- R22, R32, R64: a walk leaves what the translation leaves; a served page fault resumes its slot at the fault, with what the
slot holds for other instructions, or delivers it, or lets its command go on; overflow mode ends once its area is empty and
its list is short. That a page fault inside a handler keeps the held progress, the stream resume and the loop of the instruction that
was interrupted is the model's reading (log 35, DEDUCED): R32 and R337 speak of the instruction that traps. -/
def Obligations.NarunoServices : Prop :=
  (∀ (cid : Nat) (va : Word) (kind : AccKind) (s : State),
    let c := s.ctxOf cid
    let r : Req := { cid := cid, tenant := c.tenant, xroot := c.xroot, pcore := c.shares.head?.map (·.pcore) }
    (∀ t bits pte, translate s r va kind = .ok (t, bits, pte) → exec (.pageWalk cid va kind) s = .next t) ∧
    (∀ f, translate s r va kind = .error f → exec (.pageWalk cid va kind) s = .next s)) ∧
  (∀ (k : SlotKey) (s : State) (v : Slot) (p : PageFault) (ptes : List PteWrite), s.slotAt k = some v → v.pf = some p →
    p.fwd = false → p.stream = false → (s.ctxOf k.cid).st = .running →
    (∃ u w, exec (.pageFaultService (.slot k) true ptes) s = .next u ∧ u.slotAt k = some w ∧ w.st = .ready ∧ w.pc = p.e ∧
      w.pf = none ∧ w.s = v.s ∧ w.v = v.v ∧ w.loop = v.loop ∧ w.sres = v.sres ∧ (∀ h ∈ v.held, h.pc ≠ p.e → h ∈ w.held) ∧
      u.mem = ptes.foldl (fun m x => m.write x.pa 8 x.value.toNat) s.mem) ∧
    (v.hbase ≠ 0 → ¬(p.fetch = true ∧ p.e = v.hbase) →
      ∃ u w, exec (.pageFaultService (.slot k) false ptes) s = .next u ∧ u.slotAt k = some w ∧ w.st = .ready ∧
        w.pc = v.hbase ∧ w.epc = p.e &&& ~~~15#64 ∧ w.cause = 4 ∧ w.tval = p.tv ∧ w.tinfo = p.ti ∧ w.pf = none ∧ u.mem = s.mem)) ∧
  (∀ (id : Nat) (valid : Bool) (s : State) (c : Cmd) (va : Word), cmdAt s id = some c → c.wait = some va →
    ∃ u x, exec (.pageFaultService (.command id) valid []) s = .next u ∧ cmdAt u id = some x ∧ x.wait = none ∧
      x.served = (if valid then c.served else va :: c.served) ∧ x.st = c.st ∧ u.mem = s.mem ∧ cmdEvent c ∈ u.agenda) ∧
  ∀ (home : Nat) (s : State), s.ovfHomes.contains home = true →
    let n := (s.waits.filter fun x => feHome s x.word == home).length
    ((∀ e ∈ s.overflow, e.1 ≠ home) → n < 3072 → exec (.overflowService home) s = .next { s with ovfHomes := Sorted.erase s.ovfHomes home }) ∧
    ((∀ e ∈ s.overflow, e.1 = home → feReady s e.2.op e.2.word = false) → (3072 ≤ n ∨ ∃ e ∈ s.overflow, e.1 = home) →
      exec (.overflowService home) s = .next (s.push (.overflowService home)))

/-- R26, R98, R334, R359: a peer's access that the export table permits is performed and answered, a repeated atomic is answered
from the replay filter alone, and a refused one changes nothing; the host reaches the memory that its tenant owns once PCIe
is ready. That a host access to any other page, or before PCIe is ready, has no effect is the model's reading (log 34, DEDUCED): R98
only names the host as a party. -/
def Obligations.IncomingAccesses : Prop :=
  (∀ (p : PeerAccess) (s : State), Quiet s → s.Inv →
    let sh := peerOpShape p.op
    let known := s.filter.find? fun f => f.1 == p.src && f.2.1 == p.seq && sh.2.2 != 1
    let allowed := (exportAllows s.exports p.src p.pa sh.1 sh.2.1).isSome && servable s p.pa sh.1 && p.pa % sh.2.2 == 0
    (∀ f, known = some f → exec (.peerAccessArrive p) s = .next (s.report (.peerReply p.src p.seq true f.2.2))) ∧
    (known = none → peerWaiting s p = false → allowed = false →
      exec (.peerAccessArrive p) s = .next (s.report (.peerReply p.src p.seq false 0))) ∧
    (known = none → peerWaiting s p = false → allowed = true → s.atoms = [] → s.atomWait = [] →
        (∀ k ∈ keyRange p.pa sh.1, lineOwner s k = none) →
      (∀ n, p.op = .load n → exec (.peerAccessArrive p) s =
        .next (s.report (.peerReply p.src p.seq true (BitVec.ofNat 64 (ofBytes ((keyRange p.pa n).map s.mem.byte)))))) ∧
      (∀ n x, p.op = .store n x → ∃ u, exec (.peerAccessArrive p) s = .next u ∧
        u.mem = s.mem.writeCells (cellsFor (keyRange p.pa n) x.toNat) ∧ u.outbox = s.outbox ++ [.peerReply p.src p.seq true 0]) ∧
      ∀ w8 aop x, p.op = .amo w8 aop x → let b := if w8 then 8 else 4
        let f : AmoFun := ⟨w8, aop.toNat, false, 0, x.toNat⟩
        ∃ u, exec (.peerAccessArrive p) s = .next u ∧ OnlyBytes (keyRange p.pa b) s u ∧
          u.mem.read p.pa b = ((f.apply (s.mem.read p.pa b)).1.getD 0) % 256 ^ b ∧
          let r := amoResult w8 (s.mem.read p.pa b)
          u.outbox = s.outbox ++ [.peerReply p.src p.seq true r] ∧ (p.src, p.seq, r) ∈ u.filter)) ∧
  ∀ (tenant pa : Nat) (s : State), Quiet s →
    (∀ op n, (op = .load n ∨ ∃ x, op = .store n x) →
      (isReady s .pcie = false ∨ ∃ k ∈ keyRange pa n, (deviceCheck s tenant k 1).isSome = true) → exec (.hostAccessArrive tenant pa op) s = .next s) ∧
    (∀ n, isReady s .pcie = true → s.atoms = [] → s.atomWait = [] →
      (∀ k ∈ keyRange pa n, deviceCheck s tenant k 1 = none ∧ lineOwner s k = none) →
      exec (.hostAccessArrive tenant pa (.load n)) s =
        .next (s.report (.hostData tenant (BitVec.ofNat 64 (ofBytes ((keyRange pa n).map s.mem.byte))))) ∧
      ∀ x, ∃ u, exec (.hostAccessArrive tenant pa (.store n x)) s = .next u ∧ u.me = s.me ∧
        u.mem = s.mem.writeCells (cellsFor (keyRange pa n) x.toNat))

/-- R28, R359: a reply to a peer store performs it or keeps the refusal, the earliest of the slot's stores, for the next ordering
point; a request is applied once when a reply comes, and sent again up to 16 times. -/
def Obligations.OutgoingRequests : Prop :=
  (∀ (k : SlotKey) (s : State) (v : Slot) (b : BufStore) (t : List BufStore), Quiet s → s.slotAt k = some v → v.inflight = b :: t →
    (peerReachable s b.modId = true → v.st ≠ .absent → ∃ u w, exec (.peerStoreReply k true) s = .next u ∧ u.slotAt k = some w ∧
      w.inflight = t ∧ w.refused = v.refused ∧ u.mem = s.mem.writeCells b.bytes ∧
      w.st = (if v.st = .parked .reply then .ready else v.st)) ∧
    ∃ u w, exec (.peerStoreReply k false) s = .next u ∧ u.slotAt k = some w ∧ w.inflight = t ∧ u.mem = s.mem ∧
      let new : Refused :=
        ⟨b.ord, b.va, b.modId, if peerReachable s b.modId then Reason.peerRejected else Reason.peerAbsent, b.elem⟩
      w.refused = (match v.refused with
        | some x => if x.ord ≤ b.ord then some x else some new
        | none => some new)) ∧
  ∀ (k : SlotKey) (s : State) (v : Slot) (r : PeerReq), Quiet s → s.Inv → s.slotAt k = some v → v.peerReq = some r →
    (∀ w8 aop x, r.op = .amo w8 aop x → peerReachable s r.modId = true → v.st = .parked .atomic → v.swWait = false →
      let b := if w8 then 8 else 4
      let f : AmoFun := ⟨w8, aop.toNat, false, 0, x.toNat⟩
      let m := s.mem.read r.key b
      ∃ u w, exec (.peerRequestResend k true) s = .next u ∧ u.slotAt k = some w ∧ w.st = .ready ∧ w.peerReq = none ∧
        w.getS (Fin.ofNat 64 r.dest) = (if Fin.ofNat 64 r.dest = (0 : Fin 64) then 0 else amoResult w8 m) ∧
        u.mem.read r.key b = ((f.apply m).1.getD 0) % 256 ^ b ∧ OnlyBytes (keyRange r.key b) s u) ∧
    (r.tries < 16 → ∃ u w, exec (.peerRequestResend k false) s = .next u ∧ u.slotAt k = some w ∧
      w.peerReq = some { r with tries := r.tries + 1 } ∧ u.mem = s.mem ∧ w.st = v.st ∧ Instr.peerRequestResend k true ∈ u.agenda)

/-- R344: a suspect unit that passes its test returns to service and one that fails stays fenced; a failed link port is
quarantined, and its bit of rdymap alone is clear. R69: a write of eictl keeps the bits that are not reserved and arms modes
0 and 1; mode 3 takes no effect; an armed mode 2 marks its bank failed at once and leaves ARM clear. -/
def Obligations.UnitsAndErrors : Prop :=
  ((∀ (u : UnitId) (pass : Bool) (s : State), s.suspects.contains u = true → ∃ t, exec (.suspectUnitTest u pass) s = .next t ∧
     t.suspects.contains u = false ∧ t.mem = s.mem ∧
     t.quarantined.contains u = (s.quarantined.contains u && !pass) ∧
     ∀ w, w ≠ u → t.quarantined.contains w = s.quarantined.contains w) ∧
   ∀ (p : Fin 24) (s : State), ∃ t, exec (.linkPortFailure p) s = .next t ∧ t.quarantined.contains (.linkPort p.val) = true ∧
     ∀ i, t.rdymap.getLsbD i = (s.rdymap.getLsbD i && i != 16 + p.val)) ∧
  (∀ (a : ArrayId) (v : Word) (s : State), arrayExists a = true →
     let x := v &&& 0xF0F80001FFFFFFFF
     ∀ i ∈ [Instr.eictlInjectData a v, .eictlInjectCheck a v, .eictlMarkBankFailed a v],
       (eiMode x < 2 ∨ (eiMode x = 2 ∧ eiArm x = false) → exec i s = .next (s.mapRas a fun r => { r with eictl := x })) ∧
       (eiMode x = 3 → exec i s = .next s) ∧
       (eiMode x = 2 → eiArm x = true → hasBanks a = true → eiBank x < 18 → ∃ t, exec i s = .next t ∧
         (t.rasOf a).failed.contains (eiBank x) = true ∧ ((t.rasOf a).eictl).getLsbD 63 = false))

/-- R48, R53, R55, R71, R75: gcfg takes a value whose portions fit, at once or, when a portion grows over a grant, later; where the
images kept in the shadow portion still fit, it changes no memory. That a further write replaces or cancels a pending growth, and that
at any change the lines whose set it changes leave the grove cache, is the model's reading (log 47, DEDUCED): R55 speaks of the part
removed. memcfg is written only while no page has an owner; masks that would leave no
way take no effect. R7, R211, R334, R335, R322: a 1 clears a status bit of elog and reserved bits read 0; a ready function
sets its bit of rdymap alone; a checkpoint is taken only while every context is swapped out; a restart maps the queues whose
pending bit is set, and reports to every tenant its profiles and its two errata words (R360), OLD losing no bit. -/
def Obligations.DeviceRegisterWrites : Prop :=
  (let takes (g : Nat) (x : Word) (s t : State) : Prop :=
     (t.groveOf g).gcfg = x ∧ (t.groveOf g).grow = none ∧ (usedShadow s g ≤ shadowUnits x → t.mem = s.mem ∧ t.me = s.me) ∧
       ∀ l, l ∈ (t.groveOf g).cache → l ∈ (s.groveOf g).cache ∧ setOf (s.groveOf g).gcfg l.line = setOf x l.line
   (∀ (g : Nat) (v : Word) (s : State), let x := v &&& 0x3FF
     (g < 96 → cacheUnits x + shadowUnits x ≤ 128 →
       (grantsOverlap s g x = false → ∃ t, exec (.gcfgWrite g v) s = .next t ∧ takes g x s t) ∧
       (grantsOverlap s g x = true → ∃ t, exec (.gcfgWrite g v) s = .next t ∧ (t.groveOf g).gcfg = (s.groveOf g).gcfg ∧
         (t.groveOf g).grow = some x ∧ Instr.gcfgGrowTakeEffect g ∈ t.agenda)) ∧
     (128 < cacheUnits x + shadowUnits x → exec (.gcfgWrite g v) s = .next s)) ∧
   (∀ (g : Nat) (x : Word) (s : State), (s.groveOf g).grow = some x →
     (grantsOverlap s g x = false → ∃ t, exec (.gcfgGrowTakeEffect g) s = .next t ∧ takes g x s t) ∧
     (grantsOverlap s g x = true → exec (.gcfgGrowTakeEffect g) s = .next (s.push (.gcfgGrowTakeEffect g)))) ∧
   (∀ (v : Word) (s : State),
     ((v &&& 3).toNat ≤ 1 → (∀ o ∈ s.owners, o.2 = 255) → exec (.memcfgWrite v) s = .next { s with memcfg := v &&& 3 }) ∧
     (1 < (v &&& 3).toNat ∨ (∃ o ∈ s.owners, o.2 ≠ 255) → exec (.memcfgWrite v) s = .next s)) ∧
   ∀ (cid : Nat) (v : Word) (s : State),
     (v.extractLsb' 0 16 ≠ 0#16 → v.extractLsb' 16 8 ≠ 0#8 →
       exec (.cmaskWrite cid v) s = .next (s.mapCtx cid fun c => { c with cmask := v &&& 0xFFFFFF })) ∧
     (v.extractLsb' 0 16 = 0#16 ∨ v.extractLsb' 16 8 = 0#8 → exec (.cmaskWrite cid v) s = .next s) ∧
     (v.extractLsb' 0 16 ≠ 0#16 → exec (.gwmaskWrite cid v) s = .next (s.mapCtx cid fun c => { c with gwmask := v &&& 0xFFFF })) ∧
     (v.extractLsb' 0 16 = 0#16 → exec (.gwmaskWrite cid v) s = .next s)) ∧
  ((∀ (a : ArrayId) (v : Word) (s : State), arrayExists a = true → ∃ t, exec (.registerWrite (.elog a) v) s = .next t ∧
     t.mem = s.mem ∧ ∀ i, (t.rasOf a).elog.getLsbD i = ((s.rasOf a).elog.getLsbD i && !(v.getLsbD i && (i == 62 || i == 63)))) ∧
   (∀ (v : Word) (s : State), exec (.registerWrite .rdymap v) s = .next s) ∧
   (∀ (cid : Nat) (v : Word) (s : State), (Tab.get s.ctxs cid).isSome = true → ∃ t, exec (.registerWrite (.xroot cid) v) s = .next t ∧
     (t.ctxOf cid).xroot = v &&& 0xFF00FFFFFFFF0003) ∧
   (∀ (f : DevFunction) (ready : Bool) (s : State), (∀ n : Fin 24, f = .link n → s.fencedLinks.contains n.val = false) →
     ∃ t, exec (.functionReady f ready) s = .next t ∧ t.mem = s.mem ∧ t.queues = s.queues ∧
       ∀ i, t.rdymap.getLsbD i = if i = readyBit f then ready else s.rdymap.getLsbD i) ∧
   (∀ (area : Nat) (s : State),
     ((∀ c ∈ s.ctxs, c.2.st = .swapped ∨ c.2.st = .destroyed) → ∃ m, m.undef = s.mem.undef ∧
       m.cells = s.mem.cells.filter (fun c => decide (c.1 < 0xC000000000)) ∧
       exec (.checkpoint area) s = .next (s.report (.checkpoint area m s.owners (s.empties.filter fun k => decide (k < 0xC000000000))))) ∧
     ((∃ c ∈ s.ctxs, c.2.st ≠ .swapped ∧ c.2.st ≠ .destroyed) → exec (.checkpoint area) s = .next s)) ∧
   ∀ (s : State), ∃ t, exec .narunoRestart s = .next t ∧ t.mem = s.mem ∧ t.queues = s.queues ∧
     (∀ q ∈ s.queues, q.pending = true → q.st = .unmapped → Instr.queueMap q.tenant q.qid ∈ t.agenda) ∧
     ∀ n x, (n, x) ∈ s.tenants → Report.profiles n t.profiles ∈ t.outbox ∧
       ∃ old, Report.errata n old (errataOf s n).2 ∈ t.outbox ∧ ∀ i, (errataOf s n).1.getLsbD i = true → old.getLsbD i = true)

/-- R39, R328, R333, R154: a new tenant has an empty event ring with its size in the header; a plug-in injects only into arrays
of its tenant's contexts, its answers take the effect they name, and one that does not answer is disabled. That the contexts of a
destroyed tenant stay is the model's reading (log 47, DEDUCED). Reset keeps memory
and gives every core the default slot table. -/
def Obligations.TenantsAndPlugins : Prop :=
  (∀ (n ring en : Nat) (x : Word) (s : State), n < 64 → 4 ≤ en → en ≤ 16 → Tab.get s.tenants n = none → s.Inv →
    ∃ t y, exec (.tenantCreate n ring en x) s = .next t ∧ Tab.get t.tenants n = some y ∧ y.ring = ring ∧ y.en = en ∧ y.fnOn = true ∧
      (isReady s .pcie = true → (hostKeys s n ring 64).Nodup → ofBytes ((hostKeys s n ring 32).map t.mem.byte) = 0 ∧
        ofBytes ((hostKeys s n (ring + 32) 8).map t.mem.byte) = en)) ∧
  (∀ (n : Nat) (s : State), (Tab.get s.tenants n).isSome = true → ∃ t, exec (.tenantDestroy n) s = .next t ∧
    t.tenants = Tab.erase s.tenants n ∧ t.me = s.me ∧ t.ctxs = s.ctxs) ∧
  (∀ (n : Nat) (a : ArrayId) (x m : Word) (s : State), pluginOn s n = true →
    (ownsArray s n a = true → exec (.inject n a x m) s =
      .next ((writeEictl a x (s.mapRas a fun r => { r with eimask := m })).report (.pluginDone n 0))) ∧
    (ownsArray s n a = false → exec (.inject n a x m) s = .next (s.report (.pluginDone n 1)))) ∧
  (∀ (n : Nat) (a : ArrayId) (x m : Word) (s : State), pluginOn s n = false →
    exec (.inject n a x m) s = .next (s.report (.pluginDone n 0))) ∧
  (∀ (n : Nat) (s : State) (x : Tenant), Tab.get s.tenants n = some x → ∃ t, exec (.pluginCallbackTimeout n) s = .next t ∧
    t.mem = s.mem ∧ Tab.get t.tenants n = some { x with plugin := false } ∧
    (∀ a y m, Instr.inject n a y m ∉ t.agenda) ∧
    (∀ a y m, Instr.inject n a y m ∈ s.agenda → Report.pluginDone n 0 ∈ t.outbox) ∧
    (∀ q r, Instr.onHalt n q r ∈ t.agenda → r = 0) ∧ (∀ r, Instr.onBudget n r ∈ t.agenda → r = 0) ∧
    ∀ lid l r, Tab.get s.launches lid = some l → l.tenant = n → Instr.onLaunch lid r ∈ t.agenda → r = 0) ∧
  (∀ (n q : Nat) (r : Word) (s : State),
    (r = 0 → exec (.onHalt n q r) s = .next s) ∧
    ∀ u, r = 1 → resumeBody n q s = .ok () u → exec (.onHalt n q r) s = .next u) ∧
  (∀ (n : Nat) (r : Word) (s : State), r.extractLsb' 48 16 = 0#16 →
    exec (.onBudget n r) s = .next (s.mapTenant n fun x => { x with tbud := r })) ∧
  (∀ (n : Nat) (u : UnitId) (r : Word) (s : State), exec (.onQuarantine n u r) s = .next s ∧ exec (.onRestart n r) s = .next s) ∧
  ∀ (s : State), ∃ t, exec .reset s = .next t ∧ t.mem = s.mem ∧ t.owners = s.owners ∧ t.ctxs = [] ∧ t.cmds = [] ∧ t.queues = [] ∧
    t.me = Slot.reset ∧ t.rdymap = 0 ∧
    ∀ c, (t.coreOf c).tab = #v[0x8786858483828180, 0x8F8E8D8C8B8A8988, 0x8786858483828180, 0x8F8E8D8C8B8A8988] ∧
      (t.coreOf c).newTab = none

/-- R317 to R321: a new queue is UNMAPPED; a doorbell raises NIDX, is folded into SHADOW while the queue has no port, and halts
with OVERRUN beyond the ring; mapping takes max(SHADOW, NIDX); resuming clears CODE and fetches at PIDX; a destroyed queue
drains first. R334: without PCIe a doorbell has no effect, and without the firmware a resume or a destroy waits. That a halted queue
keeps the packet read before the failing one, and keeps its port, so that a resume gives MAPPED, is the model's reading (log 39,
DEDUCED). -/
def Obligations.QueueStates : Prop :=
  (∀ (n qid : Nat) (qcb base : Word) (e : Nat) (s u : State),
    let q : Queue := { tenant := n, qid := qid, qcb := qcb, base := base, log2n := e, rdidx := 0, nidx := 0, next := 0, st := .unmapped, code := 0, pidx := 0, port := none, pending := false, fetched := none, granted := false, started := [], waiting := none, abort := false }
    (∀ x, queueAt s n qid = some x → x.st = .destroyed) → (Tab.get s.tenants n).isSome = true → qid < 4096 → qcb.getLsbD 56 = false →
    base.getLsbD 56 = false → qcb.toNat % 64 = 0 → base.toNat % 4096 = 0 → 4 ≤ e → e ≤ 20 → isReady s .firmware = true →
    landStore n qcb 64 (qcbInit q) { s with queues := s.queues.filter (fun x => !(x.tenant == n && x.qid == qid)) ++ [q] } = .ok () u →
    exec (.queueCreate n qid qcb base e) s = .next u) ∧
  (∀ (n qid : Nat) (v : Word) (s : State) (q : Queue), queueAt s n qid = some q →
    (functionOn s n = false → exec (.doorbellWrite n qid v) s = .next s) ∧
    (functionOn s n = true → q.st = .mapped → v.toNat ≤ q.rdidx + q.size → ∃ t, exec (.doorbellWrite n qid v) s = .next t ∧ t.mem = s.mem ∧
      queueAt t n qid = some { q with nidx := Nat.max q.nidx v.toNat }) ∧
    (∀ u, functionOn s n = true → q.st = .mapped → q.rdidx + q.size < v.toNat → haltQueue n qid 4 q.rdidx s = .ok () u →
      exec (.doorbellWrite n qid v) s = .next u) ∧
    (∀ u, functionOn s n = true → landAtomic n (q.qcb + 24) ⟨true, 7, false, 0, v.toNat⟩ (mapQueue n qid (fun q => { q with pending := true }) s) = .ok () u →
      (q.st = .unmapped → exec (.doorbellWrite n qid v) s = .next (u.pushOnce (.queueMap n qid))) ∧
      (q.st = .halted ∨ q.st = .draining → exec (.doorbellWrite n qid v) s = .next u)) ∧
    (q.st = .destroyed → exec (.doorbellWrite n qid v) s = .next s)) ∧
  (∀ (n qid : Nat) (s : State) (q : Queue), queueAt s n qid = some q →
    (∀ p v u w, q.st = .unmapped → isReady s .firmware = true → freePort s = some p → landRead n (q.qcb + 24) 8 s = .ok v u →
      v ≤ q.rdidx + q.size → StatusWritten u { q with st := .mapped, port := some p, nidx := Nat.max v q.nidx, pending := false } w →
      exec (.queueMap n qid) s = .next (queueGoesOn n qid w)) ∧
    (∀ u x w, q.st = .mapped →
      landAtomic n (q.qcb + 24) ⟨true, 7, false, 0, q.nidx⟩ (mapQueue n qid (fun q => { q with pending := true }) s) = .ok () u →
      queueAt u n qid = some x → x.st = .mapped → StatusWritten u { x with st := .unmapped, port := none } w →
      exec (.queueUnmap n qid) s = .next (if x.next < x.nidx || x.fetched.isSome then w.pushOnce (.queueMap n qid) else w)) ∧
    (isReady s .firmware = false → ∀ i ∈ [Instr.queueResume n qid, .queueDestroyFinish n qid, .queueDestroyAbort n qid],
      exec i s = .next (s.push i)) ∧
    (∀ w, isReady s .firmware = true → q.st = .halted → q.port = none → StatusWritten s { q with code := 0, next := q.pidx, st := .unmapped } w →
      exec (.queueResume n qid) s = .next (w.pushOnce (.queueMap n qid))) ∧
    (∀ v u w, isReady s .firmware = true → q.st = .halted → q.port.isSome = true → landRead n (q.qcb + 24) 8 s = .ok v u → v ≤ q.rdidx + q.size →
      StatusWritten u { q with code := 0, next := q.pidx, st := .mapped, nidx := Nat.max v q.nidx, pending := false } w →
      exec (.queueResume n qid) s = .next (queueGoesOn n qid w)) ∧
    (∀ w, isReady s .firmware = true → q.st ≠ .draining → q.st ≠ .destroyed →
      StatusWritten s { q with st := .draining, abort := false, port := none, fetched := none, granted := false } w →
      exec (.queueDestroyFinish n qid) s = .next (queueGoesOn n qid w)) ∧
    (∀ w, isReady s .firmware = true → q.st ≠ .draining → q.st ≠ .destroyed → (∀ l ∈ (queueGoesOn n qid w).launches, ¬(l.2.tenant = n ∧ l.2.qid = qid)) →
      StatusWritten s { q with st := .draining, abort := true, port := none, fetched := none, granted := false } w →
      ∃ t, exec (.queueDestroyAbort n qid) s = .next t ∧ ∀ x, queueAt t n qid = some x → x.waiting = none ∧ ∀ p ∈ x.started, Pkt.typ p.dw = 1) ∧
    ∀ w, q.st = .draining → q.started = [] →
      StatusWritten s { q with st := .destroyed, code := if q.abort then 7 else 0, pidx := q.rdidx } w →
      exec (.queueDrainDone n qid) s = .next (postEvent n 3 (if q.abort then 7 else 0) qid q.rdidx w)) ∧
  ∀ (n qid code pidx : Nat) (s u : State) (q : Queue), queueAt s n qid = some q → q.st = .mapped ∨ q.st = .unmapped →
    let keep := match q.fetched with | some f => decide (f.1 < pidx) | none => false
    let h : Queue := { q with st := .halted, code := code, pidx := pidx, fetched := if keep then q.fetched else none, granted := keep && q.granted }
    landStore n (q.qcb + 32) 8 (statusWord h) s = .ok () u → queueAt u n qid = some q →
    ∃ w, haltQueue n qid code pidx s = .ok () w ∧ queueAt w n qid = some h

/-- R317, R321, R323, R324, R328, R329: a packet is read whole and counted in RDIDX, and one that the rules refuse halts its
queue with BAD_PACKET; an event is written behind the others of its ring, then WIDX, then vector 0 is raised; a loss is told
once there is space. R330, R334: a period tops every balance up to at most BUD and clears the lending count; a cycle grants
one ready packet of a tenant with tokens, or of one that may borrow, and takes a token from its balance. -/
def Obligations.PacketsAndArbiter : Prop :=
  ((∀ (n qid w : Nat) (s u r : State) (q : Queue), queueAt s n qid = some q → canFetch q = true → isReady s .landing = true →
     landRead n (packetAddr q q.next) 64 s = .ok w u →
     let d := (List.range 8).map fun i => (BitVec.ofNat 64 (w / 2 ^ (64 * i)) : Word)
     let p : Queue := { q with rdidx := Nat.max q.rdidx (q.next + 1), next := q.next + 1 }
     landStore n (q.qcb + 16) 8 p.rdidx (mapQueue n qid (fun _ => p) u) = .ok () r →
     (packetBad d = false → exec (.packetFetch n qid) s =
       .next ((mapQueue n qid (fun x => { x with fetched := some (q.next, d) }) r).pushOnce .arbiterCycle)) ∧
     ∀ y, packetBad d = true → haltQueue n qid 1 q.next r = .ok () y → exec (.packetFetch n qid) s = .next y) ∧
   (∀ (n typ code qid pidx : Nat) (s : State) (x : Tenant), Tab.get s.tenants n = some x → x.overflow = false → ringFull s n x = false → s.Inv →
     (hostKeys s n x.ring (64 + 16 * 2 ^ x.en)).Nodup →
     let at' := 64 + 16 * (ringRead s n x 0 % 2 ^ x.en)
     let t := postEvent n typ code qid pidx s
     ringRead t n x at' = (typ + code % 256 * 2 ^ 8 + qid % 4096 * 2 ^ 16) % 2 ^ 64 ∧
     ringRead t n x (at' + 8) = pidx % 2 ^ 64 ∧ ringRead t n x 0 = (ringRead s n x 0 + 1) % 2 ^ 64 ∧
     ∃ y, Tab.get t.tenants n = some y ∧ Tab.getD y.irqs 0 0 = Tab.getD x.irqs 0 0 + 1) ∧
   ∀ (n : Nat) (s : State) (x : Tenant), Tab.get s.tenants n = some x → x.overflow = true →
     (ringFull s n x = false → exec (.eventOverflowPost n) s = .next (putOverflow n x s)) ∧
     (ringFull s n x = true → exec (.eventOverflowPost n) s = .next (s.push (.eventOverflowPost n)))) ∧
  ((∀ (s : State), ∃ t, exec .arbiterPeriodStart s = .next t ∧ t.lent = 0 ∧ t.mem = s.mem ∧ t.queues = s.queues ∧
     ∀ n x, Tab.get s.tenants n = some x →
       ∃ p, Tab.get t.tenants n = some { x with bal := min (x.bal + x.bud) x.bud, plugin := p } ∧ (x.plugin = true → p = true)) ∧
   (∀ (s : State), isReady s .landing = false → exec .arbiterCycle s = .next (s.push .arbiterCycle)) ∧
   ∀ (s : State), isReady s .landing = true →
     (arbiterPick s = none → (∀ q ∈ s.queues, packetReady s q = false) → exec .arbiterCycle s = .next s) ∧
     (∀ n b, arbiterPick s = some (n, b) →
       ∃ x, (n, x) ∈ s.tenants ∧ (if b then -(x.dcap : Int) < x.bal else 0 < x.bal) ∧ ∃ q ∈ s.queues, q.tenant = n ∧ packetReady s q = true) ∧
     ∀ n b x qid q f, arbiterPick s = some (n, b) → Tab.get s.tenants n = some x →
       nextAfter (Sorted.ofList ((s.queues.filter fun q => q.tenant == n && packetReady s q).map (·.qid))) x.rr = some qid →
       queueAt s n qid = some q → q.fetched = some f →
       ∃ t, exec .arbiterCycle s = .next t ∧ t.mem = s.mem ∧ queueAt t n qid = some { q with granted := true } ∧
         Tab.get t.tenants n = some { x with bal := x.bal - 1, rr := qid } ∧ t.lent = (if b then s.lent + 1 else s.lent) ∧
         startEvent n qid f.2 ∈ t.agenda)

/-- R324, R325: a COPY starts and its pieces end at 64 KiB boundaries of the destination; when all have completed its word is
written; a COND jumps, skips or waits by its test. R325, R326: a SIGNAL writes or adds its value and then raises its
interrupt; raises in an open hold-off window give one interrupt when it closes; a BARRIER-AND waits until every one of its
words is at least VAL. The model's choices: the grove whose engine a piece goes to (log 12, DESIGN CHOICE), a window that closes by
the count of steps and an event that turns up too early asking again (log 2, DESIGN CHOICE). -/
def Obligations.LandingPackets : Prop :=
  ((∀ (n qid x : Nat) (d : List Word) (s : State) (q : Queue), Granted s n qid 2 q x d →
     let u := addStarted n qid x d false (taken s q)
     exec (.copy n qid) s = .next (u.push (.copyCommandIssue n qid x (chooseGrove u n)))) ∧
   (∀ (n qid x g : Nat) (s : State) (p : Started), startedAt s n qid x issuesOn = some p → g ∈ tenantGroves s n → engineRoom s (.skidder g) = true →
     let k := Nat.min (65536 - ((copyDst p.dw).toNat + p.next) % 65536) (copyLen p.dw - p.next)
     let u := addCmd (newCmd s (.skidder g) (.packet n qid p.start) 0 n (g * 16) (pieceCmd p.dw p.next))
       (mapStarted n qid p.start (fun p => { p with cmds := p.cmds ++ [s.nextCmd], next := p.next + k }) { s with nextCmd := s.nextCmd + 1 })
     exec (.copyCommandIssue n qid x g) s =
       .next (if p.next + k < copyLen p.dw then u.push (.copyCommandIssue n qid x (chooseGrove u n)) else u) ∧
     (pieceCmd p.dw p.next)[1]? = some (copySrc p.dw + BitVec.ofNat 64 p.next) ∧
     (pieceCmd p.dw p.next)[2]? = some (copyDst p.dw + BitVec.ofNat 64 p.next) ∧
     (pieceCmd p.dw p.next)[4]? = some (BitVec.ofNat 64 (k - 1))) ∧
   (∀ (n qid x : Nat) (s u : State) (p : Started), startedAt s n qid x copyDone = some p →
     (p.fail = none → copyCw p.dw = 0 → exec (.copyPacketComplete n qid x) s = .next (finishPacket n qid p.start s)) ∧
     (p.fail = none → copyCw p.dw ≠ 0 → landStore n (copyCw p.dw) 8 (copyCv p.dw).toNat s = .ok () u →
       exec (.copyPacketComplete n qid x) s = .next (finishPacket n qid p.start u)) ∧
     ∀ f w, p.fail = some f → copyCw p.dw ≠ 0 →
       landStore n (copyCw p.dw) 8 (0x8000000000000000 ||| f.2.setWidth 64 : Word).toNat s = .ok () u →
       haltQueue n qid 6 x (finishPacket n qid p.start u) = .ok () w → exec (.copyPacketComplete n qid x) s = .next w) ∧
   (∀ (n qid x w : Nat) (d : List Word) (s u : State) (q : Queue), Granted s n qid 3 q x d →
     landRead n (Dw.w d 1) 8 (taken s q) = .ok w u →
     let b := packetTest (Pkt.cmp d) (BitVec.ofNat 64 w &&& Dw.w d 3) (Dw.w d 2)
     let goes (y : Nat) : Prop := exec (.cond n qid) s = .next (queueGoesOn n qid (mapQueue n qid (fun q => { q with next := y }) u))
     (Pkt.act d = 0 → goes (if b then x + 1 + Pkt.cnt d else x + 1)) ∧
     (Pkt.act d = 1 → b = false → goes (x + 1)) ∧
     (Pkt.act d = 1 → b = true → Pkt.cnt d ≤ x → q.nidx ≤ x - Pkt.cnt d + q.size → goes (x - Pkt.cnt d)) ∧
     (∀ y, Pkt.act d = 1 → b = true → x < Pkt.cnt d ∨ x - Pkt.cnt d + q.size < q.nidx → haltQueue n qid 5 x u = .ok () y →
       exec (.cond n qid) s = .next y) ∧
     (Pkt.act d = 2 → b = true → goes (x + 1)) ∧
     (Pkt.act d = 2 → b = false → exec (.cond n qid) s = .next ((addStarted n qid x d true u).push (.condWaitRetest n qid)))) ∧
   ∀ (n qid w : Nat) (s u : State) (p : Started), waitingStart s n qid = some p → Pkt.typ p.dw = 3 → landRead n (Dw.w p.dw 1) 8 s = .ok w u →
     exec (.condWaitRetest n qid) s = .next
       (if packetTest (Pkt.cmp p.dw) (BitVec.ofNat 64 w &&& Dw.w p.dw 3) (Dw.w p.dw 2) then finishPacket n qid p.start u
        else u.push (.condWaitRetest n qid))) ∧
  ((∀ (n qid x : Nat) (d : List Word) (s u : State) (q : Queue), Granted s n qid 4 q x d →
     (if Pkt.op d = 0 then landStore n (Dw.w d 1) 8 (Dw.w d 2).toNat
      else landAtomic n (Dw.w d 1) ⟨true, 0, false, 0, (Dw.w d 2).toNat⟩) (taken s q) = .ok () u →
     exec (.signal n qid) s = .next (queueGoesOn n qid (if Pkt.intr d then signalIrq n d u else u))) ∧
   (∀ (n : Nat) (d : List Word) (s : State), Pkt.coal d = false → signalIrq n d s = raiseIrq n (Pkt.vec d) s) ∧
   (∀ (n vec : Nat) (s : State) (x : Tenant) (w : Window), Tab.get s.tenants n = some x → Tab.get x.windows vec = some w →
     (s.tick < w.close → exec (.holdOffWindowClose n vec) s = .next (s.push (.holdOffWindowClose n vec))) ∧
     (w.close ≤ s.tick → ∃ t y, exec (.holdOffWindowClose n vec) s = .next t ∧ t.mem = s.mem ∧ Tab.get t.tenants n = some y ∧
       y.windows = Tab.erase x.windows vec ∧
       (functionOn s n = true → Tab.getD y.irqs vec 0 = Tab.getD x.irqs vec 0 + (if w.merged then 1 else 0)))) ∧
   (∀ (n qid x : Nat) (d : List Word) (b : Bool) (s u : State) (q : Queue), Granted s n qid 5 q x d →
     barrierTest n d (taken s q) = .ok (some b) u →
     exec (.barrierAnd n qid) s = .next (if b then queueGoesOn n qid u else (addStarted n qid x d true u).push (.barrierAndRetest n qid x))) ∧
   (∀ (n qid : Nat) (b : Bool) (s u : State) (p : Started), waitingStart s n qid = some p → Pkt.typ p.dw = 5 →
     barrierTest n p.dw s = .ok (some b) u →
     let again : Instr := .barrierAndRetest n qid p.idx
     exec again s = .next (if b then finishPacket n qid p.start u else u.push again)) ∧
   ∀ (n v w : Nat) (a : Word) (s u : State), landRead n a 8 s = .ok w u → wordsMeet n v [a] s = .ok (some (decide (v ≤ w))) u)

/-- R54, R178, R179, R191 to R194, R331, R333, R334: a record that passes its checks waits for a place, and another ends at once
with its status, as does one whose grant fits no grant area or whose chosen place has a GBASE that the grove cannot give; a placed
launch starts; cores, groves and dies report in turn and the root writes the completion record; a fatal cause stops the launch. The
model's choices: an empty choice is filled in by the first place that fits, at the launch's turn (log 12, DESIGN CHOICE); a hierarchy
that no device could hold is refused before the grant is looked at (log 43, DEDUCED). -/
def Obligations.Launches : Prop :=
  (∀ (n qid x w : Nat) (d : List Word) (s u : State) (q : Queue), Granted s n qid 1 q x d →
    landRead n (Dw.w d 1) 256 (addStarted n qid x d false (taken s q)) = .ok w u →
    let r := (List.range 32).map fun i => (BitVec.ofNat 64 (w / 2 ^ (64 * i)) : Word)
    let lst := recordCheck u n r (Pkt.pre d)
    (lst = 0 → ∃ t l, exec (.launch n qid) s = .next t ∧ Tab.get t.launches u.nextId = some l ∧ l.st = .waiting ∧ l.recd = r ∧
      l.tenant = n ∧ l.qid = qid ∧ l.pidx = x ∧ l.start = s.nextId ∧ t.mem = u.mem ∧ t.nextId = u.nextId + 1) ∧
    ∀ y, lst ≠ 0 → writeRecord n (Rec.compl r) (completionRecord lst (if lst = 6 then 0x14 else 0) 0 none none) u = .ok true y →
      exec (.launch n qid) s = .next (finishPacket n qid s.nextId y)) ∧
  (∀ (lid : Nat) (c : PlaceChoice) (s : State) (l : Launch), Tab.get s.launches lid = some l → l.st = .waiting →
    let ch := choiceFor s l.recd c
    let fits : Bool := isReady s .firmware && coresOk s l.recd ch && poolsFree s l.tenant (replicasHere l.recd) && stacksReady s l.tenant
    (c.cores ≠ [] → ch = c) ∧
    (fits = true → grantsOk s l.recd ch = true → exec (.launchPlace lid c) s = .next (startLaunch lid l ch s)) ∧
    (∀ u, fits = true → grantsOk s l.recd ch = false → refuseWaiting lid 4 s = .ok () u → exec (.launchPlace lid c) s = .next u) ∧
    (fits = false → hierarchyInvalid s l.tenant l.recd = true → exec (.launchPlace lid c) s = .next (s.push (.launchWaitRefuse lid))) ∧
    (fits = false → hierarchyInvalid s l.tenant l.recd = false →
      (∀ u, grantPossible s l.recd = false → refuseWaiting lid 4 s = .ok () u → exec (.launchPlace lid c) s = .next u) ∧
      (grantPossible s l.recd = true → exec (.launchPlace lid c) s = .next (s.push (.launchPlace lid ⟨[], []⟩)))) ∧
    (∀ u, hierarchyInvalid s l.tenant l.recd = true → refuseWaiting lid 5 s = .ok () u → exec (.launchWaitRefuse lid) s = .next u) ∧
    (exec (.onLaunch lid 0) s = .next (s.push (.launchPlace lid ⟨[], []⟩))) ∧
    (exec (.onLaunch lid 1) s = .next ((s.mapLaunch lid fun l => { l with deferred := true }).pushOnce .arbiterPeriodStart)) ∧
    ∀ u, refuseWaiting lid 5 s = .ok () u → exec (.onLaunch lid 2) s = .next u) ∧
  (∀ (r : List Word) (pre : Bool) (lvl : List (Nat × Nat)), let v := startSlot r pre lvl
    v.st = .ready ∧ v.pc = (if pre then Rec.ppc r else Rec.entry r) ∧ v.getS 3 = Rec.arg r ∧ (∀ i, i ≠ 3 → v.getS i = 0) ∧
    v.lvl = lvl ∧ v.fmt = Rec.fmt r) ∧
  (∀ (lid lc : Nat) (s : State) (l : Launch) (sh : Share), Tab.get s.launches lid = some l → l.st = .running → coreIdle s l lc = true →
    Tab.get l.coreMsgs lc = none → (homeCtx s l).shares.find? (·.lcore == lc) = some sh →
    ∃ t y, exec (.coreDoneMessage lid lc) s = .next t ∧ t.mem = s.mem ∧ Tab.get t.launches lid = some y ∧
      Tab.get y.coreMsgs lc = some (coreSummary s l lc) ∧ Instr.nodeDoneMessage lid sh.lgrove ∈ t.agenda) ∧
  (∀ (lid node : Nat) (s : State) (l : Launch) (ms : List Summary), Tab.get s.launches lid = some l → l.st = .running →
    childMessages s l node = some ms →
    (node ≠ 256 → ∃ t y, exec (.nodeDoneMessage lid node) s = .next t ∧ t.mem = s.mem ∧ Tab.get t.launches lid = some y ∧
      Tab.get y.nodeMsgs node = some (combine ms) ∧ Instr.nodeDoneMessage lid (parentNode s l node) ∈ t.agenda) ∧
    ∀ u, node = 256 → l.kill = none →
      writeRecord l.tenant (Rec.compl l.recd)
        (completionRecord 0 (match (combine ms).first with | some f => f.1 | none => 0) (combine ms).err (some l) (combine ms).first) s = .ok true u →
      let e := u.mapLaunch lid fun l => { l with st := .ended }
      exec (.nodeDoneMessage lid node) s = .next (finishPacket l.tenant l.qid l.start
        { l.cids.foldl (fun s cid => destroyContext cid s) e with groups := e.groups.filter (·.lid != lid) })) ∧
  (∀ (l : Launch) (lst cause : Nat) (err : BitVec 32) (first : Option (Nat × Word × Word)),
    (completionRecord lst cause err (some l) first).length = 8 ∧ completionRecord lst 0 0 none none = [2 ^ 63 + lst * 2 ^ 48, 0, 0, 0, 0, 0, 0, 0]) ∧
  ∀ (lid : Nat) (s : State) (l : Launch), Tab.get s.launches lid = some l → l.kill.isSome = true →
    exec (.launchKill lid) s = .next (stopLaunch lid .killed s)

/-- R40, R41, R56, R89, R186, R345: a pre-emption is requested, and stops a context's slots and clears its reservations once
their instructions have reached a stop point; a swapped-out context keeps its image, whose address is reported; a restored
one goes on; a destroyed one has no slots; pages change their tags together; an assigned granule is zero and full. The model's
readings: what an image carries, and that the address reported is also the cruisers' area (log 40, DEDUCED); where an instruction is
cut is drawn freely (log 3, DEDUCED). -/
def Obligations.Contexts : Prop :=
  (∀ (cid : Nat) (s : State), (Tab.get s.ctxs cid).isSome = true → (s.ctxOf cid).st = .running → launchOver s (s.ctxOf cid).lid = false →
    ((s.ctxOf cid).stopping = false → ∃ t, exec (.preemptStop cid) s = .next t ∧ (t.ctxOf cid).stopping = true ∧ t.mem = s.mem ∧
      Instr.preemptStop cid ∈ t.agenda ∧ ∀ k v, s.slotAt k = some v → ∃ n, t.slotAt k = some { v with cut := n }) ∧
    ((s.ctxOf cid).stopping = true →
      (∀ l ∈ s.late, l.key.cid ≠ cid) →
      (∀ e ∈ s.allSlots, e.1.cid = cid → e.2.st ≠ .parked .engineLines ∧ (e.2.st = .ready → e.2.cut = none)) →
      ∃ t, exec (.preemptStop cid) s = .next t ∧ (t.ctxOf cid).st = .stopped ∧ (t.ctxOf cid).stopping = false ∧
        Instr.colourCutSum cid ∈ t.agenda ∧ (∀ r ∈ t.resvs, r.key.cid ≠ cid) ∧
        ((∀ k v, s.slotAt k = some v → k.cid = cid → v.peerReq = none) →
          ∀ k v, t.slotAt k = some v → k.cid = cid → v.st = .stopped ∨ v.st = .ended ∨ v.st = .absent))) ∧
  (∀ (cid : Nat) (area : Word) (s : State), (Tab.get s.ctxs cid).isSome = true → (s.ctxOf cid).st = .stopped →
    (coresHalted s cid = false → exec (.contextSwapOut cid area) s = .next (s.push (.contextSwapOut cid area))) ∧
    (coresHalted s cid = true → ∃ t, exec (.contextSwapOut cid area) s = .next t ∧ (t.ctxOf cid).st = .swapped ∧
      (t.ctxOf cid).img = some (takeImage cid (s.mapCtx cid fun c => { c with area := area })) ∧ (t.ctxOf cid).area = area ∧ Report.saveArea cid area area ∈ t.outbox)) ∧
  (∀ (cid : Nat) (c : PlaceChoice) (s : State), (Tab.get s.ctxs cid).isSome = true → launchOver s (s.ctxOf cid).lid = false →
    ((s.ctxOf cid).st = .stopped → exec (.contextRestore cid c) s =
      .next (if coresServe s (s.ctxOf cid) then resumeContext cid s else s.pushOnce (.contextSwapOut cid (s.ctxOf cid).area))) ∧
    ((s.ctxOf cid).st = .swapped → restoreFits s (s.ctxOf cid) (c.cores.headD []) c.gbase = true →
      exec (.contextRestore cid c) s = .next (resumeContext cid (reside cid (c.cores.headD []) c.gbase s)))) ∧
  (∀ (s : State), s.me.st = .stopped → s.me.pf = none → s.me.kept = none → s.me.sres = none →
    (restoreSlot s).me.st = .ready ∧ (restoreSlot s).me.pc = s.me.pc ∧ (restoreSlot s).me.s = s.me.s ∧ (restoreSlot s).me.v = s.me.v ∧
    ∀ h ∈ (restoreSlot s).me.held, h.pc = s.me.pc → h.live = true) ∧
  (∀ (cid : Nat) (s : State), (Tab.get s.ctxs cid).isSome = true → (s.ctxOf cid).st ≠ .destroyed →
    ∃ t, exec (.contextDestroy cid) s = .next t ∧ t = destroyContext cid s ∧ ∀ e ∈ t.slots, e.1.cid ≠ cid) ∧
  (∀ (page count tag : Nat) (s : State), tag ≤ 64 ∨ tag = 255 → page + count ≤ 0xC00000 →
    ∃ t, exec (.ownerTagChange page count tag) s = .next t ∧
      ∀ p, page ≤ p → p < page + count → ownerTag s (p * 65536) ≠ tag → ownerTag t (p * 65536) = tag) ∧
  ∀ (core g : Nat) (s : State), core < 1536 → g < 96 → Quiet s → s.Inv → (∀ r ∈ s.mem.undef, r.1 + r.2.1 ≤ 2 ^ 60) →
    let lo := Key.pool core (g * 16384)
    ∃ t, exec (.granuleAssign core g) s = .next t ∧ (∀ k, lo ≤ k → k < lo + 16384 → t.mem.byte k = 0 ∧ t.empties.contains k = false) ∧
      ∀ k, k < lo ∨ lo + 16384 ≤ k → t.mem.byte k = s.mem.byte k

/-- R296, R297: an ECMD with one active group, and a TCP, whose engine has room and whose tag counts fewer than 255, put their
command into the engine and say so in D; they go on at once, or wait until their commands hold their lines. R82, R83, R85,
R86, R120: a command takes the next line when nobody else holds it, and with the last one its ECMD or TCP goes on; a FILL
plans its value at every destination; a line is written and given up; a command without a future completes into its tag. R95,
R96: a node of this module whose participants and children are all there forms its partial and tells its parent, or the
root's event; the root's partial goes to every participant, and the partials of the reduction are gone. R317, R324, R325,
R329, R330: a packet whose bytes and whose RDIDX can be reached is read, counted and kept for its start; the OVERFLOW event
follows once there is space; a period start tops up every balance; a cycle grants the one ready packet of a tenant with
tokens. -/
def Obligations.StepsComplete : Prop :=
  (let room (s : State) (d : List Word) : Prop := engineRoom s (engineFor s.core d) = true ∧
     (tagOf (s.ctxOf (homeOf s s.cur.cid)) s.cur.lcore (Dw.tag d)).cnt < 255
   let taken (i : Instr) (d : List Word) (s u : State) : Prop :=
     (∃ c ∈ u.cmds, c.id = s.nextCmd ∧ c.dw = d ∧ c.issuer = .slot s.cur) ∧
     if u.cmds.any (needsLines s.cur) then u.me.st = .parked .engineLines ∧ u.me.pc = s.me.pc ∧ u.me.rpend = some i
     else u.me.st = .ready ∧ u.me.pc = s.me.advance.pc
   (∀ (o : FS) (s : State) (k : Fin 32) (i : Fin 8), o.a = .v k → o.d = .m i → i ≠ 0 → s.me.st = .ready → Quiet s → Settled s.me →
     Vt.sew s.me.vt = 64 → groupOk s.vrCount (Vt.grp s.me.vt) o.a = true →
     (s.me.vl = 0 → (∀ c ∈ s.cmds, needsLines s.cur c = false) →
       ∃ u, exec (.ecmd o) s = .next u ∧ u.me.getM i = 0 ∧ u.me.pc = s.me.advance.pc ∧ u.cmds = s.cmds ∧ u.mem = s.mem) ∧
     let d := (List.range 16).map fun j => BitVec.ofNat 64 (vecSrc s.me [] o.a (Vt.grp s.me.vt) 64 j)
     (s.me.vl = 16 → (activeMask o.toHdr s.me).getLsbD 0 = true → room s d →
       ∃ u, exec (.ecmd o) s = .next u ∧ u.me.getM i = 1 ∧ taken (.ecmd o) d s u)) ∧
   ∀ (o : FS) (s : State) (j : Fin 64), o.d = .s j → j ≠ 0 → o.imm.toNat / 2 ^ 7 % 8 < 5 → s.me.st = .ready → InOrder s → Settled s.me →
     room s (tcpCommand s.me o) → ∃ u, exec (.tcp o) s = .next u ∧ u.me.getS j = 1 ∧ taken (.tcp o) (tcpCommand s.me o) s u) ∧
  (∀ (id : Nat) (s : State) (c : Cmd), cmdAt s id = some c → c.wait = none → Quiet s →
     let d := c.dw
     (∀ l t, c.st = .acquire → c.todo = l :: t → s.atoms = [] → (∀ k ∈ keyRange l 128, ∀ o, lineOwner s k = some o → o = id) →
       ∃ u x, exec (.engineLineAcquire id) s = .next u ∧ u.mem = s.mem ∧ Tab.get u.dir l = some (.engine id) ∧
         cmdAt u id = some x ∧ x.todo = t ∧ x.owned = c.owned ++ [l] ∧
         ∀ k v i, t = [] → c.issuer = .slot k → s.slotAt k = some v → v.st = .parked .engineLines → v.swWait = false →
           (∃ o, i = .ecmd o ∨ i = .tcp o) → v.rpend = some i → (∀ y ∈ s.cmds, y.id ≠ id → needsLines k y = false) →
           ∃ w, u.slotAt k = some w ∧ w.st = .ready ∧ w.pc = v.advance.pc ∧ w.rpend = none) ∧
     (∀ l, c.st = .write → c.owned.contains l = true → Dw.fes d ≠ 1 →
       ∃ u x, exec (.engineLineFinish id l) s = .next u ∧ u.mem = s.mem.writeCells (c.plan.filter fun x => Key.line x.1 == l) ∧
         u.dir = Tab.erase s.dir l ∧ cmdAt u id = some x ∧ x.owned = c.owned.filter (· != l)) ∧
     (∀ l, c.st = .read → Dw.kind d = 1 → Dw.fes d ≠ 1 → Dw.wd d % 8 = 0 → 0 < Dw.wd d → c.owned ≠ [] → c.dest.flatten.Nodup →
       (∀ ks ∈ c.dest, ks.length = Dw.wd d / 8 ∧ ∀ k ∈ ks, k < 2 ^ 62) →
       let y := engValue d 0 ((Dw.src d).toNat % 2 ^ Dw.ws d)
       ∃ u x, exec (.engineLineFinish id l) s = .next u ∧ u.mem = s.mem ∧ cmdAt u id = some x ∧ x.st = .write ∧ x.owned = c.owned ∧
         ∀ (ks : List Nat) (j k : Nat), ks ∈ c.dest → ks[j]? = some k → (k, BitVec.ofNat 8 (y / 256 ^ j)) ∈ x.plan) ∧
     ∀ k, c.st = .finish → Dw.fut d = false → c.issuer = .slot k → (Tab.get s.ctxs (homeOf s k.cid)).isSome = true →
       let t := tagOf (s.ctxOf (homeOf s k.cid)) k.lcore (Dw.tag d)
       ∃ u, exec (.engineCommandComplete id) s = .next u ∧ u.mem = s.mem ∧ (∀ x ∈ u.cmds, x.id ≠ id) ∧
         let t' := tagOf (u.ctxOf (homeOf s k.cid)) k.lcore (Dw.tag d)
         t'.cnt = t.cnt - 1 ∧ t'.bit = (t.bit || decide (t.cnt ≤ 1))) ∧
  (∀ (seq : Nat) (s : State) (c : Cmd) (rest : List Cmd), (participants s seq).filter (·.st == .reduce) = c :: rest →
     let r := c.route
     (∀ node, node < Route.nnode r → Route.here r node = true → (∀ p ∈ s.partials, ¬(p.seq = seq ∧ p.node = node)) →
       (∀ p, Route.first r node ≤ p → p < Route.first r node + Route.cnt r node → ∃ x ∈ c :: rest, Dw.pidx x.dw = p) →
       (∀ k ∈ Route.kids r node, ∃ p ∈ s.partials, p.seq = seq ∧ p.node = k) →
       ∃ u p, exec (.boomReduce seq node) s = .next u ∧ u.partials = s.partials ++ [p] ∧ p.seq = seq ∧ p.node = node ∧ u.mem = s.mem ∧
         (if node = Route.root r then Instr.boomRootResult seq else Instr.boomReduce seq (Route.parent r node)) ∈ u.agenda) ∧
     ((∃ p ∈ s.partials, p.seq = seq ∧ p.node = Route.root r) →
       ∃ u, exec (.boomRootResult seq) s = .next u ∧ (∀ p ∈ u.partials, p.seq ≠ seq) ∧
         ∀ i, i < Route.npart r → ∀ x, (c :: rest).find? (fun c => Dw.pidx c.dw == i) = some x →
           ∃ y, cmdAt u x.id = some y ∧ (y.st = .write ∨ y.st = .finish))) ∧
  ((∀ (n qid : Nat) (s t t' : State) (q : Queue) (a b : Acc), Quiet s → queueAt s n qid = some q → canFetch q = true →
     isReady s .landing = true → LandReaches s n (packetAddr q q.next) 64 .load .load t a →
     let w := ofBytes (a.keys.map t.mem.byte)
     let d := (List.range 8).map fun i => (BitVec.ofNat 64 (w / 2 ^ (64 * i)) : Word)
     let p : Queue := { q with rdidx := Nat.max q.rdidx (q.next + 1), next := q.next + 1 }
     packetBad d = false → LandReaches (mapQueue n qid (fun _ => p) t) n (q.qcb + 16) 8 .store .store t' b → (∀ k ∈ b.keys, k < 2 ^ 62) →
     ∃ u, exec (.packetFetch n qid) s = .next u ∧ queueAt u n qid = some { p with fetched := some (q.next, d) } ∧
       u.mem = t'.mem.writeCells (cellsFor b.keys p.rdidx) ∧ Instr.arbiterCycle ∈ u.agenda) ∧
   (∀ (n : Nat) (s : State) (x : Tenant), Tab.get s.tenants n = some x → x.overflow = true → ringFull s n x = false → s.Inv →
     (hostKeys s n x.ring (64 + 16 * 2 ^ x.en)).Nodup →
     let e := 64 + 16 * (ringRead s n x 0 % 2 ^ x.en)
     ∃ u y, exec (.eventOverflowPost n) s = .next u ∧ Tab.get u.tenants n = some y ∧ y.overflow = false ∧
       Tab.getD y.irqs 0 0 = Tab.getD x.irqs 0 0 + 1 ∧ ringRead u n x e % 256 = 2 ∧ ringRead u n x (e + 8) = ringRead s n x 16 ∧
       ringRead u n x 0 = (ringRead s n x 0 + 1) % 2 ^ 64) ∧
   (∀ s : State, ∃ u, exec .arbiterPeriodStart s = .next u ∧ u.lent = 0 ∧ u.mem = s.mem ∧ u.queues = s.queues ∧
     ∀ n x, Tab.get s.tenants n = some x → ∃ y, Tab.get u.tenants n = some y ∧ y.bal = min (x.bal + x.bud) x.bud ∧ y.tbud = x.tbud) ∧
   ∀ (n qid : Nat) (s : State) (x : Tenant) (q : Queue) (f : Nat × List Word), isReady s .landing = true →
     Tab.get s.tenants n = some x → 0 < x.bal → queueAt s n qid = some q → packetReady s q = true → q.fetched = some f →
     (∀ q' ∈ s.queues, packetReady s q' = true → q'.tenant = n ∧ q'.qid = qid) →
     ∃ u, exec .arbiterCycle s = .next u ∧ queueAt u n qid = some { q with granted := true } ∧ startEvent n qid f.2 ∈ u.agenda ∧
       Tab.get u.tenants n = some { x with bal := x.bal - 1, rr := qid } ∧ u.lent = s.lent ∧ u.mem = s.mem)

/-- R337: no rule stops the whole device: every instruction and every event has a next state. -/
def Obligations.NothingStops : Prop :=
  (∀ (i : Instr) (s : State), ∃ t, exec i s = .next t) ∧ ∀ s : State, ∃ t, step s = .next t

/-- Memory keeps its canonical form in every step from every state that has it. -/
def Obligations.InvKept : Prop :=
  ∀ s t : State, s.Inv → step s = .next t → t.Inv

/-- R53, R68, R69, R71, R154, R334 and the reset columns: nothing is resident, no function is ready, every core holds the default
slot table, groves have no cache or shadow portion, no error is recorded or armed, device memory is interleaved over the
device; a context's masks name every way. The memory has its canonical form. -/
def Obligations.ResetState : Prop :=
  State.reset.Inv ∧ State.reset.ctxs = [] ∧ State.reset.cmds = [] ∧ State.reset.rdymap = 0 ∧ State.reset.memcfg = 0 ∧
  (∀ c, (State.reset.coreOf c).tab = #v[0x8786858483828180, 0x8F8E8D8C8B8A8988, 0x8786858483828180, 0x8F8E8D8C8B8A8988] ∧
    (State.reset.coreOf c).cyc = 0 ∧ ∀ r ∈ (State.reset.coreOf c).res.toList, r = none) ∧
  (∀ g, (State.reset.groveOf g).gcfg = 0 ∧ (State.reset.groveOf g).tasks = []) ∧
  (∀ a, (State.reset.rasOf a).elog = 0 ∧ (State.reset.rasOf a).eictl = 0) ∧
  Ctx.fresh.xroot = 0 ∧ Ctx.fresh.cmask = 0xFFFFFF ∧ Ctx.fresh.gwmask = 0xFFFF
end

