-- ==== Sys2Proof/Laws/Mem.lean ====
section
/-!
SUPPORT. Memory: every operation keeps the canonical form, and a read gives what the last write to the byte left.
-/
namespace Sys2Proof.Machine.Mem

/-! The canonical form. -/

theorem wfFrom_mono {m : Mem} {lo hi : Nat} {t : List Host.Cell} (h : wfFrom m hi t = true) (l : lo ≤ hi) :
    wfFrom m lo t = true := by
  cases t with
  | nil => rfl
  | cons c t => simp only [wfFrom, Bool.and_eq_true, decide_eq_true_eq] at h ⊢; exact ⟨⟨by omega, h.1.2⟩, h.2⟩

theorem wfFrom_cons {m : Mem} {lo k : Nat} {b : Byte} {t : List Host.Cell} :
    wfFrom m lo ((k, b) :: t) = true ↔ lo ≤ k ∧ b ≠ m.default k ∧ wfFrom m (k + 1) t = true := by
  simp [wfFrom, and_assoc]

theorem wfFrom_put {m : Mem} {lo a : Nat} {b : Byte} {t : List Host.Cell} (h : wfFrom m lo t = true) (l : lo ≤ a)
    (d : b ≠ m.default a) : wfFrom m lo (put t a b) = true := by
  induction t generalizing lo with
  | nil => simp [put, wfFrom, l, d]
  | cons c t ih =>
    obtain ⟨k, x⟩ := c
    rw [wfFrom_cons] at h
    simp only [put]
    split
    · rename_i e; subst e; exact wfFrom_cons.2 ⟨l, d, h.2.2⟩
    · split
      · exact wfFrom_cons.2 ⟨l, d, wfFrom_cons.2 ⟨by omega, h.2⟩⟩
      · exact wfFrom_cons.2 ⟨h.1, h.2.1, ih h.2.2 (by omega)⟩

theorem wfFrom_drop {m : Mem} {lo a : Nat} {t : List Host.Cell} (h : wfFrom m lo t = true) :
    wfFrom m lo (drop t a) = true := by
  induction t generalizing lo with
  | nil => rfl
  | cons c t ih =>
    obtain ⟨k, x⟩ := c
    have h' := h
    rw [wfFrom_cons] at h
    simp only [drop]
    split
    · exact wfFrom_mono h.2.2 (by omega)
    · split
      · exact h'
      · exact wfFrom_cons.2 ⟨h.1, h.2.1, ih h.2.2⟩

theorem wfFrom_filter {m n : Mem} {lo : Nat} {t : List Host.Cell} (p : Host.Cell → Bool) (h : wfFrom m lo t = true)
    (d : ∀ c : Host.Cell, p c = true → m.default c.1 = n.default c.1) : wfFrom n lo (t.filter p) = true := by
  induction t generalizing lo with
  | nil => rfl
  | cons c t ih =>
    obtain ⟨k, x⟩ := c
    rw [wfFrom_cons] at h
    rw [List.filter_cons]
    split
    · rename_i hp; exact wfFrom_cons.2 ⟨h.1, by rw [← d _ hp]; exact h.2.1, ih h.2.2⟩
    · exact wfFrom_mono (ih h.2.2) (by omega)

@[simp] theorem default_setByte (m : Mem) (a k : Nat) (b : Byte) : (m.setByte a b).default k = m.default k := rfl

theorem wfFrom_congr {m n : Mem} (d : ∀ k, m.default k = n.default k) (lo : Nat) (t : List Host.Cell) :
    wfFrom m lo t = wfFrom n lo t := by
  induction t generalizing lo with
  | nil => rfl
  | cons c t ih => simp [wfFrom, d, ih]

/-- A byte write keeps the canonical form. -/
theorem wf_setByte {m : Mem} (h : m.wf = true) (a : Nat) (b : Byte) : (m.setByte a b).wf = true := by
  have e : (m.setByte a b).wf = wfFrom m 0 (m.setByte a b).cells :=
    wfFrom_congr (m := m.setByte a b) (n := m) (fun _ => rfl) _ _
  rw [e]
  simp only [setByte]
  split
  · exact wfFrom_drop h
  · exact wfFrom_put h (Nat.zero_le _) ‹_›

/-- A write keeps the canonical form. -/
theorem wf_write {m : Mem} (h : m.wf = true) (a n v : Nat) : (m.write a n v).wf = true := by
  induction n generalizing m a v with
  | zero => exact h
  | succ n ih => exact ih (wf_setByte h _ _) _ _

/-- A write of cells keeps the canonical form. -/
theorem wf_writeCells {m : Mem} (h : m.wf = true) (l : List Host.Cell) : (m.writeCells l).wf = true := by
  induction l generalizing m with
  | nil => exact h
  | cons c t ih => exact ih (wf_setByte h _ _)

/-- Clearing a range keeps the canonical form. -/
theorem wf_clear {m : Mem} (h : m.wf = true) (lo len : Nat) : (m.clear lo len).wf = true := by
  have e : (m.clear lo len).wf = wfFrom m 0 (m.clear lo len).cells :=
    wfFrom_congr (m := m.clear lo len) (n := m) (fun _ => rfl) _ _
  rw [e]
  exact wfFrom_filter _ h fun _ _ => rfl

/-- Zeroing a range keeps the canonical form. -/
theorem wf_zero {m : Mem} (h : m.wf = true) (lo len : Nat) : (m.zero lo len).wf = true := by
  simp only [zero]
  split
  · exact wf_writeCells (wf_clear h lo len) _
  · exact wf_clear h lo len

/-- An owner change keeps the canonical form. -/
theorem wf_forget {m : Mem} (h : m.wf = true) (lo len epoch : Nat) : (m.forget lo len epoch).wf = true := by
  refine wfFrom_filter (m := m) (n := m.forget lo len epoch) _ h ?_
  intro c hc
  simp only [Bool.not_eq_true', decide_eq_false_iff_not, not_and, Nat.not_lt] at hc
  simp only [default, forget, List.find?_cons]
  have : decide (lo ≤ c.1 ∧ c.1 < lo + len) = false := by simp; omega
  simp [this]

/-! Reads after writes. -/

theorem lookup_put_self (t : List Host.Cell) (a : Nat) (b : Byte) : lookup (put t a b) a = some b := by
  induction t with
  | nil => simp [put, lookup]
  | cons c t ih =>
    obtain ⟨k, x⟩ := c
    simp only [put]
    split
    · simp [lookup]
    · split
      · simp [lookup]
      · simp [lookup, *]

theorem lookup_put_ne {a k : Nat} (h : k ≠ a) (t : List Host.Cell) (b : Byte) : lookup (put t a b) k = lookup t k := by
  induction t with
  | nil => simp [put, lookup, h.symm]
  | cons c t ih =>
    obtain ⟨j, x⟩ := c
    simp only [put]
    split
    · rename_i e; subst e; simp [lookup, h.symm]
    · split
      · simp only [lookup, h.symm, if_false]; split
        · split
          · omega
          · rw [if_pos (by omega)]
        · rfl
      · simp only [lookup, ih]

theorem lookup_none_of_wfFrom {m : Mem} {lo a : Nat} {t : List Host.Cell} (h : wfFrom m lo t = true) (l : a < lo) :
    lookup t a = none := by
  cases t with
  | nil => rfl
  | cons c t => obtain ⟨k, x⟩ := c; rw [wfFrom_cons] at h; simp only [lookup]; rw [if_neg (by omega), if_pos (by omega)]

theorem lookup_drop_self {m : Mem} {lo a : Nat} {t : List Host.Cell} (h : wfFrom m lo t = true) :
    lookup (drop t a) a = none := by
  induction t generalizing lo with
  | nil => rfl
  | cons c t ih =>
    obtain ⟨k, x⟩ := c
    rw [wfFrom_cons] at h
    simp only [drop]
    split
    · exact lookup_none_of_wfFrom h.2.2 (by omega)
    · split
      · simp [lookup, *]
      · simp [lookup, *, ih h.2.2]

theorem lookup_drop_ne {m : Mem} {lo a k : Nat} {t : List Host.Cell} (h : wfFrom m lo t = true) (n : k ≠ a) :
    lookup (drop t a) k = lookup t k := by
  induction t generalizing lo with
  | nil => rfl
  | cons c t ih =>
    obtain ⟨j, x⟩ := c
    rw [wfFrom_cons] at h
    simp only [drop]
    split
    · rename_i e; subst e
      simp only [lookup, n.symm, if_false]
      split
      · exact lookup_none_of_wfFrom h.2.2 (by omega)
      · rfl
    · split
      · rfl
      · simp only [lookup, ih h.2.2]

/-- A byte that was written reads as what was written. -/
theorem byte_setByte_self {m : Mem} (h : m.wf = true) (a : Nat) (b : Byte) : (m.setByte a b).byte a = b := by
  simp only [byte, default_setByte]
  simp only [setByte]
  split
  · rename_i e; rw [lookup_drop_self h]; exact e.symm
  · rw [lookup_put_self]; rfl

/-- Every other byte reads as before. -/
theorem byte_setByte_ne {m : Mem} (h : m.wf = true) {a k : Nat} (n : k ≠ a) (b : Byte) :
    (m.setByte a b).byte k = m.byte k := by
  simp only [byte, default_setByte]
  simp only [setByte]
  split
  · rw [lookup_drop_ne h n]
  · rw [lookup_put_ne n]

/-- A write leaves every byte outside its range as it was. -/
theorem byte_write_outside {m : Mem} (h : m.wf = true) {a n v k : Nat} (o : k < a ∨ a + n ≤ k) :
    (m.write a n v).byte k = m.byte k := by
  induction n generalizing m a v with
  | zero => rfl
  | succ n ih => rw [write, ih (wf_setByte h _ _) (by omega), byte_setByte_ne h (by omega)]

/-- A write of cells leaves every byte that no cell names as it was. -/
theorem byte_writeCells_outside {m : Mem} (h : m.wf = true) {l : List Host.Cell} {k : Nat} (o : ∀ c ∈ l, c.1 ≠ k) :
    (m.writeCells l).byte k = m.byte k := by
  induction l generalizing m with
  | nil => rfl
  | cons c t ih =>
    obtain ⟨a, b⟩ := c
    rw [writeCells, ih (wf_setByte h _ _) fun c hc => o c (by simp [hc]), byte_setByte_ne h]
    exact fun e => o (a, b) (by simp) e.symm

/-- A write of `n` bytes reads back as the number's low `n` bytes. -/
theorem read_write {m : Mem} (h : m.wf = true) (a n v : Nat) : (m.write a n v).read a n = v % 256 ^ n := by
  induction n generalizing m a v with
  | zero => simp [read, Nat.mod_one]
  | succ n ih =>
    have w := wf_setByte h a (BitVec.ofNat 8 v)
    rw [write, read, ih w, byte_write_outside w (by omega), byte_setByte_self h, BitVec.toNat_ofNat]
    rw [show 256 ^ (n + 1) = 256 * 256 ^ n from Nat.pow_succ', Nat.mod_mul]

end Sys2Proof.Machine.Mem
end

