-- ==== Sys2Proof/Laws/Monad.lean ====
section
/-!
SUPPORT. What each step of a meaning's monad does to a state, for meanings of a slot (`M`) and of an engine alike.
-/
namespace Sys2Proof.Machine

variable {ε α β : Type}

theorem estate_pure (a : α) (s : State) : (pure a : EStateM ε State α) s = .ok a s := rfl

theorem estate_bind (m : EStateM ε State α) (f : α → EStateM ε State β) (s : State) :
    (m >>= f) s = match m s with | .ok a t => f a t | .error e t => .error e t := by
  simp only [bind, EStateM.bind]
  cases m s <;> rfl

/-- A first part that ends well hands its value and state on. -/
theorem estate_bind_ok {m : EStateM ε State α} {f : α → EStateM ε State β} {s t : State} {a : α} (h : m s = .ok a t) :
    (m >>= f) s = f a t := by rw [estate_bind, h]

/-- A first part that stops ends the whole. -/
theorem estate_bind_error {m : EStateM ε State α} {f : α → EStateM ε State β} {s t : State} {e : ε}
    (h : m s = .error e t) : (m >>= f) s = .error e t := by rw [estate_bind, h]

theorem estate_map (f : α → β) (m : EStateM ε State α) (s : State) :
    (f <$> m) s = match m s with | .ok a t => .ok (f a) t | .error e t => .error e t := by
  simp only [Functor.map, EStateM.map]
  cases m s <;> rfl

theorem estate_get (s : State) : (get : EStateM ε State State) s = .ok s s := rfl

theorem estate_set (t s : State) : (set t : EStateM ε State PUnit) s = .ok ⟨⟩ t := rfl

theorem estate_modify (f : State → State) (s : State) : (modify f : EStateM ε State PUnit) s = .ok ⟨⟩ (f s) := rfl

theorem estate_throw (e : ε) (s : State) : (throw e : EStateM ε State α) s = .error e s := rfl

theorem estate_ite (c : Prop) [Decidable c] (a b : EStateM ε State α) (s : State) :
    (if c then a else b) s = if c then a s else b s := by split <;> rfl

theorem trap_run (t : Trap) (s : State) : (trap t : M α) s = .error (.trap t) s := rfl

theorem wait_run (w : ParkWhy) (s : State) : (wait w : M α) s = .error (.park w) s := rfl

theorem illegal_run (i : Instr) (ti : Word) (s : State) :
    (illegal i ti : M α) s = .error (.trap { code := Cause.illegal, tv := (encode i).setWidth 64, ti := ti }) s := rfl

theorem retire_run (s : State) : retire s = .ok () (s.mapMe Slot.advance) := rfl

theorem freeValue_run (s : State) : freeValue s = .ok (Config.freeWord s.free) { s with free := s.free + 1 } := rfl

/-- A body that ends well gives the next state. -/
theorem run_ok {m : M Unit} {s t : State} (h : m s = .ok () t) : run m s = .next t := by simp [run, h]

/-- A body that stops gives the next state of its stop: a trap taken or a slot parked. -/
theorem run_error {m : M Unit} {s t : State} {x : Stop} (h : m s = .error x t) : run m s = .next (stop x t) := by
  simp [run, h]

/-- Every end of a meaning is a next state. -/
theorem run_next (m : M Unit) (s : State) : ∃ t, run m s = .next t := by
  cases h : m s with
  | ok u t => exact ⟨t, run_ok h⟩
  | error x t => exact ⟨stop x t, run_error h⟩

theorem mapL_nil (f : α → M β) (s : State) : mapL f [] s = .ok [] s := rfl

theorem mapL_cons (f : α → M β) (x : α) (l : List α) (s : State) :
    mapL f (x :: l) s = match f x s with
      | .ok y t => (match mapL f l t with | .ok ys u => .ok (y :: ys) u | .error e u => .error e u)
      | .error e t => .error e t := by
  simp only [mapL, estate_bind]
  cases f x s with
  | ok y t => simp only [estate_pure]; cases mapL f l t <;> rfl
  | error e t => rfl

/-- A function that leaves the state alone at every member collects its values. -/
theorem mapL_ok {f : α → M β} {g : α → β} {s : State} (l : List α) (h : ∀ x ∈ l, f x s = .ok (g x) s) :
    mapL f l s = .ok (l.map g) s := by
  induction l with
  | nil => rfl
  | cons x t ih =>
    have h1 := ih fun y hy => h y (by simp [hy])
    simp [mapL_cons, h x (by simp), h1]

theorem forL_nil (f : α → M Unit) (s : State) : forL f [] s = .ok () s := rfl

theorem forL_cons (f : α → M Unit) (x : α) (l : List α) (s : State) :
    forL f (x :: l) s = match f x s with | .ok _ t => forL f l t | .error e t => .error e t := by
  simp only [forL, estate_bind]
  cases f x s <;> rfl

end Sys2Proof.Machine
end

