-- ==== Sys2Proof/Laws/State.lean ====
section
/-!
SUPPORT. What each update of State leaves in each field.
-/
namespace Sys2Proof.Machine

/-! `State.mapMe` changes `me` alone. -/
@[simp] theorem State.mapMe_cur (s : State) (f : Slot → Slot) : (s.mapMe f).cur = s.cur := rfl
@[simp] theorem State.mapMe_core (s : State) (f : Slot → Slot) : (s.mapMe f).core = s.core := rfl
@[simp] theorem State.mapMe_me (s : State) (f : Slot → Slot) : (s.mapMe f).me = f s.me := rfl
@[simp] theorem State.mapMe_issue (s : State) (f : Slot → Slot) : (s.mapMe f).issue = s.issue := rfl
@[simp] theorem State.mapMe_agenda (s : State) (f : Slot → Slot) : (s.mapMe f).agenda = s.agenda := rfl
@[simp] theorem State.mapMe_sched (s : State) (f : Slot → Slot) : (s.mapMe f).sched = s.sched := rfl
@[simp] theorem State.mapMe_weak (s : State) (f : Slot → Slot) : (s.mapMe f).weak = s.weak := rfl
@[simp] theorem State.mapMe_late (s : State) (f : Slot → Slot) : (s.mapMe f).late = s.late := rfl
@[simp] theorem State.mapMe_writes (s : State) (f : Slot → Slot) : (s.mapMe f).writes = s.writes := rfl
@[simp] theorem State.mapMe_former (s : State) (f : Slot → Slot) : (s.mapMe f).former = s.former := rfl
@[simp] theorem State.mapMe_turn (s : State) (f : Slot → Slot) : (s.mapMe f).turn = s.turn := rfl
@[simp] theorem State.mapMe_tick (s : State) (f : Slot → Slot) : (s.mapMe f).tick = s.tick := rfl
@[simp] theorem State.mapMe_free (s : State) (f : Slot → Slot) : (s.mapMe f).free = s.free := rfl
@[simp] theorem State.mapMe_slots (s : State) (f : Slot → Slot) : (s.mapMe f).slots = s.slots := rfl
@[simp] theorem State.mapMe_ctxs (s : State) (f : Slot → Slot) : (s.mapMe f).ctxs = s.ctxs := rfl
@[simp] theorem State.mapMe_launches (s : State) (f : Slot → Slot) : (s.mapMe f).launches = s.launches := rfl
@[simp] theorem State.mapMe_groups (s : State) (f : Slot → Slot) : (s.mapMe f).groups = s.groups := rfl
@[simp] theorem State.mapMe_cores (s : State) (f : Slot → Slot) : (s.mapMe f).cores = s.cores := rfl
@[simp] theorem State.mapMe_groves (s : State) (f : Slot → Slot) : (s.mapMe f).groves = s.groves := rfl
@[simp] theorem State.mapMe_ras (s : State) (f : Slot → Slot) : (s.mapMe f).ras = s.ras := rfl
@[simp] theorem State.mapMe_mem (s : State) (f : Slot → Slot) : (s.mapMe f).mem = s.mem := rfl
@[simp] theorem State.mapMe_empties (s : State) (f : Slot → Slot) : (s.mapMe f).empties = s.empties := rfl
@[simp] theorem State.mapMe_flips (s : State) (f : Slot → Slot) : (s.mapMe f).flips = s.flips := rfl
@[simp] theorem State.mapMe_poison (s : State) (f : Slot → Slot) : (s.mapMe f).poison = s.poison := rfl
@[simp] theorem State.mapMe_symbols (s : State) (f : Slot → Slot) : (s.mapMe f).symbols = s.symbols := rfl
@[simp] theorem State.mapMe_waits (s : State) (f : Slot → Slot) : (s.mapMe f).waits = s.waits := rfl
@[simp] theorem State.mapMe_overflow (s : State) (f : Slot → Slot) : (s.mapMe f).overflow = s.overflow := rfl
@[simp] theorem State.mapMe_ovfHomes (s : State) (f : Slot → Slot) : (s.mapMe f).ovfHomes = s.ovfHomes := rfl
@[simp] theorem State.mapMe_atoms (s : State) (f : Slot → Slot) : (s.mapMe f).atoms = s.atoms := rfl
@[simp] theorem State.mapMe_atomWait (s : State) (f : Slot → Slot) : (s.mapMe f).atomWait = s.atomWait := rfl
@[simp] theorem State.mapMe_resvs (s : State) (f : Slot → Slot) : (s.mapMe f).resvs = s.resvs := rfl
@[simp] theorem State.mapMe_senders (s : State) (f : Slot → Slot) : (s.mapMe f).senders = s.senders := rfl
@[simp] theorem State.mapMe_dir (s : State) (f : Slot → Slot) : (s.mapMe f).dir = s.dir := rfl
@[simp] theorem State.mapMe_walks (s : State) (f : Slot → Slot) : (s.mapMe f).walks = s.walks := rfl
@[simp] theorem State.mapMe_tlbinvs (s : State) (f : Slot → Slot) : (s.mapMe f).tlbinvs = s.tlbinvs := rfl
@[simp] theorem State.mapMe_cmds (s : State) (f : Slot → Slot) : (s.mapMe f).cmds = s.cmds := rfl
@[simp] theorem State.mapMe_nextCmd (s : State) (f : Slot → Slot) : (s.mapMe f).nextCmd = s.nextCmd := rfl
@[simp] theorem State.mapMe_partials (s : State) (f : Slot → Slot) : (s.mapMe f).partials = s.partials := rfl
@[simp] theorem State.mapMe_spoiled (s : State) (f : Slot → Slot) : (s.mapMe f).spoiled = s.spoiled := rfl
@[simp] theorem State.mapMe_owners (s : State) (f : Slot → Slot) : (s.mapMe f).owners = s.owners := rfl
@[simp] theorem State.mapMe_heldBy (s : State) (f : Slot → Slot) : (s.mapMe f).heldBy = s.heldBy := rfl
@[simp] theorem State.mapMe_memcfg (s : State) (f : Slot → Slot) : (s.mapMe f).memcfg = s.memcfg := rfl
@[simp] theorem State.mapMe_rdymap (s : State) (f : Slot → Slot) : (s.mapMe f).rdymap = s.rdymap := rfl
@[simp] theorem State.mapMe_fenced (s : State) (f : Slot → Slot) : (s.mapMe f).fenced = s.fenced := rfl
@[simp] theorem State.mapMe_fencedLinks (s : State) (f : Slot → Slot) : (s.mapMe f).fencedLinks = s.fencedLinks := rfl
@[simp] theorem State.mapMe_quarantined (s : State) (f : Slot → Slot) : (s.mapMe f).quarantined = s.quarantined := rfl
@[simp] theorem State.mapMe_exports (s : State) (f : Slot → Slot) : (s.mapMe f).exports = s.exports := rfl
@[simp] theorem State.mapMe_filter (s : State) (f : Slot → Slot) : (s.mapMe f).filter = s.filter := rfl
@[simp] theorem State.mapMe_peers (s : State) (f : Slot → Slot) : (s.mapMe f).peers = s.peers := rfl
@[simp] theorem State.mapMe_hostMaps (s : State) (f : Slot → Slot) : (s.mapMe f).hostMaps = s.hostMaps := rfl
@[simp] theorem State.mapMe_hostBad (s : State) (f : Slot → Slot) : (s.mapMe f).hostBad = s.hostBad := rfl
@[simp] theorem State.mapMe_pageIns (s : State) (f : Slot → Slot) : (s.mapMe f).pageIns = s.pageIns := rfl
@[simp] theorem State.mapMe_tenants (s : State) (f : Slot → Slot) : (s.mapMe f).tenants = s.tenants := rfl
@[simp] theorem State.mapMe_queues (s : State) (f : Slot → Slot) : (s.mapMe f).queues = s.queues := rfl
@[simp] theorem State.mapMe_lent (s : State) (f : Slot → Slot) : (s.mapMe f).lent = s.lent := rfl
@[simp] theorem State.mapMe_rrTenant (s : State) (f : Slot → Slot) : (s.mapMe f).rrTenant = s.rrTenant := rfl
@[simp] theorem State.mapMe_periods (s : State) (f : Slot → Slot) : (s.mapMe f).periods = s.periods := rfl
@[simp] theorem State.mapMe_nextId (s : State) (f : Slot → Slot) : (s.mapMe f).nextId = s.nextId := rfl
@[simp] theorem State.mapMe_errata (s : State) (f : Slot → Slot) : (s.mapMe f).errata = s.errata := rfl
@[simp] theorem State.mapMe_profiles (s : State) (f : Slot → Slot) : (s.mapMe f).profiles = s.profiles := rfl
@[simp] theorem State.mapMe_pairs (s : State) (f : Slot → Slot) : (s.mapMe f).pairs = s.pairs := rfl
@[simp] theorem State.mapMe_suspects (s : State) (f : Slot → Slot) : (s.mapMe f).suspects = s.suspects := rfl
@[simp] theorem State.mapMe_outbox (s : State) (f : Slot → Slot) : (s.mapMe f).outbox = s.outbox := rfl

/-! `State.mapCtx` changes `ctxs` alone. -/
@[simp] theorem State.mapCtx_cur (s : State) (c : Nat) (f : Ctx → Ctx) : (s.mapCtx c f).cur = s.cur := rfl
@[simp] theorem State.mapCtx_core (s : State) (c : Nat) (f : Ctx → Ctx) : (s.mapCtx c f).core = s.core := rfl
@[simp] theorem State.mapCtx_me (s : State) (c : Nat) (f : Ctx → Ctx) : (s.mapCtx c f).me = s.me := rfl
@[simp] theorem State.mapCtx_issue (s : State) (c : Nat) (f : Ctx → Ctx) : (s.mapCtx c f).issue = s.issue := rfl
@[simp] theorem State.mapCtx_agenda (s : State) (c : Nat) (f : Ctx → Ctx) : (s.mapCtx c f).agenda = s.agenda := rfl
@[simp] theorem State.mapCtx_sched (s : State) (c : Nat) (f : Ctx → Ctx) : (s.mapCtx c f).sched = s.sched := rfl
@[simp] theorem State.mapCtx_weak (s : State) (c : Nat) (f : Ctx → Ctx) : (s.mapCtx c f).weak = s.weak := rfl
@[simp] theorem State.mapCtx_late (s : State) (c : Nat) (f : Ctx → Ctx) : (s.mapCtx c f).late = s.late := rfl
@[simp] theorem State.mapCtx_writes (s : State) (c : Nat) (f : Ctx → Ctx) : (s.mapCtx c f).writes = s.writes := rfl
@[simp] theorem State.mapCtx_former (s : State) (c : Nat) (f : Ctx → Ctx) : (s.mapCtx c f).former = s.former := rfl
@[simp] theorem State.mapCtx_turn (s : State) (c : Nat) (f : Ctx → Ctx) : (s.mapCtx c f).turn = s.turn := rfl
@[simp] theorem State.mapCtx_tick (s : State) (c : Nat) (f : Ctx → Ctx) : (s.mapCtx c f).tick = s.tick := rfl
@[simp] theorem State.mapCtx_free (s : State) (c : Nat) (f : Ctx → Ctx) : (s.mapCtx c f).free = s.free := rfl
@[simp] theorem State.mapCtx_slots (s : State) (c : Nat) (f : Ctx → Ctx) : (s.mapCtx c f).slots = s.slots := rfl
@[simp] theorem State.mapCtx_ctxs (s : State) (c : Nat) (f : Ctx → Ctx) : (s.mapCtx c f).ctxs = Tab.modify s.ctxs c f := rfl
@[simp] theorem State.mapCtx_launches (s : State) (c : Nat) (f : Ctx → Ctx) : (s.mapCtx c f).launches = s.launches := rfl
@[simp] theorem State.mapCtx_groups (s : State) (c : Nat) (f : Ctx → Ctx) : (s.mapCtx c f).groups = s.groups := rfl
@[simp] theorem State.mapCtx_cores (s : State) (c : Nat) (f : Ctx → Ctx) : (s.mapCtx c f).cores = s.cores := rfl
@[simp] theorem State.mapCtx_groves (s : State) (c : Nat) (f : Ctx → Ctx) : (s.mapCtx c f).groves = s.groves := rfl
@[simp] theorem State.mapCtx_ras (s : State) (c : Nat) (f : Ctx → Ctx) : (s.mapCtx c f).ras = s.ras := rfl
@[simp] theorem State.mapCtx_mem (s : State) (c : Nat) (f : Ctx → Ctx) : (s.mapCtx c f).mem = s.mem := rfl
@[simp] theorem State.mapCtx_empties (s : State) (c : Nat) (f : Ctx → Ctx) : (s.mapCtx c f).empties = s.empties := rfl
@[simp] theorem State.mapCtx_flips (s : State) (c : Nat) (f : Ctx → Ctx) : (s.mapCtx c f).flips = s.flips := rfl
@[simp] theorem State.mapCtx_poison (s : State) (c : Nat) (f : Ctx → Ctx) : (s.mapCtx c f).poison = s.poison := rfl
@[simp] theorem State.mapCtx_symbols (s : State) (c : Nat) (f : Ctx → Ctx) : (s.mapCtx c f).symbols = s.symbols := rfl
@[simp] theorem State.mapCtx_waits (s : State) (c : Nat) (f : Ctx → Ctx) : (s.mapCtx c f).waits = s.waits := rfl
@[simp] theorem State.mapCtx_overflow (s : State) (c : Nat) (f : Ctx → Ctx) : (s.mapCtx c f).overflow = s.overflow := rfl
@[simp] theorem State.mapCtx_ovfHomes (s : State) (c : Nat) (f : Ctx → Ctx) : (s.mapCtx c f).ovfHomes = s.ovfHomes := rfl
@[simp] theorem State.mapCtx_atoms (s : State) (c : Nat) (f : Ctx → Ctx) : (s.mapCtx c f).atoms = s.atoms := rfl
@[simp] theorem State.mapCtx_atomWait (s : State) (c : Nat) (f : Ctx → Ctx) : (s.mapCtx c f).atomWait = s.atomWait := rfl
@[simp] theorem State.mapCtx_resvs (s : State) (c : Nat) (f : Ctx → Ctx) : (s.mapCtx c f).resvs = s.resvs := rfl
@[simp] theorem State.mapCtx_senders (s : State) (c : Nat) (f : Ctx → Ctx) : (s.mapCtx c f).senders = s.senders := rfl
@[simp] theorem State.mapCtx_dir (s : State) (c : Nat) (f : Ctx → Ctx) : (s.mapCtx c f).dir = s.dir := rfl
@[simp] theorem State.mapCtx_walks (s : State) (c : Nat) (f : Ctx → Ctx) : (s.mapCtx c f).walks = s.walks := rfl
@[simp] theorem State.mapCtx_tlbinvs (s : State) (c : Nat) (f : Ctx → Ctx) : (s.mapCtx c f).tlbinvs = s.tlbinvs := rfl
@[simp] theorem State.mapCtx_cmds (s : State) (c : Nat) (f : Ctx → Ctx) : (s.mapCtx c f).cmds = s.cmds := rfl
@[simp] theorem State.mapCtx_nextCmd (s : State) (c : Nat) (f : Ctx → Ctx) : (s.mapCtx c f).nextCmd = s.nextCmd := rfl
@[simp] theorem State.mapCtx_partials (s : State) (c : Nat) (f : Ctx → Ctx) : (s.mapCtx c f).partials = s.partials := rfl
@[simp] theorem State.mapCtx_spoiled (s : State) (c : Nat) (f : Ctx → Ctx) : (s.mapCtx c f).spoiled = s.spoiled := rfl
@[simp] theorem State.mapCtx_owners (s : State) (c : Nat) (f : Ctx → Ctx) : (s.mapCtx c f).owners = s.owners := rfl
@[simp] theorem State.mapCtx_heldBy (s : State) (c : Nat) (f : Ctx → Ctx) : (s.mapCtx c f).heldBy = s.heldBy := rfl
@[simp] theorem State.mapCtx_memcfg (s : State) (c : Nat) (f : Ctx → Ctx) : (s.mapCtx c f).memcfg = s.memcfg := rfl
@[simp] theorem State.mapCtx_rdymap (s : State) (c : Nat) (f : Ctx → Ctx) : (s.mapCtx c f).rdymap = s.rdymap := rfl
@[simp] theorem State.mapCtx_fenced (s : State) (c : Nat) (f : Ctx → Ctx) : (s.mapCtx c f).fenced = s.fenced := rfl
@[simp] theorem State.mapCtx_fencedLinks (s : State) (c : Nat) (f : Ctx → Ctx) : (s.mapCtx c f).fencedLinks = s.fencedLinks := rfl
@[simp] theorem State.mapCtx_quarantined (s : State) (c : Nat) (f : Ctx → Ctx) : (s.mapCtx c f).quarantined = s.quarantined := rfl
@[simp] theorem State.mapCtx_exports (s : State) (c : Nat) (f : Ctx → Ctx) : (s.mapCtx c f).exports = s.exports := rfl
@[simp] theorem State.mapCtx_filter (s : State) (c : Nat) (f : Ctx → Ctx) : (s.mapCtx c f).filter = s.filter := rfl
@[simp] theorem State.mapCtx_peers (s : State) (c : Nat) (f : Ctx → Ctx) : (s.mapCtx c f).peers = s.peers := rfl
@[simp] theorem State.mapCtx_hostMaps (s : State) (c : Nat) (f : Ctx → Ctx) : (s.mapCtx c f).hostMaps = s.hostMaps := rfl
@[simp] theorem State.mapCtx_hostBad (s : State) (c : Nat) (f : Ctx → Ctx) : (s.mapCtx c f).hostBad = s.hostBad := rfl
@[simp] theorem State.mapCtx_pageIns (s : State) (c : Nat) (f : Ctx → Ctx) : (s.mapCtx c f).pageIns = s.pageIns := rfl
@[simp] theorem State.mapCtx_tenants (s : State) (c : Nat) (f : Ctx → Ctx) : (s.mapCtx c f).tenants = s.tenants := rfl
@[simp] theorem State.mapCtx_queues (s : State) (c : Nat) (f : Ctx → Ctx) : (s.mapCtx c f).queues = s.queues := rfl
@[simp] theorem State.mapCtx_lent (s : State) (c : Nat) (f : Ctx → Ctx) : (s.mapCtx c f).lent = s.lent := rfl
@[simp] theorem State.mapCtx_rrTenant (s : State) (c : Nat) (f : Ctx → Ctx) : (s.mapCtx c f).rrTenant = s.rrTenant := rfl
@[simp] theorem State.mapCtx_periods (s : State) (c : Nat) (f : Ctx → Ctx) : (s.mapCtx c f).periods = s.periods := rfl
@[simp] theorem State.mapCtx_nextId (s : State) (c : Nat) (f : Ctx → Ctx) : (s.mapCtx c f).nextId = s.nextId := rfl
@[simp] theorem State.mapCtx_errata (s : State) (c : Nat) (f : Ctx → Ctx) : (s.mapCtx c f).errata = s.errata := rfl
@[simp] theorem State.mapCtx_profiles (s : State) (c : Nat) (f : Ctx → Ctx) : (s.mapCtx c f).profiles = s.profiles := rfl
@[simp] theorem State.mapCtx_pairs (s : State) (c : Nat) (f : Ctx → Ctx) : (s.mapCtx c f).pairs = s.pairs := rfl
@[simp] theorem State.mapCtx_suspects (s : State) (c : Nat) (f : Ctx → Ctx) : (s.mapCtx c f).suspects = s.suspects := rfl
@[simp] theorem State.mapCtx_outbox (s : State) (c : Nat) (f : Ctx → Ctx) : (s.mapCtx c f).outbox = s.outbox := rfl

/-! `State.mapCore` changes `cores` alone. -/
@[simp] theorem State.mapCore_cur (s : State) (c : Nat) (f : Core → Core) : (s.mapCore c f).cur = s.cur := rfl
@[simp] theorem State.mapCore_core (s : State) (c : Nat) (f : Core → Core) : (s.mapCore c f).core = s.core := rfl
@[simp] theorem State.mapCore_me (s : State) (c : Nat) (f : Core → Core) : (s.mapCore c f).me = s.me := rfl
@[simp] theorem State.mapCore_issue (s : State) (c : Nat) (f : Core → Core) : (s.mapCore c f).issue = s.issue := rfl
@[simp] theorem State.mapCore_agenda (s : State) (c : Nat) (f : Core → Core) : (s.mapCore c f).agenda = s.agenda := rfl
@[simp] theorem State.mapCore_sched (s : State) (c : Nat) (f : Core → Core) : (s.mapCore c f).sched = s.sched := rfl
@[simp] theorem State.mapCore_weak (s : State) (c : Nat) (f : Core → Core) : (s.mapCore c f).weak = s.weak := rfl
@[simp] theorem State.mapCore_late (s : State) (c : Nat) (f : Core → Core) : (s.mapCore c f).late = s.late := rfl
@[simp] theorem State.mapCore_writes (s : State) (c : Nat) (f : Core → Core) : (s.mapCore c f).writes = s.writes := rfl
@[simp] theorem State.mapCore_former (s : State) (c : Nat) (f : Core → Core) : (s.mapCore c f).former = s.former := rfl
@[simp] theorem State.mapCore_turn (s : State) (c : Nat) (f : Core → Core) : (s.mapCore c f).turn = s.turn := rfl
@[simp] theorem State.mapCore_tick (s : State) (c : Nat) (f : Core → Core) : (s.mapCore c f).tick = s.tick := rfl
@[simp] theorem State.mapCore_free (s : State) (c : Nat) (f : Core → Core) : (s.mapCore c f).free = s.free := rfl
@[simp] theorem State.mapCore_slots (s : State) (c : Nat) (f : Core → Core) : (s.mapCore c f).slots = s.slots := rfl
@[simp] theorem State.mapCore_ctxs (s : State) (c : Nat) (f : Core → Core) : (s.mapCore c f).ctxs = s.ctxs := rfl
@[simp] theorem State.mapCore_launches (s : State) (c : Nat) (f : Core → Core) : (s.mapCore c f).launches = s.launches := rfl
@[simp] theorem State.mapCore_groups (s : State) (c : Nat) (f : Core → Core) : (s.mapCore c f).groups = s.groups := rfl
@[simp] theorem State.mapCore_cores (s : State) (c : Nat) (f : Core → Core) : (s.mapCore c f).cores = Tab.set s.cores c (f (s.coreOf c)) := rfl
@[simp] theorem State.mapCore_groves (s : State) (c : Nat) (f : Core → Core) : (s.mapCore c f).groves = s.groves := rfl
@[simp] theorem State.mapCore_ras (s : State) (c : Nat) (f : Core → Core) : (s.mapCore c f).ras = s.ras := rfl
@[simp] theorem State.mapCore_mem (s : State) (c : Nat) (f : Core → Core) : (s.mapCore c f).mem = s.mem := rfl
@[simp] theorem State.mapCore_empties (s : State) (c : Nat) (f : Core → Core) : (s.mapCore c f).empties = s.empties := rfl
@[simp] theorem State.mapCore_flips (s : State) (c : Nat) (f : Core → Core) : (s.mapCore c f).flips = s.flips := rfl
@[simp] theorem State.mapCore_poison (s : State) (c : Nat) (f : Core → Core) : (s.mapCore c f).poison = s.poison := rfl
@[simp] theorem State.mapCore_symbols (s : State) (c : Nat) (f : Core → Core) : (s.mapCore c f).symbols = s.symbols := rfl
@[simp] theorem State.mapCore_waits (s : State) (c : Nat) (f : Core → Core) : (s.mapCore c f).waits = s.waits := rfl
@[simp] theorem State.mapCore_overflow (s : State) (c : Nat) (f : Core → Core) : (s.mapCore c f).overflow = s.overflow := rfl
@[simp] theorem State.mapCore_ovfHomes (s : State) (c : Nat) (f : Core → Core) : (s.mapCore c f).ovfHomes = s.ovfHomes := rfl
@[simp] theorem State.mapCore_atoms (s : State) (c : Nat) (f : Core → Core) : (s.mapCore c f).atoms = s.atoms := rfl
@[simp] theorem State.mapCore_atomWait (s : State) (c : Nat) (f : Core → Core) : (s.mapCore c f).atomWait = s.atomWait := rfl
@[simp] theorem State.mapCore_resvs (s : State) (c : Nat) (f : Core → Core) : (s.mapCore c f).resvs = s.resvs := rfl
@[simp] theorem State.mapCore_senders (s : State) (c : Nat) (f : Core → Core) : (s.mapCore c f).senders = s.senders := rfl
@[simp] theorem State.mapCore_dir (s : State) (c : Nat) (f : Core → Core) : (s.mapCore c f).dir = s.dir := rfl
@[simp] theorem State.mapCore_walks (s : State) (c : Nat) (f : Core → Core) : (s.mapCore c f).walks = s.walks := rfl
@[simp] theorem State.mapCore_tlbinvs (s : State) (c : Nat) (f : Core → Core) : (s.mapCore c f).tlbinvs = s.tlbinvs := rfl
@[simp] theorem State.mapCore_cmds (s : State) (c : Nat) (f : Core → Core) : (s.mapCore c f).cmds = s.cmds := rfl
@[simp] theorem State.mapCore_nextCmd (s : State) (c : Nat) (f : Core → Core) : (s.mapCore c f).nextCmd = s.nextCmd := rfl
@[simp] theorem State.mapCore_partials (s : State) (c : Nat) (f : Core → Core) : (s.mapCore c f).partials = s.partials := rfl
@[simp] theorem State.mapCore_spoiled (s : State) (c : Nat) (f : Core → Core) : (s.mapCore c f).spoiled = s.spoiled := rfl
@[simp] theorem State.mapCore_owners (s : State) (c : Nat) (f : Core → Core) : (s.mapCore c f).owners = s.owners := rfl
@[simp] theorem State.mapCore_heldBy (s : State) (c : Nat) (f : Core → Core) : (s.mapCore c f).heldBy = s.heldBy := rfl
@[simp] theorem State.mapCore_memcfg (s : State) (c : Nat) (f : Core → Core) : (s.mapCore c f).memcfg = s.memcfg := rfl
@[simp] theorem State.mapCore_rdymap (s : State) (c : Nat) (f : Core → Core) : (s.mapCore c f).rdymap = s.rdymap := rfl
@[simp] theorem State.mapCore_fenced (s : State) (c : Nat) (f : Core → Core) : (s.mapCore c f).fenced = s.fenced := rfl
@[simp] theorem State.mapCore_fencedLinks (s : State) (c : Nat) (f : Core → Core) : (s.mapCore c f).fencedLinks = s.fencedLinks := rfl
@[simp] theorem State.mapCore_quarantined (s : State) (c : Nat) (f : Core → Core) : (s.mapCore c f).quarantined = s.quarantined := rfl
@[simp] theorem State.mapCore_exports (s : State) (c : Nat) (f : Core → Core) : (s.mapCore c f).exports = s.exports := rfl
@[simp] theorem State.mapCore_filter (s : State) (c : Nat) (f : Core → Core) : (s.mapCore c f).filter = s.filter := rfl
@[simp] theorem State.mapCore_peers (s : State) (c : Nat) (f : Core → Core) : (s.mapCore c f).peers = s.peers := rfl
@[simp] theorem State.mapCore_hostMaps (s : State) (c : Nat) (f : Core → Core) : (s.mapCore c f).hostMaps = s.hostMaps := rfl
@[simp] theorem State.mapCore_hostBad (s : State) (c : Nat) (f : Core → Core) : (s.mapCore c f).hostBad = s.hostBad := rfl
@[simp] theorem State.mapCore_pageIns (s : State) (c : Nat) (f : Core → Core) : (s.mapCore c f).pageIns = s.pageIns := rfl
@[simp] theorem State.mapCore_tenants (s : State) (c : Nat) (f : Core → Core) : (s.mapCore c f).tenants = s.tenants := rfl
@[simp] theorem State.mapCore_queues (s : State) (c : Nat) (f : Core → Core) : (s.mapCore c f).queues = s.queues := rfl
@[simp] theorem State.mapCore_lent (s : State) (c : Nat) (f : Core → Core) : (s.mapCore c f).lent = s.lent := rfl
@[simp] theorem State.mapCore_rrTenant (s : State) (c : Nat) (f : Core → Core) : (s.mapCore c f).rrTenant = s.rrTenant := rfl
@[simp] theorem State.mapCore_periods (s : State) (c : Nat) (f : Core → Core) : (s.mapCore c f).periods = s.periods := rfl
@[simp] theorem State.mapCore_nextId (s : State) (c : Nat) (f : Core → Core) : (s.mapCore c f).nextId = s.nextId := rfl
@[simp] theorem State.mapCore_errata (s : State) (c : Nat) (f : Core → Core) : (s.mapCore c f).errata = s.errata := rfl
@[simp] theorem State.mapCore_profiles (s : State) (c : Nat) (f : Core → Core) : (s.mapCore c f).profiles = s.profiles := rfl
@[simp] theorem State.mapCore_pairs (s : State) (c : Nat) (f : Core → Core) : (s.mapCore c f).pairs = s.pairs := rfl
@[simp] theorem State.mapCore_suspects (s : State) (c : Nat) (f : Core → Core) : (s.mapCore c f).suspects = s.suspects := rfl
@[simp] theorem State.mapCore_outbox (s : State) (c : Nat) (f : Core → Core) : (s.mapCore c f).outbox = s.outbox := rfl

/-! `State.mapGrove` changes `groves` alone. -/
@[simp] theorem State.mapGrove_cur (s : State) (g : Nat) (f : Grove → Grove) : (s.mapGrove g f).cur = s.cur := rfl
@[simp] theorem State.mapGrove_core (s : State) (g : Nat) (f : Grove → Grove) : (s.mapGrove g f).core = s.core := rfl
@[simp] theorem State.mapGrove_me (s : State) (g : Nat) (f : Grove → Grove) : (s.mapGrove g f).me = s.me := rfl
@[simp] theorem State.mapGrove_issue (s : State) (g : Nat) (f : Grove → Grove) : (s.mapGrove g f).issue = s.issue := rfl
@[simp] theorem State.mapGrove_agenda (s : State) (g : Nat) (f : Grove → Grove) : (s.mapGrove g f).agenda = s.agenda := rfl
@[simp] theorem State.mapGrove_sched (s : State) (g : Nat) (f : Grove → Grove) : (s.mapGrove g f).sched = s.sched := rfl
@[simp] theorem State.mapGrove_weak (s : State) (g : Nat) (f : Grove → Grove) : (s.mapGrove g f).weak = s.weak := rfl
@[simp] theorem State.mapGrove_late (s : State) (g : Nat) (f : Grove → Grove) : (s.mapGrove g f).late = s.late := rfl
@[simp] theorem State.mapGrove_writes (s : State) (g : Nat) (f : Grove → Grove) : (s.mapGrove g f).writes = s.writes := rfl
@[simp] theorem State.mapGrove_former (s : State) (g : Nat) (f : Grove → Grove) : (s.mapGrove g f).former = s.former := rfl
@[simp] theorem State.mapGrove_turn (s : State) (g : Nat) (f : Grove → Grove) : (s.mapGrove g f).turn = s.turn := rfl
@[simp] theorem State.mapGrove_tick (s : State) (g : Nat) (f : Grove → Grove) : (s.mapGrove g f).tick = s.tick := rfl
@[simp] theorem State.mapGrove_free (s : State) (g : Nat) (f : Grove → Grove) : (s.mapGrove g f).free = s.free := rfl
@[simp] theorem State.mapGrove_slots (s : State) (g : Nat) (f : Grove → Grove) : (s.mapGrove g f).slots = s.slots := rfl
@[simp] theorem State.mapGrove_ctxs (s : State) (g : Nat) (f : Grove → Grove) : (s.mapGrove g f).ctxs = s.ctxs := rfl
@[simp] theorem State.mapGrove_launches (s : State) (g : Nat) (f : Grove → Grove) : (s.mapGrove g f).launches = s.launches := rfl
@[simp] theorem State.mapGrove_groups (s : State) (g : Nat) (f : Grove → Grove) : (s.mapGrove g f).groups = s.groups := rfl
@[simp] theorem State.mapGrove_cores (s : State) (g : Nat) (f : Grove → Grove) : (s.mapGrove g f).cores = s.cores := rfl
@[simp] theorem State.mapGrove_groves (s : State) (g : Nat) (f : Grove → Grove) : (s.mapGrove g f).groves = Tab.set s.groves g (f (s.groveOf g)) := rfl
@[simp] theorem State.mapGrove_ras (s : State) (g : Nat) (f : Grove → Grove) : (s.mapGrove g f).ras = s.ras := rfl
@[simp] theorem State.mapGrove_mem (s : State) (g : Nat) (f : Grove → Grove) : (s.mapGrove g f).mem = s.mem := rfl
@[simp] theorem State.mapGrove_empties (s : State) (g : Nat) (f : Grove → Grove) : (s.mapGrove g f).empties = s.empties := rfl
@[simp] theorem State.mapGrove_flips (s : State) (g : Nat) (f : Grove → Grove) : (s.mapGrove g f).flips = s.flips := rfl
@[simp] theorem State.mapGrove_poison (s : State) (g : Nat) (f : Grove → Grove) : (s.mapGrove g f).poison = s.poison := rfl
@[simp] theorem State.mapGrove_symbols (s : State) (g : Nat) (f : Grove → Grove) : (s.mapGrove g f).symbols = s.symbols := rfl
@[simp] theorem State.mapGrove_waits (s : State) (g : Nat) (f : Grove → Grove) : (s.mapGrove g f).waits = s.waits := rfl
@[simp] theorem State.mapGrove_overflow (s : State) (g : Nat) (f : Grove → Grove) : (s.mapGrove g f).overflow = s.overflow := rfl
@[simp] theorem State.mapGrove_ovfHomes (s : State) (g : Nat) (f : Grove → Grove) : (s.mapGrove g f).ovfHomes = s.ovfHomes := rfl
@[simp] theorem State.mapGrove_atoms (s : State) (g : Nat) (f : Grove → Grove) : (s.mapGrove g f).atoms = s.atoms := rfl
@[simp] theorem State.mapGrove_atomWait (s : State) (g : Nat) (f : Grove → Grove) : (s.mapGrove g f).atomWait = s.atomWait := rfl
@[simp] theorem State.mapGrove_resvs (s : State) (g : Nat) (f : Grove → Grove) : (s.mapGrove g f).resvs = s.resvs := rfl
@[simp] theorem State.mapGrove_senders (s : State) (g : Nat) (f : Grove → Grove) : (s.mapGrove g f).senders = s.senders := rfl
@[simp] theorem State.mapGrove_dir (s : State) (g : Nat) (f : Grove → Grove) : (s.mapGrove g f).dir = s.dir := rfl
@[simp] theorem State.mapGrove_walks (s : State) (g : Nat) (f : Grove → Grove) : (s.mapGrove g f).walks = s.walks := rfl
@[simp] theorem State.mapGrove_tlbinvs (s : State) (g : Nat) (f : Grove → Grove) : (s.mapGrove g f).tlbinvs = s.tlbinvs := rfl
@[simp] theorem State.mapGrove_cmds (s : State) (g : Nat) (f : Grove → Grove) : (s.mapGrove g f).cmds = s.cmds := rfl
@[simp] theorem State.mapGrove_nextCmd (s : State) (g : Nat) (f : Grove → Grove) : (s.mapGrove g f).nextCmd = s.nextCmd := rfl
@[simp] theorem State.mapGrove_partials (s : State) (g : Nat) (f : Grove → Grove) : (s.mapGrove g f).partials = s.partials := rfl
@[simp] theorem State.mapGrove_spoiled (s : State) (g : Nat) (f : Grove → Grove) : (s.mapGrove g f).spoiled = s.spoiled := rfl
@[simp] theorem State.mapGrove_owners (s : State) (g : Nat) (f : Grove → Grove) : (s.mapGrove g f).owners = s.owners := rfl
@[simp] theorem State.mapGrove_heldBy (s : State) (g : Nat) (f : Grove → Grove) : (s.mapGrove g f).heldBy = s.heldBy := rfl
@[simp] theorem State.mapGrove_memcfg (s : State) (g : Nat) (f : Grove → Grove) : (s.mapGrove g f).memcfg = s.memcfg := rfl
@[simp] theorem State.mapGrove_rdymap (s : State) (g : Nat) (f : Grove → Grove) : (s.mapGrove g f).rdymap = s.rdymap := rfl
@[simp] theorem State.mapGrove_fenced (s : State) (g : Nat) (f : Grove → Grove) : (s.mapGrove g f).fenced = s.fenced := rfl
@[simp] theorem State.mapGrove_fencedLinks (s : State) (g : Nat) (f : Grove → Grove) : (s.mapGrove g f).fencedLinks = s.fencedLinks := rfl
@[simp] theorem State.mapGrove_quarantined (s : State) (g : Nat) (f : Grove → Grove) : (s.mapGrove g f).quarantined = s.quarantined := rfl
@[simp] theorem State.mapGrove_exports (s : State) (g : Nat) (f : Grove → Grove) : (s.mapGrove g f).exports = s.exports := rfl
@[simp] theorem State.mapGrove_filter (s : State) (g : Nat) (f : Grove → Grove) : (s.mapGrove g f).filter = s.filter := rfl
@[simp] theorem State.mapGrove_peers (s : State) (g : Nat) (f : Grove → Grove) : (s.mapGrove g f).peers = s.peers := rfl
@[simp] theorem State.mapGrove_hostMaps (s : State) (g : Nat) (f : Grove → Grove) : (s.mapGrove g f).hostMaps = s.hostMaps := rfl
@[simp] theorem State.mapGrove_hostBad (s : State) (g : Nat) (f : Grove → Grove) : (s.mapGrove g f).hostBad = s.hostBad := rfl
@[simp] theorem State.mapGrove_pageIns (s : State) (g : Nat) (f : Grove → Grove) : (s.mapGrove g f).pageIns = s.pageIns := rfl
@[simp] theorem State.mapGrove_tenants (s : State) (g : Nat) (f : Grove → Grove) : (s.mapGrove g f).tenants = s.tenants := rfl
@[simp] theorem State.mapGrove_queues (s : State) (g : Nat) (f : Grove → Grove) : (s.mapGrove g f).queues = s.queues := rfl
@[simp] theorem State.mapGrove_lent (s : State) (g : Nat) (f : Grove → Grove) : (s.mapGrove g f).lent = s.lent := rfl
@[simp] theorem State.mapGrove_rrTenant (s : State) (g : Nat) (f : Grove → Grove) : (s.mapGrove g f).rrTenant = s.rrTenant := rfl
@[simp] theorem State.mapGrove_periods (s : State) (g : Nat) (f : Grove → Grove) : (s.mapGrove g f).periods = s.periods := rfl
@[simp] theorem State.mapGrove_nextId (s : State) (g : Nat) (f : Grove → Grove) : (s.mapGrove g f).nextId = s.nextId := rfl
@[simp] theorem State.mapGrove_errata (s : State) (g : Nat) (f : Grove → Grove) : (s.mapGrove g f).errata = s.errata := rfl
@[simp] theorem State.mapGrove_profiles (s : State) (g : Nat) (f : Grove → Grove) : (s.mapGrove g f).profiles = s.profiles := rfl
@[simp] theorem State.mapGrove_pairs (s : State) (g : Nat) (f : Grove → Grove) : (s.mapGrove g f).pairs = s.pairs := rfl
@[simp] theorem State.mapGrove_suspects (s : State) (g : Nat) (f : Grove → Grove) : (s.mapGrove g f).suspects = s.suspects := rfl
@[simp] theorem State.mapGrove_outbox (s : State) (g : Nat) (f : Grove → Grove) : (s.mapGrove g f).outbox = s.outbox := rfl

/-! `State.mapRas` changes `ras` alone. -/
@[simp] theorem State.mapRas_cur (s : State) (a : ArrayId) (f : Ras → Ras) : (s.mapRas a f).cur = s.cur := rfl
@[simp] theorem State.mapRas_core (s : State) (a : ArrayId) (f : Ras → Ras) : (s.mapRas a f).core = s.core := rfl
@[simp] theorem State.mapRas_me (s : State) (a : ArrayId) (f : Ras → Ras) : (s.mapRas a f).me = s.me := rfl
@[simp] theorem State.mapRas_issue (s : State) (a : ArrayId) (f : Ras → Ras) : (s.mapRas a f).issue = s.issue := rfl
@[simp] theorem State.mapRas_agenda (s : State) (a : ArrayId) (f : Ras → Ras) : (s.mapRas a f).agenda = s.agenda := rfl
@[simp] theorem State.mapRas_sched (s : State) (a : ArrayId) (f : Ras → Ras) : (s.mapRas a f).sched = s.sched := rfl
@[simp] theorem State.mapRas_weak (s : State) (a : ArrayId) (f : Ras → Ras) : (s.mapRas a f).weak = s.weak := rfl
@[simp] theorem State.mapRas_late (s : State) (a : ArrayId) (f : Ras → Ras) : (s.mapRas a f).late = s.late := rfl
@[simp] theorem State.mapRas_writes (s : State) (a : ArrayId) (f : Ras → Ras) : (s.mapRas a f).writes = s.writes := rfl
@[simp] theorem State.mapRas_former (s : State) (a : ArrayId) (f : Ras → Ras) : (s.mapRas a f).former = s.former := rfl
@[simp] theorem State.mapRas_turn (s : State) (a : ArrayId) (f : Ras → Ras) : (s.mapRas a f).turn = s.turn := rfl
@[simp] theorem State.mapRas_tick (s : State) (a : ArrayId) (f : Ras → Ras) : (s.mapRas a f).tick = s.tick := rfl
@[simp] theorem State.mapRas_free (s : State) (a : ArrayId) (f : Ras → Ras) : (s.mapRas a f).free = s.free := rfl
@[simp] theorem State.mapRas_slots (s : State) (a : ArrayId) (f : Ras → Ras) : (s.mapRas a f).slots = s.slots := rfl
@[simp] theorem State.mapRas_ctxs (s : State) (a : ArrayId) (f : Ras → Ras) : (s.mapRas a f).ctxs = s.ctxs := rfl
@[simp] theorem State.mapRas_launches (s : State) (a : ArrayId) (f : Ras → Ras) : (s.mapRas a f).launches = s.launches := rfl
@[simp] theorem State.mapRas_groups (s : State) (a : ArrayId) (f : Ras → Ras) : (s.mapRas a f).groups = s.groups := rfl
@[simp] theorem State.mapRas_cores (s : State) (a : ArrayId) (f : Ras → Ras) : (s.mapRas a f).cores = s.cores := rfl
@[simp] theorem State.mapRas_groves (s : State) (a : ArrayId) (f : Ras → Ras) : (s.mapRas a f).groves = s.groves := rfl
@[simp] theorem State.mapRas_ras (s : State) (a : ArrayId) (f : Ras → Ras) : (s.mapRas a f).ras = Assoc.set s.ras a (f (s.rasOf a)) := rfl
@[simp] theorem State.mapRas_mem (s : State) (a : ArrayId) (f : Ras → Ras) : (s.mapRas a f).mem = s.mem := rfl
@[simp] theorem State.mapRas_empties (s : State) (a : ArrayId) (f : Ras → Ras) : (s.mapRas a f).empties = s.empties := rfl
@[simp] theorem State.mapRas_flips (s : State) (a : ArrayId) (f : Ras → Ras) : (s.mapRas a f).flips = s.flips := rfl
@[simp] theorem State.mapRas_poison (s : State) (a : ArrayId) (f : Ras → Ras) : (s.mapRas a f).poison = s.poison := rfl
@[simp] theorem State.mapRas_symbols (s : State) (a : ArrayId) (f : Ras → Ras) : (s.mapRas a f).symbols = s.symbols := rfl
@[simp] theorem State.mapRas_waits (s : State) (a : ArrayId) (f : Ras → Ras) : (s.mapRas a f).waits = s.waits := rfl
@[simp] theorem State.mapRas_overflow (s : State) (a : ArrayId) (f : Ras → Ras) : (s.mapRas a f).overflow = s.overflow := rfl
@[simp] theorem State.mapRas_ovfHomes (s : State) (a : ArrayId) (f : Ras → Ras) : (s.mapRas a f).ovfHomes = s.ovfHomes := rfl
@[simp] theorem State.mapRas_atoms (s : State) (a : ArrayId) (f : Ras → Ras) : (s.mapRas a f).atoms = s.atoms := rfl
@[simp] theorem State.mapRas_atomWait (s : State) (a : ArrayId) (f : Ras → Ras) : (s.mapRas a f).atomWait = s.atomWait := rfl
@[simp] theorem State.mapRas_resvs (s : State) (a : ArrayId) (f : Ras → Ras) : (s.mapRas a f).resvs = s.resvs := rfl
@[simp] theorem State.mapRas_senders (s : State) (a : ArrayId) (f : Ras → Ras) : (s.mapRas a f).senders = s.senders := rfl
@[simp] theorem State.mapRas_dir (s : State) (a : ArrayId) (f : Ras → Ras) : (s.mapRas a f).dir = s.dir := rfl
@[simp] theorem State.mapRas_walks (s : State) (a : ArrayId) (f : Ras → Ras) : (s.mapRas a f).walks = s.walks := rfl
@[simp] theorem State.mapRas_tlbinvs (s : State) (a : ArrayId) (f : Ras → Ras) : (s.mapRas a f).tlbinvs = s.tlbinvs := rfl
@[simp] theorem State.mapRas_cmds (s : State) (a : ArrayId) (f : Ras → Ras) : (s.mapRas a f).cmds = s.cmds := rfl
@[simp] theorem State.mapRas_nextCmd (s : State) (a : ArrayId) (f : Ras → Ras) : (s.mapRas a f).nextCmd = s.nextCmd := rfl
@[simp] theorem State.mapRas_partials (s : State) (a : ArrayId) (f : Ras → Ras) : (s.mapRas a f).partials = s.partials := rfl
@[simp] theorem State.mapRas_spoiled (s : State) (a : ArrayId) (f : Ras → Ras) : (s.mapRas a f).spoiled = s.spoiled := rfl
@[simp] theorem State.mapRas_owners (s : State) (a : ArrayId) (f : Ras → Ras) : (s.mapRas a f).owners = s.owners := rfl
@[simp] theorem State.mapRas_heldBy (s : State) (a : ArrayId) (f : Ras → Ras) : (s.mapRas a f).heldBy = s.heldBy := rfl
@[simp] theorem State.mapRas_memcfg (s : State) (a : ArrayId) (f : Ras → Ras) : (s.mapRas a f).memcfg = s.memcfg := rfl
@[simp] theorem State.mapRas_rdymap (s : State) (a : ArrayId) (f : Ras → Ras) : (s.mapRas a f).rdymap = s.rdymap := rfl
@[simp] theorem State.mapRas_fenced (s : State) (a : ArrayId) (f : Ras → Ras) : (s.mapRas a f).fenced = s.fenced := rfl
@[simp] theorem State.mapRas_fencedLinks (s : State) (a : ArrayId) (f : Ras → Ras) : (s.mapRas a f).fencedLinks = s.fencedLinks := rfl
@[simp] theorem State.mapRas_quarantined (s : State) (a : ArrayId) (f : Ras → Ras) : (s.mapRas a f).quarantined = s.quarantined := rfl
@[simp] theorem State.mapRas_exports (s : State) (a : ArrayId) (f : Ras → Ras) : (s.mapRas a f).exports = s.exports := rfl
@[simp] theorem State.mapRas_filter (s : State) (a : ArrayId) (f : Ras → Ras) : (s.mapRas a f).filter = s.filter := rfl
@[simp] theorem State.mapRas_peers (s : State) (a : ArrayId) (f : Ras → Ras) : (s.mapRas a f).peers = s.peers := rfl
@[simp] theorem State.mapRas_hostMaps (s : State) (a : ArrayId) (f : Ras → Ras) : (s.mapRas a f).hostMaps = s.hostMaps := rfl
@[simp] theorem State.mapRas_hostBad (s : State) (a : ArrayId) (f : Ras → Ras) : (s.mapRas a f).hostBad = s.hostBad := rfl
@[simp] theorem State.mapRas_pageIns (s : State) (a : ArrayId) (f : Ras → Ras) : (s.mapRas a f).pageIns = s.pageIns := rfl
@[simp] theorem State.mapRas_tenants (s : State) (a : ArrayId) (f : Ras → Ras) : (s.mapRas a f).tenants = s.tenants := rfl
@[simp] theorem State.mapRas_queues (s : State) (a : ArrayId) (f : Ras → Ras) : (s.mapRas a f).queues = s.queues := rfl
@[simp] theorem State.mapRas_lent (s : State) (a : ArrayId) (f : Ras → Ras) : (s.mapRas a f).lent = s.lent := rfl
@[simp] theorem State.mapRas_rrTenant (s : State) (a : ArrayId) (f : Ras → Ras) : (s.mapRas a f).rrTenant = s.rrTenant := rfl
@[simp] theorem State.mapRas_periods (s : State) (a : ArrayId) (f : Ras → Ras) : (s.mapRas a f).periods = s.periods := rfl
@[simp] theorem State.mapRas_nextId (s : State) (a : ArrayId) (f : Ras → Ras) : (s.mapRas a f).nextId = s.nextId := rfl
@[simp] theorem State.mapRas_errata (s : State) (a : ArrayId) (f : Ras → Ras) : (s.mapRas a f).errata = s.errata := rfl
@[simp] theorem State.mapRas_profiles (s : State) (a : ArrayId) (f : Ras → Ras) : (s.mapRas a f).profiles = s.profiles := rfl
@[simp] theorem State.mapRas_pairs (s : State) (a : ArrayId) (f : Ras → Ras) : (s.mapRas a f).pairs = s.pairs := rfl
@[simp] theorem State.mapRas_suspects (s : State) (a : ArrayId) (f : Ras → Ras) : (s.mapRas a f).suspects = s.suspects := rfl
@[simp] theorem State.mapRas_outbox (s : State) (a : ArrayId) (f : Ras → Ras) : (s.mapRas a f).outbox = s.outbox := rfl

/-! `State.mapLaunch` changes `launches` alone. -/
@[simp] theorem State.mapLaunch_cur (s : State) (l : Nat) (f : Launch → Launch) : (s.mapLaunch l f).cur = s.cur := rfl
@[simp] theorem State.mapLaunch_core (s : State) (l : Nat) (f : Launch → Launch) : (s.mapLaunch l f).core = s.core := rfl
@[simp] theorem State.mapLaunch_me (s : State) (l : Nat) (f : Launch → Launch) : (s.mapLaunch l f).me = s.me := rfl
@[simp] theorem State.mapLaunch_issue (s : State) (l : Nat) (f : Launch → Launch) : (s.mapLaunch l f).issue = s.issue := rfl
@[simp] theorem State.mapLaunch_agenda (s : State) (l : Nat) (f : Launch → Launch) : (s.mapLaunch l f).agenda = s.agenda := rfl
@[simp] theorem State.mapLaunch_sched (s : State) (l : Nat) (f : Launch → Launch) : (s.mapLaunch l f).sched = s.sched := rfl
@[simp] theorem State.mapLaunch_weak (s : State) (l : Nat) (f : Launch → Launch) : (s.mapLaunch l f).weak = s.weak := rfl
@[simp] theorem State.mapLaunch_late (s : State) (l : Nat) (f : Launch → Launch) : (s.mapLaunch l f).late = s.late := rfl
@[simp] theorem State.mapLaunch_writes (s : State) (l : Nat) (f : Launch → Launch) : (s.mapLaunch l f).writes = s.writes := rfl
@[simp] theorem State.mapLaunch_former (s : State) (l : Nat) (f : Launch → Launch) : (s.mapLaunch l f).former = s.former := rfl
@[simp] theorem State.mapLaunch_turn (s : State) (l : Nat) (f : Launch → Launch) : (s.mapLaunch l f).turn = s.turn := rfl
@[simp] theorem State.mapLaunch_tick (s : State) (l : Nat) (f : Launch → Launch) : (s.mapLaunch l f).tick = s.tick := rfl
@[simp] theorem State.mapLaunch_free (s : State) (l : Nat) (f : Launch → Launch) : (s.mapLaunch l f).free = s.free := rfl
@[simp] theorem State.mapLaunch_slots (s : State) (l : Nat) (f : Launch → Launch) : (s.mapLaunch l f).slots = s.slots := rfl
@[simp] theorem State.mapLaunch_ctxs (s : State) (l : Nat) (f : Launch → Launch) : (s.mapLaunch l f).ctxs = s.ctxs := rfl
@[simp] theorem State.mapLaunch_launches (s : State) (l : Nat) (f : Launch → Launch) : (s.mapLaunch l f).launches = Tab.modify s.launches l f := rfl
@[simp] theorem State.mapLaunch_groups (s : State) (l : Nat) (f : Launch → Launch) : (s.mapLaunch l f).groups = s.groups := rfl
@[simp] theorem State.mapLaunch_cores (s : State) (l : Nat) (f : Launch → Launch) : (s.mapLaunch l f).cores = s.cores := rfl
@[simp] theorem State.mapLaunch_groves (s : State) (l : Nat) (f : Launch → Launch) : (s.mapLaunch l f).groves = s.groves := rfl
@[simp] theorem State.mapLaunch_ras (s : State) (l : Nat) (f : Launch → Launch) : (s.mapLaunch l f).ras = s.ras := rfl
@[simp] theorem State.mapLaunch_mem (s : State) (l : Nat) (f : Launch → Launch) : (s.mapLaunch l f).mem = s.mem := rfl
@[simp] theorem State.mapLaunch_empties (s : State) (l : Nat) (f : Launch → Launch) : (s.mapLaunch l f).empties = s.empties := rfl
@[simp] theorem State.mapLaunch_flips (s : State) (l : Nat) (f : Launch → Launch) : (s.mapLaunch l f).flips = s.flips := rfl
@[simp] theorem State.mapLaunch_poison (s : State) (l : Nat) (f : Launch → Launch) : (s.mapLaunch l f).poison = s.poison := rfl
@[simp] theorem State.mapLaunch_symbols (s : State) (l : Nat) (f : Launch → Launch) : (s.mapLaunch l f).symbols = s.symbols := rfl
@[simp] theorem State.mapLaunch_waits (s : State) (l : Nat) (f : Launch → Launch) : (s.mapLaunch l f).waits = s.waits := rfl
@[simp] theorem State.mapLaunch_overflow (s : State) (l : Nat) (f : Launch → Launch) : (s.mapLaunch l f).overflow = s.overflow := rfl
@[simp] theorem State.mapLaunch_ovfHomes (s : State) (l : Nat) (f : Launch → Launch) : (s.mapLaunch l f).ovfHomes = s.ovfHomes := rfl
@[simp] theorem State.mapLaunch_atoms (s : State) (l : Nat) (f : Launch → Launch) : (s.mapLaunch l f).atoms = s.atoms := rfl
@[simp] theorem State.mapLaunch_atomWait (s : State) (l : Nat) (f : Launch → Launch) : (s.mapLaunch l f).atomWait = s.atomWait := rfl
@[simp] theorem State.mapLaunch_resvs (s : State) (l : Nat) (f : Launch → Launch) : (s.mapLaunch l f).resvs = s.resvs := rfl
@[simp] theorem State.mapLaunch_senders (s : State) (l : Nat) (f : Launch → Launch) : (s.mapLaunch l f).senders = s.senders := rfl
@[simp] theorem State.mapLaunch_dir (s : State) (l : Nat) (f : Launch → Launch) : (s.mapLaunch l f).dir = s.dir := rfl
@[simp] theorem State.mapLaunch_walks (s : State) (l : Nat) (f : Launch → Launch) : (s.mapLaunch l f).walks = s.walks := rfl
@[simp] theorem State.mapLaunch_tlbinvs (s : State) (l : Nat) (f : Launch → Launch) : (s.mapLaunch l f).tlbinvs = s.tlbinvs := rfl
@[simp] theorem State.mapLaunch_cmds (s : State) (l : Nat) (f : Launch → Launch) : (s.mapLaunch l f).cmds = s.cmds := rfl
@[simp] theorem State.mapLaunch_nextCmd (s : State) (l : Nat) (f : Launch → Launch) : (s.mapLaunch l f).nextCmd = s.nextCmd := rfl
@[simp] theorem State.mapLaunch_partials (s : State) (l : Nat) (f : Launch → Launch) : (s.mapLaunch l f).partials = s.partials := rfl
@[simp] theorem State.mapLaunch_spoiled (s : State) (l : Nat) (f : Launch → Launch) : (s.mapLaunch l f).spoiled = s.spoiled := rfl
@[simp] theorem State.mapLaunch_owners (s : State) (l : Nat) (f : Launch → Launch) : (s.mapLaunch l f).owners = s.owners := rfl
@[simp] theorem State.mapLaunch_heldBy (s : State) (l : Nat) (f : Launch → Launch) : (s.mapLaunch l f).heldBy = s.heldBy := rfl
@[simp] theorem State.mapLaunch_memcfg (s : State) (l : Nat) (f : Launch → Launch) : (s.mapLaunch l f).memcfg = s.memcfg := rfl
@[simp] theorem State.mapLaunch_rdymap (s : State) (l : Nat) (f : Launch → Launch) : (s.mapLaunch l f).rdymap = s.rdymap := rfl
@[simp] theorem State.mapLaunch_fenced (s : State) (l : Nat) (f : Launch → Launch) : (s.mapLaunch l f).fenced = s.fenced := rfl
@[simp] theorem State.mapLaunch_fencedLinks (s : State) (l : Nat) (f : Launch → Launch) : (s.mapLaunch l f).fencedLinks = s.fencedLinks := rfl
@[simp] theorem State.mapLaunch_quarantined (s : State) (l : Nat) (f : Launch → Launch) : (s.mapLaunch l f).quarantined = s.quarantined := rfl
@[simp] theorem State.mapLaunch_exports (s : State) (l : Nat) (f : Launch → Launch) : (s.mapLaunch l f).exports = s.exports := rfl
@[simp] theorem State.mapLaunch_filter (s : State) (l : Nat) (f : Launch → Launch) : (s.mapLaunch l f).filter = s.filter := rfl
@[simp] theorem State.mapLaunch_peers (s : State) (l : Nat) (f : Launch → Launch) : (s.mapLaunch l f).peers = s.peers := rfl
@[simp] theorem State.mapLaunch_hostMaps (s : State) (l : Nat) (f : Launch → Launch) : (s.mapLaunch l f).hostMaps = s.hostMaps := rfl
@[simp] theorem State.mapLaunch_hostBad (s : State) (l : Nat) (f : Launch → Launch) : (s.mapLaunch l f).hostBad = s.hostBad := rfl
@[simp] theorem State.mapLaunch_pageIns (s : State) (l : Nat) (f : Launch → Launch) : (s.mapLaunch l f).pageIns = s.pageIns := rfl
@[simp] theorem State.mapLaunch_tenants (s : State) (l : Nat) (f : Launch → Launch) : (s.mapLaunch l f).tenants = s.tenants := rfl
@[simp] theorem State.mapLaunch_queues (s : State) (l : Nat) (f : Launch → Launch) : (s.mapLaunch l f).queues = s.queues := rfl
@[simp] theorem State.mapLaunch_lent (s : State) (l : Nat) (f : Launch → Launch) : (s.mapLaunch l f).lent = s.lent := rfl
@[simp] theorem State.mapLaunch_rrTenant (s : State) (l : Nat) (f : Launch → Launch) : (s.mapLaunch l f).rrTenant = s.rrTenant := rfl
@[simp] theorem State.mapLaunch_periods (s : State) (l : Nat) (f : Launch → Launch) : (s.mapLaunch l f).periods = s.periods := rfl
@[simp] theorem State.mapLaunch_nextId (s : State) (l : Nat) (f : Launch → Launch) : (s.mapLaunch l f).nextId = s.nextId := rfl
@[simp] theorem State.mapLaunch_errata (s : State) (l : Nat) (f : Launch → Launch) : (s.mapLaunch l f).errata = s.errata := rfl
@[simp] theorem State.mapLaunch_profiles (s : State) (l : Nat) (f : Launch → Launch) : (s.mapLaunch l f).profiles = s.profiles := rfl
@[simp] theorem State.mapLaunch_pairs (s : State) (l : Nat) (f : Launch → Launch) : (s.mapLaunch l f).pairs = s.pairs := rfl
@[simp] theorem State.mapLaunch_suspects (s : State) (l : Nat) (f : Launch → Launch) : (s.mapLaunch l f).suspects = s.suspects := rfl
@[simp] theorem State.mapLaunch_outbox (s : State) (l : Nat) (f : Launch → Launch) : (s.mapLaunch l f).outbox = s.outbox := rfl

/-! `State.mapTenant` changes `tenants` alone. -/
@[simp] theorem State.mapTenant_cur (s : State) (t : Nat) (f : Tenant → Tenant) : (s.mapTenant t f).cur = s.cur := rfl
@[simp] theorem State.mapTenant_core (s : State) (t : Nat) (f : Tenant → Tenant) : (s.mapTenant t f).core = s.core := rfl
@[simp] theorem State.mapTenant_me (s : State) (t : Nat) (f : Tenant → Tenant) : (s.mapTenant t f).me = s.me := rfl
@[simp] theorem State.mapTenant_issue (s : State) (t : Nat) (f : Tenant → Tenant) : (s.mapTenant t f).issue = s.issue := rfl
@[simp] theorem State.mapTenant_agenda (s : State) (t : Nat) (f : Tenant → Tenant) : (s.mapTenant t f).agenda = s.agenda := rfl
@[simp] theorem State.mapTenant_sched (s : State) (t : Nat) (f : Tenant → Tenant) : (s.mapTenant t f).sched = s.sched := rfl
@[simp] theorem State.mapTenant_weak (s : State) (t : Nat) (f : Tenant → Tenant) : (s.mapTenant t f).weak = s.weak := rfl
@[simp] theorem State.mapTenant_late (s : State) (t : Nat) (f : Tenant → Tenant) : (s.mapTenant t f).late = s.late := rfl
@[simp] theorem State.mapTenant_writes (s : State) (t : Nat) (f : Tenant → Tenant) : (s.mapTenant t f).writes = s.writes := rfl
@[simp] theorem State.mapTenant_former (s : State) (t : Nat) (f : Tenant → Tenant) : (s.mapTenant t f).former = s.former := rfl
@[simp] theorem State.mapTenant_turn (s : State) (t : Nat) (f : Tenant → Tenant) : (s.mapTenant t f).turn = s.turn := rfl
@[simp] theorem State.mapTenant_tick (s : State) (t : Nat) (f : Tenant → Tenant) : (s.mapTenant t f).tick = s.tick := rfl
@[simp] theorem State.mapTenant_free (s : State) (t : Nat) (f : Tenant → Tenant) : (s.mapTenant t f).free = s.free := rfl
@[simp] theorem State.mapTenant_slots (s : State) (t : Nat) (f : Tenant → Tenant) : (s.mapTenant t f).slots = s.slots := rfl
@[simp] theorem State.mapTenant_ctxs (s : State) (t : Nat) (f : Tenant → Tenant) : (s.mapTenant t f).ctxs = s.ctxs := rfl
@[simp] theorem State.mapTenant_launches (s : State) (t : Nat) (f : Tenant → Tenant) : (s.mapTenant t f).launches = s.launches := rfl
@[simp] theorem State.mapTenant_groups (s : State) (t : Nat) (f : Tenant → Tenant) : (s.mapTenant t f).groups = s.groups := rfl
@[simp] theorem State.mapTenant_cores (s : State) (t : Nat) (f : Tenant → Tenant) : (s.mapTenant t f).cores = s.cores := rfl
@[simp] theorem State.mapTenant_groves (s : State) (t : Nat) (f : Tenant → Tenant) : (s.mapTenant t f).groves = s.groves := rfl
@[simp] theorem State.mapTenant_ras (s : State) (t : Nat) (f : Tenant → Tenant) : (s.mapTenant t f).ras = s.ras := rfl
@[simp] theorem State.mapTenant_mem (s : State) (t : Nat) (f : Tenant → Tenant) : (s.mapTenant t f).mem = s.mem := rfl
@[simp] theorem State.mapTenant_empties (s : State) (t : Nat) (f : Tenant → Tenant) : (s.mapTenant t f).empties = s.empties := rfl
@[simp] theorem State.mapTenant_flips (s : State) (t : Nat) (f : Tenant → Tenant) : (s.mapTenant t f).flips = s.flips := rfl
@[simp] theorem State.mapTenant_poison (s : State) (t : Nat) (f : Tenant → Tenant) : (s.mapTenant t f).poison = s.poison := rfl
@[simp] theorem State.mapTenant_symbols (s : State) (t : Nat) (f : Tenant → Tenant) : (s.mapTenant t f).symbols = s.symbols := rfl
@[simp] theorem State.mapTenant_waits (s : State) (t : Nat) (f : Tenant → Tenant) : (s.mapTenant t f).waits = s.waits := rfl
@[simp] theorem State.mapTenant_overflow (s : State) (t : Nat) (f : Tenant → Tenant) : (s.mapTenant t f).overflow = s.overflow := rfl
@[simp] theorem State.mapTenant_ovfHomes (s : State) (t : Nat) (f : Tenant → Tenant) : (s.mapTenant t f).ovfHomes = s.ovfHomes := rfl
@[simp] theorem State.mapTenant_atoms (s : State) (t : Nat) (f : Tenant → Tenant) : (s.mapTenant t f).atoms = s.atoms := rfl
@[simp] theorem State.mapTenant_atomWait (s : State) (t : Nat) (f : Tenant → Tenant) : (s.mapTenant t f).atomWait = s.atomWait := rfl
@[simp] theorem State.mapTenant_resvs (s : State) (t : Nat) (f : Tenant → Tenant) : (s.mapTenant t f).resvs = s.resvs := rfl
@[simp] theorem State.mapTenant_senders (s : State) (t : Nat) (f : Tenant → Tenant) : (s.mapTenant t f).senders = s.senders := rfl
@[simp] theorem State.mapTenant_dir (s : State) (t : Nat) (f : Tenant → Tenant) : (s.mapTenant t f).dir = s.dir := rfl
@[simp] theorem State.mapTenant_walks (s : State) (t : Nat) (f : Tenant → Tenant) : (s.mapTenant t f).walks = s.walks := rfl
@[simp] theorem State.mapTenant_tlbinvs (s : State) (t : Nat) (f : Tenant → Tenant) : (s.mapTenant t f).tlbinvs = s.tlbinvs := rfl
@[simp] theorem State.mapTenant_cmds (s : State) (t : Nat) (f : Tenant → Tenant) : (s.mapTenant t f).cmds = s.cmds := rfl
@[simp] theorem State.mapTenant_nextCmd (s : State) (t : Nat) (f : Tenant → Tenant) : (s.mapTenant t f).nextCmd = s.nextCmd := rfl
@[simp] theorem State.mapTenant_partials (s : State) (t : Nat) (f : Tenant → Tenant) : (s.mapTenant t f).partials = s.partials := rfl
@[simp] theorem State.mapTenant_spoiled (s : State) (t : Nat) (f : Tenant → Tenant) : (s.mapTenant t f).spoiled = s.spoiled := rfl
@[simp] theorem State.mapTenant_owners (s : State) (t : Nat) (f : Tenant → Tenant) : (s.mapTenant t f).owners = s.owners := rfl
@[simp] theorem State.mapTenant_heldBy (s : State) (t : Nat) (f : Tenant → Tenant) : (s.mapTenant t f).heldBy = s.heldBy := rfl
@[simp] theorem State.mapTenant_memcfg (s : State) (t : Nat) (f : Tenant → Tenant) : (s.mapTenant t f).memcfg = s.memcfg := rfl
@[simp] theorem State.mapTenant_rdymap (s : State) (t : Nat) (f : Tenant → Tenant) : (s.mapTenant t f).rdymap = s.rdymap := rfl
@[simp] theorem State.mapTenant_fenced (s : State) (t : Nat) (f : Tenant → Tenant) : (s.mapTenant t f).fenced = s.fenced := rfl
@[simp] theorem State.mapTenant_fencedLinks (s : State) (t : Nat) (f : Tenant → Tenant) : (s.mapTenant t f).fencedLinks = s.fencedLinks := rfl
@[simp] theorem State.mapTenant_quarantined (s : State) (t : Nat) (f : Tenant → Tenant) : (s.mapTenant t f).quarantined = s.quarantined := rfl
@[simp] theorem State.mapTenant_exports (s : State) (t : Nat) (f : Tenant → Tenant) : (s.mapTenant t f).exports = s.exports := rfl
@[simp] theorem State.mapTenant_filter (s : State) (t : Nat) (f : Tenant → Tenant) : (s.mapTenant t f).filter = s.filter := rfl
@[simp] theorem State.mapTenant_peers (s : State) (t : Nat) (f : Tenant → Tenant) : (s.mapTenant t f).peers = s.peers := rfl
@[simp] theorem State.mapTenant_hostMaps (s : State) (t : Nat) (f : Tenant → Tenant) : (s.mapTenant t f).hostMaps = s.hostMaps := rfl
@[simp] theorem State.mapTenant_hostBad (s : State) (t : Nat) (f : Tenant → Tenant) : (s.mapTenant t f).hostBad = s.hostBad := rfl
@[simp] theorem State.mapTenant_pageIns (s : State) (t : Nat) (f : Tenant → Tenant) : (s.mapTenant t f).pageIns = s.pageIns := rfl
@[simp] theorem State.mapTenant_tenants (s : State) (t : Nat) (f : Tenant → Tenant) : (s.mapTenant t f).tenants = Tab.modify s.tenants t f := rfl
@[simp] theorem State.mapTenant_queues (s : State) (t : Nat) (f : Tenant → Tenant) : (s.mapTenant t f).queues = s.queues := rfl
@[simp] theorem State.mapTenant_lent (s : State) (t : Nat) (f : Tenant → Tenant) : (s.mapTenant t f).lent = s.lent := rfl
@[simp] theorem State.mapTenant_rrTenant (s : State) (t : Nat) (f : Tenant → Tenant) : (s.mapTenant t f).rrTenant = s.rrTenant := rfl
@[simp] theorem State.mapTenant_periods (s : State) (t : Nat) (f : Tenant → Tenant) : (s.mapTenant t f).periods = s.periods := rfl
@[simp] theorem State.mapTenant_nextId (s : State) (t : Nat) (f : Tenant → Tenant) : (s.mapTenant t f).nextId = s.nextId := rfl
@[simp] theorem State.mapTenant_errata (s : State) (t : Nat) (f : Tenant → Tenant) : (s.mapTenant t f).errata = s.errata := rfl
@[simp] theorem State.mapTenant_profiles (s : State) (t : Nat) (f : Tenant → Tenant) : (s.mapTenant t f).profiles = s.profiles := rfl
@[simp] theorem State.mapTenant_pairs (s : State) (t : Nat) (f : Tenant → Tenant) : (s.mapTenant t f).pairs = s.pairs := rfl
@[simp] theorem State.mapTenant_suspects (s : State) (t : Nat) (f : Tenant → Tenant) : (s.mapTenant t f).suspects = s.suspects := rfl
@[simp] theorem State.mapTenant_outbox (s : State) (t : Nat) (f : Tenant → Tenant) : (s.mapTenant t f).outbox = s.outbox := rfl

/-! `State.push` changes `agenda` alone. -/
@[simp] theorem State.push_cur (s : State) (e : Instr) : (s.push e).cur = s.cur := rfl
@[simp] theorem State.push_core (s : State) (e : Instr) : (s.push e).core = s.core := rfl
@[simp] theorem State.push_me (s : State) (e : Instr) : (s.push e).me = s.me := rfl
@[simp] theorem State.push_issue (s : State) (e : Instr) : (s.push e).issue = s.issue := rfl
@[simp] theorem State.push_agenda (s : State) (e : Instr) : (s.push e).agenda = s.agenda ++ [e] := rfl
@[simp] theorem State.push_sched (s : State) (e : Instr) : (s.push e).sched = s.sched := rfl
@[simp] theorem State.push_weak (s : State) (e : Instr) : (s.push e).weak = s.weak := rfl
@[simp] theorem State.push_late (s : State) (e : Instr) : (s.push e).late = s.late := rfl
@[simp] theorem State.push_writes (s : State) (e : Instr) : (s.push e).writes = s.writes := rfl
@[simp] theorem State.push_former (s : State) (e : Instr) : (s.push e).former = s.former := rfl
@[simp] theorem State.push_turn (s : State) (e : Instr) : (s.push e).turn = s.turn := rfl
@[simp] theorem State.push_tick (s : State) (e : Instr) : (s.push e).tick = s.tick := rfl
@[simp] theorem State.push_free (s : State) (e : Instr) : (s.push e).free = s.free := rfl
@[simp] theorem State.push_slots (s : State) (e : Instr) : (s.push e).slots = s.slots := rfl
@[simp] theorem State.push_ctxs (s : State) (e : Instr) : (s.push e).ctxs = s.ctxs := rfl
@[simp] theorem State.push_launches (s : State) (e : Instr) : (s.push e).launches = s.launches := rfl
@[simp] theorem State.push_groups (s : State) (e : Instr) : (s.push e).groups = s.groups := rfl
@[simp] theorem State.push_cores (s : State) (e : Instr) : (s.push e).cores = s.cores := rfl
@[simp] theorem State.push_groves (s : State) (e : Instr) : (s.push e).groves = s.groves := rfl
@[simp] theorem State.push_ras (s : State) (e : Instr) : (s.push e).ras = s.ras := rfl
@[simp] theorem State.push_mem (s : State) (e : Instr) : (s.push e).mem = s.mem := rfl
@[simp] theorem State.push_empties (s : State) (e : Instr) : (s.push e).empties = s.empties := rfl
@[simp] theorem State.push_flips (s : State) (e : Instr) : (s.push e).flips = s.flips := rfl
@[simp] theorem State.push_poison (s : State) (e : Instr) : (s.push e).poison = s.poison := rfl
@[simp] theorem State.push_symbols (s : State) (e : Instr) : (s.push e).symbols = s.symbols := rfl
@[simp] theorem State.push_waits (s : State) (e : Instr) : (s.push e).waits = s.waits := rfl
@[simp] theorem State.push_overflow (s : State) (e : Instr) : (s.push e).overflow = s.overflow := rfl
@[simp] theorem State.push_ovfHomes (s : State) (e : Instr) : (s.push e).ovfHomes = s.ovfHomes := rfl
@[simp] theorem State.push_atoms (s : State) (e : Instr) : (s.push e).atoms = s.atoms := rfl
@[simp] theorem State.push_atomWait (s : State) (e : Instr) : (s.push e).atomWait = s.atomWait := rfl
@[simp] theorem State.push_resvs (s : State) (e : Instr) : (s.push e).resvs = s.resvs := rfl
@[simp] theorem State.push_senders (s : State) (e : Instr) : (s.push e).senders = s.senders := rfl
@[simp] theorem State.push_dir (s : State) (e : Instr) : (s.push e).dir = s.dir := rfl
@[simp] theorem State.push_walks (s : State) (e : Instr) : (s.push e).walks = s.walks := rfl
@[simp] theorem State.push_tlbinvs (s : State) (e : Instr) : (s.push e).tlbinvs = s.tlbinvs := rfl
@[simp] theorem State.push_cmds (s : State) (e : Instr) : (s.push e).cmds = s.cmds := rfl
@[simp] theorem State.push_nextCmd (s : State) (e : Instr) : (s.push e).nextCmd = s.nextCmd := rfl
@[simp] theorem State.push_partials (s : State) (e : Instr) : (s.push e).partials = s.partials := rfl
@[simp] theorem State.push_spoiled (s : State) (e : Instr) : (s.push e).spoiled = s.spoiled := rfl
@[simp] theorem State.push_owners (s : State) (e : Instr) : (s.push e).owners = s.owners := rfl
@[simp] theorem State.push_heldBy (s : State) (e : Instr) : (s.push e).heldBy = s.heldBy := rfl
@[simp] theorem State.push_memcfg (s : State) (e : Instr) : (s.push e).memcfg = s.memcfg := rfl
@[simp] theorem State.push_rdymap (s : State) (e : Instr) : (s.push e).rdymap = s.rdymap := rfl
@[simp] theorem State.push_fenced (s : State) (e : Instr) : (s.push e).fenced = s.fenced := rfl
@[simp] theorem State.push_fencedLinks (s : State) (e : Instr) : (s.push e).fencedLinks = s.fencedLinks := rfl
@[simp] theorem State.push_quarantined (s : State) (e : Instr) : (s.push e).quarantined = s.quarantined := rfl
@[simp] theorem State.push_exports (s : State) (e : Instr) : (s.push e).exports = s.exports := rfl
@[simp] theorem State.push_filter (s : State) (e : Instr) : (s.push e).filter = s.filter := rfl
@[simp] theorem State.push_peers (s : State) (e : Instr) : (s.push e).peers = s.peers := rfl
@[simp] theorem State.push_hostMaps (s : State) (e : Instr) : (s.push e).hostMaps = s.hostMaps := rfl
@[simp] theorem State.push_hostBad (s : State) (e : Instr) : (s.push e).hostBad = s.hostBad := rfl
@[simp] theorem State.push_pageIns (s : State) (e : Instr) : (s.push e).pageIns = s.pageIns := rfl
@[simp] theorem State.push_tenants (s : State) (e : Instr) : (s.push e).tenants = s.tenants := rfl
@[simp] theorem State.push_queues (s : State) (e : Instr) : (s.push e).queues = s.queues := rfl
@[simp] theorem State.push_lent (s : State) (e : Instr) : (s.push e).lent = s.lent := rfl
@[simp] theorem State.push_rrTenant (s : State) (e : Instr) : (s.push e).rrTenant = s.rrTenant := rfl
@[simp] theorem State.push_periods (s : State) (e : Instr) : (s.push e).periods = s.periods := rfl
@[simp] theorem State.push_nextId (s : State) (e : Instr) : (s.push e).nextId = s.nextId := rfl
@[simp] theorem State.push_errata (s : State) (e : Instr) : (s.push e).errata = s.errata := rfl
@[simp] theorem State.push_profiles (s : State) (e : Instr) : (s.push e).profiles = s.profiles := rfl
@[simp] theorem State.push_pairs (s : State) (e : Instr) : (s.push e).pairs = s.pairs := rfl
@[simp] theorem State.push_suspects (s : State) (e : Instr) : (s.push e).suspects = s.suspects := rfl
@[simp] theorem State.push_outbox (s : State) (e : Instr) : (s.push e).outbox = s.outbox := rfl

/-! `State.report` changes `outbox` alone. -/
@[simp] theorem State.report_cur (s : State) (r : Report) : (s.report r).cur = s.cur := rfl
@[simp] theorem State.report_core (s : State) (r : Report) : (s.report r).core = s.core := rfl
@[simp] theorem State.report_me (s : State) (r : Report) : (s.report r).me = s.me := rfl
@[simp] theorem State.report_issue (s : State) (r : Report) : (s.report r).issue = s.issue := rfl
@[simp] theorem State.report_agenda (s : State) (r : Report) : (s.report r).agenda = s.agenda := rfl
@[simp] theorem State.report_sched (s : State) (r : Report) : (s.report r).sched = s.sched := rfl
@[simp] theorem State.report_weak (s : State) (r : Report) : (s.report r).weak = s.weak := rfl
@[simp] theorem State.report_late (s : State) (r : Report) : (s.report r).late = s.late := rfl
@[simp] theorem State.report_writes (s : State) (r : Report) : (s.report r).writes = s.writes := rfl
@[simp] theorem State.report_former (s : State) (r : Report) : (s.report r).former = s.former := rfl
@[simp] theorem State.report_turn (s : State) (r : Report) : (s.report r).turn = s.turn := rfl
@[simp] theorem State.report_tick (s : State) (r : Report) : (s.report r).tick = s.tick := rfl
@[simp] theorem State.report_free (s : State) (r : Report) : (s.report r).free = s.free := rfl
@[simp] theorem State.report_slots (s : State) (r : Report) : (s.report r).slots = s.slots := rfl
@[simp] theorem State.report_ctxs (s : State) (r : Report) : (s.report r).ctxs = s.ctxs := rfl
@[simp] theorem State.report_launches (s : State) (r : Report) : (s.report r).launches = s.launches := rfl
@[simp] theorem State.report_groups (s : State) (r : Report) : (s.report r).groups = s.groups := rfl
@[simp] theorem State.report_cores (s : State) (r : Report) : (s.report r).cores = s.cores := rfl
@[simp] theorem State.report_groves (s : State) (r : Report) : (s.report r).groves = s.groves := rfl
@[simp] theorem State.report_ras (s : State) (r : Report) : (s.report r).ras = s.ras := rfl
@[simp] theorem State.report_mem (s : State) (r : Report) : (s.report r).mem = s.mem := rfl
@[simp] theorem State.report_empties (s : State) (r : Report) : (s.report r).empties = s.empties := rfl
@[simp] theorem State.report_flips (s : State) (r : Report) : (s.report r).flips = s.flips := rfl
@[simp] theorem State.report_poison (s : State) (r : Report) : (s.report r).poison = s.poison := rfl
@[simp] theorem State.report_symbols (s : State) (r : Report) : (s.report r).symbols = s.symbols := rfl
@[simp] theorem State.report_waits (s : State) (r : Report) : (s.report r).waits = s.waits := rfl
@[simp] theorem State.report_overflow (s : State) (r : Report) : (s.report r).overflow = s.overflow := rfl
@[simp] theorem State.report_ovfHomes (s : State) (r : Report) : (s.report r).ovfHomes = s.ovfHomes := rfl
@[simp] theorem State.report_atoms (s : State) (r : Report) : (s.report r).atoms = s.atoms := rfl
@[simp] theorem State.report_atomWait (s : State) (r : Report) : (s.report r).atomWait = s.atomWait := rfl
@[simp] theorem State.report_resvs (s : State) (r : Report) : (s.report r).resvs = s.resvs := rfl
@[simp] theorem State.report_senders (s : State) (r : Report) : (s.report r).senders = s.senders := rfl
@[simp] theorem State.report_dir (s : State) (r : Report) : (s.report r).dir = s.dir := rfl
@[simp] theorem State.report_walks (s : State) (r : Report) : (s.report r).walks = s.walks := rfl
@[simp] theorem State.report_tlbinvs (s : State) (r : Report) : (s.report r).tlbinvs = s.tlbinvs := rfl
@[simp] theorem State.report_cmds (s : State) (r : Report) : (s.report r).cmds = s.cmds := rfl
@[simp] theorem State.report_nextCmd (s : State) (r : Report) : (s.report r).nextCmd = s.nextCmd := rfl
@[simp] theorem State.report_partials (s : State) (r : Report) : (s.report r).partials = s.partials := rfl
@[simp] theorem State.report_spoiled (s : State) (r : Report) : (s.report r).spoiled = s.spoiled := rfl
@[simp] theorem State.report_owners (s : State) (r : Report) : (s.report r).owners = s.owners := rfl
@[simp] theorem State.report_heldBy (s : State) (r : Report) : (s.report r).heldBy = s.heldBy := rfl
@[simp] theorem State.report_memcfg (s : State) (r : Report) : (s.report r).memcfg = s.memcfg := rfl
@[simp] theorem State.report_rdymap (s : State) (r : Report) : (s.report r).rdymap = s.rdymap := rfl
@[simp] theorem State.report_fenced (s : State) (r : Report) : (s.report r).fenced = s.fenced := rfl
@[simp] theorem State.report_fencedLinks (s : State) (r : Report) : (s.report r).fencedLinks = s.fencedLinks := rfl
@[simp] theorem State.report_quarantined (s : State) (r : Report) : (s.report r).quarantined = s.quarantined := rfl
@[simp] theorem State.report_exports (s : State) (r : Report) : (s.report r).exports = s.exports := rfl
@[simp] theorem State.report_filter (s : State) (r : Report) : (s.report r).filter = s.filter := rfl
@[simp] theorem State.report_peers (s : State) (r : Report) : (s.report r).peers = s.peers := rfl
@[simp] theorem State.report_hostMaps (s : State) (r : Report) : (s.report r).hostMaps = s.hostMaps := rfl
@[simp] theorem State.report_hostBad (s : State) (r : Report) : (s.report r).hostBad = s.hostBad := rfl
@[simp] theorem State.report_pageIns (s : State) (r : Report) : (s.report r).pageIns = s.pageIns := rfl
@[simp] theorem State.report_tenants (s : State) (r : Report) : (s.report r).tenants = s.tenants := rfl
@[simp] theorem State.report_queues (s : State) (r : Report) : (s.report r).queues = s.queues := rfl
@[simp] theorem State.report_lent (s : State) (r : Report) : (s.report r).lent = s.lent := rfl
@[simp] theorem State.report_rrTenant (s : State) (r : Report) : (s.report r).rrTenant = s.rrTenant := rfl
@[simp] theorem State.report_periods (s : State) (r : Report) : (s.report r).periods = s.periods := rfl
@[simp] theorem State.report_nextId (s : State) (r : Report) : (s.report r).nextId = s.nextId := rfl
@[simp] theorem State.report_errata (s : State) (r : Report) : (s.report r).errata = s.errata := rfl
@[simp] theorem State.report_profiles (s : State) (r : Report) : (s.report r).profiles = s.profiles := rfl
@[simp] theorem State.report_pairs (s : State) (r : Report) : (s.report r).pairs = s.pairs := rfl
@[simp] theorem State.report_suspects (s : State) (r : Report) : (s.report r).suspects = s.suspects := rfl
@[simp] theorem State.report_outbox (s : State) (r : Report) : (s.report r).outbox = s.outbox ++ [r] := rfl

/-! `Slot.setS` changes `s` alone. -/
@[simp] theorem Slot.setS_st (v : Slot) (i : Fin 64) (x : Word) : (v.setS i x).st = v.st := by unfold Slot.setS; split <;> rfl
@[simp] theorem Slot.setS_pc (v : Slot) (i : Fin 64) (x : Word) : (v.setS i x).pc = v.pc := by unfold Slot.setS; split <;> rfl
@[simp] theorem Slot.setS_v (v : Slot) (i : Fin 64) (x : Word) : (v.setS i x).v = v.v := by unfold Slot.setS; split <;> rfl
@[simp] theorem Slot.setS_m (v : Slot) (i : Fin 64) (x : Word) : (v.setS i x).m = v.m := by unfold Slot.setS; split <;> rfl
@[simp] theorem Slot.setS_sb (v : Slot) (i : Fin 64) (x : Word) : (v.setS i x).sb = v.sb := by unfold Slot.setS; split <;> rfl
@[simp] theorem Slot.setS_pend (v : Slot) (i : Fin 64) (x : Word) : (v.setS i x).pend = v.pend := by unfold Slot.setS; split <;> rfl
@[simp] theorem Slot.setS_awaits (v : Slot) (i : Fin 64) (x : Word) : (v.setS i x).awaits = v.awaits := by unfold Slot.setS; split <;> rfl
@[simp] theorem Slot.setS_vl (v : Slot) (i : Fin 64) (x : Word) : (v.setS i x).vl = v.vl := by unfold Slot.setS; split <;> rfl
@[simp] theorem Slot.setS_vt (v : Slot) (i : Fin 64) (x : Word) : (v.setS i x).vt = v.vt := by unfold Slot.setS; split <;> rfl
@[simp] theorem Slot.setS_fill (v : Slot) (i : Fin 64) (x : Word) : (v.setS i x).fill = v.fill := by unfold Slot.setS; split <;> rfl
@[simp] theorem Slot.setS_rmode (v : Slot) (i : Fin 64) (x : Word) : (v.setS i x).rmode = v.rmode := by unfold Slot.setS; split <;> rfl
@[simp] theorem Slot.setS_frm (v : Slot) (i : Fin 64) (x : Word) : (v.setS i x).frm = v.frm := by unfold Slot.setS; split <;> rfl
@[simp] theorem Slot.setS_fflags (v : Slot) (i : Fin 64) (x : Word) : (v.setS i x).fflags = v.fflags := by unfold Slot.setS; split <;> rfl
@[simp] theorem Slot.setS_sat (v : Slot) (i : Fin 64) (x : Word) : (v.setS i x).sat = v.sat := by unfold Slot.setS; split <;> rfl
@[simp] theorem Slot.setS_fmt (v : Slot) (i : Fin 64) (x : Word) : (v.setS i x).fmt = v.fmt := by unfold Slot.setS; split <;> rfl
@[simp] theorem Slot.setS_saved (v : Slot) (i : Fin 64) (x : Word) : (v.setS i x).saved = v.saved := by unfold Slot.setS; split <;> rfl
@[simp] theorem Slot.setS_tc (v : Slot) (i : Fin 64) (x : Word) : (v.setS i x).tc = v.tc := by unfold Slot.setS; split <;> rfl
@[simp] theorem Slot.setS_tid (v : Slot) (i : Fin 64) (x : Word) : (v.setS i x).tid = v.tid := by unfold Slot.setS; split <;> rfl
@[simp] theorem Slot.setS_work (v : Slot) (i : Fin 64) (x : Word) : (v.setS i x).work = v.work := by unfold Slot.setS; split <;> rfl
@[simp] theorem Slot.setS_q (v : Slot) (i : Fin 64) (x : Word) : (v.setS i x).q = v.q := by unfold Slot.setS; split <;> rfl
@[simp] theorem Slot.setS_loop (v : Slot) (i : Fin 64) (x : Word) : (v.setS i x).loop = v.loop := by unfold Slot.setS; split <;> rfl
@[simp] theorem Slot.setS_inbox (v : Slot) (i : Fin 64) (x : Word) : (v.setS i x).inbox = v.inbox := by unfold Slot.setS; split <;> rfl
@[simp] theorem Slot.setS_epc (v : Slot) (i : Fin 64) (x : Word) : (v.setS i x).epc = v.epc := by unfold Slot.setS; split <;> rfl
@[simp] theorem Slot.setS_cause (v : Slot) (i : Fin 64) (x : Word) : (v.setS i x).cause = v.cause := by unfold Slot.setS; split <;> rfl
@[simp] theorem Slot.setS_tval (v : Slot) (i : Fin 64) (x : Word) : (v.setS i x).tval = v.tval := by unfold Slot.setS; split <;> rfl
@[simp] theorem Slot.setS_tinfo (v : Slot) (i : Fin 64) (x : Word) : (v.setS i x).tinfo = v.tinfo := by unfold Slot.setS; split <;> rfl
@[simp] theorem Slot.setS_hbase (v : Slot) (i : Fin 64) (x : Word) : (v.setS i x).hbase = v.hbase := by unfold Slot.setS; split <;> rfl
@[simp] theorem Slot.setS_hmc (v : Slot) (i : Fin 64) (x : Word) : (v.setS i x).hmc = v.hmc := by unfold Slot.setS; split <;> rfl
@[simp] theorem Slot.setS_yld (v : Slot) (i : Fin 64) (x : Word) : (v.setS i x).yld = v.yld := by unfold Slot.setS; split <;> rfl
@[simp] theorem Slot.setS_tm (v : Slot) (i : Fin 64) (x : Word) : (v.setS i x).tm = v.tm := by unfold Slot.setS; split <;> rfl
@[simp] theorem Slot.setS_tn (v : Slot) (i : Fin 64) (x : Word) : (v.setS i x).tn = v.tn := by unfold Slot.setS; split <;> rfl
@[simp] theorem Slot.setS_tk (v : Slot) (i : Fin 64) (x : Word) : (v.setS i x).tk = v.tk := by unfold Slot.setS; split <;> rfl
@[simp] theorem Slot.setS_held (v : Slot) (i : Fin 64) (x : Word) : (v.setS i x).held = v.held := by unfold Slot.setS; split <;> rfl
@[simp] theorem Slot.setS_sres (v : Slot) (i : Fin 64) (x : Word) : (v.setS i x).sres = v.sres := by unfold Slot.setS; split <;> rfl
@[simp] theorem Slot.setS_pf (v : Slot) (i : Fin 64) (x : Word) : (v.setS i x).pf = v.pf := by unfold Slot.setS; split <;> rfl
@[simp] theorem Slot.setS_startTrap (v : Slot) (i : Fin 64) (x : Word) : (v.setS i x).startTrap = v.startTrap := by unfold Slot.setS; split <;> rfl
@[simp] theorem Slot.setS_startDue (v : Slot) (i : Fin 64) (x : Word) : (v.setS i x).startDue = v.startDue := by unfold Slot.setS; split <;> rfl
@[simp] theorem Slot.setS_kept (v : Slot) (i : Fin 64) (x : Word) : (v.setS i x).kept = v.kept := by unfold Slot.setS; split <;> rfl
@[simp] theorem Slot.setS_inflight (v : Slot) (i : Fin 64) (x : Word) : (v.setS i x).inflight = v.inflight := by unfold Slot.setS; split <;> rfl
@[simp] theorem Slot.setS_refused (v : Slot) (i : Fin 64) (x : Word) : (v.setS i x).refused = v.refused := by unfold Slot.setS; split <;> rfl
@[simp] theorem Slot.setS_stores (v : Slot) (i : Fin 64) (x : Word) : (v.setS i x).stores = v.stores := by unfold Slot.setS; split <;> rfl
@[simp] theorem Slot.setS_peerReq (v : Slot) (i : Fin 64) (x : Word) : (v.setS i x).peerReq = v.peerReq := by unfold Slot.setS; split <;> rfl
@[simp] theorem Slot.setS_lvl (v : Slot) (i : Fin 64) (x : Word) : (v.setS i x).lvl = v.lvl := by unfold Slot.setS; split <;> rfl
@[simp] theorem Slot.setS_err (v : Slot) (i : Fin 64) (x : Word) : (v.setS i x).err = v.err := by unfold Slot.setS; split <;> rfl
@[simp] theorem Slot.setS_first (v : Slot) (i : Fin 64) (x : Word) : (v.setS i x).first = v.first := by unfold Slot.setS; split <;> rfl
@[simp] theorem Slot.setS_vwait (v : Slot) (i : Fin 64) (x : Word) : (v.setS i x).vwait = v.vwait := by unfold Slot.setS; split <;> rfl
@[simp] theorem Slot.setS_swWait (v : Slot) (i : Fin 64) (x : Word) : (v.setS i x).swWait = v.swWait := by unfold Slot.setS; split <;> rfl
@[simp] theorem Slot.setS_rbuf (v : Slot) (i : Fin 64) (x : Word) : (v.setS i x).rbuf = v.rbuf := by unfold Slot.setS; split <;> rfl
@[simp] theorem Slot.setS_sig (v : Slot) (i : Fin 64) (x : Word) : (v.setS i x).sig = v.sig := by unfold Slot.setS; split <;> rfl
@[simp] theorem Slot.setS_rpend (v : Slot) (i : Fin 64) (x : Word) : (v.setS i x).rpend = v.rpend := by unfold Slot.setS; split <;> rfl
@[simp] theorem Slot.setS_passed (v : Slot) (i : Fin 64) (x : Word) : (v.setS i x).passed = v.passed := by unfold Slot.setS; split <;> rfl
@[simp] theorem Slot.setS_fwd (v : Slot) (i : Fin 64) (x : Word) : (v.setS i x).fwd = v.fwd := by unfold Slot.setS; split <;> rfl
@[simp] theorem Slot.setS_minority (v : Slot) (i : Fin 64) (x : Word) : (v.setS i x).minority = v.minority := by unfold Slot.setS; split <;> rfl
@[simp] theorem Slot.setS_refDue (v : Slot) (i : Fin 64) (x : Word) : (v.setS i x).refDue = v.refDue := by unfold Slot.setS; split <;> rfl
@[simp] theorem Slot.setS_cut (v : Slot) (i : Fin 64) (x : Word) : (v.setS i x).cut = v.cut := by unfold Slot.setS; split <;> rfl
@[simp] theorem Slot.setS_retried (v : Slot) (i : Fin 64) (x : Word) : (v.setS i x).retried = v.retried := by unfold Slot.setS; split <;> rfl
@[simp] theorem Slot.setS_leaf (v : Slot) (i : Fin 64) (x : Word) : (v.setS i x).leaf = v.leaf := by unfold Slot.setS; split <;> rfl
@[simp] theorem Slot.setS_snap (v : Slot) (i : Fin 64) (x : Word) : (v.setS i x).snap = v.snap := by unfold Slot.setS; split <;> rfl
@[simp] theorem Slot.setS_floor (v : Slot) (i : Fin 64) (x : Word) : (v.setS i x).floor = v.floor := by unfold Slot.setS; split <;> rfl
@[simp] theorem Slot.setS_seen (v : Slot) (i : Fin 64) (x : Word) : (v.setS i x).seen = v.seen := by unfold Slot.setS; split <;> rfl

/-! `Slot.setM` changes `m` alone. -/
@[simp] theorem Slot.setM_st (v : Slot) (i : Fin 8) (x : Mask) : (v.setM i x).st = v.st := by unfold Slot.setM; split <;> rfl
@[simp] theorem Slot.setM_pc (v : Slot) (i : Fin 8) (x : Mask) : (v.setM i x).pc = v.pc := by unfold Slot.setM; split <;> rfl
@[simp] theorem Slot.setM_s (v : Slot) (i : Fin 8) (x : Mask) : (v.setM i x).s = v.s := by unfold Slot.setM; split <;> rfl
@[simp] theorem Slot.setM_v (v : Slot) (i : Fin 8) (x : Mask) : (v.setM i x).v = v.v := by unfold Slot.setM; split <;> rfl
@[simp] theorem Slot.setM_sb (v : Slot) (i : Fin 8) (x : Mask) : (v.setM i x).sb = v.sb := by unfold Slot.setM; split <;> rfl
@[simp] theorem Slot.setM_pend (v : Slot) (i : Fin 8) (x : Mask) : (v.setM i x).pend = v.pend := by unfold Slot.setM; split <;> rfl
@[simp] theorem Slot.setM_awaits (v : Slot) (i : Fin 8) (x : Mask) : (v.setM i x).awaits = v.awaits := by unfold Slot.setM; split <;> rfl
@[simp] theorem Slot.setM_vl (v : Slot) (i : Fin 8) (x : Mask) : (v.setM i x).vl = v.vl := by unfold Slot.setM; split <;> rfl
@[simp] theorem Slot.setM_vt (v : Slot) (i : Fin 8) (x : Mask) : (v.setM i x).vt = v.vt := by unfold Slot.setM; split <;> rfl
@[simp] theorem Slot.setM_fill (v : Slot) (i : Fin 8) (x : Mask) : (v.setM i x).fill = v.fill := by unfold Slot.setM; split <;> rfl
@[simp] theorem Slot.setM_rmode (v : Slot) (i : Fin 8) (x : Mask) : (v.setM i x).rmode = v.rmode := by unfold Slot.setM; split <;> rfl
@[simp] theorem Slot.setM_frm (v : Slot) (i : Fin 8) (x : Mask) : (v.setM i x).frm = v.frm := by unfold Slot.setM; split <;> rfl
@[simp] theorem Slot.setM_fflags (v : Slot) (i : Fin 8) (x : Mask) : (v.setM i x).fflags = v.fflags := by unfold Slot.setM; split <;> rfl
@[simp] theorem Slot.setM_sat (v : Slot) (i : Fin 8) (x : Mask) : (v.setM i x).sat = v.sat := by unfold Slot.setM; split <;> rfl
@[simp] theorem Slot.setM_fmt (v : Slot) (i : Fin 8) (x : Mask) : (v.setM i x).fmt = v.fmt := by unfold Slot.setM; split <;> rfl
@[simp] theorem Slot.setM_saved (v : Slot) (i : Fin 8) (x : Mask) : (v.setM i x).saved = v.saved := by unfold Slot.setM; split <;> rfl
@[simp] theorem Slot.setM_tc (v : Slot) (i : Fin 8) (x : Mask) : (v.setM i x).tc = v.tc := by unfold Slot.setM; split <;> rfl
@[simp] theorem Slot.setM_tid (v : Slot) (i : Fin 8) (x : Mask) : (v.setM i x).tid = v.tid := by unfold Slot.setM; split <;> rfl
@[simp] theorem Slot.setM_work (v : Slot) (i : Fin 8) (x : Mask) : (v.setM i x).work = v.work := by unfold Slot.setM; split <;> rfl
@[simp] theorem Slot.setM_q (v : Slot) (i : Fin 8) (x : Mask) : (v.setM i x).q = v.q := by unfold Slot.setM; split <;> rfl
@[simp] theorem Slot.setM_loop (v : Slot) (i : Fin 8) (x : Mask) : (v.setM i x).loop = v.loop := by unfold Slot.setM; split <;> rfl
@[simp] theorem Slot.setM_inbox (v : Slot) (i : Fin 8) (x : Mask) : (v.setM i x).inbox = v.inbox := by unfold Slot.setM; split <;> rfl
@[simp] theorem Slot.setM_epc (v : Slot) (i : Fin 8) (x : Mask) : (v.setM i x).epc = v.epc := by unfold Slot.setM; split <;> rfl
@[simp] theorem Slot.setM_cause (v : Slot) (i : Fin 8) (x : Mask) : (v.setM i x).cause = v.cause := by unfold Slot.setM; split <;> rfl
@[simp] theorem Slot.setM_tval (v : Slot) (i : Fin 8) (x : Mask) : (v.setM i x).tval = v.tval := by unfold Slot.setM; split <;> rfl
@[simp] theorem Slot.setM_tinfo (v : Slot) (i : Fin 8) (x : Mask) : (v.setM i x).tinfo = v.tinfo := by unfold Slot.setM; split <;> rfl
@[simp] theorem Slot.setM_hbase (v : Slot) (i : Fin 8) (x : Mask) : (v.setM i x).hbase = v.hbase := by unfold Slot.setM; split <;> rfl
@[simp] theorem Slot.setM_hmc (v : Slot) (i : Fin 8) (x : Mask) : (v.setM i x).hmc = v.hmc := by unfold Slot.setM; split <;> rfl
@[simp] theorem Slot.setM_yld (v : Slot) (i : Fin 8) (x : Mask) : (v.setM i x).yld = v.yld := by unfold Slot.setM; split <;> rfl
@[simp] theorem Slot.setM_tm (v : Slot) (i : Fin 8) (x : Mask) : (v.setM i x).tm = v.tm := by unfold Slot.setM; split <;> rfl
@[simp] theorem Slot.setM_tn (v : Slot) (i : Fin 8) (x : Mask) : (v.setM i x).tn = v.tn := by unfold Slot.setM; split <;> rfl
@[simp] theorem Slot.setM_tk (v : Slot) (i : Fin 8) (x : Mask) : (v.setM i x).tk = v.tk := by unfold Slot.setM; split <;> rfl
@[simp] theorem Slot.setM_held (v : Slot) (i : Fin 8) (x : Mask) : (v.setM i x).held = v.held := by unfold Slot.setM; split <;> rfl
@[simp] theorem Slot.setM_sres (v : Slot) (i : Fin 8) (x : Mask) : (v.setM i x).sres = v.sres := by unfold Slot.setM; split <;> rfl
@[simp] theorem Slot.setM_pf (v : Slot) (i : Fin 8) (x : Mask) : (v.setM i x).pf = v.pf := by unfold Slot.setM; split <;> rfl
@[simp] theorem Slot.setM_startTrap (v : Slot) (i : Fin 8) (x : Mask) : (v.setM i x).startTrap = v.startTrap := by unfold Slot.setM; split <;> rfl
@[simp] theorem Slot.setM_startDue (v : Slot) (i : Fin 8) (x : Mask) : (v.setM i x).startDue = v.startDue := by unfold Slot.setM; split <;> rfl
@[simp] theorem Slot.setM_kept (v : Slot) (i : Fin 8) (x : Mask) : (v.setM i x).kept = v.kept := by unfold Slot.setM; split <;> rfl
@[simp] theorem Slot.setM_inflight (v : Slot) (i : Fin 8) (x : Mask) : (v.setM i x).inflight = v.inflight := by unfold Slot.setM; split <;> rfl
@[simp] theorem Slot.setM_refused (v : Slot) (i : Fin 8) (x : Mask) : (v.setM i x).refused = v.refused := by unfold Slot.setM; split <;> rfl
@[simp] theorem Slot.setM_stores (v : Slot) (i : Fin 8) (x : Mask) : (v.setM i x).stores = v.stores := by unfold Slot.setM; split <;> rfl
@[simp] theorem Slot.setM_peerReq (v : Slot) (i : Fin 8) (x : Mask) : (v.setM i x).peerReq = v.peerReq := by unfold Slot.setM; split <;> rfl
@[simp] theorem Slot.setM_lvl (v : Slot) (i : Fin 8) (x : Mask) : (v.setM i x).lvl = v.lvl := by unfold Slot.setM; split <;> rfl
@[simp] theorem Slot.setM_err (v : Slot) (i : Fin 8) (x : Mask) : (v.setM i x).err = v.err := by unfold Slot.setM; split <;> rfl
@[simp] theorem Slot.setM_first (v : Slot) (i : Fin 8) (x : Mask) : (v.setM i x).first = v.first := by unfold Slot.setM; split <;> rfl
@[simp] theorem Slot.setM_vwait (v : Slot) (i : Fin 8) (x : Mask) : (v.setM i x).vwait = v.vwait := by unfold Slot.setM; split <;> rfl
@[simp] theorem Slot.setM_swWait (v : Slot) (i : Fin 8) (x : Mask) : (v.setM i x).swWait = v.swWait := by unfold Slot.setM; split <;> rfl
@[simp] theorem Slot.setM_rbuf (v : Slot) (i : Fin 8) (x : Mask) : (v.setM i x).rbuf = v.rbuf := by unfold Slot.setM; split <;> rfl
@[simp] theorem Slot.setM_sig (v : Slot) (i : Fin 8) (x : Mask) : (v.setM i x).sig = v.sig := by unfold Slot.setM; split <;> rfl
@[simp] theorem Slot.setM_rpend (v : Slot) (i : Fin 8) (x : Mask) : (v.setM i x).rpend = v.rpend := by unfold Slot.setM; split <;> rfl
@[simp] theorem Slot.setM_passed (v : Slot) (i : Fin 8) (x : Mask) : (v.setM i x).passed = v.passed := by unfold Slot.setM; split <;> rfl
@[simp] theorem Slot.setM_fwd (v : Slot) (i : Fin 8) (x : Mask) : (v.setM i x).fwd = v.fwd := by unfold Slot.setM; split <;> rfl
@[simp] theorem Slot.setM_minority (v : Slot) (i : Fin 8) (x : Mask) : (v.setM i x).minority = v.minority := by unfold Slot.setM; split <;> rfl
@[simp] theorem Slot.setM_refDue (v : Slot) (i : Fin 8) (x : Mask) : (v.setM i x).refDue = v.refDue := by unfold Slot.setM; split <;> rfl
@[simp] theorem Slot.setM_cut (v : Slot) (i : Fin 8) (x : Mask) : (v.setM i x).cut = v.cut := by unfold Slot.setM; split <;> rfl
@[simp] theorem Slot.setM_retried (v : Slot) (i : Fin 8) (x : Mask) : (v.setM i x).retried = v.retried := by unfold Slot.setM; split <;> rfl
@[simp] theorem Slot.setM_leaf (v : Slot) (i : Fin 8) (x : Mask) : (v.setM i x).leaf = v.leaf := by unfold Slot.setM; split <;> rfl
@[simp] theorem Slot.setM_snap (v : Slot) (i : Fin 8) (x : Mask) : (v.setM i x).snap = v.snap := by unfold Slot.setM; split <;> rfl
@[simp] theorem Slot.setM_floor (v : Slot) (i : Fin 8) (x : Mask) : (v.setM i x).floor = v.floor := by unfold Slot.setM; split <;> rfl
@[simp] theorem Slot.setM_seen (v : Slot) (i : Fin 8) (x : Mask) : (v.setM i x).seen = v.seen := by unfold Slot.setM; split <;> rfl

/-- `Slot.advance` changes the program counter and the loop alone. -/
theorem Slot.advance_eq (v : Slot) : v.advance = { v with pc := v.advance.pc, loop := v.advance.loop } := by
  unfold Slot.advance
  cases h : v.loop with
  | none => simp
  | some l =>
    simp only
    split
    · cases Slot.nextTuple l.idx l.cnt <;> rfl
    · simp

@[simp] theorem Slot.advance_st (v : Slot) : v.advance.st = v.st := by rw [Slot.advance_eq]
@[simp] theorem Slot.advance_s (v : Slot) : v.advance.s = v.s := by rw [Slot.advance_eq]
@[simp] theorem Slot.advance_v (v : Slot) : v.advance.v = v.v := by rw [Slot.advance_eq]
@[simp] theorem Slot.advance_m (v : Slot) : v.advance.m = v.m := by rw [Slot.advance_eq]
@[simp] theorem Slot.advance_sb (v : Slot) : v.advance.sb = v.sb := by rw [Slot.advance_eq]
@[simp] theorem Slot.advance_pend (v : Slot) : v.advance.pend = v.pend := by rw [Slot.advance_eq]
@[simp] theorem Slot.advance_awaits (v : Slot) : v.advance.awaits = v.awaits := by rw [Slot.advance_eq]
@[simp] theorem Slot.advance_vl (v : Slot) : v.advance.vl = v.vl := by rw [Slot.advance_eq]
@[simp] theorem Slot.advance_vt (v : Slot) : v.advance.vt = v.vt := by rw [Slot.advance_eq]
@[simp] theorem Slot.advance_fill (v : Slot) : v.advance.fill = v.fill := by rw [Slot.advance_eq]
@[simp] theorem Slot.advance_rmode (v : Slot) : v.advance.rmode = v.rmode := by rw [Slot.advance_eq]
@[simp] theorem Slot.advance_frm (v : Slot) : v.advance.frm = v.frm := by rw [Slot.advance_eq]
@[simp] theorem Slot.advance_fflags (v : Slot) : v.advance.fflags = v.fflags := by rw [Slot.advance_eq]
@[simp] theorem Slot.advance_sat (v : Slot) : v.advance.sat = v.sat := by rw [Slot.advance_eq]
@[simp] theorem Slot.advance_fmt (v : Slot) : v.advance.fmt = v.fmt := by rw [Slot.advance_eq]
@[simp] theorem Slot.advance_saved (v : Slot) : v.advance.saved = v.saved := by rw [Slot.advance_eq]
@[simp] theorem Slot.advance_tc (v : Slot) : v.advance.tc = v.tc := by rw [Slot.advance_eq]
@[simp] theorem Slot.advance_tid (v : Slot) : v.advance.tid = v.tid := by rw [Slot.advance_eq]
@[simp] theorem Slot.advance_work (v : Slot) : v.advance.work = v.work := by rw [Slot.advance_eq]
@[simp] theorem Slot.advance_q (v : Slot) : v.advance.q = v.q := by rw [Slot.advance_eq]
@[simp] theorem Slot.advance_inbox (v : Slot) : v.advance.inbox = v.inbox := by rw [Slot.advance_eq]
@[simp] theorem Slot.advance_epc (v : Slot) : v.advance.epc = v.epc := by rw [Slot.advance_eq]
@[simp] theorem Slot.advance_cause (v : Slot) : v.advance.cause = v.cause := by rw [Slot.advance_eq]
@[simp] theorem Slot.advance_tval (v : Slot) : v.advance.tval = v.tval := by rw [Slot.advance_eq]
@[simp] theorem Slot.advance_tinfo (v : Slot) : v.advance.tinfo = v.tinfo := by rw [Slot.advance_eq]
@[simp] theorem Slot.advance_hbase (v : Slot) : v.advance.hbase = v.hbase := by rw [Slot.advance_eq]
@[simp] theorem Slot.advance_hmc (v : Slot) : v.advance.hmc = v.hmc := by rw [Slot.advance_eq]
@[simp] theorem Slot.advance_yld (v : Slot) : v.advance.yld = v.yld := by rw [Slot.advance_eq]
@[simp] theorem Slot.advance_tm (v : Slot) : v.advance.tm = v.tm := by rw [Slot.advance_eq]
@[simp] theorem Slot.advance_tn (v : Slot) : v.advance.tn = v.tn := by rw [Slot.advance_eq]
@[simp] theorem Slot.advance_tk (v : Slot) : v.advance.tk = v.tk := by rw [Slot.advance_eq]
@[simp] theorem Slot.advance_held (v : Slot) : v.advance.held = v.held := by rw [Slot.advance_eq]
@[simp] theorem Slot.advance_sres (v : Slot) : v.advance.sres = v.sres := by rw [Slot.advance_eq]
@[simp] theorem Slot.advance_pf (v : Slot) : v.advance.pf = v.pf := by rw [Slot.advance_eq]
@[simp] theorem Slot.advance_startTrap (v : Slot) : v.advance.startTrap = v.startTrap := by rw [Slot.advance_eq]
@[simp] theorem Slot.advance_startDue (v : Slot) : v.advance.startDue = v.startDue := by rw [Slot.advance_eq]
@[simp] theorem Slot.advance_kept (v : Slot) : v.advance.kept = v.kept := by rw [Slot.advance_eq]
@[simp] theorem Slot.advance_inflight (v : Slot) : v.advance.inflight = v.inflight := by rw [Slot.advance_eq]
@[simp] theorem Slot.advance_refused (v : Slot) : v.advance.refused = v.refused := by rw [Slot.advance_eq]
@[simp] theorem Slot.advance_stores (v : Slot) : v.advance.stores = v.stores := by rw [Slot.advance_eq]
@[simp] theorem Slot.advance_peerReq (v : Slot) : v.advance.peerReq = v.peerReq := by rw [Slot.advance_eq]
@[simp] theorem Slot.advance_lvl (v : Slot) : v.advance.lvl = v.lvl := by rw [Slot.advance_eq]
@[simp] theorem Slot.advance_err (v : Slot) : v.advance.err = v.err := by rw [Slot.advance_eq]
@[simp] theorem Slot.advance_first (v : Slot) : v.advance.first = v.first := by rw [Slot.advance_eq]
@[simp] theorem Slot.advance_vwait (v : Slot) : v.advance.vwait = v.vwait := by rw [Slot.advance_eq]
@[simp] theorem Slot.advance_swWait (v : Slot) : v.advance.swWait = v.swWait := by rw [Slot.advance_eq]
@[simp] theorem Slot.advance_rbuf (v : Slot) : v.advance.rbuf = v.rbuf := by rw [Slot.advance_eq]
@[simp] theorem Slot.advance_sig (v : Slot) : v.advance.sig = v.sig := by rw [Slot.advance_eq]
@[simp] theorem Slot.advance_rpend (v : Slot) : v.advance.rpend = v.rpend := by rw [Slot.advance_eq]
@[simp] theorem Slot.advance_passed (v : Slot) : v.advance.passed = v.passed := by rw [Slot.advance_eq]
@[simp] theorem Slot.advance_fwd (v : Slot) : v.advance.fwd = v.fwd := by rw [Slot.advance_eq]
@[simp] theorem Slot.advance_minority (v : Slot) : v.advance.minority = v.minority := by rw [Slot.advance_eq]
@[simp] theorem Slot.advance_refDue (v : Slot) : v.advance.refDue = v.refDue := by rw [Slot.advance_eq]
@[simp] theorem Slot.advance_cut (v : Slot) : v.advance.cut = v.cut := by rw [Slot.advance_eq]
@[simp] theorem Slot.advance_retried (v : Slot) : v.advance.retried = v.retried := by rw [Slot.advance_eq]
@[simp] theorem Slot.advance_leaf (v : Slot) : v.advance.leaf = v.leaf := by rw [Slot.advance_eq]
@[simp] theorem Slot.advance_snap (v : Slot) : v.advance.snap = v.snap := by rw [Slot.advance_eq]
@[simp] theorem Slot.advance_floor (v : Slot) : v.advance.floor = v.floor := by rw [Slot.advance_eq]
@[simp] theorem Slot.advance_seen (v : Slot) : v.advance.seen = v.seen := by rw [Slot.advance_eq]

/-- Outside a running loop body the program counter goes on by 16 bytes (R221). -/
theorem Slot.advance_pc_of_no_loop (v : Slot) (h : v.loop = none) : v.advance.pc = v.pc + 16 := by
  simp [Slot.advance, h]

end Sys2Proof.Machine
end

