-- ==== Sys2Proof/Tests/Slice0.lean ====
section
/-!
SUPPORT. Small tests of the model, and the witnesses of the statements' hypotheses: for each clause a concrete state and
operands that meet its premises together. Expected values come from the rules and examples of spec/ or from hand calculation.
-/
set_option Elab.async false
namespace Sys2Proof.Tests
open Sys2Proof Sys2Proof.Machine

/-! Helpers. -/

/-- The placed context of log 7, at its first instruction. -/
def base : State := State.reset.withFetchWord 128 0
/-- A change of the loaded slot of the placed context. -/
def at0 (f : Slot → Slot) : State := base.mapMe f
/-- Scalar registers. -/
def regs (l : List (Nat × Word)) (v : Slot) : Slot := l.foldl (fun v p => v.setS (Fin.ofNat 64 p.1) p.2) v
/-- The state that an instruction leaves. -/
def ran (i : Instr) (s : State) : State := match exec i s with | .next t => t | _ => s
/-- Whether a word decodes to an instruction. -/
def reads (w : IWord) (i : Instr) : Bool := match decode w with | .ok j => j == i | _ => false
/-- Whether a word is refused. -/
def refuses (w : IWord) : Bool := match decode w with | .ok _ => false | _ => true

/-- An access that reaches its bytes and meets a condition. -/
def reach (s : State) (va : Word) (n : Nat) (kind : AccKind) (op : OpClass) (p : State → Acc → Bool) : Bool :=
  match resolve s (slotReq s) va n kind op with
  | (t, .ok a) => (busyWhy t a.keys).isNone && p t a
  | _ => false

theorem reach_ok {s : State} {va : Word} {n : Nat} {kind : AccKind} {op : OpClass} {p : State → Acc → Bool}
    (h : reach s va n kind op p = true) : ∃ t a, Reaches s va n kind op t a ∧ p t a = true := by
  simp only [reach] at h
  split at h
  · rename_i t a e
    simp only [Bool.and_eq_true, Option.isNone_iff_eq_none] at h
    exact ⟨t, a, ⟨e, h.1⟩, h.2⟩
  · simp at h

/-- Elements that reach their bytes and meet a condition. -/
def reachAll (s : State) (at' : Nat → Word × Nat) (kind : AccKind) (op : OpClass) (l : List Nat)
    (p : State → List (Nat × Word × Acc) → Bool) : Bool :=
  match resolveElems at' kind op l s with
  | .ok (as, none) t => (busyWhy t (as.flatMap fun e => e.2.2.keys)).isNone && p t as
  | _ => false

theorem reachAll_ok {s : State} {at' : Nat → Word × Nat} {kind : AccKind} {op : OpClass} {l : List Nat}
    {p : State → List (Nat × Word × Acc) → Bool} (h : reachAll s at' kind op l p = true) :
    ∃ t as, ReachesAll s at' kind op l t as ∧ p t as = true := by
  simp only [reachAll] at h
  split at h
  · rename_i as t e
    simp only [Bool.and_eq_true, Option.isNone_iff_eq_none] at h
    exact ⟨t, as, ⟨e, h.1⟩, h.2⟩
  · simp at h

/-- An instruction that leaves a state which meets a condition. -/
def runs (i : Instr) (s : State) (p : State → Bool) : Bool := match exec i s with | .next t => p t | _ => false

theorem runs_ok {i : Instr} {s : State} {p : State → Bool} (h : runs i s p = true) : ∃ t, exec i s = .next t ∧ p t = true := by
  simp only [runs] at h
  split at h
  · rename_i t e
    exact ⟨t, e, h⟩
  · simp at h

/-- A computation that succeeds with a value and state that meet a condition. -/
def gives {ε α : Type} (m : EStateM ε State α) (s : State) (p : α → State → Bool) : Bool :=
  match m s with
  | .ok x t => p x t
  | .error _ _ => false

theorem gives_ok {ε α : Type} {m : EStateM ε State α} {s : State} {p : α → State → Bool} (h : gives m s p = true) :
    ∃ x t, m s = .ok x t ∧ p x t = true := by
  simp only [gives] at h
  split at h
  · rename_i x t e
    exact ⟨x, t, e, h⟩
  · simp at h

/-! Well-formedness (R196 to R204): one ill-formed term for each check. -/

theorem wf_nop : Instr.wf (.nop {}) = true := by decide
theorem wf_refuses_class : Instr.wf (.add { d := .v 1 }) = false := by decide
theorem wf_refuses_unused_field : Instr.wf (.movi { a := .s 1, im := true }) = false := by decide
theorem wf_refuses_mask_zero : Instr.wf (.mand { d := .m 0 }) = false := by decide
theorem wf_refuses_queue_destination : Instr.wf (.vadd { d := .q 0 }) = false := by decide
theorem wf_refuses_immediate_form : Instr.wf (.clz { im := true }) = false := by decide
theorem wf_refuses_b_in_f1 : Instr.wf (.add { im := true, b := .s 1 }) = false := by decide
theorem wf_refuses_immediate_in_f0 : Instr.wf (.add { imm := 1 }) = false := by decide
theorem wf_refuses_subfield : Instr.wf (.add { sub := 1 }) = false := by decide
theorem wf_refuses_condition : Instr.wf (.br { cnd := 6 }) = false := by decide
theorem wf_refuses_cmp_code : Instr.wf (.cmp { sub := 6 }) = false := by decide
theorem wf_refuses_atomic_operation : Instr.wf (.amo { aop := 10 }) = false := by decide
theorem wf_refuses_predicate : Instr.wf (.nop { pm := 1 }) = false := by decide
theorem wf_refuses_negated_m0 : Instr.wf (.add { pn := true }) = false := by decide
theorem wf_refuses_order : Instr.wf (.add { ord := .acquire }) = false := by decide
theorem wf_refuses_loop_registers : Instr.wf (.loopn { a := .s 63, nest := 1 }) = false := by decide
theorem wf_refuses_nest : Instr.wf (.loopn { nest := 6 }) = false := by decide
theorem wf_refuses_field_count : Instr.wf (.vlseg { d := .v 0, nf := 0 }) = false := by decide
theorem wf_refuses_source_selector : Instr.wf (.mops { d := .fm 0, a := .q 0, srcsel := 2 }) = false := by decide
theorem wf_refuses_event : Instr.wf (.reset) = false := by decide

/-! Decoding (R195 to R204): a word of each family, put together from the encoding tables field by field. -/

/-- R204's example. -/
theorem decode_amo : reads 0x550002080050A00065E0000000000008 (.amo { set := some 1, wait := 1, d := .s 5, a := .s 10, c := .s 6, ord := .acquire, scope := .device, w := 3, imm := 8 }) = true := by decide +kernel
/-- OP 0x01, W 3. -/
theorem decode_sub : reads 0x01000E00003010200060000000000000 (.sub { d := .s 3, a := .s 1, b := .s 2, w := 3 }) = true := by decide +kernel
/-- OP 0x0D, FN[7], W 2. -/
theorem decode_shl_immediate : reads 0x0D800E00003010000040000000000005 (.shl { d := .s 3, a := .s 1, im := true, w := 2, imm := 5 }) = true := by decide +kernel
/-- OP 0x1B, FN[7]. -/
theorem decode_movi : reads 0x1B800E000090000000600000FFFFFFFF (.movi { d := .s 9, im := true, w := 3, imm := 0xFFFFFFFF }) = true := by decide +kernel
/-- OP 0x23, W 2, RM 7. -/
theorem decode_fma : reads 0x23000E0000301020405C000000000000 (.fma { d := .s 3, a := .s 1, b := .s 2, c := .s 4, w := 2, rm := 7 }) = true := by decide +kernel
/-- OP 0x30, CND 2, IMM -2. -/
theorem decode_br : reads 0x30000E000000102000100000FFFFFFFE (.br { a := .s 1, b := .s 2, cnd := 2, imm := 0xFFFFFFFE }) = true := by decide +kernel
/-- OP 0x35, BL 3, NEST 1. -/
theorem decode_loopn : reads 0x35000E00000080000001900000000000 (.loopn { a := .s 8, bl := 3, nest := 1 }) = true := by decide +kernel
/-- OP 0x40, W 2, SX, SH 3. -/
theorem decode_ld : reads 0x40000E0000701020004C020000000010 (.ld { d := .s 7, a := .s 1, b := .s 2, w := 2, sh := 3, sx := true, imm := 16 }) = true := by decide +kernel
/-- OP 0x60, PM 1, W 3 (R243). -/
theorem decode_vadd : reads 0x60000E00141424300060000000000000 (.vadd { pm := 1, d := .v 1, a := .v 2, b := .v 3 }) = true := by decide +kernel
/-- OP 0x66, FN[2:0] 0. -/
theorem decode_vmin : reads 0x66000E00041424300060000000000000 (.vmin { d := .v 1, a := .v 2, b := .v 3 }) = true := by decide +kernel
/-- OP 0x66, FN[2:0] 1. -/
theorem decode_vmax : reads 0x66010E00041424300060000000000000 (.vmax { d := .v 1, a := .v 2, b := .v 3 }) = true := by decide +kernel
/-- OP 0x83, SUB 5. -/
theorem decode_vred : reads 0x83000E00041424300060050000000000 (.vred { d := .v 1, a := .v 2, b := .v 3, sub := 5 }) = true := by decide +kernel
/-- OP 0x8C, m1 and m2 into m3. -/
theorem decode_mand : reads 0x8C000E00083818200060000000000000 (.mand { d := .m 3, a := .m 1, b := .m 2 }) = true := by decide +kernel
/-- OP 0x90. -/
theorem decode_vld : reads 0x90000E00044020000060000000000040 (.vld { d := .v 4, a := .s 2, imm := 64 }) = true := by decide +kernel
/-- OP 0x90, class 1 index 32. -/
theorem decode_vldQ : reads 0x90000E00060020000060000000000000 (.vldQ { d := .q 0, a := .s 2 }) = true := by decide +kernel
/-- OP 0xA3, FN[4:3] 2, W 2. -/
theorem decode_vwait : reads 0xA3100E00081024344040000000000008 (.vwait { fx := 2, d := .m 1, a := .s 2, b := .v 3, c := .v 4, w := 2, imm := 8 }) = true := by decide +kernel
/-- OP 0xB2, class 2 index 16. -/
theorem decode_mzero : reads 0xB2000E00090000000000000000000000 (.mzero { d := .fm 0 }) = true := by decide +kernel
/-- OP 0xC1. -/
theorem decode_tcp : reads 0xC1000E00003040506000000000000002 (.tcp { d := .s 3, a := .s 4, b := .s 5, c := .s 6, imm := 2 }) = true := by decide +kernel
/-- OP 0xD7. -/
theorem decode_msend : reads 0xD7000E00003040500000000000000009 (.msend { d := .s 3, a := .s 4, b := .s 5, imm := 9 }) = true := by decide +kernel
/-- OP 0xE1, class 3 index 1 (vt). -/
theorem decode_crw : reads 0xE1000E00003C10500000000000000000 (.crw { d := .s 3, a := .cr .vt, b := .s 5 }) = true := by decide +kernel
/-- OP 0xE8. -/
theorem decode_slotw : reads 0xE8000E00000050000000000000000000 (.slotw { a := .s 5 }) = true := by decide +kernel
/-- R204 step 1. -/
theorem refuses_zero : refuses 0x00000000000000000000000000000000 = true := by decide +kernel
/-- OP 0xF0, R202. -/
theorem refuses_unassigned_op : refuses 0xF0000E00000000000000000000000000 = true := by decide +kernel
/-- SET 6, R200. -/
theorem refuses_reserved_set : refuses 0x36000C00000000000000000000000000 = true := by decide +kernel
/-- R204's example with SCOPE 5. -/
theorem refuses_reserved_scope : refuses 0x550002080050A00066E0000000000008 = true := by decide +kernel
/-- D = 0x64, class 1 index 36, R196. -/
theorem refuses_reserved_register : refuses 0x60000E00064424300060000000000000 = true := by decide +kernel
/-- EXT bit 32 of F3, R197. -/
theorem refuses_reserved_format_bit : refuses 0x36000E00000000000000000100000000 = true := by decide +kernel

/-! Witnesses and small tests: scalar instructions. -/

theorem witness_DecodeOfEncode : Instr.wf (.amo { aop := 9, d := .s 63, ord := .acqRel, scope := .domain }) = true := by decide
theorem witness_EncodeOfDecode : ∃ i, decode 0x36000E00000000000000000000000000 = .ok i := ⟨.nop {}, by rfl⟩
theorem witness_EncodedWords : let w : IWord := 0xF0000E00000000000000000000000000
    w ≠ 0 ∧ w ≠ BitVec.allOnes 128 ∧ opAssigned (wordOp w).toNat = false ∧
    (0x36000C00000000000000000000000000 : IWord).extractLsb' 105 3 = 6#3 ∧
    5 ≤ ((0x550002080050A00066E0000000000008 : IWord).extractLsb' 55 3).toNat := by decide +kernel
theorem witness_ScalarIntegers : scalarActive ({} : FX).toHdr base.me = true := by decide +kernel
theorem witness_ScalarIntegers_division : scalarActive ({ im := true, imm := 1 } : FX).toHdr base.me = true ∧
    (FX.opB { im := true, imm := 1 } base.me).setWidth 64 ≠ 0#64 ∧ (FX.opB {} base.me).setWidth 64 = 0#64 := by decide +kernel
theorem witness_ScalarIntegers_bits : scalarActive ({ w := 0 } : FX).toHdr base.me = true := by decide +kernel
theorem witness_ScalarIntegers_frame_inactive : scalarActive ({ pm := 1 } : FX).toHdr base.me = false ∧
    scalarActive ({ pm := 1 } : FM).toHdr base.me = false := by decide +kernel
theorem witness_ScalarIntegers_frame_result : ∃ t, exec (.add {}) base = .next t ∧ true = true := runs_ok (p := fun _ => true) (by decide +kernel)
theorem witness_ScalarIntegers_frame_division : (∃ t, exec (.div { im := true, imm := 1 }) base = .next t ∧ true = true) ∧
    (FX.opB { im := true, imm := 1 } base.me).setWidth 64 ≠ 0#64 := ⟨runs_ok (p := fun _ => true) (by decide +kernel), by decide +kernel⟩

/-- 0xFF + 1 at 8 bits is 0 (R214). -/
theorem test_add_wraps : (ran (.add { d := .s 3, a := .s 1, im := true, w := 0, imm := 1 }) (at0 (regs [(1, 0xFF)]))).me.getS 3 = 0 := by
  decide +kernel
/-- 0x80 at 8 bits is sign-extended (R214). -/
theorem test_sext_byte : (ran (.sext { d := .s 3, a := .s 1, w := 0 }) (at0 (regs [(1, 0x80)]))).me.getS 3 = 0xFFFFFFFFFFFFFF80 := by
  decide +kernel
/-- The high half of -1 times -1 is 0 (R214). -/
theorem test_mulh : (ran (.mulh { d := .s 3, a := .s 1, b := .s 1 }) (at0 (regs [(1, BitVec.allOnes 64)]))).me.getS 3 = 0 := by
  decide +kernel
theorem test_mulhu : (ran (.mulhu { d := .s 3, a := .s 1, b := .s 1 }) (at0 (regs [(1, BitVec.allOnes 64)]))).me.getS 3 =
    0xFFFFFFFFFFFFFFFE := by decide +kernel
/-- The least number divided by -1 (R215). -/
theorem test_div_overflow : (ran (.div { d := .s 3, a := .s 1, im := true, w := 0, imm := 0xFFFFFFFF }) (at0 (regs [(1, 0x80)]))).me.getS 3 =
    0xFFFFFFFFFFFFFF80 := by decide +kernel
/-- A remainder has the dividend's sign: -7 rem 2 = -1 (R215). -/
theorem test_rem_sign : (ran (.rem { d := .s 3, a := .s 1, im := true, imm := 2 }) (at0 (regs [(1, -7)]))).me.getS 3 = -1 := by
  decide +kernel
/-- A zero divisor leaves D and goes to the handler with cause 9 (R215, R338). -/
theorem test_div_zero : let t := ran (.divu { d := .s 3, a := .s 1, b := .s 2 }) (at0 fun v => { regs [(1, 5), (3, 7)] v with hbase := 0x1000 })
    t.me.getS 3 = 7 ∧ t.me.cause = 9 ∧ t.me.pc = 0x1000 ∧ t.me.epc = 0x100000 := by decide +kernel
theorem test_rot : (ran (.rot { d := .s 3, a := .s 1, im := true, w := 0, imm := 9 }) (at0 (regs [(1, 0x41)]))).me.getS 3 =
    0xFFFFFFFFFFFFFF82 := by decide +kernel
theorem test_sra_modulo : (ran (.sra { d := .s 3, a := .s 1, im := true, w := 2, imm := 33 }) (at0 (regs [(1, 0x80000000)]))).me.getS 3 =
    0xFFFFFFFFC0000000 := by decide +kernel
theorem test_clz_zero : (ran (.clz { d := .s 3, a := .s 1, w := 1 }) base).me.getS 3 = 16 := by decide +kernel
theorem test_movhi : (ran (.movhi { d := .s 3, a := .s 1, im := true, imm := 0x12345678 }) (at0 (regs [(1, 0xAAAAAAAABBBBBBBB)]))).me.getS 3 =
    0x12345678BBBBBBBB := by decide +kernel
theorem test_s0_discards : (ran (.movi { im := true, imm := 5 }) base).me.getS 0 = 0 := by decide +kernel
/-- 1.0 + 2.0 = 3.0 in FP32. -/
theorem test_fadd : (ran (.fadd { d := .s 3, a := .s 1, b := .s 2, w := 2, rm := 7 }) (at0 (regs [(1, 0x3F800000), (2, 0x40000000)]))).me.getS 3 =
    0x40400000 := by decide +kernel
/-- 1.0 / 3.0 in FP32 rounded to nearest is 0x3EAAAAAB, inexact (R139, R145). -/
theorem test_fdiv_inexact : let t := ran (.fdiv { d := .s 3, a := .s 1, b := .s 2, w := 2, rm := 0 }) (at0 (regs [(1, 0x3F800000), (2, 0x40400000)]))
    t.me.getS 3 = 0x3EAAAAAB ∧ t.me.fflags = 1 := by decide +kernel
/-- The square root of 2.0 in FP64. -/
theorem test_fsqrt : (ran (.fsqrt { d := .s 3, a := .s 1, w := 3, rm := 0 }) (at0 (regs [(1, 0x4000000000000000)]))).me.getS 3 =
    0x3FF6A09E667F3BCD := by decide +kernel
/-- -0 and +0 compare equal (R217). -/
theorem test_fcmp_zeros : (ran (.fcmp { d := .s 3, a := .s 1, b := .s 2, w := 2, rm := 7 }) (at0 (regs [(1, 0x80000000)]))).me.getS 3 = 1 := by
  decide +kernel
theorem test_fclass_nan : (ran (.fclass { d := .s 3, a := .s 1, w := 2, rm := 7 }) (at0 (regs [(1, 0x7FC00000)]))).me.getS 3 = 0x200 := by
  decide +kernel

theorem witness_ScalarFloats : scalarActive ({ w := 2 } : FX).toHdr base.me = true ∧
    fpCause base.me.frm (fAdd .fp32 0 0x7F800000 0xFF800000).2 = none := by decide +kernel
theorem witness_ScalarFloats_traps : scalarActive ({ w := 2 } : FX).toHdr base.me = true ∧
    fpCause 0x38 (fAdd .fp32 0 0x7F800000 0xFF800000).2 = some 6 ∧ fpCause 0x38 (fMul .fp32 0 0 0x7F800000).2 = some 6 ∧
    fpCause 0x38 (fDiv .fp32 0 0x3F800000 0).2 = some 7 ∧ fpCause 0x38 (fSqrt .fp32 0 0xBF800000).2 = some 6 ∧
    fpCause 0x38 (fCmp .fp32 1 0x7FC00000 0).2 = some 6 := by decide +kernel
theorem witness_ScalarFloats_relations : (0x3F800000 : Nat) < 2 ^ Fmt.fp32.width ∧ (Fmt.fp32.decode 0x3F800000).isNan = false ∧
    (Fmt.fp32.decode 0x7FC00000).isNan = true := by decide +kernel
theorem witness_Transfers : base.me.sreg (.s 1) &&& 15 = 0 ∧ (base.me.sreg (.s 1) + (0 : BitVec 32).signExtend 64 * 16) &&& 15 = 0 ∧
    (at0 (regs [(1, 8)])).me.sreg (.s 1) &&& 15 ≠ 0 := by decide +kernel
/-- BR.LT is signed: -1 < 0 jumps back two instructions (R221). -/
theorem test_br : (ran (.br { a := .s 1, b := .s 2, cnd := 2, imm := 0xFFFFFFFE }) (at0 (regs [(1, -1)]))).me.pc = 0xFFFE0 := by decide +kernel
theorem test_call_links : let t := ran (.call { d := .s 1, imm := 4 }) base; t.me.pc = 0x100040 ∧ t.me.getS 1 = 0x100010 := by decide +kernel

/-- A state whose instruction cache and translations already hold the code line. -/
def warm : State := match fetchWord 0x100010 false base with | .ok _ t => t | .error _ t => t
theorem witness_Loops_start : (gives (fetchWord 0x100010 false) warm fun w t => w == 0 && t == warm) = true ∧ bodyForbids (0 : IWord) = false := by
  decide +kernel
theorem witness_Loops_order : let l : LoopBuf := ⟨0x100010, [0], [2, 3], [1, 2], true⟩
    l.idx.length = l.cnt.length ∧ 0 < l.cnt.length ∧ (∀ p ∈ l.idx.zip l.cnt, p.1 < p.2) ∧
    (0x100010 : Word) + 16 = l.base + BitVec.ofNat 64 (16 * l.body.length) ∧ loopNumber l.idx l.cnt + 1 = l.cnt.prod ∧
    loopNumber [0, 2] l.cnt + 1 < l.cnt.prod := by decide
theorem witness_SoftwareTrap : (at0 fun v => { v with hbase := 0x1000 }).me.hbase ≠ 0 ∧ base.me.pc.toNat % 16 = 0 ∧ base.me.sres = none := by
  decide +kernel
theorem witness_Traps : Cause.fatal Cause.illegal = false ∧ Cause.illegal ≠ Cause.pageFault ∧ Cause.fatal Cause.laneMismatch = true ∧
    base.me.hbase = 0 ∧ ¬((false : Bool) = true ∧ base.me.pc = 0x1000) := by decide +kernel

/-! Witnesses and small tests: memory. -/

/-- The data page of the placed context. -/
def dat : Word := 0x110000
/-- s1 holds the data page's address. -/
def onData : State := at0 (regs [(1, 0x110000)])

theorem witness_ScalarMemory_load : scalarActive ({ a := .s 1 } : FM).toHdr onData.me = true ∧ Quiet onData ∧ NoHeldStores onData.me ∧
    ∃ t a, Reaches onData (FM.ea { a := .s 1, ord := .acquire } onData.me) 8 .load .load t a ∧ (a.ca == []) = true := by
  refine ⟨by decide +kernel, by decide +kernel, by decide +kernel, reach_ok ?_⟩
  decide +kernel
theorem witness_ScalarMemory_store : Alone onData ∧ onData.Inv ∧ Settled onData.me ∧
    ∃ t a, Reaches onData (FM.ea { a := .s 1, w := 0 } onData.me) 1 .store .store t a ∧ decide (OwnBytes a) = true := by
  refine ⟨by decide +kernel, by decide +kernel, by decide +kernel, reach_ok ?_⟩
  decide +kernel
/-- ST writes little-endian bytes (R4): the second byte of 0x1122 at 0x110001 is 0x11. -/
theorem test_store_little_endian : let t := ran (.st { a := .s 1, c := .s 2, w := 1 }) (at0 (regs [(1, 0x110000), (2, 0x1122)]))
    t.mem.byte 0x110001 = 0x11 ∧ t.mem.byte 0x110002 = 0 := by decide +kernel
theorem test_load_sign : (ran (.ld { d := .s 3, a := .s 1, w := 0, sx := true }) { onData with mem := onData.mem.setByte 0x110000 0x80 }).me.getS 3 =
    0xFFFFFFFFFFFFFF80 := by decide +kernel

/-- A page of peer module 5, which is reachable, at 0x120000. -/
def withPeer : State :=
  { at0 (regs [(1, 0x120000)]) with
    mem := base.mem.write (0x31000 + 8 * 18) 8 (5 * 2 ^ 50 + 2 ^ 48 + 0x6F), peers := [(5, ⟨true, true, [], false, 0⟩)], rdymap := 2 ^ 16 }
theorem witness_StoresAndFences_store : scalarActive ({ a := .s 1 } : FM).toHdr withPeer.me = true ∧ Quiet withPeer ∧ Alone withPeer ∧
    ∃ t a, Reaches withPeer (FM.ea { a := .s 1 } withPeer.me) 8 .store .store t a ∧
      (a.dev == [] && a.keys != [] && decide a.keys.Nodup && a.keys.all fun k => decide (2 ^ 63 ≤ k ∧ (k - 2 ^ 63) / 2 ^ 48 = 5)) = true := by
  refine ⟨by decide +kernel, by decide +kernel, by decide +kernel, reach_ok ?_⟩
  decide +kernel
theorem witness_StoresAndFences_fence : Settled base.me ∧ (at0 fun v => { v with inflight := [⟨0, 5, [], [], 0, 1, 0⟩] }).me.inflight ≠ [] ∧
    (at0 fun v => { v with refused := some ⟨1, 8, 5, 9, 0⟩ }).me.inflight = [] := by decide +kernel
/-- A reservation-free empty word. -/
def emptied : State := { onData with empties := [0x110000] }
theorem witness_FullEmptyWords : (∀ op < 7, reach onData 0x110000 8 (feKind op) .fullEmpty (fun t a => a.keys == keyRange 0x110000 8 && isFull t 0x110000) = true) ∧
    (∀ op < 7, reach emptied 0x110000 8 (feKind op) .fullEmpty (fun t a => a.keys == keyRange 0x110000 8 && !isFull t 0x110000) = true) ∧
    Quiet onData ∧ Settled onData.me ∧ (FM.ea { a := .s 1 } onData.me).toNat % 8 = 0 ∧ onData.ovfHomes = [] ∧ onData.waits = [] ∧
    emptied.ovfHomes = [] ∧ emptied.waits = [] ∧ onData.Inv ∧ emptied.Inv := by decide +kernel
/-- LDFE reads the word and empties it (R61). -/
theorem test_ldfe : let t := ran (.ldfe { d := .s 3, a := .s 1 }) { onData with mem := onData.mem.write 0x110000 8 42 }
    t.me.getS 3 = 42 ∧ isFull t 0x110000 = false := by decide +kernel
theorem witness_Atomics : Quiet onData ∧ Settled onData.me ∧ onData.Inv ∧
    reach onData 0x110000 8 .rmw .amoAddSwap (fun _ a => a.keys == keyRange 0x110000 8) = true ∧
    reach onData 0x110000 4 .rmw .amoOther (fun _ a => a.keys == keyRange 0x110000 4) = true ∧
    reach onData 0x110000 8 .rmw .cas (fun _ a => a.keys == keyRange 0x110000 8) = true := by decide +kernel
/-- AMO min of 4 bytes is signed, and returns the former value (R106, R230). -/
theorem test_amo_min : let t := ran (.amo { d := .s 3, a := .s 1, c := .s 2, w := 2, aop := 4 }) (at0 (regs [(1, 0x110000), (2, 0xFFFFFFFF)]))
    t.me.getS 3 = 0 ∧ t.mem.read 0x110000 4 = 0xFFFFFFFF := by decide +kernel
theorem test_cas_unequal : let t := ran (.cas { d := .s 3, a := .s 1, b := .s 2, c := .s 1 }) (at0 (regs [(1, 0x110000), (2, 9)]))
    t.me.getS 3 = 0 ∧ t.mem.read 0x110000 8 = 0 := by decide +kernel
/-- A queued swap of the word. -/
def queued : State := { onData with me := { onData.me with st := .parked .atomic }, atoms := [⟨.slot ⟨1, 0, 0⟩, false, false, 0x110000, 0x110000, true, 8, false, 0, 7, 3⟩] }
theorem witness_Atomics_grant : Quiet queued ∧ queued.Inv ∧ (∃ q rest, wordQueue queued 0x110000 = q :: rest ∧
    (q.access == false && q.who == .slot ⟨1, 0, 0⟩ && q.addr == 0x110000) = true) ∧ lineOwner queued 0x110000 = none ∧ queued.atomWait = [] ∧
    ((queued.slotAt ⟨1, 0, 0⟩).map (·.st)) = some (.parked .atomic) ∧ groupOf queued ⟨1, 0, 0⟩ = none :=
  ⟨by decide +kernel, by decide +kernel, ⟨_, _, rfl, by decide +kernel⟩, by decide +kernel, by decide +kernel, by decide +kernel,
    by decide +kernel⟩

/-! Witnesses and small tests: control registers, slot tables, issue. -/

/-- The placed context in user mode. -/
def user : State := base.mapCtx 1 fun c => { c with priv := false }

theorem witness_ControlRegisterAccess : (crHidden .frm = false ∨ user.ctx.priv = true) ∧ crWritable .frm = true ∧
    (∃ r, crHidden r = true) ∧ user.ctx.priv = false ∧ ∃ r, crWritable r = false := by
  refine ⟨by decide, by decide, ⟨.xroot, by decide⟩, by decide +kernel, ⟨.cyc, by decide⟩⟩
/-- frm keeps a rounding mode that is reserved, and takes the enables (R232). -/
theorem test_crw_frm : let t := ran (.crw { d := .s 3, a := .cr .frm, b := .s 5 }) (at0 (regs [(5, 0x3F)])); t.me.frm = 0x38 ∧ t.me.getS 3 = 0 := by
  decide +kernel
theorem test_crc : (ran (.crc { d := .s 3, a := .cr .fflags, b := .s 5 }) (at0 fun v => { regs [(5, 0x12)] v with fflags := 0x13 })).me.fflags = 1 := by
  decide +kernel

theorem witness_ReturnAndSync : base.me.sres = none ∧ base.me.sreg (.s 2) = 0 ∧ (at0 (regs [(2, 1)])).me.sreg (.s 2) ≠ 0 ∧
    base.ctx.priv = true ∧ (base.me.sreg (.s 3)).toNat < 256 ∧ base.cmds = [] ∧ accessesOpen {} base = false ∧ user.ctx.priv = false := by
  decide +kernel
/-- A slot that waits for its TLBINV. -/
def flushing : State := { at0 fun v => { v with st := .parked .tlbinv, rpend := some (.tlbinv {}) } with tlbinvs := [(⟨1, 0, 0⟩, [3])] }
theorem witness_ReturnAndSync_complete : flushing.me.rpend = some (.tlbinv {}) ∧ flushing.me.st = .parked .tlbinv ∧
    coreOfSlot flushing flushing.cur = flushing.core ∧ (flushing.tlbinvs.find? (·.1 = flushing.cur)) = some (flushing.cur, [3]) ∧
    flushing.cmds = [] ∧ accessesOpen {} flushing = false ∧ flushing.me.swWait = false ∧ leadGroup flushing = none := by decide +kernel

/-- A table whose entries 0 and 2 name the same slot. -/
def closeTable : Vector Word 4 := #v[0x810081, 0, 0, 0]
theorem witness_SlotTables : badEntry #v[0x8786858483828180, 0, 0, 0] = none ∧ badEntry closeTable = some 0 ∧
    onData.ctx.priv = true ∧ Quiet onData ∧ NoHeldStores onData.me ∧ (onData.me.sreg (.s 1)).toNat % 32 = 0 ∧
    reach onData 0x110000 32 .load .load (fun _ a => a.ca == []) = true ∧ user.ctx.priv = false := by decide +kernel
/-- R157, R314: a table that names a slot twice within 4 entries is refused with cause 0x10 and the first entry. -/
theorem test_slotw_refused : let s := at0 fun v => { regs [(1, 0x110000)] v with hbase := 0x1000 }
    let t := ran (.slotw { a := .s 1 }) { s with mem := base.mem.write 0x110008 8 0x8100810000000000 }
    t.me.cause = 0x10 ∧ t.me.tval = 13 := by decide +kernel

theorem witness_SlotIssue : entrySlot base 0 (takeTable (base.coreOf 0)) = some (⟨1, 0, 0⟩, 0, 0) ∧
    (base.slotAt ⟨1, 0, 0⟩).any (fun v => v.st == .ready && v.yld == 0) = true ∧
    entrySlot base 0 { takeTable (base.coreOf 0) with ptr := 1 } = none ∧
    entrySlot (at0 fun v => { v with st := .stopped }) 0 (takeTable (base.coreOf 0)) = some (⟨1, 0, 0⟩, 0, 0) := by decide +kernel
/-- A NOP at the program counter. -/
def nopNext : State := State.reset.withFetchWord 128 0x36000E00000000000000000000000000
theorem witness_SlotIssue_issues : ∃ t, Issues ((nopNext.mapCore 0 fun _ => takeTable (nopNext.coreOf 0)).focus ⟨1, 0, 0⟩ 0) (.nop {}) t := by
  obtain ⟨w, t, e, h⟩ := gives_ok (m := fetchNext) (s := (nopNext.mapCore 0 fun _ => takeTable (nopNext.coreOf 0)).focus ⟨1, 0, 0⟩ 0)
    (p := fun w t => reads w (.nop {}) && !opPrivileged (wordOp w).toNat && hintsClear t.me.dropPend {} && !hazard t.me (.nop {}) && (groupOf t t.cur).isNone && t.me.cut.isNone && !(entryWaits (.nop {}) && t.me.unfilled) && !([({} : FS).d, ({} : FS).a, ({} : FS).b, ({} : FS).c].any (beyond t.ctx.part)))
    (by decide +kernel)
  simp only [Bool.and_eq_true, Bool.not_eq_true', Option.isNone_iff_eq_none] at h
  obtain ⟨⟨⟨⟨⟨⟨⟨h1, h2⟩, h3⟩, h4⟩, h5⟩, h6⟩, h7⟩, h8⟩ := h
  refine ⟨t, by decide +kernel, h6, h7, w, _, e, ?_, Or.inl h2, rfl, h8, h3, h4, h5⟩
  simp only [reads] at h1
  split at h1
  · rename_i j ej
    rw [ej, eq_of_beq h1]
  · simp at h1
theorem witness_SlotIssue_return : let s := at0 fun v => { v with st := .parked .hazard, pend := [⟨[.s 3], some 1, false, none⟩], sb := v.sb.set 1 1 }
    (s.slotAt ⟨1, 0, 0⟩).any (fun v => v.pend == [⟨[.s 3], some 1, false, none⟩]) = true := by decide +kernel
theorem witness_StepRunsDecoded : (nextMove nopNext).1 = .slotIssue 0 ∧ runs (.slotIssue 0) (nextMove nopNext).2 (fun t => t.issue == some (.nop {})) = true := by
  decide +kernel
/-- A step runs the instruction at the program counter: the NOP leaves the next address. -/
theorem test_step_nop : (match step nopNext with | .next t => t.me.pc == 0x100010 | _ => false) = true := by decide +kernel
theorem witness_FetchReadsMemory : Quiet base ∧ (0x100000 : Word).toNat % 16 = 0 ∧
    (∀ l ∈ (base.coreOf base.core).icache, ¬(l.cid = base.cur.cid ∧ l.va = 0x100000 &&& ~~~0x7F#64)) ∧
    reach base 0x100000 16 .fetch .fetch (fun t a => (busyWhy t [Key.line ((a.keys.head?).getD 0)]).isNone && ((a.keys.head?).getD 0) % 128 == 0) = true := by
  decide +kernel

/-! Witnesses and small tests: vector instructions. -/

/-- 32-bit elements, two of them, in a placed slot whose v2 and v3 hold `a` and `b`. -/
def vec (vl : Nat) (a b : VReg) : State := at0 fun v => { v with vl := vl, v := (v.v.set 2 a).set 3 b }

theorem witness_VectorIntegers : VecReady (vec 2 1 2) { d := .v 1, a := .v 2, b := .v 3 } 1 1 1 1 ∧
    ((0x40 : Word).toNat / 256 = 0 ∧ (0x40 : Word).toNat / 16 % 4 = 0 ∧ (0x40 : Word).toNat / 4 % 4 ≠ 3) ∧ (0x10C : Word).toNat / 256 ≠ 0 := by
  decide +kernel
theorem test_vadd : (ran (.vadd { d := .v 1, a := .v 2, b := .v 3 }) (vec 2 0x00000001FFFFFFFF 0x0000000200000001)).me.v[1] = 0x0000000300000000 := by
  decide +kernel
/-- The tail takes fill under TAIL (R241). -/
theorem test_vadd_tail : (elemAt (ran (.vadd { d := .v 1, a := .v 2, b := .v 3 })
    ((vec 2 1 2).mapMe fun v => { v with vt := 0x42, fill := 7 })).me.v[1].toNat 32 127) = 7 := by decide +kernel
theorem test_vcmp : (ran (.vcmp { d := .m 1, a := .v 2, b := .v 3, sub := 2 }) (vec 2 0xFFFFFFFF 0)).me.getM 1 = 1 := by decide +kernel
/-- R244's example: SEW 32 with two registers, then 300 requested. -/
theorem test_setvl : let t := ran (.setvl { d := .s 5, a := .s 6 }) (at0 fun v => { regs [(6, 300)] v with vt := 6 }); t.me.vl = 256 ∧ t.me.getS 5 = 256 := by
  decide +kernel
theorem test_setvt_clips : let t := ran (.setvt { d := .s 7, im := true, imm := 0x8A }) (at0 fun v => { v with vt := 6, vl := 256 })
    t.me.vl = 0 ∧ t.me.getS 7 = 256 := by decide +kernel

theorem witness_VectorSaturating : VecReady (vec 2 1 2) { d := .v 4, a := .v 2, b := .v 3 } 1 1 1 1 ∧
    VecReady (vec 2 1 2) { d := .v 4, a := .v 2, b := .v 3 } 2 1 1 1 ∧ VecReady (vec 2 1 2) { d := .v 4, a := .v 2, b := .v 3 } 1 2 1 1 ∧
    Vt.sew (vec 2 1 2).me.vt ≠ 64 := by decide +kernel
/-- R249's example: 0x0158 shifted by 4 rounds to 0x16, and 0xFF68 to 0xF7, under RNU. -/
theorem test_vnshr : (ran (.vnshr { d := .v 1, a := .v 2, im := true, imm := 4 })
    ((vec 2 0xFF680158 0).mapMe fun v => { v with vt := 0 })).me.v[1] = 0xF716 := by decide +kernel
theorem test_vsadd_clamps : let t := ran (.vsadd { d := .v 1, a := .v 2, b := .v 3 }) (vec 1 0x7FFFFFFF 1); t.me.v[1] = 0x7FFFFFFF ∧ t.me.sat = 1 := by
  decide +kernel

theorem witness_VectorFloats : vfFmt (vec 2 0 0).me.vt 0 = some .fp32 ∧ VecReady (vec 2 0 0) { d := .v 1, a := .v 2, b := .v 3 } 1 1 1 1 ∧
    (∀ k, k < 2 → fpCause 0 (fAdd .fp32 0 0 0).2 = none) := by decide +kernel
theorem witness_VectorFloats_convert : numFmt 0 = some (.flt .fp32) ∧ numFmt 2 = some (.flt .fp16) ∧
    VecReady (vec 2 0 0) { d := .v 1, a := .v 2, sub := 0, fc := 2 } 1 1 1 1 ∧ SourceReady (vec 2 0 0).me [.v 2] (.v 3) ∧
    fpCause 0 (convert (.flt .fp32) (.flt .fp16) 0 0 0).2 = none := by decide +kernel
/-- 1.5 in FP32 is 0x3E00 in FP16. -/
theorem test_vfcvt : (ran (.vfcvt { d := .v 1, a := .v 2, sub := 0, fc := 2 }) (vec 1 0x3FC00000 0)).me.v[1] = 0x3E00 := by decide +kernel
/-- log2 of 8.0 is 3.0 (R251). -/
theorem test_vflog2 : (ran (.vflog2 { d := .v 1, a := .v 2 }) (vec 1 0x41000000 0)).me.v[1] = 0x40400000 := by decide +kernel
/-- A small argument: 2^x rounds to 1, and tanh x to x (R251). -/
theorem test_vfexp2_small : (ran (.vfexp2 { d := .v 1, a := .v 2 }) (vec 1 0x2A9EBA0C 0)).me.v[1] = 0x3F800000 := by decide +kernel
theorem test_vftanh_small : (ran (.vftanh { d := .v 1, a := .v 2 }) (vec 1 0x377D9B41 0)).me.v[1] = 0x377D9B41 := by decide +kernel
/-- Two elements, the second 0/0 with an enabled invalid exception. -/
def enabled : State := (vec 2 0x3F800000 0x3F800000).mapMe fun v => { v with frm := 8, hbase := 0x1000 }
theorem witness_VectorFloatTrap : VecReady enabled { d := .v 1, a := .v 2, b := .v 3, rm := 7 } 1 1 1 1 ∧ enabled.me.hbase ≠ 0 ∧ 1 < enabled.me.vl ∧
    fpCause 8 (fDiv .fp32 0 0x3F800000 0x3F800000).2 = none ∧ fpCause 8 (fDiv .fp32 0 0 0).2 = some 6 := by decide +kernel
/-- R252: the element below is written and the trap names element 1. -/
theorem test_vfdiv_trap : let t := ran (.vfdiv { d := .v 1, a := .v 2, b := .v 3, rm := 7 }) enabled
    t.me.v[1] = 0x3F800000 ∧ t.me.tinfo = 0x1000000000010 ∧ t.me.cause = 6 := by decide +kernel

theorem witness_VectorPermute : VecReady (vec 2 1 2) { d := .v 1, a := .v 2, b := .v 3 } 1 1 1 1 ∧
    VecReady (vec 2 1 2) { d := .m 1, a := .v 2 } 1 1 1 1 := by decide +kernel
theorem test_vperm : (ran (.vperm { d := .v 1, a := .v 2, b := .v 3 }) (vec 2 0x0000000B0000000A 0x0000000000000001)).me.v[1] = 0x0000000A0000000B := by
  decide +kernel
theorem witness_ReductionsAndMasks : VecReady (vec 2 1 2) { d := .v 1, a := .v 2, b := .v 3 } 1 1 1 1 ∧ vfFmt (vec 2 0 0).me.vt 0 = some .fp32 ∧
    fpCause 0 (redStep (some .fp32) 0 0 32 0 0).2 = none := by decide +kernel
theorem test_vred : (ran (.vred { d := .v 1, a := .v 2, b := .v 3 }) (vec 2 0x0000000500000004 0x1)).me.v[1] = 10 := by decide +kernel
theorem test_mfirst_none : (ran (.mfirst { d := .s 3, a := .m 1 }) (vec 2 0 0)).me.getS 3 = 0xFFFFFFFFFFFFFFFF := by decide +kernel
theorem witness_Packing : (Instr.vspk { d := .v 1, a := .v 2, c := .m 1, fc := 9 }).wf = true ∧
    VecReady ((vec 4 1 0).mapMe fun v => { v with vt := 0 }) { d := .v 1, a := .v 2, c := .m 1, fc := 9 } 1 1 1 1 ∧
    numFmt 9 = some (.int true 8) ∧ 4 ≤ Vt.vlmax 0 := by decide +kernel
/-- Of 1, -9, 0, 4 the kept two are -9 and 4, at places 1 and 3 (R275). -/
theorem test_vspk : let t := ran (.vspk { d := .v 1, a := .v 2, c := .m 1, fc := 9 }) ((vec 4 0x0400F701 0).mapMe fun v => { v with vt := 0 })
    t.me.v[1].extractLsb' 0 16 = 0x04F7#16 ∧ (t.me.getM 1).extractLsb' 0 4 = 13#4 := by decide +kernel
theorem witness_SparseUnpack : VecReady (vec 4 1 0) { d := .v 1, a := .v 2, c := .m 1 } 1 1 1 1 := by decide +kernel
theorem test_vunpk : (ran (.vunpk { d := .v 1, a := .v 2, c := .m 1 })
    ((vec 4 0x04F7 0).mapMe fun v => { v.setM 1 13 with vt := 0 })).me.v[1].extractLsb' 0 32 = 0x0400F700#32 := by decide +kernel

/-! Witnesses and small tests: vector memory. -/

/-- Two 32-bit elements; s1 holds the data page's address, v8 indices 0 and 1, v9 a shape record of 2 elements. -/
def vmem : State := onData.mapMe fun v => { v with vl := 2, v := ((v.v.set 8 0x100000000).set 9 (2 + 2 ^ 32 + 2 ^ 64 + 2 * 2 ^ 256 + 2 ^ 288 + 2 ^ 320)).set 4 0xB0000000A }
/-- The elements of a contiguous access of the data page. -/
def words (k : Nat) : Word × Nat := (0x110000 + BitVec.ofNat 64 (k * 4), 4)
theorem witness_VectorLoads : MemReady vmem { d := .v 1, a := .s 1 } words [0, 1] 4 ∧ groupOk vmem.vrCount 1 (.v 1) = true ∧ NoHeldStores vmem.me ∧
    (∃ t as, ReachesAll vmem words .load .load [0, 1] t as ∧ (as.all fun e => e.2.2.ca == []) = true) ∧
    groupOk vmem.vrCount (indexSpan vmem.me.vt 2) (.v 8) = true ∧ ∀ j ∈ [3, 11, 12, 13, 14, 15], vecSrc vmem.me [] (.v 9) 1 32 j = 0 := by
  refine ⟨by decide +kernel, by decide +kernel, by decide +kernel, reachAll_ok ?_, by decide +kernel, by decide +kernel⟩
  decide +kernel
theorem witness_VectorLoads_packed : MemReady vmem { d := .v 1, a := .s 1, ord := .acquire } (fun _ => (0x110000, 1)) [0, 1] 1 ∧
    (∃ t as, ReachesAll vmem (fun _ => (0x110000, 1)) .load .load [0, 1] t as ∧ (as.all fun e => e.2.2.ca == []) = true) := by
  refine ⟨by decide +kernel, reachAll_ok ?_⟩
  decide +kernel
theorem witness_VectorLoads_segments : segmentOk vmem.vrCount 1 2 (.v 4) = true ∧ MemReady vmem { d := .v 4, a := .s 1, nf := 1 } words [0, 1] 4 ∧
    (∃ t as, ReachesAll vmem (fun k => (0x110000 + BitVec.ofNat 64 (k * 8), 8)) .load .load [0, 1] t as ∧ (as.all fun e => e.2.2.ca == []) = true) ∧
    ∃ t as, ReachesAll vmem (fun k => (0x110000 + BitVec.ofNat 64 (k * 8), 8)) .store .store [0, 1] t as ∧ (as.all fun e => decide (OwnBytes e.2.2)) = true := by
  refine ⟨by decide +kernel, by decide +kernel, reachAll_ok ?_, reachAll_ok ?_⟩ <;> decide +kernel
/-- Field 1 of segment 0 is the second word (R259). -/
theorem test_vlseg : let t := ran (.vlseg { d := .v 4, a := .s 1, nf := 1 }) { vmem with mem := vmem.mem.write 0x110000 16 0x00000004000000030000000200000001 }
    t.me.v[4] = 0x0000000300000001 ∧ t.me.v[5] = 0x0000000400000002 := by decide +kernel
theorem test_vld : (ran (.vld { d := .v 1, a := .s 1 }) { vmem with mem := vmem.mem.write 0x110000 8 0x0000000B0000000A }).me.v[1] = 0x0000000B0000000A := by
  decide +kernel
/-- Elements of 6 bits from bit 2 on (R58, R260): 0b111100 and 0b001111 of the stream 0x0FF3 / 4. -/
theorem test_vldb : (ran (.vldb { d := .v 1, a := .s 1, boff := 2, fx := 4 }) { vmem with mem := vmem.mem.write 0x110000 2 0x0FF3 }).me.v[1] = 0x0000000F0000003C := by
  decide +kernel
/-- A load whose second element lies on the page that is not mapped. -/
def edge : State := vmem.mapMe fun v => { v.setS 1 0x11FFFC with hbase := 0x1000 }
theorem witness_LoadFaultsAndStreams : Quiet edge ∧ Fresh edge.me ∧ NoHeldStores edge.me ∧ groupOk edge.vrCount 1 (.v 1) = true ∧
    gives (resolveElems (fun k => (0x11FFFC + BitVec.ofNat 64 (k * 4), 4)) .load .load [0, 1]) edge (fun r t =>
      (match r.2 with | some (j, x) => j == 1 && (x.trap .load j).code == Cause.pageFault | none => false) &&
      r.1.all (fun e => e.2.2.ca == []) && (busyWhy t (r.1.flatMap fun e => e.2.2.keys)).isNone) = true ∧
    gives (resolveElems (fun k => (0x120000 + BitVec.ofNat 64 (k * 4), 4)) .load .load [0, 1]) edge (fun r _ =>
      match r.2 with | some (j, _) => j == 0 | none => false) = true := by decide +kernel
/-- Fault-first keeps element 0 and shortens vl (R37). -/
theorem test_vld_first_fault : let t := ran (.vld { d := .v 1, a := .s 1, ff := true }) edge; t.me.vl = 1 ∧ t.me.st = .ready := by decide +kernel
/-- A slot whose q1 has an entry to be filled from the data page. -/
def streaming : State := ran (.vldQ { d := .q 1, a := .s 1 }) vmem
/-- A slot whose q1 holds four entries. -/
def fullQueue : State := vmem.mapMe fun v => { v with q := v.q.set 1 (List.replicate 4 ⟨0, 0, none, none, false⟩) }
theorem witness_LoadFaultsAndStreams_queues : Vt.grp vmem.me.vt = 1 ∧ (vmem.me.q[1]).length < 4 ∧ 4 ≤ (fullQueue.me.q[1]).length ∧
    (streaming.slotAt streaming.cur).isSome = true ∧ streaming.me.st ≠ .ended ∧ streaming.me.st ≠ .absent ∧ (streaming.ctxOf streaming.cur.cid).st = .running ∧
    Quiet streaming ∧ NoHeldStores streaming.me ∧ ((streaming.me.q[1]).find? (fun e => e.load.isSome && !e.orphan && e.marker.isNone)).isSome = true ∧
    vmem.me.q[1] = [] ∧ groupOk vmem.vrCount 1 (.v 1) = true := by decide +kernel
theorem witness_LoadFaultsAndStreams_fill : ∃ t as, ReachesAll (streaming.focus streaming.cur (coreOfSlot streaming streaming.cur)) words .load .load [0, 1] t as ∧
    (as.all fun e => e.2.2.ca == []) = true := by
  refine reachAll_ok ?_
  decide +kernel
/-- The fill puts the bytes of memory into the entry (R161, R261). -/
theorem test_stream_fill : ((ran (.streamEntryFill ⟨1, 0, 0⟩ 1) { streaming with mem := streaming.mem.write 0x110000 8 0x0000000B0000000A }).me.q[1]).map (·.data) = [0x0000000B0000000A] := by
  decide +kernel

theorem witness_VectorStores : MemReady vmem { c := .v 4, a := .s 1, ord := .release } words [0, 1] 4 ∧ groupOk vmem.vrCount 1 (.v 4) = true ∧ SourceReady vmem.me [] (.v 4) ∧
    Alone vmem ∧ vmem.Inv ∧ (∃ t as, ReachesAll vmem words .store .store [0, 1] t as ∧ (as.all fun e => decide (OwnBytes e.2.2)) = true) := by
  refine ⟨by decide +kernel, by decide +kernel, by decide +kernel, by decide +kernel, by decide +kernel, reachAll_ok ?_⟩
  decide +kernel
/-- Two elements at one address: the higher one stays in an ordered scatter (R122). -/
theorem test_vstx_ordered : (ran (.vstx { c := .v 4, a := .s 1, b := .v 5, w := 2 }) vmem).mem.read 0x110000 4 = 0xB := by decide +kernel
theorem witness_VectorStores_notify : (vmem.me.setS 3 0x110040).getS 3 = 0x110040 ∧
    reach vmem 0x110040 8 .rmw .amoAddSwap (fun t0 a0 => a0.keys == keyRange 0x110040 8 &&
      reachAll t0 words .store .store [0, 1] (fun t as => (busyWhy t (keyRange 0x110040 8 ++ as.flatMap fun e => e.2.2.keys)).isNone &&
        as.all fun e => decide (OwnBytes e.2.2) && e.2.2.keys.all fun k => !(keyRange 0x110040 8).contains k)) = true := by decide +kernel
theorem test_vstn : let t := ran (.vstn { d := .s 3, a := .s 1, c := .v 4 }) (vmem.mapMe fun v => v.setS 3 0x110040)
    t.mem.read 0x110040 8 = 2 ∧ t.mem.read 0x110004 4 = 0xB := by decide +kernel

theorem witness_VectorAtomics : Quiet vmem ∧ Fresh vmem.me ∧ vmem.Inv ∧ groupOk vmem.vrCount (indexSpan vmem.me.vt 2) (.v 8) = true ∧ NoHeldStores vmem.me ∧
    Settled vmem.me ∧ groupOk vmem.vrCount 1 (.v 4) = true ∧ (∀ k ∈ [0, 1], (indexed vmem.me { a := .s 1, b := .v 8, w := 2, sh := 2 } k) = words k) ∧
    (∀ p ∈ [(AccKind.load, OpClass.reserve), (.rmw, .reserve), (.rmw, amoClass 0), (.rmw, amoClass 3)], reachAll vmem words p.1 p.2 [0, 1] (fun _ as => as.all fun e => let k := (e.2.2.keys.head?).getD 0
      e.2.2.ca == [] && e.2.2.keys == keyRange k 4 && k % 4 == 0 && decide (k + 4 ≤ 2 ^ 62)) = true) := by decide +kernel
/-- Elements 0 and 1 lie in one aligned 8-byte word, so only element 0's VSCC succeeds (R266). -/
theorem test_vscc_one_word : let o : FM := { a := .s 1, b := .v 8, w := 2, sh := 2 }
    (ran (.vscc { o with d := .m 1, c := .v 4 }) (ran (.vglr { o with d := .v 1 }) vmem)).me.getM 1 = 1 := by decide +kernel
theorem test_vamo : let t := ran (.vamo { d := .v 1, a := .s 1, b := .v 5, c := .v 4, w := 2 }) vmem
    t.me.v[1] = 0x0000000A00000000 ∧ t.mem.read 0x110000 4 = 0x15 := by decide +kernel

/-- A VWAIT that is parked on two zero words for the values in v4. -/
def waiting : State := ran (.vwait { d := .m 1, a := .s 1, b := .v 8, c := .v 4, w := 2, sh := 2, imm := 1 }) vmem
theorem witness_WaitsAndPackets : (∃ t as, ReachesAll vmem words .load .load [0, 1] t as ∧ (as.all fun e => e.2.2.ca == []) = true) ∧
    waiting.me.st = .parked .vwait ∧ (waiting.me.vwait.map fun w => waitExpired (waiting.focus waiting.cur (coreOfSlot waiting waiting.cur)) w) = some false ∧
    (waiting.me.vwait.map fun w => waitExpired ((waiting.mapCore 0 fun c => { c with cyc := 300 }).focus waiting.cur 0) w) = some true := by
  refine ⟨reachAll_ok ?_, ?_⟩ <;> decide +kernel
/-- IMM is the time-out, not a displacement (R255): the words read are those at A. -/
theorem test_vwait_met : let t := ran (.vwaitReexamine waiting.cur) { waiting with mem := waiting.mem.write 0x110000 8 0x0000000B0000000A }
    t.me.st = .ready ∧ t.me.getM 1 = 0 ∧ t.me.pc = 0x100010 := by decide +kernel
/-- A gather of one word of the placed context's scratchpad from the neighbour core 1. -/
def packet : NeighbourPacket := { op := .gather, ew := 2, mw := 0, aop := 0, score := 1, dcore := 0, rix := 0, slot := 0, grove := 0, elems := [⟨0, 0, 0⟩] }
theorem witness_WaitsAndPackets_packets : Quiet base ∧ base.atoms = [] ∧ waiting.me.swWait = false ∧ ∀ e ∈ packet.elems, packetKeys base packet e (2 ^ packet.ew.val) ≠ [] ∧
    ∀ k ∈ packetKeys base packet e (2 ^ packet.ew.val), lineOwner base k = none := by decide +kernel

/-! Witnesses and small tests: matrix instructions. -/

/-- INT8 operands, two rows, two columns and K = 2; v2 holds rows 1 2 and 3 4 of A, v3 rows 5 6 and 7 8 of B. -/
def mat : State := onData.mapMe fun v =>
  { v with tm := 2, tn := 2, tk := 2, fmt := { v.fmt with fa := 9, fb := 9 }, v := (v.v.set 2 (0x0201 + 0x0403 * 2 ^ 128)).set 3 (0x0605 + 0x0807 * 2 ^ 256) }
/-- The format INT8. -/
def i8 : OperFmt := { cls := .q, num := .int true 8 }
/-- The cells of rows 0 and 1. -/
def cells4 : List (Nat × Nat) := [(0, 0), (0, 1), (1, 0), (1, 1)]
/-- Where a cell of two rows of 16 bytes lies. -/
def cellPlace (c : Nat × Nat) : Word := 0x110000 + BitVec.ofNat 64 c.1 * 16 + BitVec.ofNat 64 (c.2 * 4)

theorem witness_MatrixState_formats : Fresh mat.me ∧ (∀ h ∈ mat.me.held, h.mat = false) ∧ operFmt mat.me.fmt.fb.toNat = some i8 ∧
    gives (loadFmt { mat.me.fmt with fa := 4, fb := 5 }) mat (fun f _ => f.fa == 4) = true ∧
    (mat.me.sreg (.s 1) + (0 : BitVec 32).signExtend 64).toNat % 64 = 0 ∧
    gives (do let x ← loadBytes 0x110000 64; let f ← loadFmt { mat.me.fmt with cbka := BitVec.ofNat 64 (x / 2 ^ 256) }; pure f) mat (fun _ _ => true) = true ∧
    gives (readBook 0x18 0x110020 0) mat (fun _ _ => true) = true ∧ gives (loadBytes 0x110010 16) mat (fun _ _ => true) = true := by decide +kernel
theorem witness_MatrixState_frames : MatrixReady mat ∧ (Tab.get mat.ctxs mat.cur.cid).isSome = true ∧ Quiet mat ∧ NoHeldStores mat.me ∧ 2 * 8 ≠ 0 ∧
    reach mat (0x110000 + BitVec.ofNat 64 1 * 16) 2 .load .load (fun _ a => a.ca == []) = true ∧
    gives (forN (fun k => atRow k (ldbRow 0x110000 16 i8 2 0 k)) 0 2) (claim planeUnit mat) (fun _ _ => true) = true := by
  decide +kernel
/-- SETTL clips M and N to 32 and K to kmax (R281). -/
theorem test_settl : let t := ran (.settl { d := .s 5, a := .s 6, b := .s 7 }) (mat.mapMe (regs [(5, 33), (6, 7), (7, 1000)]))
    t.me.tm = 32 ∧ t.me.tn = 7 ∧ t.me.tk = 128 ∧ t.me.getS 7 = 128 := by decide +kernel
theorem test_mzero_bflip : (getFrame (ran (.mzero { d := .fm 3 }) mat) 3).live = true ∧
    (getBeam (ran (.bflip {}) (ran (.ldb { a := .s 1, b := .s 2 }) mat))).active.k = 2 := by decide +kernel

theorem witness_FrameTransfers : MatrixReady mat ∧ ((0x3F : BitVec 6) = 0x3F → mat.me.fmt.fo ≠ 0x3F ∧ FF.inFormat mat.me.fmt.fo.toNat = true) ∧
    32 * outWidth 0 ≤ 4096 ∧ (∀ j, j < 32 → fpCause 0 (fromCell false 0 0 0).2 = none) ∧ fpCause 0 (toCell false 0 0 0x3F800000).2 = none := by
  decide +kernel
theorem witness_FrameTransfers_memory : MatrixReady mat ∧ mat.me.tm ≤ 32 ∧ mat.me.tn ≤ 32 ∧ NoHeldStores mat.me ∧ Alone mat ∧ FF.outFormat 0 = true ∧
    gives (resolveCells cellPlace 4 .load .load cells4) mat (fun r t => r.2.isNone && (busyWhy t (r.1.flatMap fun e => e.2.2.keys)).isNone && r.1.all fun e => e.2.2.ca == []) = true ∧
    gives (resolveCells cellPlace 4 .store .store cells4) (claim (frameGranule mat 0) mat) (fun r t =>
      r.2.isNone && (busyWhy t (r.1.flatMap fun e => e.2.2.keys)).isNone && r.1.all fun e => decide (OwnBytes e.2.2)) = true := by decide +kernel

theorem witness_OuterProducts : MatrixReady mat ∧ mat.me.tm ≤ 32 ∧ mat.me.tn ≤ 32 ∧ operFmt mat.me.fmt.fa.toNat = some i8 ∧
    intAcc .q .q = true ∧ mat.me.fmt.spa = false := by decide +kernel
/-- The product of 1 2 / 3 4 and 5 6 / 7 8 is 19 22 / 43 50 (R147, R288). -/
theorem test_mop : let t := ran (.mop { d := .fm 0, a := .v 2, b := .v 3 }) mat
    (List.range 2).map (fun i => (List.range 2).map fun j => cellOf (getFrame t 0).cells i j) = [[19, 22], [43, 50]] := by decide +kernel
/-- The first row of A in q0, the beam's active plane loaded with B. -/
def loadedBeam : State :=
  let s := ran (.bflip {}) (ran (.ldb { a := .s 1, b := .s 2 }) ({ mat with mem := mat.mem.write 0x110000 18 (0x0605 + 0x0807 * 2 ^ 128) }.mapMe fun v => v.setS 2 16))
  s.mapMe fun v => { v with tm := 1, q := v.q.set 0 [⟨0, 0x0201, none, none, false⟩] }
theorem witness_OuterProducts_queue : MatrixReady loadedBeam ∧ (loadedBeam.me.q[0])[0]? = some ⟨0, 0x0201, none, none, false⟩ ∧
    (getBeam loadedBeam).active.n ≤ 32 ∧ loadedBeam.me.tm * ((2 * 8 + 7) / 8) ≤ 512 := by decide +kernel
theorem test_mops : let t := ran (.mops { d := .fm 0, a := .q 0 }) loadedBeam
    cellOf (getFrame t 0).cells 0 0 = 19 ∧ cellOf (getFrame t 0).cells 0 1 = 22 ∧ cellOf (getFrame t 0).cells 1 0 = 0 ∧ t.me.q[0] = [] := by decide +kernel

/-! Witnesses and small tests: engines. -/

/-- A COPY of four bytes from the data page to its second line, on tag 3, with further bits of DW0. -/
def copyDw (bits : Nat) : List Word := [BitVec.ofNat 64 (3 * 2 ^ 28 + bits), 0x110000, 0x110080, 0, 3, 0, 0, 0, 0, 0, 0, 0, 0, 0, 0, 0]
/-- The state after the issue of a command. -/
def issued (d : List Word) (s : State) : State := (issueCmd d s).getD s
/-- A placed slot whose data page starts with 1, 2, 3, 4. -/
def src4 : State := { onData with mem := onData.mem.write 0x110000 4 0x04030201 }
/-- The command located, holding its lines, its source read, and its line written. -/
def located : State := issued (copyDw 0) src4
def holding : State := ran (.engineLineAcquire 0) located
def written : State := ran (.engineLineFinish 0 0x110080) holding
def finished : State := ran (.engineLineFinish 0 0x110080) written

theorem witness_Engines_issue : (issueCmd (copyDw 0) src4).isSome = true ∧
    255 ≤ (tagOf ((src4.mapCtx 1 fun c => { c with tags := [(3, ⟨false, 255, false, 0⟩)] }).ctxOf 1) 0 3).cnt ∧
    formatRefused (copyDw (7 * 2 ^ 44)) = true ∧ (issueBatch (fun i => i == 1) [copyDw 0, copyDw 0] 0 src4).2.testBit 1 = true ∧
    (issueBatch (fun _ => true) [copyDw 0, copyDw 0] 0 src4).2 = 3 := by decide +kernel
theorem witness_Engines_tcp : Settled src4.me ∧ (3 : BitVec 32).toNat / 2 ^ 7 % 8 < 5 ∧
    (issueCmd (tcpCommand src4.me { a := .s 1, b := .s 1, c := .s 2, imm := 3 }) src4).isSome = true ∧
    (issueCmd (tcpCommand src4.me { a := .s 1, b := .s 1, c := .s 2, imm := 3 }) (src4.mapCtx 1 fun c => { c with tags := [(3, ⟨false, 255, false, 0⟩)] })).isNone = true := by
  decide +kernel
theorem witness_Engines_ecmd : let s := src4.mapMe fun v => { v with vt := 3, vl := 16 }
    Vt.sew s.me.vt = 64 ∧ s.me.vl % 16 = 0 ∧ Quiet s ∧ Settled s.me ∧ groupOk s.vrCount (Vt.grp s.me.vt) (.v 2) = true := by decide +kernel
theorem witness_Engines_lines :
    (cmdAt located 0).any (fun c => c.wait.isNone && c.st == .acquire && c.todo == [0x110080] && (busyFor located 0 (keyRange 0x110080 128)).isNone) = true ∧
    (busyFor ({ located with dir := [(0x110080, .engine 7)] }) 0 (keyRange 0x110080 128)).isSome = true ∧
    (cmdAt holding 0).any (fun c => c.st == .read && c.owned == [0x110080] && decide c.dest.flatten.Nodup && c.dest.all fun ks => ks.length == 1 && ks.all fun k => decide (k < 2 ^ 62)) = true ∧
    (cmdAt written 0).any (fun c => c.st == .write && c.owned.contains 0x110080 && Dw.fes c.dw != 1) = true ∧ Quiet written ∧
    (cmdAt finished 0).any (fun c => c.st == .finish && c.wait.isNone && Dw.fut c.dw == false) = true ∧ (Tab.get finished.ctxs (homeOf finished 1)).isSome = true := by
  decide +kernel
/-- Whether the elements of a command are read as the given values. -/
def readsAs (c : Cmd) (vals : List Nat) (s : State) : Bool :=
  match engElems (fun n => do
      let x ← srcElem c n
      pure (engValue c.dw n x)) 0 c.dest.length s with
  | (l, none, t) => l == vals && cmdAt t c.id == some c
  | _ => false
theorem witness_Engines_read : (cmdAt holding 0).any (fun c => readsAs c [1, 2, 3, 4] holding) = true := by decide +kernel
/-- A finished command with a future at a page that is mapped, and at one that is not. -/
def future (a : Word) : Cmd × State := match cmdAt finished 0 with
  | some c => ({ c with dw := [BitVec.ofNat 64 (3 * 2 ^ 28 + 2 ^ 34), 0x110000, 0x110080, a, 3] }, finished)
  | none => (newCmd finished (.skidder 0) (.slot ⟨1, 0, 0⟩) 1 0 0 [], finished)
theorem witness_Engines_future : Dw.fut (future 0x110040).1.dw = true ∧ (0x110040 : Word).toNat % 8 = 0 ∧
    (match cmdFuture (future 0x110040).1 finished with | .inr _ => true | .inl _ => false) = true ∧
    (match cmdFuture (future 0x120040).1 finished with | .inr _ => false | .inl _ => true) = true := by decide +kernel
/-- The copied bytes are in place, the tag is set and its count is 0 (R83, R85). -/
theorem test_copy : let t := ran (.engineCommandComplete 0) finished
    t.mem.read 0x110080 4 = 0x04030201 ∧ tagOf (t.ctxOf 1) 0 3 = ⟨true, 0, false, 0⟩ ∧ t.cmds = [] := by decide +kernel

/-- A plan of one node on die 0 with two participants. -/
def plan1 : List Word := [0x0001000200000000, 0x0000FFFF00000002]
/-- Participant p of an exchange of INT32 sums that has read x. -/
def member (p x : Nat) : Cmd :=
  { newCmd src4 (.boom 0) (.slot ⟨1, 0, 0⟩) 1 0 0 [0x50C3800000000000, 0, 0, 0, 0, 0, 0, 0, 0, 0, 0, 0, BitVec.ofNat 64 (p * 2 ^ 32)] with
    id := p, st := .reduce, route := plan1, input := [x], dest := [keyRange (0x110000 + 128 * p) 4],
    owned := [0x110000 + 128 * p] }
def reducing : State := { src4 with cmds := [member 0 5, member 1 0xFFFFFFFF] }
theorem witness_Engines_reduce : (participants reducing 0).filter (·.st == .reduce) = [member 0 5, member 1 0xFFFFFFFF] ∧ 0 < Route.nnode plan1 ∧
    Route.here plan1 0 = true ∧ Route.cnt plan1 0 = 2 ∧ Route.kids plan1 0 = [] ∧
    (ran (.boomReduce 0 0) reducing).partials.find? (fun p => p.seq == 0 && p.node == Route.root plan1) = some ⟨0, 0, [some (0, 4)]⟩ := by decide +kernel
theorem witness_Engines_sums : Dw.opr (member 0 5).dw = 0 ∧ Dw.xs (member 0 5).dw = false ∧ Dw.sfmt (member 0 5).dw = 3 ∧
    Dw.xs [0, 0, 0, 0, 0, 0, 0, 0, 0, 0, 0, 0, 0x0010000000000000] = true ∧ Dw.opr [0, 0, 0, 0, 0, 0, 0, 0, 0, 0, 0, 0, 0x0010000000000000] = 0 := by decide
/-- The sum of 5 and -1 goes to both participants (R94). -/
theorem test_boom : let t := ran (.boomRootResult 0) (ran (.boomReduce 0 0) reducing)
    t.partials = [] ∧ t.cmds.map (fun c => (c.st, c.plan)) =
      [(.write, [(0x110000, 4), (0x110001, 0), (0x110002, 0), (0x110003, 0)]), (.write, [(0x110080, 4), (0x110081, 0), (0x110082, 0), (0x110083, 0)])] := by decide +kernel

/-! Witnesses and small tests: tags, barriers, messages, tasks, work items and replicas. -/

/-- The placed slot with tag 1 pending and tag 2 in error. -/
def tagged : State := (at0 (regs [(6, 6), (7, 2)])).mapCtx 1 fun c => { c with tags := [(1, ⟨false, 1, false, 0⟩), (2, ⟨true, 0, true, 0x30000000⟩)] }
theorem witness_TagsAndBarriers : Settled tagged.me ∧ (myTag tagged 1).bit = false ∧ (myTag tagged 2).bit = true ∧ (tagged.me.sreg (.s 6)).getLsbD 2 = true ∧
    (tagged.me.sreg (.s 7)).getLsbD 1 = true ∧ (Tab.get tagged.ctxs (homeOf tagged tagged.cur.cid)).isSome = true ∧ 0 < max 1 tagged.ctx.nlvl := by
  decide +kernel
/-- TFIRST of tags 1 and 2 gives tag 2 with its error and status (R298). -/
theorem test_tfirst : (ran (.tfirst { d := .s 3, a := .s 6 }) tagged).me.getS 3 = 0x3000000000000102 := by decide +kernel
theorem test_twall_parks : (ran (.twall { d := .s 3, a := .s 6 }) tagged).me.st = .parked .tagWait := by decide +kernel
theorem witness_TagsAndBarriers_complete : let s := ran (.bar {}) base; let b := barrierOf (s.ctxOf 1) 0 [0]
    b.arrived ≠ [] ∧ b.arrived.Nodup ∧ barrierFull s 1 b = true ∧ s.groups = [] ∧ (Tab.get s.ctxs 1).isSome = true ∧ s.me.st = .parked .barrier := by
  decide +kernel
theorem test_bar : (ran (.barrierComplete 1 0 [0]) (ran (.bar {}) base)).me.pc = 0x100010 := by decide +kernel

/-- Two slots in the placed context; s6 names slot 1. -/
def pair : State := ((at0 (regs [(6, 0x100000000), (7, 77)])).mapCtx 1 fun c => { c with part := 0x0001000410020300 }).addSlot ⟨1, 0, 1⟩ placedSlot
/-- The second slot's inbox holds eight messages. -/
def pairFull : State := pair.mapSlot ⟨1, 0, 1⟩ fun v => { v with inbox := List.replicate 8 ⟨0, 0, 0, 0, false⟩ }
theorem witness_Messages : hasSlot pair.ctx ((pair.me.sreg (.s 6)).toNat % 2 ^ 32) ((pair.me.sreg (.s 6)).toNat / 2 ^ 32 % 16) = true ∧
    (pair.me.sreg (.s 6)).toNat / 2 ^ 36 = 0 ∧ hasSlot pair.ctx 5 0 = false ∧ Settled pair.me ∧ (∀ x ∈ pair.senders, x.2.1 ≠ (⟨1, 0, 1⟩ : SlotKey)) ∧
    leadKey pair ⟨1, 0, 1⟩ = ⟨1, 0, 1⟩ ∧ (pair.slotAt ⟨1, 0, 1⟩).map (·.inbox.length) = some 0 ∧ (pair.ctxOf 1).st = .running ∧
    colourOf pair (coreOfSlot pair ⟨1, 0, 1⟩) 1 = colourOf pair pair.core 1 ∧ (∀ x ∈ (Tab.get (pair.ctxOf 1).mail 0).getD [], x.1 ≠ 1) ∧
    (deliverMsg ⟨1, 0, 1⟩ ⟨77, 0, 0, 0, false⟩ pairFull).isNone = true := by decide +kernel
theorem witness_Messages_receive : let s := at0 fun v => { v with inbox := [⟨5, 9, 0, 1, false⟩] }
    s.me.inbox = [⟨5, 9, 0, 1, false⟩] ∧ Settled s.me ∧ base.me.inbox = [] := by decide +kernel
theorem test_msend : let t := ran (.msend { d := .s 3, a := .s 6, b := .s 7, imm := 9 }) pair
    ((t.slotAt ⟨1, 0, 1⟩).map (·.inbox)) = some [⟨77, 9, 0, 0, false⟩] ∧ t.me.pc = 0x100010 := by decide +kernel
/-- The information word of R308: sender core 0 and slot 1, tag 9. -/
theorem test_mrecv : let t := ran (.mrecv { d := .s 3 }) (at0 fun v => { v with inbox := [⟨5, 9, 0, 1, false⟩] })
    t.me.getS 3 = 5 ∧ t.me.getS 4 = 0x80010009 := by decide +kernel

/-- A task packet with entry 0x100000 at the data page, whose future word is at 0x110100. -/
def tasks : State := { at0 (regs [(1, 0x110000), (2, 0x110100), (6, 42)]) with mem := base.mem.write 0x110000 8 0x100000 }
def packetBytes : Nat := 0x100000
/-- The future word. -/
def futWord (s : State) : Word := BitVec.ofNat 64 (s.mem.read 0x110100 8)
theorem witness_FuturesAndTasks_future : tasks.me.st = .ready ∧ Quiet tasks ∧ tasks.Inv ∧ Settled tasks.me ∧ (tasks.me.sreg (.s 2)).toNat % 8 = 0 ∧
    reach tasks 0x110100 8 .rmw .future (fun t a => a.keys == keyRange 0x110100 8 && decide (Fut.state (futWord t) < 2)) = true ∧
    reach { tasks with mem := tasks.mem.write 0x110100 8 (2 ^ 63) } 0x110100 8 .rmw .future (fun t a => a.keys == keyRange 0x110100 8 && decide (2 ≤ Fut.state (futWord t))) = true := by
  decide +kernel
theorem witness_FuturesAndTasks_register : gives (do let k ← futureAt 0x110100; let x ← loadBytes 0x110000 64; pure (k, x)) tasks (fun r t =>
      (r.1.1 == 0x110100 && !packetRefused r.2 && (futRegister (t.core, t.cur.cid) (homeOf t 1) r.1.1 t.share.lgrove r.1.2 (packetOf r.2) t).isSome)) = true ∧
    packetRefused 1 = true ∧ gives (do let k ← futureAt 0x110100; let x ← loadBytes 0x110000 64; pure (k, x)) (tasks.mapCtx 1 fun c => { c with recSize := 0 }) (fun r t =>
      (futRegister (t.core, t.cur.cid) (homeOf t 1) r.1.1 t.share.lgrove r.1.2 (packetOf r.2) t).isNone) = true ∧
    Fut.state (futWord tasks) = 0 ∧ tasks.ctx.records.length < Nat.min tasks.ctx.recSize recLimit := by decide +kernel
theorem witness_FuturesAndTasks_spawn : (tasks.me.sreg (.s 1)).toNat % 64 = 0 ∧ gives (loadBytes 0x110000 64) tasks (fun x t =>
      x == packetBytes && !packetRefused x && t.ctx.shares.any (·.lgrove == t.share.lgrove) && decide (Settled t.me) && (placeTask (homeOf t 1) t.share.lgrove (packetOf x) t).isSome) = true ∧
    tasks.ctx.shares.any (·.lgrove == 5) = false ∧
    (placeTask 1 0 (packetOf packetBytes) ((tasks.mapGrove 0 fun g => { g with tasks := List.replicate 256 ⟨2, 0, packetOf 0⟩ }).mapCtx 1 fun c => { c with spillSize := 0 })).isNone = true ∧
    (∀ c ∈ tasks.ctxs, c.2.spill = [] ∧ ∀ r ∈ c.2.records, r.pending = false) ∧ physGrove (tasks.ctxOf 1) 0 = some 0 ∧ (tasks.groveOf 0).tasks.length < 256 := by
  decide +kernel
/-- A hardware queue with one place left, a spilled task and a pending continuation. -/
def spilled : State := (tasks.mapGrove 0 fun g => { g with tasks := List.replicate 255 ⟨1, 0, packetOf 0⟩ }).mapCtx 1 fun c =>
  { c with spill := [(0, packetOf packetBytes)], records := [⟨1, 0x110100, packetOf 0, 0, 0, true⟩] }
theorem witness_FuturesAndTasks_refill : (spilled.groveOf 0).tasks.length = 255 ∧ spillFor spilled 0 = some (1, 0, packetOf packetBytes) ∧ spillFor tasks 0 = none ∧
    spilled.ctx.records.filter (·.pending) = [⟨1, 0x110100, packetOf 0, 0, 0, true⟩] ∧ spilled.ctx.spill.length < spilled.ctx.spillSize := by decide +kernel
theorem test_futres : futWord (ran (.futres { a := .s 2, b := .s 6 }) tasks) = 0x800000000000002A := by decide +kernel
theorem test_tspawn : ((ran (.tspawn { d := .s 3, a := .s 1 }) tasks).groveOf 0).tasks.map (·.pkt.entry) = [0x100000] := by decide +kernel

/-- A record of one level and tiles of size 2 by 2 over 4 by 6 (R178). -/
def record : List Word := [0x0312010000000000, 0x100000, 0x100000, 0x10000, 9, 0x110080, 0x0001000410010300, 0, 0xA0000000, 0, 0, 0] ++ [0x0000000400020000, 0x0000000600020000] ++ List.replicate 4 0 ++ [8] ++ List.replicate 13 0
/-- A launch with that record. -/
def launch1 : Launch :=
  { tenant := 0, qid := 0, pidx := 0, start := 0, deferred := false, pre := false, recd := record, st := .running, cids := [1], tiles := 0, total := 6, coreMsgs := [], nodeMsgs := [],
    uids := [], cmps := 0, tmrv := 0, kill := none, old := 0 }
/-- The placed context as that launch, with two cruisers: the own one empty, the other with tiles 1 to 5 left. -/
def tiles (lo : Nat) : State :=
  ({ base with launches := [(1, launch1)] } : State).mapCtx 1 fun c => { c with cpg := 2, cruisers := [⟨0, 0, lo, 1, 0, 0⟩, ⟨1, 1, 1, 6, 0, 0⟩] }
theorem witness_WorkItems : (tiles 0).me.work = .none ∧ (takeTask 1 0 (tiles 0)).isNone = true ∧
    ((tiles 0).ctxOf (homeOf (tiles 0) 1)).cruisers.find? (·.crid == ownCruiser (tiles 0)) = some ⟨0, 0, 0, 1, 0, 0⟩ ∧
    gives (tileFmt (recordOf (tiles 0)) 0) (tiles 0) (fun _ t => t.ctxs == (tiles 0).ctxs) = true ∧
    ((tiles 1).ctxOf (homeOf (tiles 1) 1)).cruisers.find? (·.crid == ownCruiser (tiles 1)) = some ⟨0, 0, 1, 1, 0, 0⟩ ∧
    (takeTask 1 0 spilled).isSome = true ∧ Settled spilled.me ∧ gives (loadFmt FmtCtx.reset) spilled (fun _ t => (takeTask 1 t.share.lgrove t).isSome) = true := by decide +kernel
theorem witness_WorkItems_order : Rec.mort record = false ∧ Rec.ndim record = 2 ∧ Rec.perm record 0 = 0 ∧ Rec.perm record 1 = 1 ∧ 0 < Rec.tilesOf record 0 := by
  decide +kernel
/-- Of tiles of 2 by 2, tile 3 of two per row lies at (2, 2) (R184). -/
theorem test_tile_coordinates : tileCoord record 3 0 = 2 ∧ tileCoord record 3 1 = 2 ∧ Rec.total record = 6 := by decide +kernel
theorem test_nextt_tile : let t := ran (.nextt { d := .s 6 }) (tiles 0); t.me.work = .tile 0 0 ∧ t.me.getS 6 = 0 := by decide +kernel
theorem witness_RivingAndRetirement : riveVictim ((tiles 1).ctxOf 1) 0 = some ⟨1, 1, 1, 6, 0, 0⟩ ∧ ((tiles 1).ctxOf 1).st ≠ .swapped ∧
    (Tab.get (tiles 1).ctxs (homeOf (tiles 1) 1)).isSome = true ∧ riveVictim ((tiles 1).ctxOf 1) 1 = none := by decide +kernel
/-- The thief takes 4 and 5 of the tiles 1 to 5 (R188). -/
theorem test_rive : ((ran (.rive { d := .s 6 }) (tiles 1)).ctxOf 1).cruisers.map (fun c => (c.next, c.limit)) = [(4, 6), (1, 4)] := by decide +kernel
/-- A slot that holds a task whose join word is at the data page, and one that holds a tile. -/
def holdsTask : State := at0 fun v => { v with work := .task { packetOf 0 with join := 0x110000 } }
theorem witness_RivingAndRetirement_done : (∃ p, holdsTask.me.work = .task p ∧ p.join ≠ 0 ∧ p.jf = false) ∧ Settled holdsTask.me ∧ Quiet holdsTask ∧ holdsTask.Inv ∧
    reach holdsTask 0x110000 8 .rmw .amoAddSwap (fun _ a => a.keys == keyRange 0x110000 8) = true ∧ (0x110000 : Nat) + 8 ≤ 2 ^ 62 ∧
    (ran (.nextt { d := .s 6 }) (tiles 0)).me.work = .tile 0 0 ∧ (∀ l, Tab.get (tiles 0).launches (tiles 0).ctx.lid = some l → l.pre = false) := by
  refine ⟨⟨_, rfl, by decide +kernel, by decide +kernel⟩, ?_⟩
  refine ⟨by decide +kernel, by decide +kernel, by decide +kernel, by decide +kernel, by decide, by decide +kernel, ?_⟩
  intro l h
  have e : Tab.get (tiles 0).launches (tiles 0).ctx.lid = some launch1 := by decide +kernel
  rw [e] at h
  cases h
  rfl
theorem test_done_join : (ran (.done {}) { holdsTask with mem := holdsTask.mem.write 0x110000 8 3 }).mem.read 0x110000 8 = 2 := by decide +kernel

def launch2 : Launch := { launch1 with cids := [1, 2] }
def replica1 : Ctx := { placedCtx with replica := 1, shares := [⟨0, 1, 0, List.range 9, 0, 0, 0⟩] }
/-- A second replica of the placed context and the group of their slots, with the signatures that have come. -/
def replicas (sigs : List (Nat × Sig)) : State :=
  ({ base with groups := [⟨1, 0, 0, [0, 1], 0, sigs, 0⟩], launches := [(1, launch2)], ctxs := base.ctxs ++ [(2, replica1)] } : State).addSlot ⟨2, 0, 0⟩ { placedSlot with st := .parked .vote }
def group1 (sigs : List (Nat × Sig)) : Group := ⟨1, 0, 0, [0, 1], 0, sigs, 0⟩
theorem witness_Replicas : Alone base ∧ ¬Alone (replicas []) ∧
    (let f : Forward := ⟨0x100000, 0, none, 0, [], [], none, [(3, 7)], [], [], none, none, false, false⟩
     let s := (replicas []).mapSlot ⟨2, 0, 0⟩ fun v => { v with st := .parked .forward, fwd := [f] }
     (s.slotAt ⟨2, 0, 0⟩).any (fun v => v.st == .parked .forward && v.fwd.find? (·.pc == v.pc) == some f) = true) := by decide +kernel
theorem witness_Replicas_vote : groupAt (replicas [(0, .start), (1, .start)]) 1 0 0 = some (group1 [(0, .start), (1, .start)]) ∧
    allArrived (replicas [(0, .start), (1, .start)]) (group1 [(0, .start), (1, .start)]) = true ∧
    allArrived (replicas [(0, .start)]) (group1 [(0, .start)]) = false ∧
    (((replicas [(0, .start)]).coreOf 0).cyc - 0).toNat < 2 ^ 24 ∧ 2 ^ 24 ≤ ((((replicas [(0, .start)]).mapCore 0 fun c => { c with cyc := 2 ^ 24 }).coreOf 0).cyc - 0).toNat ∧
    Quiet (replicas []) ∧ replicaCid (replicas []) 1 0 = some 1 ∧ replicaCid (replicas []) 1 1 = some 2 ∧ ((replicas []).slotAt ⟨1, 0, 0⟩).any (·.rpend == none) = true ∧
    ((replicas []).slotAt ⟨2, 0, 0⟩).isSome = true ∧ busyWhy (replicas []) [] = none ∧
    voteOf (groupSigs (replicas []) (group1 [(0, .start), (1, .start)])) = .pass ∧
    voteOf (groupSigs (replicas []) (group1 [(0, .start), (1, { Sig.start with cnt := 1 })])) = .mismatch := by decide +kernel
theorem test_vote_passes : ((ran (.comparatorVote 1 0 0) (replicas [(0, .start), (1, .start)])).slotAt ⟨2, 0, 0⟩).map (·.st) = some .ready := by decide +kernel
/-- R352: the CRC-64 of a byte 0x01 over a zero register is the polynomial. -/
theorem test_crc_polynomial : crcByte crcPoly1 0 0x01 = 0x42F0E1EBA9EA3693 := by decide +kernel

/-! Witnesses and small tests: Naruno's services, peers and the host, units, registers, tenants. -/

/-- The placed slot stopped at a page fault, with a handler. -/
def faulted : State := at0 fun v => { v with st := .stopped, hbase := 0x1000, pf := some ⟨0x100000, 0x120000, 5, false, false, false⟩ }
/-- A command that waits for a page. -/
def cmdWaits : State := { base with cmds := [{ newCmd base (.skidder 0) (.slot ⟨1, 0, 0⟩) 1 0 0 (copyDw 0) with wait := some 0x120000 }] }
theorem witness_NarunoServices : (match translate base { cid := 1, tenant := 0, xroot := placedCtx.xroot, pcore := some 0 } 0x110000 .load with | .ok _ => true | .error _ => false) = true ∧
    (match translate base { cid := 1, tenant := 0, xroot := placedCtx.xroot, pcore := some 0 } 0x120000 .load with | .ok _ => false | .error _ => true) = true ∧
    (faulted.slotAt ⟨1, 0, 0⟩).any (fun v => v.pf == some ⟨0x100000, 0x120000, 5, false, false, false⟩ && v.sres == none && v.hbase != 0) = true ∧
    (faulted.ctxOf 1).st = .running ∧ ((cmdAt cmdWaits 0).map (·.wait)) = some (some 0x120000) ∧ ({ base with ovfHomes := [0] } : State).ovfHomes.contains 0 = true ∧
    (∀ e ∈ ([] : List (Nat × WaitEntry)), e.1 = 0 → feReady base e.2.op e.2.word = false) := by decide +kernel
/-- The fault is delivered with cause 4 (R32, R338). -/
theorem test_page_fault_delivered : let t := ran (.pageFaultService (.slot ⟨1, 0, 0⟩) false []) faulted
    t.me.pc = 0x1000 ∧ t.me.cause = 4 ∧ t.me.tval = 0x120000 := by decide +kernel

/-- Peer 3 may read and write 256 bytes at 0x110000; a request of it has been answered. -/
def exporting : State := { base with exports := [⟨0x110000, 256, 0, [3], true, true⟩], filter := [(3, 7, 99)] }
theorem witness_IncomingAccesses : Quiet exporting ∧ exporting.Inv ∧
    (exporting.filter.find? fun f => f.1 == 3 && f.2.1 == 7 && (8 : Nat) != 1) = some (3, 7, 99) ∧
    (exportAllows exporting.exports 3 0x110000 8 .rmw).isSome = true ∧ servable exporting 0x110000 8 = true ∧
    (exportAllows exporting.exports 4 0x110000 8 .load).isNone = true ∧ busyWhy exporting (keyRange 0x110000 8) = none ∧
    peerWaiting exporting ⟨3, 8, 0x110000, .amo true 0 5⟩ = false ∧ (∀ k ∈ keyRange 0x110000 8, deviceCheck base 0 k 1 = none ∧ lineOwner base k = none) ∧
    exporting.atoms = [] ∧ exporting.atomWait = [] ∧ isReady { base with rdymap := 2 ^ 42 } .pcie = true ∧ isReady base .pcie = false ∧
    (∃ k ∈ keyRange 0x130000 8, (deviceCheck base 0 k 1).isSome = true) := by decide +kernel
theorem test_peer_amo : let t := ran (.peerAccessArrive ⟨3, 8, 0x110000, .amo true 0 5⟩) { exporting with mem := exporting.mem.write 0x110000 8 10 }
    t.mem.read 0x110000 8 = 15 ∧ t.outbox = [.peerReply 3 8 true 10] := by decide +kernel

/-- A store and an atomic of the placed slot to module 5, which is reachable. -/
def sending : State :=
  { at0 (fun v => { v with st := .parked .atomic, inflight := [⟨0x120000, 5, [(2 ^ 63 + 5 * 2 ^ 48, 1)], [], 0, 1, 16⟩], peerReq := some ⟨5, 0, 1, 2 ^ 63 + 5 * 2 ^ 48, .amo true 0 5, 0x120000, 2, 3⟩ })
    with peers := [(5, ⟨true, true, [], false, 1⟩)], rdymap := 2 ^ 16 }
theorem witness_OutgoingRequests : Quiet sending ∧ sending.Inv ∧ (sending.slotAt ⟨1, 0, 0⟩).any (fun v => v.inflight.length == 1 && v.peerReq.isSome && v.st == .parked .atomic && !v.swWait) = true ∧
    peerReachable sending 5 = true := by decide +kernel
/-- A full table of outgoing tries ends the resends (R359): here the second try is recorded. -/
theorem test_resend : ((ran (.peerRequestResend ⟨1, 0, 0⟩ false) sending).me.peerReq.map (·.tries)) = some 2 := by decide +kernel

theorem witness_UnitsAndErrors : ({ base with suspects := [.core 4] } : State).suspects.contains (.core 4) = true ∧ arrayExists (.pool 0) = true ∧ hasBanks (.pool 0) = true ∧
    (let x : Word := 0xA018000000000000 &&& 0xF0F80001FFFFFFFF; eiMode x = 2 ∧ eiArm x = true ∧ eiBank x = 3) ∧ eiMode (0x9000000000000000 &&& 0xF0F80001FFFFFFFF) < 2 ∧
    eiMode (0x3000000000000000 &&& 0xF0F80001FFFFFFFF) = 3 := by decide +kernel
theorem test_bank_failed : ((ran (.eictlMarkBankFailed (.pool 0) 0xA018000000000000) base).rasOf (.pool 0)).failed = [3] := by decide +kernel

theorem witness_DeviceRegisterWrites : (5 : Nat) < 96 ∧ cacheUnits (0x01 &&& 0x3FF) + shadowUnits (0x01 &&& 0x3FF) ≤ 128 ∧ grantsOverlap base 5 0x01 = false ∧
    grantsOverlap (base.mapCtx 1 fun c => { c with gbase := [(0, 127)] }) 0 0x3FF = true ∧ 128 < cacheUnits (0x3FF &&& 0x3FF) + shadowUnits (0x3FF &&& 0x3FF) ∧
    ((1 : Word) &&& 3).toNat ≤ 1 ∧ (∀ o ∈ State.reset.owners, o.2 = 255) ∧ (∃ o ∈ base.owners, o.2 ≠ 255) ∧ 1 < ((3 : Word) &&& 3).toNat ∧
    (0x10001 : Word).extractLsb' 0 16 ≠ 0#16 ∧ (0x10001 : Word).extractLsb' 16 8 ≠ 0#8 ∧ (0x10000 : Word).extractLsb' 0 16 = 0#16 := by decide +kernel
theorem witness_DeviceRegisterWrites_events : arrayExists (.icache 1535) = true ∧ (Tab.get base.ctxs 1).isSome = true ∧ base.fencedLinks.contains 3 = false ∧
    (∀ c ∈ State.reset.ctxs, c.2.st = .swapped ∨ c.2.st = .destroyed) ∧ (∃ c ∈ base.ctxs, c.2.st ≠ .swapped ∧ c.2.st ≠ .destroyed) := by decide +kernel
theorem test_cmask_kept : ((ran (.cmaskWrite 1 0xFFFF) base).ctxOf 1).cmask = 0xFFFFFF := by decide +kernel

/-- Tenant 0, with event ring at host address 0x5000 of 16 entries. -/
def tenant0 : Tenant :=
  { ring := 0x5000, en := 4, fnOn := true, xroot := placedCtx.xroot, irqs := [], windows := [], overflow := false, tbud := 10, bal := 3, plugin := true, rr := 0 }
def owned : State := { base with tenants := [(0, tenant0)], rdymap := 2 ^ 42 }
theorem witness_TenantsAndPlugins : (1 : Nat) < 64 ∧ Tab.get owned.tenants 1 = none ∧ owned.Inv ∧ (Tab.get owned.tenants 0).isSome = true ∧ pluginOn owned 0 = true ∧
    ownsArray owned 0 (.pool 0) = true ∧ ownsArray owned 0 (.pool 1) = false ∧ (0x00000A : Word).extractLsb' 48 16 = 0#16 := by decide +kernel
theorem test_tenant_ring : (ran (.tenantCreate 1 0x6000 5 0) owned).mem.read (Key.host (2 * 2 ^ 48 + 0x6020)) 8 = 5 := by decide +kernel

/-! Witnesses and small tests: queues, packets and the landing. -/

/-- Queue 2 of tenant 0: control block at 0x110040, ring of 16 packets at 0x111000. -/
def q2 : Queue :=
  { tenant := 0, qid := 2, qcb := 0x110040, base := 0x111000, log2n := 4, rdidx := 0, nidx := 1, next := 0, st := .mapped, code := 0, pidx := 0, port := some 0,
    pending := false, fetched := none, granted := false, started := [], waiting := none, abort := false }
/-- Tenant 0 with that queue, and FW ready. -/
def withQueue (q : Queue) : State := { owned with queues := [q], rdymap := 7 * 2 ^ 40 }
/-- The queue with its first packet read and granted. -/
def withPacket (d : List Word) : State := withQueue { q2 with next := 1, rdidx := 1, fetched := some (0, d), granted := true }
/-- The queue with its first packet started. -/
def withStarted (d : List Word) (waiting : Option Nat) : State := withQueue { q2 with next := 1, rdidx := 1, started := [⟨9, 0, d, [], 0, none⟩], waiting := waiting }

theorem witness_QueueStates_create : (Tab.get owned.tenants 0).isSome = true ∧ (0x110040 : Word).getLsbD 56 = false ∧ (0x110040 : Word).toNat % 64 = 0 ∧ (0x111000 : Word).toNat % 4096 = 0 ∧
    isReady (withQueue q2) .firmware = true ∧ (queueAt (withQueue q2) 0 3).isNone = true ∧
    gives (landStore 0 0x110040 64 (qcbInit q2)) { withQueue q2 with queues := [q2] } (fun _ _ => true) = true := by decide +kernel
theorem witness_QueueStates_doorbell : queueAt (withQueue q2) 0 2 = some q2 ∧ (5 : Word).toNat ≤ q2.rdidx + q2.size ∧ q2.rdidx + q2.size < (17 : Word).toNat ∧
    gives (haltQueue 0 2 4 q2.rdidx) (withQueue q2) (fun _ _ => true) = true ∧
    gives (landAtomic 0 (q2.qcb + 24) ⟨true, 7, false, 0, 5⟩) (mapQueue 0 2 (fun q => { q with pending := true }) (withQueue { q2 with st := .unmapped, port := none })) (fun _ t => (queueAt t 0 2).isSome) = true := by
  decide +kernel
theorem witness_QueueStates_states : freePort (withQueue { q2 with st := .unmapped, port := none }) = some 0 ∧
    gives (do let v ← landRead 0 (q2.qcb + 24) 8; modify (mapQueue 0 2 fun _ => q2); landStore 0 (q2.qcb + 32) 8 (statusWord q2); pure v) (withQueue { q2 with st := .unmapped, port := none })
      (fun v _ => decide (v ≤ q2.rdidx + q2.size)) = true ∧
    gives (do modify (mapQueue 0 2 fun _ => { q2 with st := .halted }); landStore 0 (q2.qcb + 32) 8 (statusWord { q2 with st := .halted })) (withQueue q2) (fun _ t =>
      (queueAt t 0 2).any fun x => x.st == .halted && x.port.isSome) = true ∧
    (∀ l ∈ (queueGoesOn 0 2 (withQueue q2)).launches, ¬(l.2.tenant = 0 ∧ l.2.qid = 2)) ∧ q2.started = [] := by decide +kernel
theorem witness_QueueStates_halt : gives (landStore 0 (q2.qcb + 32) 8 (statusWord { q2 with st := .halted, code := 4 })) (withQueue q2) (fun _ t => queueAt t 0 2 == some q2) = true := by
  decide +kernel
/-- A notify index one past the ring halts the queue with OVERRUN (R318, R327): DW4 of the control block. -/
theorem test_doorbell_overrun : let t := ran (.doorbellWrite 0 2 17) (withQueue q2)
    (queueAt t 0 2).map (fun q => (q.st, q.code)) = some (.halted, 4) ∧ t.mem.read 0x110060 8 = 0x0204000000000000 := by decide +kernel
theorem test_queue_map : (queueAt (ran (.queueMap 0 2) (withQueue { q2 with st := .unmapped, port := none })) 0 2).map (fun q => (q.st, q.port)) = some (.mapped, some 0) := by
  decide +kernel

/-- A SIGNAL that adds 5 to the word at 0x110000 and raises vector 1 with hold-off 1. -/
def signalDw (coal : Bool) : List Word := [BitVec.ofNat 64 (4 + 2 ^ 16 + 2 ^ 18 + (if coal then 2 ^ 19 else 0) + 2 ^ 20), 0x110000, 5, 1, 0, 0, 0, 0]
/-- A COND on the word at 0x110000 equal to 0, with ACT and CNT 1. -/
def condDw (act : Nat) : List Word := [BitVec.ofNat 64 (3 + act * 2 ^ 20 + 2 ^ 24), 0x110000, 0, 0xFF, 0, 0, 0, 0]
/-- A BARRIER-AND on that word with VAL. -/
def andDw (v : Word) : List Word := [BitVec.ofNat 64 (5 + 2 ^ 16), 0x110000, 0, 0, 0, 0, v, 0]
/-- A COPY of 8 bytes with completion word 0x110080. -/
def copyPk : List Word := [2, 0x110000, 0x110100, 8, 0x110080, 7, 0, 0]

theorem witness_PacketsAndArbiter_fetch : canFetch q2 = true ∧
    gives (do let w ← landRead 0 (packetAddr q2 0) 64; modify (mapQueue 0 2 fun _ => { q2 with rdidx := 1, next := 1 }); landStore 0 (q2.qcb + 16) 8 1; pure w) (withQueue q2)
      (fun w _ => w == 0) = true ∧
    packetBad (List.replicate 8 0) = true ∧ packetBad (andDw 3) = false ∧
    gives (haltQueue 0 2 1 0) (withQueue q2) (fun _ _ => true) = true := by decide +kernel
theorem witness_PacketsAndArbiter_ring : tenant0.overflow = false ∧ ringFull owned 0 tenant0 = false ∧ owned.Inv ∧
    (hostKeys owned 0 0x5000 (64 + 16 * 2 ^ 4)).Nodup ∧
    ringFull { owned with mem := owned.mem.write (Key.host (2 ^ 48 + 0x5000)) 8 16 } 0 tenant0 = true := by decide +kernel
/-- The same with the packet read and not granted, and a balance. -/
def ready (bal : Int) : State :=
  { withQueue { q2 with next := 1, rdidx := 1, fetched := some (0, andDw 3) } with tenants := [(0, { tenant0 with bal := bal }), (1, { tenant0 with bal := 4, ring := 0x6000 })] }
theorem witness_PacketsAndArbiter_pick : arbiterPick (ready 3) = some (0, false) ∧ arbiterPick ({ ready 0 with tenants := [(0, { tenant0 with bal := 0, tbud := 0x5000000 }), (1, { tenant0 with bal := 4 })] }) = some (0, true) ∧
    nextAfter (Sorted.ofList (((ready 3).queues.filter fun q => q.tenant == 0 && packetReady (ready 3) q).map (·.qid))) 0 = some 2 ∧
    arbiterPick (withQueue q2) = none ∧ (∀ q ∈ (withQueue q2).queues, packetReady (withQueue q2) q = false) := by decide +kernel
/-- The barrier's packet is granted with tenant 0's token (R330). -/
theorem test_arbiter : let t := ran .arbiterCycle (ready 3)
    (Tab.get t.tenants 0).map (·.bal) = some 2 ∧ (queueAt t 0 2).map (·.granted) = some true ∧ t.agenda.contains (.barrierAnd 0 2) = true := by decide +kernel
theorem test_period : (Tab.get (ran .arbiterPeriodStart (ready (-4))).tenants 0).map (·.bal) = some 6 := by decide +kernel

theorem witness_LandingPackets_copy : Granted (withPacket copyPk) 0 2 2 { q2 with next := 1, rdidx := 1, fetched := some (0, copyPk), granted := true } 0 copyPk ∧
    (startedAt (withStarted copyPk none) 0 2 0 issuesOn).any (fun p => Pkt.typ p.dw == 2 && p.fail.isNone && decide (p.next < copyLen p.dw) && p.cmds.isEmpty) = true ∧
    0 ∈ tenantGroves (withStarted copyPk none) 0 ∧ engineRoom (withStarted copyPk none) (.skidder 0) = true ∧
    gives (landStore 0 (copyCw copyPk) 8 (copyCv copyPk).toNat) (withQueue { q2 with started := [⟨9, 0, copyPk, [], 8, none⟩] }) (fun _ _ => true) = true ∧
    (startedAt (withQueue { q2 with started := [⟨9, 0, copyPk, [], 8, none⟩] }) 0 2 0 copyDone).isSome = true ∧
    (startedAt (withQueue { q2 with started := [⟨9, 0, copyPk, [], 8, some (0, 0x10000000)⟩] }) 0 2 0 copyDone).any (fun p => p.fail == some (0, 0x10000000)) = true ∧
    copyCw [2, 0x110000, 0x110100, 8, 0, 0, 0, 0] = 0 ∧
    gives (do landStore 0 (copyCw copyPk) 8 0x8000000010000000; modify (finishPacket 0 2 9); haltQueue 0 2 6 0) (withQueue { q2 with started := [⟨9, 0, copyPk, [], 8, some (0, 0x10000000)⟩] }) (fun _ _ => true) = true := by
  decide +kernel
/-- A COPY is cut at the 64 KiB boundary of its destination (R325). -/
theorem test_copy_pieces : pieceLen [2, 0, 0x11FFFC, 8, 0, 0, 0, 0] 0 = 4 ∧ pieceLen [2, 0, 0x11FFFC, 8, 0, 0, 0, 0] 4 = 4 := by decide
theorem witness_LandingPackets_cond : Granted (withPacket (condDw 0)) 0 2 3 { q2 with next := 1, rdidx := 1, fetched := some (0, condDw 0), granted := true } 0 (condDw 0) ∧
    gives (landRead 0 0x110000 8) (taken (withPacket (condDw 0)) { q2 with next := 1, rdidx := 1 }) (fun w _ => packetTest 0 (BitVec.ofNat 64 w &&& 0xFF) 0) = true ∧
    packetTest 0 (5 &&& 0xFF) 0 = false ∧ Pkt.act (condDw 0) = 0 ∧ Pkt.act (condDw 1) = 1 ∧ Pkt.act (condDw 2) = 2 ∧ (0 < Pkt.cnt (condDw 1)) ∧
    (Pkt.cnt (condDw 1) ≤ 1 ∧ q2.nidx ≤ 1 - Pkt.cnt (condDw 1) + q2.size) ∧
    gives (haltQueue 0 2 5 0) (taken (withPacket (condDw 1)) { q2 with next := 1, rdidx := 1 }) (fun _ _ => true) = true := by decide +kernel
theorem witness_LandingPackets_waits : (queueAt (withStarted (condDw 2) (some 9)) 0 2).map (·.waiting) = some (some 9) ∧
    (waitingStart (withStarted (condDw 2) (some 9)) 0 2).any (fun p => Pkt.typ p.dw == 3) = true ∧ gives (landRead 0 0x110000 8) (withStarted (condDw 2) (some 0)) (fun _ _ => true) = true ∧
    gives (barrierTest 0 (andDw 3)) (withStarted (andDw 3) (some 0)) (fun b _ => b == some false) = true ∧
    (waitingStart (withStarted (andDw 3) (some 9)) 0 2).any (fun p => Pkt.typ p.dw == 5) = true := by decide +kernel
theorem witness_LandingPackets_signal : Granted (withPacket (signalDw true)) 0 2 4 { q2 with next := 1, rdidx := 1, fetched := some (0, signalDw true), granted := true } 0 (signalDw true) ∧
    gives (landAtomic 0 0x110000 ⟨true, 0, false, 0, 5⟩) (taken (withPacket (signalDw true)) { q2 with next := 1, rdidx := 1 }) (fun _ _ => true) = true ∧
    Pkt.coal (signalDw false) = false ∧ Granted (withPacket (andDw 0)) 0 2 5 { q2 with next := 1, rdidx := 1, fetched := some (0, andDw 0), granted := true } 0 (andDw 0) ∧
    gives (barrierTest 0 (andDw 0)) (taken (withPacket (andDw 0)) { q2 with next := 1, rdidx := 1 }) (fun b _ => b == some true) = true ∧
    (let x : Tenant := { tenant0 with windows := [(1, ⟨256, true⟩)] }; (Tab.get x.windows 1).any fun w => decide (base.tick < w.close) && decide (w.close ≤ 256)) = true := by decide +kernel
/-- The SIGNAL adds 5 and raises vector 1; a hold-off window opens (R325, R326). -/
theorem test_signal : let t := ran (.signal 0 2) (withPacket (signalDw true))
    t.mem.read 0x110000 8 = 5 ∧ (Tab.get t.tenants 0).map (fun x => (x.irqs, x.windows)) = some ([(1, 1)], [(1, ⟨256, false⟩)]) := by decide +kernel
theorem test_cond_skips : (queueAt (ran (.cond 0 2) (withPacket (condDw 0))) 0 2).map (·.next) = some 2 := by decide +kernel

/-! Witnesses and small tests: launches and contexts. -/

/-- A LAUNCH of the record at 0x110200. -/
def launchDw : List Word := [1, 0x110200, 0, 0, 0, 0, 0, 0]
/-- The packet granted, with the record's bytes in place, everything ready. -/
def launchable (r : List Word) : State :=
  let s := withPacket launchDw
  { s with mem := s.mem.write 0x110200 256 (packElems 64 (r.map (·.toNat))), rdymap := 0xFFFFFFFFFFF }
/-- The queue's own launch, waiting. -/
def waitingLaunch : State := { withStarted launchDw none with rdymap := 0xFFFFFFFFFFF, launches := [(1, { launch1 with cids := [] }), (2, { launch1 with st := .waiting, cids := [], qid := 2 })], nextId := 3 }
theorem witness_Launches_read : Granted (launchable record) 0 2 1 { q2 with next := 1, rdidx := 1, fetched := some (0, launchDw), granted := true } 0 launchDw ∧
    gives (landRead 0 0x110200 256) (addStarted 0 2 0 launchDw false (taken (launchable record) { q2 with next := 1, rdidx := 1 })) (fun w u =>
      recordCheck u 0 ((List.range 32).map fun i => (BitVec.ofNat 64 (w / 2 ^ (64 * i)) : Word)) false == 0) = true ∧
    recordCheck (launchable record) 0 (List.replicate 32 0) false = 3 ∧
    gives (writeRecord 0 0x110080 (completionRecord 3 0 0 none none)) (launchable record) (fun ok _ => ok) = true := by decide +kernel
theorem witness_Launches_place : (Tab.get waitingLaunch.launches 2).map (·.st) = some .waiting ∧ isReady waitingLaunch .firmware = true ∧
    choiceOk waitingLaunch record ⟨[[1]], [(0, 1)]⟩ = true ∧ choiceOk waitingLaunch record ⟨[[0]], [(0, 0)]⟩ = false ∧
    hierarchyInvalid waitingLaunch 0 (record.set 8 0xA0000001) = true ∧
    gives (refuseWaiting 2 5) waitingLaunch (fun _ _ => true) = true := by decide +kernel
/-- The placed launch's core whose slot has ended, and then its messages. -/
def ending : State :=
  { (withStarted launchDw none).mapMe (fun v => { v with st := .ended }) with launches := [(1, { launch1 with qid := 2 })] }
theorem witness_Launches_complete : coreIdle ending { launch1 with qid := 2 } 0 = true ∧ (homeCtx ending launch1).shares.any (·.lcore == 0) = true ∧
    (let l : Launch := { launch1 with qid := 2, coreMsgs := [(0, ⟨0, none⟩)] }; childMessages { ending with launches := [(1, l)] } l 0 = some [⟨0, none⟩]) ∧
    (let l : Launch := { launch1 with qid := 2, nodeMsgs := [(128, ⟨0, none⟩)] }; childMessages { ending with launches := [(1, l)] } l 256 = some [⟨0, none⟩]) ∧
    gives (writeRecord 0 (Rec.compl record) (completionRecord 0 0 0 (some launch1) none)) ending (fun ok _ => ok) = true ∧
    (some (6, (0 : Word), (0 : Word))).isSome = true := by decide +kernel
/-- The root's completion record: the sign bit and PARTIAL, since no tile was done (R193). -/
theorem test_launch_ends : let t := ran (.nodeDoneMessage 1 256) { ending with launches := [(1, { launch1 with qid := 2, nodeMsgs := [(128, ⟨0, none⟩)] })] }
    t.mem.read 0x110080 8 = 0xA000000000000000 ∧ (Tab.get t.launches 1).map (·.st) = some .ended ∧ (t.ctxOf 1).st = .destroyed := by decide +kernel
/-- R181: a placed slot starts at ENTRY with the argument in s3. -/
theorem test_launch_places : (((ran (.launchPlace 2 ⟨[[1]], [(0, 1)]⟩) waitingLaunch).slotAt ⟨3, 0, 0⟩).map fun v => (v.pc, v.getS 3, v.st)) = some (0x100000, 9, .ready) := by
  decide +kernel

/-- A stop of the placed context has been requested, and its slots are at their stop points; its cores are then halted. -/
def stopping : State := ({ base with rdymap := 0xFFFFFFFFFFF } : State).mapCtx 1 fun c => { c with stopping := true }
def stopped : State := ran (.preemptStop 1) stopping
def swapped : State := ran (.contextSwapOut 1 0x110400) stopped
theorem witness_Contexts : (Tab.get base.ctxs 1).isSome = true ∧ (base.ctxOf 1).st = .running ∧ launchOver base 1 = false ∧ (base.ctxOf 1).stopping = false ∧ (stopping.ctxOf 1).stopping = true ∧
    (∀ e ∈ stopping.allSlots, e.1.cid = 1 → e.2.st ≠ .parked .engineLines ∧ (e.2.st = .ready → e.2.cut = none)) ∧ (∀ k ∈ base.allSlots, k.2.peerReq = none) ∧
    (stopped.ctxOf 1).st = .stopped ∧ coresHalted stopped 1 = true ∧ coresHalted { stopped with cmds := [newCmd base (.skidder 0) (.slot ⟨1, 0, 0⟩) 1 0 0 (copyDw 0)] } 1 = false ∧
    (swapped.ctxOf 1).st = .swapped ∧ restoreFits swapped (swapped.ctxOf 1) [5] [(0, 3)] = true ∧
    (stopped.me.st = .stopped ∧ stopped.me.pf = none ∧ stopped.me.kept = none ∧ stopped.me.sres = none) ∧ (17 : Nat) + 1 ≤ 0xC00000 ∧
    Quiet base ∧ base.Inv ∧ (∀ r ∈ base.mem.undef, r.1 + r.2.1 ≤ 2 ^ 60) := by decide +kernel
theorem test_restore : let t := ran (.contextRestore 1 ⟨[[5]], [(0, 3)]⟩) swapped
    (t.ctxOf 1).shares.map (·.pcore) = [5] ∧ (t.slotAt ⟨1, 0, 0⟩).map (·.st) = some .ready := by decide +kernel
/-- R40: the new owner is in force. -/
theorem test_owner_change : ownerTag (ran (.ownerTagChange 17 1 5) base) 0x110000 = 5 := by decide +kernel
theorem test_granule_zeroed : (ran (.granuleAssign 0 7) { base with mem := base.mem.setByte (Key.pool 0 (7 * 16384)) 9 }).mem.byte (Key.pool 0 (7 * 16384)) = 0 := by decide +kernel

/-! Witnesses: the machine as a whole. -/

theorem witness_InvKept : State.reset.Inv ∧ base.Inv ∧ (match step base with | .next t => decide t.Inv | _ => false) = true := by decide +kernel
/-- Every arm has a next state: a NOP on the reset state. -/
theorem witness_NothingStops : ∃ t, exec (.nop {}) State.reset = .next t ∧ true = true := runs_ok (p := fun _ => true) (by decide +kernel)
/-- R154: the first words of the default slot table, as the spec writes them. -/
theorem test_default_table : (State.reset.coreOf 7).tab[0] = 0x8786858483828180 := by decide

/-! Witnesses: further clauses. -/

theorem witness_SlotIssue_yield : let s := at0 fun v => { v with yld := 1 }
    entrySlot s 0 (takeTable (s.coreOf 0)) = some (⟨1, 0, 0⟩, 0, 0) ∧ (s.slotAt ⟨1, 0, 0⟩).any (·.yld != 0) = true ∧
    (base.ctxOf 1).stopping = false := by decide +kernel
/-- A hazard on the second of two results lasts over the return of the first (R158). -/
theorem test_hazard_lasts : let s := at0 fun v => { v with st := .parked .hazard, awaits := [.s 6], pend := [⟨[.s 5], none, false, none⟩, ⟨[.s 6], none, false, none⟩] }
    let t := ran (.longLatencyResultReturn ⟨1, 0, 0⟩) s
    t.me.st = .parked .hazard ∧ (ran (.longLatencyResultReturn ⟨1, 0, 0⟩) t).me.st = .ready := by decide +kernel

/-- Another context whose live frame 1 lies in the granule of the frames. -/
def crowded : State :=
  let g := frameGranule mat 0
  { mat with ctxs := mat.ctxs ++ [(2, { placedCtx with frames := [(1, ⟨7, true⟩)] })], heldBy := [(mat.core, g, 2)] }.mapCtx 1 fun c =>
    { c with savedFrames := [(2, ⟨9, true⟩)] }
theorem witness_MatrixState_save : MatrixRuns crowded ∧ (Tab.get crowded.ctxs 1).isSome = true ∧ (Tab.get crowded.ctxs 2).isSome = true ∧
    frameGranule crowded 0 < Config.granules ∧ (crowded.heldBy.find? fun h => h.1 == crowded.core && h.2.1 == frameGranule crowded 0).isSome = true ∧
    (∀ c ∈ crowded.ctxs, (c.2.frames.map (·.1)).Nodup ∧ (c.2.savedFrames.map (·.1)).Nodup) ∧
    1 ∈ framesIn (crowded.ctxOf 2) crowded.core (frameGranule crowded 0) ∧ frameKey crowded 2 = 2 := by decide +kernel
/-- The first use saves the other context's live frame, counts it, and brings back its own (R51, R294). -/
theorem test_lazy_save : let t := ran (.mzero { d := .fm 0 }) crowded
    (t.ctxOf 2).saves = 1 ∧ (t.ctxOf 2).savedFrames = [(1, ⟨7, true⟩)] ∧ (getFrame t 2).live = true := by decide +kernel

theorem witness_TagsAndBarriers_clear : follower tagged = false ∧ (Tab.get tagged.ctxs (homeOf tagged tagged.cur.cid)).isSome = true ∧
    ((0 : BitVec 32).getLsbD 3 = true → (0 : BitVec 32).toNat % 8 = 0) ∧ (8 : BitVec 32).getLsbD 3 = true ∧ 1 ≤ (1 : BitVec 32).toNat % 8 := by decide +kernel
theorem test_tclr : (ran (.tclr { a := .s 6 }) tagged).ctx.tags.map (·.2.err) = [false, false] := by decide +kernel

/-- The follower of the replica pair, with a tile. -/
def following : State := ((replicas []).focus ⟨2, 0, 0⟩ 1).mapMe fun v => { v with st := .ready, work := .tile 0 0 }
theorem witness_RivingAndRetirement_follower : follower following = true ∧ following.me.work ≠ .none ∧ follower (ran (.nextt { d := .s 6 }) (tiles 0)) = false ∧
    follower holdsTask = false := by decide +kernel
theorem witness_Replicas_stopped : launchOver (replicas []) 1 = false ∧ memberStopped (replicas []) (group1 []) = false ∧
    memberStopped ((replicas []).mapCtx 2 fun c => { c with stopping := true }) (group1 []) = true ∧
    launchOver ({ replicas [] with launches := [(1, { launch2 with st := .killed })] }) 1 = true ∧ (group1 [(0, .start)]).sigs ≠ [] ∧
    (replicas []).atoms = [] ∧ (∀ e ∈ (replicas []).allSlots, e.2.rbuf = []) := by decide +kernel
/-- Three signatures, the last one different: it is left out (R354). -/
theorem test_vote_minority : voteOf [(0, some (1, 1, 0, 0, 0)), (1, some (1, 1, 0, 0, 0)), (2, some (2, 1, 0, 0, 0))] = .without 2 := by decide

theorem witness_NarunoServices_overflow : let e : WaitEntry := ⟨⟨1, 0, 0⟩, 0x110000, 0x110000, 2, 5, 0⟩
    let s : State := { base with ovfHomes := [0], overflow := [(0, e)] }
    s.ovfHomes.contains 0 = true ∧ (∀ x ∈ s.overflow, x.1 = 0 → feReady s x.2.op x.2.word = false) ∧ ∃ x ∈ s.overflow, x.1 = 0 := by decide +kernel
theorem witness_OutgoingRequests_order : (at0 fun v => { v with inflight := [⟨0, 5, [], [], 0, 1, 0⟩], refused := some ⟨2, 8, 5, 9, 0⟩ }).me.refused.any (fun r => !decide (r.ord ≤ 1)) = true ∧
    (sending.me.peerReq.any fun r => decide (r.tries < 16)) = true := by decide +kernel
theorem witness_DeviceRegisterWrites_grow : let s := base.mapGrove 5 fun g => { g with grow := some 1 }
    (s.groveOf 5).grow = some 1 ∧ grantsOverlap s 5 1 = false ∧
    grantsOverlap ((base.mapCtx 1 fun c => { c with gbase := [(0, 127)] }).mapGrove 0 fun g => { g with grow := some 0x3FF }) 0 0x3FF = true ∧
    (withQueue { q2 with st := .unmapped, pending := true }).queues.any (fun q => q.pending && q.st == .unmapped) = true ∧
    (∀ n : Fin 24, DevFunction.landing = .link n → base.fencedLinks.contains n.val = false) := by
  refine ⟨by decide +kernel, by decide +kernel, by decide +kernel, by decide +kernel, ?_⟩
  intro n h
  cases h
theorem witness_TenantsAndPlugins_ring : (hostKeys owned 1 0x6000 64).Nodup ∧
    gives (resumeBody 0 2) (withQueue { q2 with st := .halted, port := none, code := 4 }) (fun _ _ => true) = true := by decide +kernel
/-- The version numbers and the errata words are reported to each tenant at a restart (R211, R360). -/
theorem test_restart_reports : (ran .narunoRestart owned).outbox.length = 2 := by decide +kernel

theorem witness_QueueStates_more : (∀ x, queueAt owned 0 2 = some x → x.st = .destroyed) ∧ q2.st ≠ .draining ∧ q2.st ≠ .destroyed ∧
    gives (landStore 0 (q2.qcb + 32) 8 (statusWord { q2 with st := .draining, port := none })) (mapQueue 0 2 (fun _ => { q2 with st := .draining, port := none }) (withQueue q2)) (fun _ _ => true) = true := by
  refine ⟨?_, by decide, by decide, by decide +kernel⟩
  have e : queueAt owned 0 2 = none := by decide +kernel
  rw [e]
  intro x h
  cases h
theorem witness_Launches_refused : grantPossible waitingLaunch record = true ∧ poolsFree waitingLaunch 0 1 = true ∧ stacksReady waitingLaunch 0 = true ∧
    hierarchyInvalid waitingLaunch 0 record = false ∧ grantPossible waitingLaunch (record.set 6 0x0081000410010300) = false ∧
    gives (refuseWaiting 2 4) waitingLaunch (fun _ _ => true) = true := by decide +kernel
theorem witness_Contexts_more : (stopped.ctxOf 1).st = .stopped ∧ launchOver stopped 1 = false ∧ coresServe stopped (stopped.ctxOf 1) = true ∧
    (base.ctxOf 1).st ≠ .destroyed ∧ ((base.ctxOf 1).stopping || launchOver base (base.ctxOf 1).lid) = false := by decide +kernel
/-- The stop of a context whose slot runs an ECMD waits for it (R347). -/
theorem test_stop_waits : ((ran (.preemptStop 1) (stopping.mapMe fun v => { v with st := .parked .engineLines })).ctxOf 1).st = .running := by decide +kernel

/-! Witnesses of StepsComplete. -/

/-- Sixteen 64-bit elements under LP-free vt, the group a FILL refused by no rule; m0 active. -/
def batch (n : Nat) : State := src4.mapMe fun v => { v with vt := 3, vl := n }
theorem witness_StepsComplete_ecmd : (batch 0).me.st = .ready ∧ Quiet (batch 0) ∧ Settled (batch 0).me ∧ Vt.sew (batch 0).me.vt = 64 ∧
    groupOk (batch 0).vrCount (Vt.grp (batch 0).me.vt) (.v 2) = true ∧ (batch 0).me.vl = 0 ∧ (∀ c ∈ (batch 0).cmds, needsLines (batch 0).cur c = false) ∧
    (batch 16).me.vl = 16 ∧ (activeMask ({ d := .m 1, a := .v 2 } : FS).toHdr (batch 16).me).getLsbD 0 = true ∧
    (let d := (List.range 16).map fun j => BitVec.ofNat 64 (vecSrc (batch 16).me [] (.v 2) (Vt.grp (batch 16).me.vt) 64 j)
     engineRoom (batch 16) (engineFor (batch 16).core d) = true ∧ (tagOf ((batch 16).ctxOf 1) 0 (Dw.tag d)).cnt < 255) := by decide +kernel
theorem test_ecmd_empty : let t := ran (.ecmd { d := .m 1, a := .v 2 }) (batch 0); t.me.pc = 0x100010 ∧ t.cmds = [] := by decide +kernel
theorem witness_StepsComplete_tcp : let o : FS := { d := .s 5, a := .s 1, b := .s 1, c := .s 2, imm := 3 }
    (3 : BitVec 32).toNat / 2 ^ 7 % 8 < 5 ∧ src4.me.st = .ready ∧ Settled src4.me ∧ engineRoom src4 (engineFor src4.core (tcpCommand src4.me o)) = true ∧
    (tagOf (src4.ctxOf (homeOf src4 1)) 0 (Dw.tag (tcpCommand src4.me o))).cnt < 255 := by decide +kernel
/-- The issuer parked on the lines of its ECMD. -/
def awaiting : State := located.mapMe fun v => { v with st := .parked .engineLines, rpend := some (.ecmd { d := .m 1, a := .v 2 }) }
theorem witness_StepsComplete_lines : (cmdAt awaiting 0).any (fun c => c.wait.isNone && c.st == .acquire && c.todo == [0x110080] && c.issuer == .slot ⟨1, 0, 0⟩) = true ∧
    Quiet awaiting ∧ awaiting.atoms = [] ∧ (∀ k ∈ keyRange 0x110080 128, lineOwner awaiting k = none) ∧ awaiting.me.swWait = false ∧
    (∀ y ∈ awaiting.cmds, y.id ≠ 0 → needsLines ⟨1, 0, 0⟩ y = false) ∧
    (cmdAt written 0).any (fun c => c.st == .write && c.wait.isNone && c.owned.contains 0x110080 && Dw.fes c.dw != 1) = true ∧
    (cmdAt finished 0).any (fun c => c.st == .finish && c.wait.isNone && Dw.fut c.dw == false && c.issuer == .slot ⟨1, 0, 0⟩) = true := by decide +kernel
/-- With the line the waiting ECMD goes on (R120). -/
theorem test_ecmd_goes_on : let t := ran (.engineLineAcquire 0) awaiting; t.me.st = .ready ∧ t.me.pc = 0x100010 := by decide +kernel
/-- A FILL of four bytes with 0x5A at the second line. -/
def filling : State := ran (.engineLineAcquire 0) (issued [BitVec.ofNat 64 (3 * 2 ^ 28 + 2 ^ 60), 0x5A, 0x110080, 0, 3, 0, 0, 0, 0, 0, 0, 0, 0, 0, 0, 0] src4)
theorem witness_StepsComplete_fill : (cmdAt filling 0).any (fun c => c.st == .read && c.wait.isNone && Dw.kind c.dw == 1 && Dw.fes c.dw != 1 && Dw.wd c.dw == 8 && c.owned == [0x110080] &&
    decide c.dest.flatten.Nodup && c.dest.length == 4 && c.dest.all fun ks => ks.length == 1 && ks.all fun k => decide (k < 2 ^ 62)) = true ∧ Quiet filling := by decide +kernel
theorem test_fill : (ran (.engineLineFinish 0 0x110080) (ran (.engineLineFinish 0 0x110080) filling)).mem.read 0x110080 4 = 0x5A5A5A5A := by decide +kernel
theorem witness_StepsComplete_reduction : (participants reducing 0).filter (·.st == .reduce) = [member 0 5, member 1 0xFFFFFFFF] ∧ 0 < Route.nnode plan1 ∧ Route.here plan1 0 = true ∧
    (∀ p ∈ reducing.partials, ¬(p.seq = 0 ∧ p.node = 0)) ∧ Route.first plan1 0 = 0 ∧ Route.cnt plan1 0 = 2 ∧ Route.kids plan1 0 = [] ∧
    (member 0 5).dw.length = 13 ∧ Dw.pidx (member 0 5).dw = 0 ∧ Dw.pidx (member 1 5).dw = 1 ∧
    (∃ p ∈ (ran (.boomReduce 0 0) reducing).partials, p.seq = 0 ∧ p.node = Route.root plan1) := by decide +kernel

/-- An access of the landing that reaches its bytes and meets a condition. -/
def landReach (s : State) (n : Nat) (va : Word) (len : Nat) (kind : AccKind) (op : OpClass) (p : State → Acc → Bool) : Bool :=
  match resolve s (cmdReq s (landCmd s n)) va len kind op with
  | (t, .ok a) => (busyFor t landId a.keys).isNone && p t a
  | _ => false
/-- The queue with a BARRIER-AND in its ring. -/
def ringed : State := let s := withQueue q2; { s with mem := s.mem.write 0x111000 64 (packElems 64 ((andDw 3).map (·.toNat))) }
theorem witness_StepsComplete_fetch : Quiet ringed ∧ queueAt ringed 0 2 = some q2 ∧ canFetch q2 = true ∧ isReady ringed .landing = true ∧
    landReach ringed 0 (packetAddr q2 0) 64 .load .load (fun t a =>
      (let w := ofBytes (a.keys.map t.mem.byte)
       !packetBad ((List.range 8).map fun i => (BitVec.ofNat 64 (w / 2 ^ (64 * i)) : Word))) &&
      landReach (mapQueue 0 2 (fun _ => { q2 with rdidx := 1, next := 1 }) t) 0 (q2.qcb + 16) 8 .store .store (fun _ b => b.keys.all fun k => decide (k < 2 ^ 62))) = true := by decide +kernel
theorem test_packet_fetch : ((queueAt (ran (.packetFetch 0 2) ringed) 0 2).bind (·.fetched)) = some (0, andDw 3) := by decide +kernel
theorem witness_StepsComplete_events : let x := { tenant0 with overflow := true }; let s : State := { owned with tenants := [(0, x)] }
    Tab.get s.tenants 0 = some x ∧ ringFull s 0 x = false ∧ s.Inv ∧ (hostKeys s 0 x.ring (64 + 16 * 2 ^ x.en)).Nodup := by decide +kernel
theorem witness_StepsComplete_arbiter : isReady (ready 3) .landing = true ∧ (Tab.get (ready 3).tenants 0).any (fun x => decide (0 < x.bal)) = true ∧
    (queueAt (ready 3) 0 2).any (fun q => packetReady (ready 3) q && q.fetched.isSome) = true ∧
    (∀ q' ∈ (ready 3).queues, packetReady (ready 3) q' = true → q'.tenant = 0 ∧ q'.qid = 2) := by decide +kernel

/-! Witnesses: rounding, translation and machine checks. -/

theorem witness_Rounding : Fmt.fp32.decode 0x3F800000 = .fin false 0x800000 (-23) ∧ Fmt.fp32.decode 0x40000000 = .fin false 0x800000 (-22) ∧
    Fmt.fp32.decode 0xBF800000 = .fin true 0x800000 (-23) ∧ Fmt.fp32.decode 0x80000000 = .fin true 0 (-149) ∧
    [0x7F800001, 0].find? (fun x => (Fmt.fp32.decode x).isNan) = some 0x7F800001 ∧ 0x7F800000 % 2 ^ 31 = (2 ^ 8 - 1) * 2 ^ 23 ∧ 0x80000000 % 2 ^ 31 = 0 ∧
    2 ^ 31 < 0xBF800000 ∧ (Fmt.fp32.decode 0x7F800000).isNan = false := by decide +kernel
theorem witness_Rounding_sums : let x : ℝ := 1 * ((0x800000 : ℕ) : ℝ) * 2 ^ (-23 : ℤ)
    x + x ≠ 0 ∧ x * x + x ≠ 0 ∧ 0 < x ∧ x + -1 * ((0x800000 : ℕ) : ℝ) * 2 ^ (-23 : ℤ) = 0 := by
  refine ⟨by positivity, by positivity, by positivity, by ring⟩
theorem witness_Rounding_integers : (-200 : Int) < -2 ^ (8 - 1) ∧ (2 : Int) ^ (8 - 1) - 1 < 200 ∧ (-2 : Int) ^ (8 - 1) ≤ 5 ∧ (5 : Int) ≤ 2 ^ (8 - 1) - 1 := by decide

/-- The requester of the placed slot. -/
def rq : Req := slotReq base
/-- The tables of the placed context, and the entry of a level for an address. -/
def walkTab (l : Nat) : Nat := match l with | 3 => 0x10000 | 2 => 0x20000 | 1 => 0x30000 | _ => 0x31000
def walkEntry (s : State) (va : Word) (l : Nat) : Word :=
  BitVec.ofNat 64 (s.mem.read (walkTab l + va.toNat / 2 ^ (match l with | 0 => 16 | 1 => 21 | 2 => 30 | _ => 43) % 2 ^ (match l with | 0 => 5 | 1 => 9 | _ => 13) * 8) 8)
/-- The address that an entry names. -/
def entryAddr (p : Word) : Nat := p.toNat / 2 ^ 8 % 2 ^ 40 * 2 ^ 8
/-- Whether an entry names the table of the level below. -/
def namesTable (l : Nat) (p : Word) : Bool :=
  l != 0 && p.getLsbD 0 && !p.getLsbD 1 && p.toNat / 2 ^ 48 == 0 && p.toNat / 4 % 64 == 0 && (l != 3 || entryAddr p % 2 ^ 16 == 0) && (l != 2 || entryAddr p % 2 ^ 12 == 0) &&
    decide (entryAddr p < 768 * 2 ^ 30) && walkTab (l - 1) == entryAddr p
/-- The placed context with an entry for the page at 0x120000. -/
def leafed (x : Nat) : State := { base with mem := base.mem.write (0x31000 + 8 * 18) 8 x }
/-- Whether an entry of level 0 is the leaf of a page. -/
def isPage (p : Word) : Bool :=
  p.getLsbD 0 && p.getLsbD 1 && entryAddr p % 2 ^ 16 == 0 && p.toNat / 2 ^ 48 % 4 != 3 && (p.toNat / 2 ^ 48 % 4 == 1 || p.toNat / 2 ^ 50 == 0) &&
    (!p.getLsbD 3 || p.getLsbD 2) && (!p.getLsbD 4 || p.toNat / 2 ^ 48 % 4 == 0) && (!p.getLsbD 7 || p.toNat / 2 ^ 48 % 4 == 0)

theorem witness_Translation_windows : (2 : Nat) ^ 57 ≤ (0x200000000000000 : Word).toNat ∧ rq.pcore = some 0 ∧
    (2 ^ 27 ≤ 2 ^ 27 ∧ 0x4200000 / 2 ^ 25 % 4 = 2 ∧ (∀ sh ∈ (base.ctxOf rq.cid).shares, sh.pcore ≠ 0 / 16 * 16 + 0x4200000 / 2 ^ 21 % 16)) ∧
    (0x2000000 / 2 ^ 25 % 4 = 1 ∧ base.ctx.part.toNat / 2 ^ 48 % 256 * 65536 = 65536) ∧
    (((base.ctxOf rq.cid).shares.find? (·.pcore == 0)).isSome = true ∧ base.ctx.part.toNat / 2 ^ 32 % 128 * 16384 = 65536) := by decide +kernel
theorem witness_Translation_walk : (∀ l, walkHit base rq 0x120000 l = none) ∧ rq.xroot.getLsbD 0 = true ∧
    (∀ k ∈ [AccKind.load, .store, .rmw, .fetch], tlbHit base rq 0x120000 k = none) ∧ walkTab 3 = rq.xroot.toNat / 2 ^ 16 % 2 ^ 32 * 2 ^ 16 ∧
    ∀ x ∈ [0, 1, 0x11006F], (walkEntry (leafed x) 0x120000 0 = BitVec.ofNat 64 x ∧ ∀ l ∈ [3, 2, 1], namesTable l (walkEntry (leafed x) 0x120000 l) = true) := by
  refine ⟨fun _ => rfl, ?_⟩
  decide +kernel
/-- Entries that are not valid, of a reserved class, a table at level 0, without the permission, without AC; and pages. -/
theorem witness_Translation_leaves : (0 : Word).getLsbD 0 = false ∧ isPage (3 + 3 * 2 ^ 48) = false ∧ namesTable 0 0x31001 = false ∧
    isPage 0x11006F = true ∧ (0x11006F : Word).getLsbD 4 = false ∧ isPage 0x11000F = true ∧ ((0x11000F : Word) ||| 0x20) ≠ 0x11000F ∧
    ((0x11006F : Word) ||| 0x20 ||| 0x40) = 0x11006F ∧ (0x0100000000010001 : Word).getLsbD 1 = false ∧ rq.xroot.getLsbD 1 = true := by decide +kernel
theorem witness_Translation_targets : (isPage 0xC00000006F = true ∧ 768 * 2 ^ 30 ≤ entryAddr 0xC00000006F) ∧
    (Tab.getD base.owners (0x130000 / 65536) 255 ≠ rq.tenant ∧ Tab.getD base.owners (0x110000 / 65536) 255 = rq.tenant) ∧
    (pseudoChannel 0 0x110000 ∈ ({ base with fenced := [pseudoChannel 0 0x110000] } : State).fenced) ∧
    (isPage (5 * 2 ^ 50 + 2 ^ 48 + 0x6F) = true ∧ peerReachable base 5 = false ∧
      peerReachable { base with peers := [(5, ⟨true, true, [], false, 0⟩)], rdymap := 2 ^ 16 } 5 = true) ∧
    (isPage (2 ^ 49 + 0x6F) = true ∧ functionOn base rq.tenant = false) := by decide +kernel
/-- An access of 8 bytes over the boundary to the page at 0x120000, mapped or not. -/
theorem witness_Translation_crossing : (match resolve (leafed 0x11006F) rq 0x11FFFC 4 .load .load with
      | (t, .ok _) => (match resolve t rq 0x120000 4 .load .load with | (_, .ok _) => true | _ => false)
      | _ => false) = true ∧
    (match resolve base rq 0x11FFFC 4 .load .load with
      | (t, .ok _) => (match resolve t rq 0x120000 4 .load .load with | (_, .ok _) => false | _ => true)
      | _ => false) = true ∧
    (match tlbHit (resolve base rq 0x110000 8 .load .load).1 rq 0x110000 .load with
      | some e => e.pte.toNat / 2 ^ 48 % 4 == 0 && deviceCheck base rq.tenant 0x110000 8 == none
      | none => false) = true := by decide +kernel

/-- Word 1 of core 0's pool. -/
def poolWord : Nat := Key.pool 0 8
/-- The placed context with an error stored in that word. -/
def flipped (f : Nat) : State := { base with flips := [(poolWord, ⟨BitVec.ofNat 64 f, 0⟩)] }
theorem witness_MachineChecks : arrayOf poolWord = some (.pool 0, 0, 1) ∧ (base.rasOf (.pool 0)).failed = [] ∧ Tab.get base.flips poolWord = none ∧
    Tab.get (flipped (2 ^ 5)).flips poolWord = some ⟨BitVec.ofNat 64 (2 ^ 5), 0⟩ ∧ (base.rasOf (.pool 0)).elog = 0 ∧
    Tab.get (flipped (2 ^ 5 + 2 ^ 3)).flips poolWord = some ⟨BitVec.ofNat 64 (2 ^ 5 + 2 ^ 3), 0⟩ ∧
    (∀ w ∈ symbolKey (.pool 0) 0 poolWord :: (rowWords (.pool 0) 0 poolWord).map (·.2), Tab.get (flipped 40).flips w = none) ∧
    (let s : State := { base with flips := [(poolWord, ⟨40, 0⟩), (Key.pool 0 24, ⟨40, 0⟩)] }
     ∃ w ∈ (rowWords (.pool 0) 0 poolWord).map (·.2), Tab.get s.flips w = some ⟨BitVec.ofNat 64 (2 ^ 5 + 2 ^ 3), 0⟩ ∨ w = Key.pool 0 24) := by decide +kernel
theorem witness_MachineChecks_banks : bankGroup 0 = bankGroup 1 ∧ ((base.mapRas (.pool 0) fun r => { r with failed := [0] }).rasOf (.pool 0)).failed = [0] ∧
    2 ≤ (((base.mapRas (.pool 0) fun r => { r with failed := [0, 1] }).rasOf (.pool 0)).failed.filter fun b => bankGroup b == bankGroup 0).length ∧
    16 ≤ ((Sorted.insert ((List.range 8).flatMap fun k => [32 * k, 32 * k + 1]) 1).filter fun w => w * 8 / bankSpan (.pool 0) % 16 == 0).length ∧
    ((0x8000000000000000 : Word).getLsbD 63 = true) := by decide +kernel
/-- A load of the private pool, two of whose banks of one group have failed. -/
def brokenBanks : State := (at0 (regs [(1, 0x100000000000000)])).mapRas (.pool 0) fun r => { r with failed := [0, 1, 2, 3] }
theorem witness_MachineChecks_load : InOrder brokenBanks ∧ NoneInFlight brokenBanks ∧ NoHeldStores brokenBanks.me ∧
    reach brokenBanks 0x100000000000000 8 .load .load (fun t a => a.ca == [] && a.dev == [] && a.keys != [] &&
      (match a.keys with
       | k :: _ => a.keys.all (Key.word · == Key.word k) && (match arrayOf (Key.word k) with
         | some (.pool c, b, _) => decide (2 ≤ ((t.rasOf (.pool c)).failed.filter fun x => bankGroup x == bankGroup b).length)
         | _ => false)
       | [] => false)) = true := by decide +kernel
/-- Two elements under lane protection, before and after a VADD whose element 1 is struck. -/
def lanes : State := (vec 2 1 2).mapMe fun v => { v with vt := 0x82 }
def struck : State := (ran (.vadd { d := .v 1, a := .v 2, b := .v 3 }) lanes).mapCore 0 fun c => { c with upset := some 1 }
theorem witness_MachineChecks_lanes : (struck.coreOf struck.core).upset = some 1 ∧ struck.cur = lanes.cur ∧ Vt.lp lanes.me.vt = true ∧ struck.me.vt = lanes.me.vt ∧
    struck.me.st = .ready ∧ struck.me.pc = lanes.me.advance.pc ∧ 1 < lanes.me.vl ∧ 1 + Vt.grp lanes.me.vt ≤ 32 := by decide +kernel
/-- R339: the slot stops with LANE_MISMATCH at the VADD, whose element 0 is written. -/
theorem test_lane_mismatch : let t := laneCheck (.vadd { d := .v 1, a := .v 2, b := .v 3 }) lanes struck
    t.me.st = .stopped ∧ t.me.pc = 0x100000 ∧ t.me.v[1].extractLsb' 0 32 = 3#32 := by decide +kernel

/-! Witnesses: clauses added to scalar instructions. -/

theorem witness_ScalarFloats_more : fpCause 0x38 (fSub .fp32 0 0x7F800000 0x7F800000).2 = some 6 ∧ fpCause 0x38 (fMa .fp32 0 0 0x7F800000 0).2 = some 6 ∧
    fpCause 0x38 (fMinMax .fp32 false 0x7F800001 0).2 = some 6 ∧ fpCause 0x38 (fMinMax .fp32 true 0x7F800001 0).2 = some 6 ∧
    fpCause 0x38 (convert (cvtFmt 0) (cvtFmt 2) 0 0 0x7FC00000).2 = some 6 := by decide +kernel
/-- A body with a JMP, and a LOOPN whose body starts on a page without the permission to fetch. -/
def jumps : State := { base with mem := base.mem.write 0x100010 16 (encode (.jmp {})).toNat }
theorem witness_Loops_faults : bodyForbids (encode (.jmp {})) = true ∧ bodyForbids (0 : IWord) = false ∧
    gives (fetchWord 0x100010 false) jumps (fun w _ => w == encode (.jmp {})) = true ∧
    (match fetchWord 0x110000 false base with | .error (.trap x) _ => x.code == Cause.pageFault | _ => false) = true ∧
    (∀ l ∈ (base.coreOf base.core).icache, ¬(l.cid = base.cur.cid ∧ l.va = (0x110000 : Word) &&& ~~~0x7F#64)) ∧
    (match resolve base (slotReq base) 0x110000 16 .fetch .fetch with | (_, .error _) => true | _ => false) = true := by decide +kernel
/-- R224: the JMP in the body makes the LOOPN illegal, with its word in tval. -/
theorem test_loopn_forbidden : let t := ran (.loopn { a := .s 1 }) (jumps.mapMe fun v => { v with hbase := 0x1000 })
    t.me.cause = 1 ∧ t.me.tval = (encode (.jmp {})).setWidth 64 ∧ t.me.epc = 0x100000 := by decide +kernel
/-- One choice of log 4 for the next plain access. -/
def weakly : State := { onData with weak := [1] }
theorem witness_ScalarMemory_weak : Sound weakly ∧ Alone weakly ∧ weakly.late = [] ∧ NoneInFlight weakly ∧ NoHeldStores weakly.me ∧
    reach weakly 0x110000 8 .store .store (fun _ a => decide (OwnBytes a)) = true ∧ reach weakly 0x110000 8 .load .load (fun _ a => a.ca == []) = true := by
  decide +kernel
/-- Store buffering (R129): a late store is not seen by memory until it is performed. -/
theorem test_late_store : let s := ran (.st { a := .s 1, c := .s 2, w := 3 }) (weakly.mapMe fun v => v.setS 2 7)
    s.mem.read 0x110000 8 = 0 ∧ s.late.length = 1 ∧ (settleLate s).mem.read 0x110000 8 = 7 := by decide +kernel
theorem witness_StoresAndFences_pref : Sound onData ∧ InOrder onData ∧ (match resolve onData (slotReq onData) 0x110000 1 .load .load with
      | (_, .ok a) => a.ca == [] && a.dev != [] && a.dev.all (· == 0x110000)
      | _ => false) = true ∧ (∀ c, Tab.get onData.dir 0x110000 ≠ some (.engine c)) ∧
    (match resolve onData (slotReq onData) 0x120000 1 .load .load with | (_, .error _) => true | _ => false) = true := by
  refine ⟨by decide +kernel, by decide +kernel, by decide +kernel, ?_, by decide +kernel⟩
  intro c h
  have e : Tab.get onData.dir 0x110000 = none := by decide +kernel
  rw [e] at h
  cases h
/-- s1 names word 0 of the private pool, with a slot that waits for it to be filled. -/
def pooled : State := at0 (regs [(1, 0x100000000000000)])
theorem witness_FullEmptyWords_scan : (∀ op < 7, reach pooled 0x100000000000000 8 (feKind op) .fullEmpty (fun t a =>
      match a.keys with | k :: _ => a.keys == keyRange k 8 && isFull t k && !Key.isDevice k && decide (k < 2 ^ 62) | [] => false) = true) ∧
    Quiet pooled ∧ Settled pooled.me ∧ pooled.ovfHomes = [] ∧ pooled.Inv := by decide +kernel
/-- The slot that waits with an STFF in the list of an empty word; the operand is 9. -/
def listed : State := { (at0 fun v => { v with st := .parked .fullEmpty }) with waits := [⟨⟨1, 0, 0⟩, 0x110000, 0x110000, 3, 9, 0⟩] }
theorem witness_FullEmptyWords_waiter : (listed.slotAt ⟨1, 0, 0⟩).map (·.st) = some (.parked .fullEmpty) ∧ groupOf listed ⟨1, 0, 0⟩ = none ∧ Quiet listed ∧
    listed.Inv ∧ isFull listed 0x110000 = true ∧ isFull { listed with empties := [0x110000] } 0x110000 = false ∧ (3 : Nat) < 4 := by decide +kernel
/-- R63: once the word is full its oldest waiter's STFF stores, and its slot goes on. -/
theorem test_wait_list_scan : let t := feScan 0x110000 listed.waits listed
    t.mem.read 0x110000 8 = 9 ∧ t.waits = [] ∧ t.me.st = .ready ∧ t.me.pc = 0x100010 := by decide +kernel
theorem witness_Atomics_room : homeRoom onData (atomHome onData (Key.word 0x110000)) = true ∧ onData.atomWait = [] := by decide +kernel

/-! Witnesses: clauses added to issue, vectors and matrices. -/

/-- The placed context with a word at its program counter, at its latch. -/
def latching (w : Nat) (f : Slot → Slot) (priv : Bool) : State :=
  ((State.reset.withFetchWord 128 w).mapMe f).mapCtx 1 fun c => { c with priv := priv }
/-- Whether a latch fetches a word with a property. -/
def latches (s : State) (p : IWord → State → Bool) : Bool :=
  let f := (s.mapCore 0 fun _ => takeTable (s.coreOf 0)).focus ⟨1, 0, 0⟩ 0
  entrySlot (s.mapCore 0 fun _ => takeTable (s.coreOf 0)) 0 (takeTable (s.coreOf 0)) == some (⟨1, 0, 0⟩, 0, 0) && !Reports f &&
    gives fetchNext f fun w t => t.issue.isNone && t.cur == ⟨1, 0, 0⟩ && p w t
theorem witness_SlotIssue_refused : let h : Slot → Slot := fun v => { v with hbase := 0x1000 }
    latches (latching 0xF0000E00000000000000000000000000 h true) (fun w t => !opAssigned (wordOp w).toNat && t.me.hbase != 0) = true ∧
    latches (latching (encode (.slotw {})).toNat h false) (fun w t => opPrivileged (wordOp w).toNat && !t.ctx.priv) = true ∧
    latches (latching 0x36000C00000000000000000000000000 h true) (fun w _ => opAssigned (wordOp w).toNat && refuses w) = true := by decide +kernel
theorem witness_SlotIssue_waits : let add : Instr := .add { wait := 1, set := some 2, d := .s 3, a := .s 1, b := .s 2, w := 3 }
    latches (latching (encode add).toNat (fun v => { v with sb := v.sb.set 0 1 }) true) (fun w t => reads w add && t.me.dropPend.sb[0] != 0) = true ∧
    latches (latching (encode add).toNat (fun v => { v with sb := v.sb.set 2 63 }) true) (fun w t => reads w add && t.me.dropPend.sb[2] == 63) = true ∧
    latches (latching (encode add).toNat (fun v => { v with pend := [⟨[.s 1], none, false, none⟩] }) true) (fun w t => reads w add &&
      (readRegs t.me.vt t.me.fmt.spa add).contains (.s 1) && !([Reg.s 3, .s 1, .s 2, .s 0].any (beyond t.ctx.part))) = true := by decide +kernel
/-- R204: a privileged row in user mode takes PRIVILEGE with the low 64 bits of its word. -/
theorem test_user_slotw : let t := ran (.slotIssue 0) (latching (encode (.slotw { a := .s 5 })).toNat (fun v => { v with hbase := 0x1000 }) false)
    t.me.cause = 2 ∧ t.me.tval = (encode (.slotw { a := .s 5 })).setWidth 64 ∧ t.issue = none := by decide +kernel
/-- R158: an ADD that reads a pending register parks and counts. -/
theorem test_hazard_parks : let t := ran (.slotIssue 0) (latching 0x00000E00003010200060000000000000 (fun v => { v with pend := [⟨[.s 1], none, false, none⟩] }) true)
    t.me.st = .parked .hazard ∧ t.me.hmc = 1 ∧ t.issue = none := by decide +kernel
theorem witness_VectorLoads_quiet : NoneInFlight vmem ∧ NoneInFlight edge ∧ NoneInFlight onData ∧ (1 : Nat) < 2 := by decide +kernel
theorem witness_LoadFaultsAndStreams_order : NoneInFlight (streaming.focus streaming.cur (coreOfSlot streaming streaming.cur)) ∧
    (streaming.me.openEntries.find? (·.2.marker.isNone)).any (fun p => p.1 == 1 && (p.2.load.any fun l => !l.acq)) = true ∧
    (match streaming.me.openEntries.find? (·.2.marker.isNone) with
     | some (_, e) => streaming.me.openEntries.all fun o => decide (e.id ≤ o.2.id)
     | none => false) = true ∧
    (match streaming.me.openEntries.find? (·.2.marker.isNone) with
     | some (_, e) => (streaming.me.pend.find? (·.entry == some e.id)).isSome
     | none => false) = true := by decide +kernel
theorem witness_VectorStores_room : homeRoom vmem (atomHome vmem (Key.word 0x110040)) = true ∧ (∀ b ∈ vmem.me.inflight, touches b [0x110040] = false) := by
  decide +kernel
theorem witness_WaitsAndPackets_upset : (waiting.coreOf (coreOfSlot waiting waiting.cur)).upset = none ∧ Quiet waiting ∧ NoHeldStores waiting.me ∧
    NoneInFlight (waiting.focus waiting.cur (coreOfSlot waiting waiting.cur)) := by decide +kernel
theorem witness_MatrixState_rows : NoneInFlight mat ∧ (Tab.get mat.ctxs mat.cur.cid).isSome = true ∧ gives (ldbReady 0x110000 16 i8 2 0 0 2) mat (fun _ r =>
      gives (forN (fun k => atRow k (ldbRow 0x110000 16 i8 2 0 k)) 0 2) (claim planeUnit r) (fun _ _ => true)) = true := by decide +kernel
theorem witness_FrameTransfers_order : InOrder mat ∧ NoneInFlight mat ∧ mat.me.snap = none := by decide +kernel
/-- A with blocks of 32 and scales at the data page. -/
def scaledA : State := mat.mapMe fun v => { v with fmt := { v.fmt with fa := 0x10, scla := 0x110000 } }
theorem witness_OuterProducts_scales : MatrixReady scaledA ∧ InOrder scaledA ∧ NoneInFlight scaledA ∧ NoHeldStores scaledA.me ∧
    (match operFmt 0x10 with
     | some f => f.block != 0 && gives (allScales f 0 2 [0, 1]) scaledA (fun r t => r.2.isNone &&
         (r.1.flatMap fun x => x.2.map (·.2.2)).all (fun a => a.ca == []) &&
         (busyWhy t ((r.1.flatMap fun x => x.2.map (·.2.2)).flatMap (·.keys))).isNone)
     | none => false) = true := by decide +kernel
/-- B with blocks of 32. -/
theorem witness_OuterProducts_blocks : (match operFmt 0x10 with
     | some f => f.block != 0 && gives (mapL (fun q => do
          let l ← mapL (fun j => loadBytes (0x110000 + BitVec.ofNat 64 (q * 32 + j)) 1) (List.range 2)
          pure (q, l)) [0]) mat (fun _ _ => true)
     | none => false) = true := by decide +kernel
theorem witness_OuterProducts_pool : let base' : Word := 0x100000000000000
    (base'.getLsbD 56 = true ∧ base'.toNat / 2 ^ 57 = 0 ∧ base'.toNat / 2 ^ 21 % 2 ^ 35 = 0) ∧
    (match localAcc (claim planeUnit mat) (slotReq (claim planeUnit mat)) base' 4 .load with
     | .ok a => (busyWhy (claim planeUnit mat) a.keys).isNone
     | .error _ => false) = true ∧ (0x110000 : Word).getLsbD 56 = false ∧ (1 : BitVec 2) ≠ 0 := by decide +kernel

/-! Witnesses: clauses added to tasks, replicas, services, devices and launches. -/

/-- The future word waits for a continuation, whose record is the only one of the placed context. -/
def chained : State :=
  { tasks.mapCtx 1 fun c => { c with pool := 2, records := [⟨1, 0x110100, packetOf packetBytes, 0, 0, false⟩] } with
    mem := tasks.mem.write 0x110100 8 (Fut.word 1 (recName 2 1) 0).toNat }
/-- The placed slot is parked at TSPAWN, with a full hardware queue, and a spill ring of a size. -/
def spawning (size : Nat) : State :=
  ((tasks.mapGrove 0 fun g => { g with tasks := List.replicate 256 ⟨2, 0, packetOf 0⟩ }).mapCtx 1 fun c => { c with spillSize := size }).mapMe
    fun v => { v with st := .parked (.spawn 0) }
theorem witness_FuturesAndTasks_chain : (tasks.mapCtx 1 fun c => { c with recSize := 9 }).ctx.records.length < Nat.min 9 recLimit ∧
    homeRoom tasks (atomHome tasks 0x110100) = true ∧ homeRoom chained (atomHome chained 0x110100) = true ∧ Quiet chained ∧ chained.Inv ∧ Settled chained.me ∧
    reach chained 0x110100 8 .rmw .future (fun t a => a.keys == keyRange 0x110100 8 && Fut.state (futWord t) == 1 &&
      (match followRec t t.ctx.tenant 0x110100 (Fut.head (futWord t)) with
       | some r => (followRec t t.ctx.tenant 0x110100 r.2.next).isNone && (physGrove (t.ctxOf r.1) r.2.lgrove == some 0) && (t.ctxOf r.1).records.contains r.2
       | none => false) &&
      decide (1 ≤ recCount t t.ctx.tenant) && t.ctxs.all (fun c => c.2.spill == [] && c.2.records.all fun r => !r.pending) &&
      decide ((t.groveOf 0).tasks.length + 1 ≤ 256)) = true ∧
    Fut.state (Fut.word 1 5 0) = 1 ∧ 2 ≤ Fut.state (Fut.word 2 0 5) ∧ Fut.state (Fut.word 0 0 0) = 0 := by decide +kernel
theorem witness_FuturesAndTasks_parked : (∀ c ∈ (spawning 4).ctxs, ∀ r ∈ c.2.records, r.pending = false) ∧ 256 ≤ ((spawning 4).groveOf 0).tasks.length ∧
    ((spawning 4).slotAt ⟨1, 0, 0⟩).map (·.st) = some (.parked (.spawn 0)) ∧ ((spawning 4).ctxOf 1).spill.length < ((spawning 4).ctxOf 1).spillSize ∧
    ((spawning 0).ctxOf 1).spillSize ≤ ((spawning 0).ctxOf 1).spill.length ∧ physGrove ((spawning 0).ctxOf 1) 0 = some 0 ∧ InOrder tasks := by decide +kernel
/-- R171: resolving a waiting future spawns its continuation with the value. -/
theorem test_continuation : ((ran (.futres { a := .s 2, b := .s 6 }) chained).groveOf 0).tasks.map (fun t => (t.pkt.entry, t.pkt.usr)) = [(0x100000, 42)] := by decide +kernel
/-- R166: the TSPAWN goes on once its ring has space, and else stays. -/
theorem test_spawn_wakes : (ran (.taskSpillRefill 0) (spawning 4)).me.st = .ready ∧ (ran (.taskSpillRefill 0) (spawning 0)).me.st = .parked (.spawn 0) := by decide +kernel

theorem witness_WorkItems_task : InOrder spilled ∧ InOrder (tiles 0) ∧ ((tiles 1).ctxOf 1).cruisers.Pairwise (fun x y => x.crid < y.crid) := by decide +kernel
/-- A slot whose task's join word is in its private pool, with JF, where one item is left. -/
def joining : State :=
  let s := at0 fun v => { v with work := .task { packetOf 0 with join := 0x100000000000000, jf := true } }
  { s with mem := s.mem.write (Key.pool 0 81920) 8 1 }
theorem witness_RivingAndRetirement_join : homeRoom holdsTask (atomHome holdsTask 0x110000) = true ∧ InOrder (ran (.nextt { d := .s 6 }) (tiles 0)) ∧
    (∃ p, joining.me.work = .task p ∧ p.join ≠ 0 ∧ p.jf = true) ∧ Settled joining.me ∧ Quiet joining ∧ joining.Inv ∧ follower joining = false ∧
    reach joining 0x100000000000000 8 .rmw .amoAddSwap (fun t a => match a.keys with
      | k :: _ => a.keys == keyRange k 8 && k % 8 == 0 && decide (k < 2 ^ 62) && homeRoom t (atomHome t k) && t.mem.read k 8 == 1 && !Key.isDevice k
      | [] => false) = true := by
  refine ⟨by decide +kernel, by decide +kernel, ⟨_, rfl, by decide +kernel, by decide +kernel⟩, by decide +kernel, by decide +kernel, by decide +kernel, by decide +kernel, by decide +kernel⟩
/-- R169: the last decrement of a join word with JF leaves it zero and full. -/
theorem test_join_fills : let t := ran (.done {}) { joining with empties := [Key.pool 0 81920] }
    t.mem.read (Key.pool 0 81920) 8 = 0 ∧ t.empties = [] := by decide +kernel
theorem witness_TagsAndBarriers_order : InOrder tagged ∧ InOrder pair ∧ InOrder base ∧ InOrder src4 ∧ NoneInFlight pair := by decide +kernel
theorem witness_Replicas_forward : Sound (replicas []) ∧
    (let f : Forward := ⟨0x100000, 0, none, 0, [], [], none, [(3, 7)], [(2, 5)], [(1, 1)], none, none, false, false⟩
     f.trap = none ∧ f.item = none ∧ f.ended = false ∧ f.retired = false ∧ f.entries = []) := by decide +kernel
theorem witness_NarunoServices_other : (∀ e ∈ ([(1, ⟨⟨1, 0, 0⟩, 0x110000, 0x110000, 2, 5, 0⟩)] : List (Nat × WaitEntry)), e.1 ≠ 0) ∧
    (base.waits.filter fun x => feHome base x.word == 0).length < 3072 := by decide +kernel
theorem witness_OutgoingRequests_present : (sending.slotAt ⟨1, 0, 0⟩).any (fun v => v.st != .absent) = true := by decide +kernel
theorem witness_DeviceRegisterWrites_shadow : usedShadow base 5 ≤ shadowUnits (0x01 &&& 0x3FF) := by decide +kernel
theorem witness_TenantsAndPlugins_off : pluginOn base 0 = false ∧ Instr.inject 0 (.pool 0) 5 0 ∈ (owned.push (.inject 0 (.pool 0) 5 0)).agenda ∧ isReady owned .pcie = true := by decide +kernel
/-- R333: a callback that overruns is taken as an answer of 0. -/
theorem test_plugin_overrun : (ran (.pluginCallbackTimeout 0) (owned.push (.inject 0 (.pool 0) 5 0))).outbox.contains (.pluginDone 0 0) = true := by decide +kernel
theorem witness_QueueStates_gates : functionOn (withQueue q2) 0 = true ∧ functionOn { withQueue q2 with rdymap := 0 } 0 = false ∧
    isReady { withQueue q2 with rdymap := 0 } .firmware = false ∧ functionOn (withPacket (signalDw true)) 0 = true := by decide +kernel
theorem witness_Launches_grants : coresOk waitingLaunch record ⟨[[1]], [(0, 1)]⟩ = true ∧ poolsFree waitingLaunch 0 (replicasHere record) = true ∧
    stacksReady waitingLaunch 0 = true ∧ grantsOk waitingLaunch record ⟨[[1]], [(0, 1)]⟩ = true ∧
    (let r := record.set 6 0x0001000410010300
     coresOk waitingLaunch r ⟨[[1]], [(0, 200)]⟩ = true ∧ grantsOk waitingLaunch r ⟨[[1]], [(0, 200)]⟩ = false) ∧
    choiceFor waitingLaunch record ⟨[[1]], [(0, 1)]⟩ = ⟨[[1]], [(0, 1)]⟩ ∧ coresOk waitingLaunch record ⟨[[1]], []⟩ = false := by decide +kernel
theorem witness_Contexts_late : (∀ l ∈ stopping.late, l.key.cid ≠ 1) := by decide +kernel
theorem witness_Engines_order : InOrder (batch 16) ∧ Quiet src4 ∧ src4.me.inflight = [] := by decide +kernel
theorem witness_IncomingAccesses_stores : exporting.late = [] ∧ exporting.waits = [] := by decide +kernel
end Sys2Proof.Tests
end

section
/-!
SUPPORT. Trap entry of a cause that neither kills nor is a page fault (R337), and the return from it (R312).
-/
namespace Sys2Proof.Machine

/-- Clearing the low four bits leaves the address of an instruction as it is. -/
theorem and_not_fifteen_of_aligned {a : Word} (h : a.toNat % 16 = 0) : a &&& ~~~15#64 = a := by
  have low : a &&& 15#64 = 0#64 := BitVec.eq_of_toNat_eq <| by
    simpa [BitVec.toNat_and, h] using Nat.and_two_pow_sub_one_eq_mod a.toNat 4
  calc a &&& ~~~15#64
      = (a &&& ~~~15#64) ||| (a &&& 15#64) := by rw [low, BitVec.or_zero]
    _ = a := by rw [← BitVec.and_or_distrib_left, BitVec.or_comm, BitVec.or_not_self, BitVec.and_allOnes]

theorem add_sixteen_aligned {a : Word} (h : a.toNat % 16 = 0) : (a + 16).toNat % 16 = 0 := by
  have h16 : (16 : Word).toNat = 16 := rfl
  rw [BitVec.toNat_add, h16]
  omega

section
variable (code : Nat) (e tv ti : Word) (s : State)

/-- What trap entry leaves in the slot (R337). -/
theorem toHandler_me : (toHandler code e tv ti s).me =
    { s.me.blame code e tv with
      st := .ready, epc := e &&& ~~~15#64, cause := BitVec.ofNat 64 code, tval := tv, tinfo := ti, pc := s.me.hbase,
      loop := s.me.loop.map fun l => { l with active := false } } := rfl

/-- Trap entry clears the slot's reservations (R266). -/
theorem toHandler_resvs_ne_cur : ∀ r ∈ (toHandler code e tv ti s).resvs, r.key ≠ s.cur := by
  simp [toHandler]
end

/-- With a handler that the trap is not itself a fetch fault of, a cause that neither kills nor is a page fault goes to it. -/
theorem deliver_eq_toHandler {x : Trap} {s : State} (hk : Cause.fatal x.code = false) (hp : x.code ≠ Cause.pageFault)
    (hb : s.me.hbase ≠ 0) (hf : ¬(x.fetch = true ∧ x.pc.getD s.me.pc = s.me.hbase)) :
    deliver x s = toHandler x.code (x.pc.getD s.me.pc) x.tv x.ti s := by
  simp only [deliver, deliverToHandler, hk, hp, hb, hf, Bool.and_eq_true, beq_iff_eq, Bool.false_eq_true, if_false]

/-- ERET of a slot without a stream resume goes on at epc (R312). -/
theorem eret_me_pc_of_no_stream {s : State} (h : s.me.sres = none) : (eret s).me.pc = s.me.epc := by
  simp [eret, resumeAt, Slot.useHeld, Slot.useStream, h]

theorem exec_trap (o : FB) (s : State) : exec (.trap o) s =
    .next (deliver { code := Cause.softwareTrap, tv := o.imm.setWidth 64, pc := some (s.me.pc + 16) } s) := rfl

/-- TRAP is the entry of SOFTWARE_TRAP, with the next instruction as the address (R222). -/
theorem exec_trap_eq_toHandler (o : FB) {s : State} (hb : s.me.hbase ≠ 0) :
    exec (.trap o) s = .next (toHandler Cause.softwareTrap (s.me.pc + 16) (o.imm.setWidth 64) 0 s) := by
  have notPageFault : Cause.softwareTrap ≠ Cause.pageFault := by decide
  rw [exec_trap, deliver_eq_toHandler rfl notPageFault hb (by simp)]
  rfl

theorem exec_eret (o : FS) (s : State) : exec (.eret o) s = .next (eret s) := rfl

/-- Settles O11: TRAP is a trap entry whose epc is the aligned address of the next instruction, where ERET returns to. -/
theorem softwareTrap : Obligations.SoftwareTrap := by
  unfold Obligations.SoftwareTrap
  intro o s hb
  refine ⟨_, exec_trap_eq_toHandler o hb, rfl, rfl, rfl, rfl, rfl, rfl, rfl, rfl, rfl, toHandler_resvs_ne_cur _ _ _ _ _, ?_⟩
  intro haligned hstream e
  refine ⟨_, exec_eret e _, ?_⟩
  rw [eret_me_pc_of_no_stream (by rw [toHandler_me]; exact hstream), toHandler_me]
  exact and_not_fifteen_of_aligned (add_sixteen_aligned haligned)

end Sys2Proof.Machine
end

section
/-!
SUPPORT. Element streams of vector groups (R57, R237, R241): what a group holds after it was written, and the elements of a
merged destination.
-/
namespace Sys2Proof.Machine

theorem elemAt_lt (x w i : Nat) : elemAt x w i < 2 ^ w := Nat.mod_lt _ (Nat.two_pow_pos w)

theorem elemAt_zero (x w : Nat) : elemAt x w 0 = x % 2 ^ w := by simp [elemAt]

theorem elemAt_succ (x w i : Nat) : elemAt x w (i + 1) = elemAt (x / 2 ^ w) w i := by
  rw [elemAt, elemAt, Nat.div_div_eq_div_mul, ← Nat.pow_add, Nat.succ_mul, Nat.add_comm]

/-- An element within the low `b` bits of a stream does not depend on the bits above. -/
theorem elemAt_mod {b w i : Nat} (h : i < b / w) (x : Nat) : elemAt (x % 2 ^ b) w i = elemAt x w i := by
  have w_pos : 0 < w := Nat.pos_of_ne_zero fun e => by simp [e] at h
  have fits : i * w + w ≤ b := by
    calc i * w + w = (i + 1) * w := (Nat.succ_mul i w).symm
      _ ≤ b / w * w := Nat.mul_le_mul_right w h
      _ ≤ b := Nat.div_mul_le_self b w
  obtain ⟨r, rfl⟩ := Nat.exists_eq_add_of_le fits
  rw [elemAt, elemAt, Nat.add_assoc, Nat.pow_add, Nat.mod_mul_right_div_self, Nat.pow_add,
    Nat.mod_mul_right_mod]

theorem elemAt_mapElems (w : Nat) (f : Nat → Nat → Nat) (i n x j : Nat) :
    elemAt (mapElems w f i n x) w j = if j < n then f (i + j) (elemAt x w j) % 2 ^ w else elemAt x w j := by
  induction n generalizing i x j with
  | zero => simp [mapElems]
  | succ n ih =>
    have low : f i (x % 2 ^ w) % 2 ^ w < 2 ^ w := Nat.mod_lt _ (Nat.two_pow_pos w)
    cases j with
    | zero => simp [mapElems, elemAt_zero]
    | succ j =>
      rw [mapElems, elemAt_succ, Nat.add_mul_div_left _ _ (Nat.two_pow_pos w), Nat.div_eq_of_lt low, Nat.zero_add, ih,
        elemAt_succ]
      simp [Nat.add_right_comm, Nat.add_assoc]

/-- An element of a destination stream (R241). -/
theorem elemAt_mergeStream {w bits i : Nat} (h : i < bits / w) (vl : Nat) (tail : Bool) (fill : Nat) (res : Nat → Option Nat)
    (old : Nat) : elemAt (mergeStream w bits vl tail fill res old) w i =
      if vl = 0 then elemAt old w i
      else if i < vl then (res i).getD (elemAt old w i) % 2 ^ w
      else if tail then fill % 2 ^ w else elemAt old w i := by
  have kept : elemAt old w i % 2 ^ w = elemAt old w i := Nat.mod_eq_of_lt (elemAt_lt old w i)
  rw [mergeStream]
  split
  · rfl
  · rw [elemAt_mapElems, if_pos h, Nat.zero_add]
    split
    · rfl
    · split <;> simp [kept]

/-- A group's stream is read from the vector registers alone. -/
theorem groupStream_congr {v w : Slot} (h : w.v = v.v) (rb d g : Nat) : groupStream w rb d g = groupStream v rb d g := by
  induction g generalizing d with
  | zero => rfl
  | succ g ih => simp only [groupStream, h, ih]

/-- A group write changes the vector registers alone. -/
theorem setStream_eq (v : Slot) (rb d g x : Nat) : setStream v rb d g x = { v with v := (setStream v rb d g x).v } := by
  induction g generalizing v d x with
  | zero => rfl
  | succ g ih => rw [setStream, ih]

/-- A group write keeps the registers outside the group. -/
theorem setStream_v_outside {d g : Nat} (fits : d + g ≤ 32) (v : Slot) (rb x : Nat) {k : Nat} (hk : k < 32)
    (h : k < d ∨ d + g ≤ k) : (setStream v rb d g x).v[k] = v.v[k] := by
  induction g generalizing v d x with
  | zero => rfl
  | succ g ih =>
    have ne : d % 32 ≠ k := by omega
    rw [setStream, ih (by omega) _ _ (by omega)]
    exact Vector.getElem_set_ne (Nat.mod_lt _ (by decide)) hk ne

/-- A group reads as the stream that was written to it. -/
theorem groupStream_setStream {d g rb : Nat} (fits : d + g ≤ 32) (hrb : rb ≤ 4096) (v : Slot) (x : Nat) :
    groupStream (setStream v rb d g x) rb d g = x % 2 ^ (rb * g) := by
  induction g generalizing v d x with
  | zero => simp [groupStream, Nat.mod_one]
  | succ g ih =>
    have hd : d % 32 = d := by omega
    have low (a : Nat) : (BitVec.ofNat 4096 (a * 2 ^ rb + x % 2 ^ rb)).toNat % 2 ^ rb = x % 2 ^ rb := by
      rw [BitVec.toNat_ofNat, Nat.mod_mod_of_dvd _ (Nat.pow_dvd_pow 2 hrb), Nat.mul_comm, Nat.mul_add_mod, Nat.mod_mod]
    rw [setStream, groupStream, ih (by omega), setStream_v_outside (by omega) _ _ _ _ (by omega), Nat.mul_succ,
      Nat.add_comm (rb * g) rb, Nat.pow_add, Nat.mod_mul]
    congr 1
    simp only [Fin.ofNat, Fin.getElem_fin, Vector.getElem_set_self]
    exact low _

theorem Vt.regBits_le (t : Word) : Vt.regBits t ≤ 4096 := by unfold Vt.regBits; split <;> omega

/-- A slot has at most 32 vector registers (R47). -/
theorem State.vrCount_le (s : State) : s.vrCount ≤ 32 := by
  have : Bits.field s.ctx.part 8 2 < 4 := Nat.mod_lt _ (by decide)
  simp only [State.vrCount, Part.vr]
  omega

/-- A legal group of a partition lies within the 32 registers. -/
theorem groupOk_fits {s : State} {g : Nat} {d : Fin 32} (h : groupOk s.vrCount g (.v d) = true) : d.val + g ≤ 32 := by
  simp only [groupOk, Bool.and_eq_true, decide_eq_true_eq] at h
  exact h.2.trans s.vrCount_le

end Sys2Proof.Machine
end

section
/-!
SUPPORT. The operand reads of a vector instruction, its element loop and its end, where arrays are sound and no enabled exception
stops it (R161, R241, R252, R342).
-/
namespace Sys2Proof.Machine

/-! Reads. -/

theorem checkGroups_ok {i : Instr} {rs : List (Reg × Nat)} {s : State} (h : ∀ r ∈ rs, groupOk s.vrCount r.2 r.1 = true) :
    checkGroups i rs s = .ok () s := by
  rw [checkGroups, estate_bind_ok (estate_get s), estate_ite, if_pos (List.all_eq_true.2 h), estate_pure]

theorem checkVregs_of_sound {s : State} (h : Sound s) (first span : Nat) : checkVregs first span s = .ok 0 s := by
  rw [checkVregs, estate_bind_ok (estate_get s), estate_ite, if_pos h, estate_pure]

theorem readDest_of_sound {s : State} (h : Sound s) (o : FX) (k : Nat) : readDest o k s = .ok () s := by
  rw [readDest]
  cases o.d with
  | v i => exact estate_bind_ok (checkVregs_of_sound h i.val (k * Vt.grp s.me.vt))
  | _ => rfl

/-- A ready queue gives the data of the entry that the field pops (R342). -/
theorem popEntry_of_ready {s : State} {before : List Reg} {k : Fin 4} (h : SourceReady s.me before (.q k)) :
    ∃ e, s.me.q[k][popIndex before (.q k)]? = some e ∧ popEntry k (popIndex before (.q k)) s = .ok e.data s := by
  simp only [SourceReady, Option.any_eq_true, Bool.and_eq_true, Option.isNone_iff_eq_none, Bool.not_eq_true'] at h
  obtain ⟨e, he, ⟨hload, hmarker⟩, horphan⟩ := h
  refine ⟨e, he, ?_⟩
  rw [popEntry, estate_bind_ok (estate_get s), he]
  simp [hload, hmarker, horphan, estate_pure]

/-- A source that is ready is read element by element, and the state stays. -/
theorem sourceElems_of_ready {s : State} (h : Sound s) {before : List Reg} {r : Reg} (hr : SourceReady s.me before r) (g w : Nat) :
    sourceElems before r g w s = .ok (vecSrc s.me before r g w) s := by
  cases r with
  | s i => rfl
  | v i =>
    have stream : sourceStream before (.v i) g s = .ok (groupStream s.me (Vt.regBits s.me.vt) i.val g) s := by
      rw [sourceStream, estate_bind_ok (checkVregs_of_sound h _ _), estate_bind_ok (estate_get s), estate_pure, Nat.xor_zero]
    rw [sourceElems, estate_bind_ok stream]
    · rfl
    · simp
  | q k =>
    obtain ⟨e, he, pop⟩ := popEntry_of_ready hr
    have stream : sourceStream before (.q k) g s = .ok (e.data.toNat % 2 ^ Vt.regBits s.me.vt) s := by
      rw [sourceStream, estate_bind_ok pop, estate_bind_ok (estate_get s), estate_pure]
    rw [sourceElems, estate_bind_ok stream, estate_pure]
    · congr 1
      funext i
      rw [vecSrc, he]
      rfl
    · simp
  | _ =>
    simp only [sourceElems, sourceStream, estate_bind_ok (estate_pure _ _), estate_pure]
    congr 1
    funext i
    simp [vecSrc, elemAt]

/-! The element loop. -/

/-- Flags that the operation raises at the active elements of `l`. -/
def flagsOver (act : Nat → Bool) (fl : Nat → Nat) (l : List Nat) : Nat := (l.filter act).foldr (fun k x => fl k ||| x) 0

theorem testBit_flagsOver {act : Nat → Bool} {fl : Nat → Nat} {l : List Nat} {b : Nat} :
    (flagsOver act fl l).testBit b = true ↔ ∃ k ∈ l, act k = true ∧ (fl k).testBit b = true := by
  induction l with
  | nil => simp [flagsOver]
  | cons k l ih =>
    by_cases hk : act k = true
    · rw [flagsOver, List.filter_cons_of_pos hk, List.foldr_cons, Nat.testBit_or, Bool.or_eq_true]
      rw [flagsOver] at ih
      simp [ih, hk]
    · rw [flagsOver, List.filter_cons_of_neg hk]
      rw [flagsOver] at ih
      simp [ih, hk]

/-- The results and flags of a loop that no enabled exception stops (R252). -/
theorem elemLoop_of_quiet {act : Nat → Bool} {frm : Word} {f : Nat → ElemOut} {i n : Nat}
    (quiet : ∀ k, i ≤ k → k < i + n → act k = true → fpCause frm (f k).fl = none) :
    elemLoop act frm f i n = ((List.range' i n).map fun k => if act k then some (f k).x else none,
      flagsOver act (fun k => (f k).fl) (List.range' i n), flagsOver act (fun k => (f k).sat) (List.range' i n), none) := by
  induction n generalizing i with
  | zero => rfl
  | succ n ih =>
    have rest := ih (i := i + 1) fun k lo hi => quiet k (by omega) (by omega)
    by_cases hi : act i = true
    · simp [elemLoop, hi, quiet i le_rfl (by omega) hi, rest, List.range'_succ, flagsOver]
    · simp [elemLoop, hi, rest, List.range'_succ, flagsOver]

/-! The end. -/

theorem resumeElem_of_fresh {v : Slot} (h : Fresh v) : resumeElem v = 0 := by
  have unarmed : (v.held.find? fun h => h.pc == v.pc && h.live) = none := by
    simpa only [List.find?_eq_none, Bool.and_eq_true, beq_iff_eq] using h
  rw [resumeElem, unarmed]

theorem writeGroup_of_sound {s : State} (h : Sound s) (d : Fin 32) (g w : Nat) (wrote : Nat → Bool) (x : Nat) :
    writeGroup (.v d) g w wrote x s = .ok () (s.mapMe fun v => setStream v (Vt.regBits v.vt) d.val g x) := by
  have sound : rasQuiet (s.mapMe fun v => setStream v (Vt.regBits v.vt) d.val g x) = true := h
  rw [writeGroup, estate_modify]
  simp only [sound, if_true]

theorem dropPops_run (rs : List Reg) (s : State) : dropPops rs s = .ok () (s.mapMe fun v => rs.foldl Slot.popped v) := by
  induction rs generalizing s with
  | nil => rfl
  | cons r rs ih =>
    rw [dropPops] at ih ⊢
    rw [forL_cons]
    cases r <;> exact ih _

/-- Popping changes the queues alone. -/
theorem foldl_popped_eq (rs : List Reg) (v : Slot) : rs.foldl Slot.popped v = { v with q := (rs.foldl Slot.popped v).q } := by
  induction rs generalizing v with
  | nil => rfl
  | cons r rs ih => rw [List.foldl_cons, ih]; cases r <;> rfl

/-- Each field that names a queue pops one entry of it (R161). -/
theorem foldl_popped_q (rs : List Reg) (v : Slot) (k : Fin 4) :
    (rs.foldl Slot.popped v).q[k] = (v.q[k]).drop (rs.filter (· = .q k)).length := by
  induction rs generalizing v with
  | nil => rfl
  | cons r rs ih =>
    rw [List.foldl_cons, ih]
    by_cases hr : r = .q k
    · subst hr
      simp [Slot.popped, Nat.add_comm]
    · rw [List.filter_cons_of_neg (by simpa using hr)]
      cases r with
      | q j =>
        have ne : j.val ≠ k.val := fun e => hr (congrArg Reg.q (Fin.ext e))
        simp [Slot.popped, Vector.getElem_set_ne _ _ ne]
      | _ => rfl

theorem Slot.advance_pc_congr {v w : Slot} (hpc : w.pc = v.pc) (hloop : w.loop = v.loop) : w.advance.pc = v.advance.pc := by
  simp only [Slot.advance, hpc, hloop]
  split
  · split
    · split <;> rfl
    · rfl
  · rfl

/-- The slot after its results `x`, flags and pops (R161, R241). -/
def Slot.vecWritten (v : Slot) (d g : Nat) (sources : List Reg) (x fl sat : Nat) : Slot :=
  (sources.foldl Slot.popped (((setStream v (Vt.regBits v.vt) d g x).raise fl).saturate sat)).unhold

/-- The state after a vector instruction with those results. -/
def vecDone (d : Fin 32) (g : Nat) (sources : List Reg) (set : Option (Fin 6)) (x fl sat : Nat) (s : State) : State :=
  (longLatency (groupRegs (.v d) g) set (s.mapMe fun v => v.vecWritten d.val g sources x fl sat)).mapMe Slot.advance

/-- The stream that a vector instruction leaves in its destination group (R241). -/
def Slot.mergedGroup (v : Slot) (d g w : Nat) (act : Nat → Bool) (val : Nat → Nat) : Nat :=
  mergeStream w (Vt.regBits v.vt * g) v.vl (Vt.tail v.vt) (v.fill.toNat % 2 ^ w)
    (fun i => if i < v.vl ∧ act i = true then some (val i) else none) (groupStream v (Vt.regBits v.vt) d g)

theorem join_getElem?_results (act : Nat → Bool) (val : Nat → Nat) (n i : Nat) :
    (((List.range' 0 n).map fun k => if act k then some (val k) else none)[i]?).join =
      if i < n ∧ act i = true then some (val i) else none := by
  by_cases hi : i < n
  · simp [hi]
  · simp [hi]

/-- A vector instruction that no enabled exception stops writes its results and flags, pops its sources and goes on. -/
theorem finishVector_of_quiet {s : State} (sound : Sound s) (fresh : Fresh s.me) {act : Nat → Bool} {f : Nat → ElemOut}
    (quiet : ∀ k, k < s.me.vl → act k = true → fpCause s.me.frm (f k).fl = none) (d : Fin 32) (g w : Nat)
    (sources : List Reg) (set : Option (Fin 6)) : finishVector (.v d) g w sources set act f s =
      .ok () (vecDone d g sources set (s.me.mergedGroup d.val g w act fun k => (f k).x)
        (flagsOver act (fun k => (f k).fl) (List.range' 0 s.me.vl)) (flagsOver act (fun k => (f k).sat) (List.range' 0 s.me.vl)) s) := by
  have loop := elemLoop_of_quiet (i := 0) (n := s.me.vl) fun k _ hk => quiet k (by omega)
  rw [finishVector, estate_bind_ok (estate_get s)]
  simp only [resumeElem_of_fresh fresh, Nat.sub_zero, Nat.not_lt_zero, if_false, loop, join_getElem?_results, Option.isNone_none,
    Bool.and_true]
  rw [estate_bind_ok (writeGroup_of_sound sound _ _ _ _ _), estate_bind_ok (estate_modify _ _),
    estate_bind_ok (dropPops_run _ _), estate_bind_ok (estate_modify _ _), retire_run]
  rfl

section
variable (v : Slot) (d g : Nat) (sources : List Reg) (x fl sat : Nat)

/-- Writing and popping change these fields alone. -/
theorem Slot.vecWritten_eq : v.vecWritten d g sources x fl sat =
    { v with
      v := (setStream v (Vt.regBits v.vt) d g x).v, q := (v.vecWritten d g sources x fl sat).q,
      held := (v.vecWritten d g sources x fl sat).held,
      fflags := v.fflags ||| BitVec.ofNat 64 fl, sat := v.sat ||| BitVec.ofNat 64 sat } := by
  rw [vecWritten, foldl_popped_eq, setStream_eq]
  rfl

theorem Slot.vecWritten_q (k : Fin 4) :
    (v.vecWritten d g sources x fl sat).q[k] = (v.q[k]).drop (sources.filter (· = .q k)).length := by
  refine (foldl_popped_q sources _ k).trans ?_
  rw [setStream_eq]
  rfl
end

section
variable (s : State) (d : Fin 32) (g : Nat) (sources : List Reg) (set : Option (Fin 6)) (x fl sat : Nat)

/-- The slot of a vector instruction's end: its other fields are as they were. -/
theorem vecDone_me : (vecDone d g sources set x fl sat s).me =
    { s.me with
      v := (setStream s.me (Vt.regBits s.me.vt) d.val g x).v, q := (s.me.vecWritten d.val g sources x fl sat).q,
      held := (s.me.vecWritten d.val g sources x fl sat).held,
      fflags := s.me.fflags ||| BitVec.ofNat 64 fl, sat := s.me.sat ||| BitVec.ofNat 64 sat,
      pend := (vecDone d g sources set x fl sat s).me.pend, sb := (vecDone d g sources set x fl sat s).me.sb,
      pc := s.me.advance.pc, loop := (vecDone d g sources set x fl sat s).me.loop } := by
  have me : (vecDone d g sources set x fl sat s).me =
      ((s.me.vecWritten d.val g sources x fl sat).addPend (groupRegs (.v d) g) set).advance := rfl
  have written := s.me.vecWritten_eq d.val g sources x fl sat
  rw [me, Slot.advance_eq, Slot.advance_pc_congr (v := s.me) (by rw [written]; rfl) (by rw [written]; rfl), written]
  rfl
end

/-- The end that R241 asks for. -/
theorem vecEnd_vecDone {s : State} {d : Fin 32} {g : Nat} (fits : d.val + g ≤ 32) (w : Nat) (act : Nat → Bool) (val : Nat → Nat)
    (sources : List Reg) (set : Option (Fin 6)) (fl sat : Nat) :
    VecEnd s (vecDone d g sources set (s.me.mergedGroup d.val g w act val) fl sat s) d g w sources act val := by
  have me := vecDone_me s d g sources set (s.me.mergedGroup d.val g w act val) fl sat
  have mem : (vecDone d g sources set (s.me.mergedGroup d.val g w act val) fl sat s).mem = s.mem := rfl
  generalize vecDone d g sources set (s.me.mergedGroup d.val g w act val) fl sat s = t at me mem
  constructor
  case elems =>
    intro i hi
    have stream : groupStream t.me (Vt.regBits s.me.vt) d.val g =
        s.me.mergedGroup d.val g w act val % 2 ^ (Vt.regBits s.me.vt * g) := by
      rw [← groupStream_setStream fits (Vt.regBits_le _) s.me]
      exact groupStream_congr (by rw [me]) _ _ _
    have vt : t.me.vt = s.me.vt := by rw [me]
    have kept : elemAt (groupStream s.me (Vt.regBits s.me.vt) d.val g) w i % 2 ^ w =
        elemAt (groupStream s.me (Vt.regBits s.me.vt) d.val g) w i := Nat.mod_eq_of_lt (elemAt_lt _ _ _)
    simp only [vecSrc, vt, stream, elemAt_mod hi, Slot.mergedGroup, elemAt_mergeStream hi, Nat.mod_mod]
    by_cases below : i < s.me.vl
    · by_cases active : act i = true <;> simp [below, active, kept]
    · simp [below]
  case others =>
    intro k hk
    rw [me]
    exact setStream_v_outside fits _ _ _ k.isLt hk
  case queues =>
    intro k
    rw [me]
    exact Slot.vecWritten_q _ _ _ _ _ _ _ k
  case control => rw [me]; simp [SameControl]
  case memory => exact mem
  case scalars | masks | goesOn => rw [me]

end Sys2Proof.Machine
end

section
/-!
SUPPORT. Element-wise vector instructions (R243), and the exact arithmetic of the saturating ones (R239, R246).
-/
namespace Sys2Proof.Machine

/-- Element `k` of the second operand: the immediate or B (R243). -/
def secondSrc (o : FX) (v : Slot) (g w k : Nat) : Nat :=
  if o.im then ((o.imm.signExtend 64).setWidth w).toNat else vecSrc v [o.a] o.b g w k

theorem elemB_of_ready {s : State} (sound : Sound s) {o : FX} (h : SourceReady s.me [o.a] o.b) (g w : Nat) :
    FX.elemB o g w s = .ok (secondSrc o s.me g w) s := by
  unfold FX.elemB secondSrc
  split
  · simp only [estate_pure, BitVec.toNat_setWidth, sextImm]
  · exact sourceElems_of_ready sound h g w

/-- A double width or span where an operand is wide (R237). -/
abbrev widened (wide : Bool) (x : Nat) : Nat := if wide then 2 * x else x

/-- What an element-wise instruction computes for element `k`. -/
def elementOut (o : FX) (v : Slot) (dWide aWide : Bool) (f : Slot → Nat → Nat → Nat → Nat → Nat → ElemOut) (k : Nat) : ElemOut :=
  f v (Vt.sew v.vt) k
    (vecSrc v [] o.a (widened aWide (Vt.grp v.vt)) (widened aWide (Vt.sew v.vt)) k)
    (secondSrc o v (Vt.grp v.vt) (Vt.sew v.vt) k)
    (vecSrc v [] o.d (widened dWide (Vt.grp v.vt)) (widened dWide (Vt.sew v.vt)) k)

section
variable {s : State} {o : FX} {d : Fin 32} {dWide aWide : Bool} (i : Instr) (hd : o.d = .v d)
  {f : Slot → Nat → Nat → Nat → Nat → Nat → ElemOut}
  (ready : VecReady s o (widened dWide (Vt.grp s.me.vt)) (widened aWide (Vt.grp s.me.vt)) (Vt.grp s.me.vt) 1)
include hd ready

/-- An element-wise instruction that can run reads its operands and finishes. -/
theorem vecOp_eq_finishVector : vecOp i o dWide aWide f s =
    finishVector (.v d) (widened dWide (Vt.grp s.me.vt)) (widened dWide (Vt.sew s.me.vt)) [o.a, o.b] o.set
      (fun k => (activeMask o.toHdr s.me).getLsbD k) (elementOut o s.me dWide aWide f) s := by
  obtain ⟨sound, -, okD, okA, okB, -, readyA, readyB, -⟩ := ready
  have groups : ∀ r ∈ [(o.d, widened dWide (Vt.grp s.me.vt)), (o.a, widened aWide (Vt.grp s.me.vt)), (o.b, Vt.grp s.me.vt)],
      groupOk s.vrCount r.2 r.1 = true := by simp [okD, okA, okB]
  rw [vecOp, estate_bind_ok (estate_get s), estate_bind_ok (checkGroups_ok groups),
    estate_bind_ok (sourceElems_of_ready sound readyA _ _), estate_bind_ok (elemB_of_ready sound readyB _ _)]
  unfold elementOut
  rw [hd]
  rfl

/-- Where no enabled exception stops it, it ends as R241 says, with the flags of its active elements. -/
theorem vecOp_of_quiet (quiet : ∀ k, k < s.me.vl → (activeMask o.toHdr s.me).getLsbD k = true →
      fpCause s.me.frm (elementOut o s.me dWide aWide f k).fl = none) :
    ∃ t, vecOp i o dWide aWide f s = .ok () t ∧
      VecEnd s t d (widened dWide (Vt.grp s.me.vt)) (widened dWide (Vt.sew s.me.vt)) [o.a, o.b]
        (fun k => (activeMask o.toHdr s.me).getLsbD k) (fun k => (elementOut o s.me dWide aWide f k).x) ∧
      t.me.fflags = s.me.fflags ||| BitVec.ofNat 64 (flagsOver (fun k => (activeMask o.toHdr s.me).getLsbD k)
        (fun k => (elementOut o s.me dWide aWide f k).fl) (List.range' 0 s.me.vl)) ∧
      t.me.sat = s.me.sat ||| BitVec.ofNat 64 (flagsOver (fun k => (activeMask o.toHdr s.me).getLsbD k)
        (fun k => (elementOut o s.me dWide aWide f k).sat) (List.range' 0 s.me.vl)) := by
  have run := vecOp_eq_finishVector i hd (f := f) ready
  obtain ⟨sound, fresh, okD, -⟩ := ready
  have fits := groupOk_fits (hd ▸ okD)
  refine ⟨_, run.trans (finishVector_of_quiet sound fresh quiet d _ _ _ _), vecEnd_vecDone fits _ _ _ _ _ _ _, ?_, ?_⟩ <;>
    rw [vecDone_me]
end

/-! Values and clamping. -/

/-- The number that the low `w` bits of `x` stand for. -/
def elemNumber (signed : Bool) (w x : Nat) : Int := if signed then (BitVec.ofNat w x).toInt else (x % 2 ^ w : Nat)

/-- An exact value clamped to the numbers of `w` bits (R246). -/
def clamped (signed : Bool) (w : Nat) (x : Int) : Int :=
  max (if signed then -(2 : Int) ^ (w - 1) else 0) (min ((2 : Int) ^ (if signed then w - 1 else w) - 1) x)

theorem sv_eq_toInt (w x : Nat) : Bits.sv w x = (BitVec.ofNat w x).toInt := by
  cases w with
  | zero => simp [Bits.sv, BitVec.toInt_zero_length]
  | succ w =>
    have half : x % 2 ^ (w + 1) < 2 ^ w ↔ 2 * (x % 2 ^ (w + 1)) < 2 ^ (w + 1) := by rw [Nat.pow_succ']; omega
    simp [Bits.sv, BitVec.toInt, half]

theorem elemVal_eq (signed : Bool) (w x : Nat) : elemVal signed w x = elemNumber signed w x := by
  rw [elemVal, elemNumber, sv_eq_toInt]

theorem clamp_eq_max_min {lo hi : Int} (h : lo ≤ hi) (x : Int) : Bits.clamp lo hi x = max lo (min hi x) := by
  unfold Bits.clamp
  split
  · omega
  · split <;> omega

/-- The model's clamp in terms of the clamped number (R246). -/
theorem clampElem_eq (signed : Bool) (w : Nat) (x : Int) : clampElem signed w x =
    { x := (BitVec.ofInt w (clamped signed w x)).toNat, sat := if clamped signed w x = x then 0 else 1 } := by
  have one_le (n : Nat) : (1 : Int) ≤ 2 ^ n := one_le_pow₀ (by decide)
  have lo := one_le (w - 1)
  have hi := one_le w
  cases signed <;>
  · simp only [clampElem, clamped, Bool.false_eq_true, if_true, if_false, Nat.cast_pow, Nat.cast_ofNat]
    rw [clamp_eq_max_min (by omega), BitVec.toNat_ofInt]
    rfl

section
variable (signed : Bool) (w : Nat) (x : Int)

@[simp] theorem clampElem_x : (clampElem signed w x).x = (BitVec.ofInt w (clamped signed w x)).toNat := by rw [clampElem_eq]

@[simp] theorem clampElem_fl : (clampElem signed w x).fl = 0 := rfl

/-- SAT is raised exactly where clamping changes the value (R246). -/
@[simp] theorem clampElem_sat_testBit : (clampElem signed w x).sat.testBit 0 = true ↔ clamped signed w x ≠ x := by
  rw [clampElem_eq]
  dsimp only
  split <;> simp [*]
end

/-! The rounding right shift (R239). -/

/-- `v / b` rounded: 0 to the nearest, halves up; 1 to the nearest, halves to even; 2 down; 3 to odd. -/
def roundedQuotient (v b : Int) (mode : Nat) : Int :=
  match mode with
  | 0 => (2 * v + b) / (2 * b)
  | 1 => if (2 * v + b) % (2 * b) = 0 ∧ (2 * v + b) / (2 * b) % 2 = 1 then (2 * v + b) / (2 * b) - 1 else (2 * v + b) / (2 * b)
  | 2 => v / b
  | _ => if v % b ≠ 0 ∧ v / b % 2 = 0 then v / b + 1 else v / b

/-- Below one half the nearest quotient is the lower one, and there is no tie. -/
theorem nearest_of_lt_half {v h : Int} (hh : 0 < h) (low : v % (2 * h) < h) :
    (2 * v + 2 * h) / (2 * (2 * h)) = v / (2 * h) ∧ (2 * v + 2 * h) % (2 * (2 * h)) ≠ 0 := by
  have division := Int.emod_add_mul_ediv v (2 * h)
  have nonneg := Int.emod_nonneg v (b := 2 * h) (by omega)
  have unique := (Int.ediv_emod_unique (a := 2 * v + 2 * h) (b := 2 * (2 * h)) (r := 2 * (v % (2 * h)) + 2 * h) (q := v / (2 * h))
    (by omega)).2 ⟨by linear_combination 2 * division, by omega, by omega⟩
  exact ⟨unique.1, by omega⟩

/-- From one half on the nearest quotient is the upper one, a tie exactly at one half. -/
theorem nearest_of_half_le {v h : Int} (hh : 0 < h) (high : h ≤ v % (2 * h)) :
    (2 * v + 2 * h) / (2 * (2 * h)) = v / (2 * h) + 1 ∧ ((2 * v + 2 * h) % (2 * (2 * h)) = 0 ↔ v % (2 * h) = h) := by
  have division := Int.emod_add_mul_ediv v (2 * h)
  have lt := Int.emod_lt_of_pos v (b := 2 * h) (by omega)
  have unique := (Int.ediv_emod_unique (a := 2 * v + 2 * h) (b := 2 * (2 * h)) (r := 2 * (v % (2 * h)) - 2 * h) (q := v / (2 * h) + 1)
    (by omega)).2 ⟨by linear_combination 2 * division, by omega, by omega⟩
  exact ⟨unique.1, by omega⟩

/-- The model's rounding of R239, by a remainder in natural numbers, is the rounded quotient. -/
theorem roundoff_eq (v : Int) (d mode : Nat) : roundoff v d mode = roundedQuotient v ((2 : Int) ^ d) mode := by
  cases d with
  | zero =>
    have half : (2 * v + 1) / 2 = v := by omega
    match mode with
    | 0 | 1 | 2 | _ + 3 => simp [roundoff, roundedQuotient, half]
  | succ d =>
    have pow : (2 : Int) ^ (d + 1) = 2 * (2 ^ d : Nat) := by push_cast; ring
    have powNat : ((2 ^ (d + 1) : Nat) : Int) = 2 * (2 ^ d : Nat) := by push_cast; ring
    have pos : 0 < 2 ^ d := Nat.two_pow_pos d
    simp only [roundoff, roundedQuotient, Nat.succ_ne_zero, if_false, Nat.add_sub_cancel, pow, powNat]
    generalize 2 ^ d = h at pos
    have nonneg := Int.emod_nonneg v (b := 2 * (h : Int)) (by omega)
    have lt := Int.emod_lt_of_pos v (b := 2 * (h : Int)) (by omega)
    have zero_iff : (v % (2 * (h : Int))).toNat = 0 ↔ v % (2 * (h : Int)) = 0 := by omega
    by_cases low : v % (2 * (h : Int)) < h
    · obtain ⟨quotient, noTie⟩ := nearest_of_lt_half (by omega) low
      have div : (v % (2 * (h : Int))).toNat / h = 0 := Nat.div_eq_of_lt (by omega)
      simp only [quotient, div, noTie, zero_iff, ne_eq]
      match mode with
      | 0 | 1 | 2 | _ + 3 => simp
    · obtain ⟨quotient, tie⟩ := nearest_of_half_le (h := h) (by omega) (not_lt.1 low)
      have div : (v % (2 * (h : Int))).toNat / h = 1 := Nat.div_eq_of_lt_le (by omega) (by omega)
      have mod : (v % (2 * (h : Int))).toNat % h = (v % (2 * (h : Int))).toNat - h := by
        rw [Nat.mod_eq_sub_mul_div, div, Nat.mul_one]
      simp only [quotient, div, mod, tie, zero_iff, ne_eq]
      match mode with
      | 0 | 2 | _ + 3 => simp
      | 1 => simp only [true_and]; split <;> split <;> omega

end Sys2Proof.Machine
end

section
/-!
SUPPORT. The saturating vector instructions (R246, R248, R249).
-/
namespace Sys2Proof.Machine

/-- The end of a saturating instruction: the exact values `e` clamped, and sat.SAT set where that changes an active one (R246). -/
def SaturatingEnd (s t : State) (o : FX) (d : Fin 32) (g w : Nat) (signed : Bool) (e : Nat → Int) : Prop :=
  VecEnd s t d g w [o.a, o.b] (fun k => (activeMask o.toHdr s.me).getLsbD k)
    (fun k => (BitVec.ofInt w (clamped signed w (e k))).toNat) ∧
  (t.me.sat.getLsbD 0 = true ↔ s.me.sat.getLsbD 0 = true ∨
    ∃ k, k < s.me.vl ∧ (activeMask o.toHdr s.me).getLsbD k = true ∧ clamped signed w (e k) ≠ e k)

/-- Bodies that agree on a state run alike from it. -/
theorem run_congr {m m' : M Unit} {s : State} (h : m s = m' s) : run m s = run m' s := by rw [run, run, h]

/-- No exception is enabled for an element that raises no flag (R220). -/
theorem fpCause_zero (frm : Word) : fpCause frm 0 = none := by simp [fpCause]

/-- sat.SAT is set when it was, or when an active element raises it (R240). -/
theorem sat_getLsbD_zero (sat : Word) (act : Nat → Bool) (fl : Nat → Nat) (n : Nat) :
    (sat ||| BitVec.ofNat 64 (flagsOver act fl (List.range' 0 n))).getLsbD 0 = true ↔
      sat.getLsbD 0 = true ∨ ∃ k, k < n ∧ act k = true ∧ (fl k).testBit 0 = true := by
  have raised := testBit_flagsOver (act := act) (fl := fl) (l := List.range' 0 n) (b := 0)
  rw [BitVec.getLsbD_or, Bool.or_eq_true, BitVec.getLsbD_ofNat, decide_eq_true (by decide : 0 < 64), Bool.true_and, raised]
  simp

/-- Element `k` of A as a number. -/
def firstNumber (o : FX) (v : Slot) (signed wide : Bool) (k : Nat) : Int :=
  elemNumber signed (widened wide (Vt.sew v.vt)) (vecSrc v [] o.a (widened wide (Vt.grp v.vt)) (widened wide (Vt.sew v.vt)) k)

/-- Element `k` of the second operand as a number. -/
def secondNumber (o : FX) (v : Slot) (signed : Bool) (k : Nat) : Int :=
  elemNumber signed (Vt.sew v.vt) (secondSrc o v (Vt.grp v.vt) (Vt.sew v.vt) k)

/-- Element `k` of the former D as a number. -/
def formerNumber (o : FX) (v : Slot) (signed wide : Bool) (k : Nat) : Int :=
  elemNumber signed (widened wide (Vt.sew v.vt)) (vecSrc v [] o.d (widened wide (Vt.grp v.vt)) (widened wide (Vt.sew v.vt)) k)

section
variable {o : FX} {s : State} {d : Fin 32} (hd : o.d = .v d)
include hd

/-- An element-wise instruction whose elements are clamped exact values is a saturating one. -/
theorem exec_saturatingEnd {i : Instr} {dWide aWide : Bool} {f : Slot → Nat → Nat → Nat → Nat → Nat → ElemOut} {signed : Bool}
    {e : Nat → Int}
    (ready : VecReady s o (widened dWide (Vt.grp s.me.vt)) (widened aWide (Vt.grp s.me.vt)) (Vt.grp s.me.vt) 1)
    (runs : exec i s = run (vecOp i o dWide aWide f) s)
    (elem : ∀ k, elementOut o s.me dWide aWide f k = clampElem signed (widened dWide (Vt.sew s.me.vt)) (e k)) :
    ∃ t, exec i s = .next t ∧
      SaturatingEnd s t o d (widened dWide (Vt.grp s.me.vt)) (widened dWide (Vt.sew s.me.vt)) signed e := by
  obtain ⟨t, ht, ends, -, sat⟩ := vecOp_of_quiet i hd (f := f) ready fun k _ _ => by rw [elem, clampElem_fl, fpCause_zero]
  simp only [elem, clampElem_x] at ends sat
  exact ⟨t, runs.trans (run_ok ht), ends, by simp only [sat, sat_getLsbD_zero, clampElem_sat_testBit]⟩

/-- VSADD clamps the exact sums (R246). -/
theorem exec_vsadd_saturatingEnd (ready : VecReady s o (Vt.grp s.me.vt) (Vt.grp s.me.vt) (Vt.grp s.me.vt) 1) :
    ∃ t, exec (.vsadd o) s = .next t ∧ SaturatingEnd s t o d (Vt.grp s.me.vt) (Vt.sew s.me.vt) (o.sub == 0) fun k =>
      firstNumber o s.me (o.sub == 0) false k + secondNumber o s.me (o.sub == 0) k :=
  exec_saturatingEnd hd (dWide := false) (aWide := false) ready rfl fun k => by simp only [elementOut, elemVal_eq]; rfl

/-- VSSUB clamps the exact differences (R246). -/
theorem exec_vssub_saturatingEnd (ready : VecReady s o (Vt.grp s.me.vt) (Vt.grp s.me.vt) (Vt.grp s.me.vt) 1) :
    ∃ t, exec (.vssub o) s = .next t ∧ SaturatingEnd s t o d (Vt.grp s.me.vt) (Vt.sew s.me.vt) (o.sub == 0) fun k =>
      firstNumber o s.me (o.sub == 0) false k - secondNumber o s.me (o.sub == 0) k :=
  exec_saturatingEnd hd (dWide := false) (aWide := false) ready rfl fun k => by simp only [elementOut, elemVal_eq]; rfl

/-- VWMACC clamps the exact sum of the former wide element and the product (R248). -/
theorem exec_vwmacc_saturatingEnd (narrow : Vt.sew s.me.vt ≠ 64)
    (ready : VecReady s o (2 * Vt.grp s.me.vt) (Vt.grp s.me.vt) (Vt.grp s.me.vt) 1) :
    ∃ t, exec (.vwmacc o) s = .next t ∧
      SaturatingEnd s t o d (2 * Vt.grp s.me.vt) (2 * Vt.sew s.me.vt) (o.sub != 1) fun k =>
        formerNumber o s.me (o.sub != 1) true k + firstNumber o s.me (o.sub != 1) false k * secondNumber o s.me (o.sub == 0) k := by
  refine exec_saturatingEnd hd (dWide := true) (aWide := false) (f := ?op) ready (run_congr ?runs) ?elem
  case runs =>
    have sound := ready.1
    rw [estate_bind_ok (estate_get s), if_neg narrow]
    beta_reduce
    rw [estate_bind_ok (readDest_of_sound sound o 2)]
  case elem =>
    intro k
    simp only [elementOut, elemVal_eq]
    rfl

/-- VNSHR clamps the wide element, shifted right and rounded by rmode (R239, R249). -/
theorem exec_vnshr_saturatingEnd (narrow : Vt.sew s.me.vt ≠ 64)
    (ready : VecReady s o (Vt.grp s.me.vt) (2 * Vt.grp s.me.vt) (Vt.grp s.me.vt) 1) :
    ∃ t, exec (.vnshr o) s = .next t ∧ SaturatingEnd s t o d (Vt.grp s.me.vt) (Vt.sew s.me.vt) (o.sub == 0) fun k =>
      roundedQuotient (firstNumber o s.me (o.sub == 0) true k)
        (2 ^ (secondSrc o s.me (Vt.grp s.me.vt) (Vt.sew s.me.vt) k % (2 * Vt.sew s.me.vt))) (s.me.rmode.toNat % 4) := by
  refine exec_saturatingEnd hd (dWide := false) (aWide := true) (f := ?op) ready (run_congr ?runs) ?elem
  case runs => rw [estate_bind_ok (estate_get s), if_neg narrow]
  case elem =>
    intro k
    simp only [elementOut, elemVal_eq, roundoff_eq]
    rfl
end

/-- Settles O24: each saturating instruction ends with its exact values clamped. -/
theorem vectorSaturating : Obligations.VectorSaturating := by
  unfold Obligations.VectorSaturating
  intro o s d hd
  exact ⟨fun ready => ⟨exec_vsadd_saturatingEnd hd ready, exec_vssub_saturatingEnd hd ready⟩,
    fun narrow ready => exec_vwmacc_saturatingEnd hd narrow ready, fun narrow ready => exec_vnshr_saturatingEnd hd narrow ready⟩

end Sys2Proof.Machine
end

section
/-!
SUPPORT. The end of a vector instruction that writes its results as one stream, and the unpacking of structured sparsity (R241, R276).
-/
namespace Sys2Proof.Machine

/-! The end. -/

/-- Writing back the stream that a group holds changes nothing. -/
theorem setStream_groupStream (v : Slot) (rb d g : Nat) : setStream v rb d g (groupStream v rb d g) = v := by
  induction g generalizing d with
  | zero => rfl
  | succ g ih =>
    have low (a x : Nat) : (a % 2 ^ rb + 2 ^ rb * x) % 2 ^ rb = a % 2 ^ rb := by rw [Nat.add_mul_mod_self_left, Nat.mod_mod]
    have high (a x : Nat) : (a % 2 ^ rb + 2 ^ rb * x) / 2 ^ rb = x := by
      rw [Nat.add_mul_div_left _ _ (Nat.two_pow_pos rb), Nat.div_eq_of_lt (Nat.mod_lt a (Nat.two_pow_pos rb)), Nat.zero_add]
    rw [setStream, groupStream, low, high]
    simp only [Fin.ofNat, Fin.getElem_fin, Nat.div_add_mod', BitVec.ofNat_toNat, BitVec.setWidth_eq, Vector.set_getElem_self, ih]

/-- An instruction that is not armed to resume has no progress to drop. -/
theorem Slot.unhold_of_fresh {v : Slot} (h : Fresh v) : v.unhold = v := by
  have kept : v.held.filter (fun p => !(p.pc == v.pc && p.live)) = v.held := by
    simpa only [List.filter_eq_self, Bool.not_eq_true', ← Bool.not_eq_true, Bool.and_eq_true, beq_iff_eq] using h
  rw [unhold, kept]

/-- A result without floating-point flags, of an instruction that is not armed to resume: the group, the pops and sat. -/
theorem Slot.vecWritten_of_fresh {v : Slot} (h : Fresh v) (d g : Nat) (sources : List Reg) (x sat : Nat) :
    v.vecWritten d g sources x 0 sat = (sources.foldl Slot.popped (setStream v (Vt.regBits v.vt) d g x)).saturate sat := by
  have noFlags (w : Slot) : w.raise 0 = w := by simp [raise]
  have commute (w : Slot) : sources.foldl Slot.popped (w.saturate sat) = (sources.foldl Slot.popped w).saturate sat :=
    List.foldl_hom (fun w : Slot => w.saturate sat) fun w r => by cases r <;> rfl
  rw [vecWritten, noFlags, commute, unhold_of_fresh]
  rw [foldl_popped_eq, setStream_eq]
  exact h

theorem State.mapMe_mapMe (s : State) (f g : Slot → Slot) : (s.mapMe f).mapMe g = s.mapMe fun v => g (f v) := rfl

theorem State.mapMe_congr {s : State} {f g : Slot → Slot} (h : f s.me = g s.me) : s.mapMe f = s.mapMe g := by
  rw [mapMe, mapMe, h]

theorem State.mapMe_of_fixed {s : State} {f : Slot → Slot} (h : f s.me = s.me) : s.mapMe f = s := by
  rw [mapMe, h]

/-- The end of an instruction that is not armed to resume and raises no floating-point flags, in the order in which `finishStream`
brings it about. -/
theorem vecDone_of_fresh {s : State} (fresh : Fresh s.me) (d : Fin 32) (g : Nat) (sources : List Reg) (set : Option (Fin 6))
    (x sat : Nat) : vecDone d g sources set x 0 sat s =
      (longLatency (groupRegs (.v d) g) set ((s.mapMe fun v => setStream v (Vt.regBits v.vt) d.val g x).mapMe fun v =>
        (sources.foldl Slot.popped v).saturate sat)).mapMe Slot.advance := by
  have written : s.mapMe (fun v => v.vecWritten d.val g sources x 0 sat) = s.mapMe fun v =>
      (sources.foldl Slot.popped (setStream v (Vt.regBits v.vt) d.val g x)).saturate sat :=
    State.mapMe_congr (Slot.vecWritten_of_fresh fresh d.val g sources x sat)
  rw [vecDone, written, State.mapMe_mapMe]

/-- The part of `finishStream` that follows the write. -/
theorem finishStream_rest (d : Reg) (g : Nat) (sources : List Reg) (set : Option (Fin 6)) (sat : Nat) (s : State) :
    (do dropPops sources
        modify fun s => longLatency (groupRegs d g ++ []) set (s.mapMe (·.saturate sat))
        retire : M Unit) s =
      .ok () ((longLatency (groupRegs d g) set (s.mapMe fun v => (sources.foldl Slot.popped v).saturate sat)).mapMe Slot.advance) := by
  rw [estate_bind_ok (dropPops_run _ _), estate_bind_ok (estate_modify _ _), retire_run, List.append_nil]
  rfl

/-- The end of an instruction that writes its results as one stream, which is the former one where vl = 0. -/
theorem finishStream_of_fresh {s : State} (sound : Sound s) (fresh : Fresh s.me) {d : Fin 32} {g x : Nat}
    (kept : s.me.vl = 0 → x = groupStream s.me (Vt.regBits s.me.vt) d.val g) (w : Nat) (wrote : Nat → Bool) (sources : List Reg)
    (set : Option (Fin 6)) (sat : Nat) :
    finishStream (.v d) g w wrote sources [] set x sat s = .ok () (vecDone d g sources set x 0 sat s) := by
  rw [finishStream, estate_bind_ok (estate_get s), vecDone_of_fresh fresh]
  by_cases empty : s.me.vl = 0
  · have same : s.mapMe (fun v => setStream v (Vt.regBits v.vt) d.val g x) = s :=
      State.mapMe_of_fixed (by rw [kept empty, setStream_groupStream])
    rw [if_pos empty, same]
    exact finishStream_rest _ _ _ _ _ s
  · rw [if_neg empty, estate_bind_ok (writeGroup_of_sound sound d g w wrote x)]
    exact finishStream_rest _ _ _ _ _ _

/-- Results at or beyond vl play no part in the destination stream (R241). -/
theorem Slot.mergedGroup_eq (v : Slot) (d g w : Nat) (act : Nat → Bool) (val : Nat → Nat) :
    v.mergedGroup d g w act val = mergeStream w (Vt.regBits v.vt * g) v.vl (Vt.tail v.vt) (v.fill.toNat % 2 ^ w)
      (fun i => if act i then some (val i) else none) (groupStream v (Vt.regBits v.vt) d g) := by
  have below (i x : Nat) :
      (if i < v.vl then (if i < v.vl ∧ act i = true then some (val i) else none).getD x
        else if Vt.tail v.vt then v.fill.toNat % 2 ^ w else x) =
      if i < v.vl then (if act i then some (val i) else none).getD x
        else if Vt.tail v.vt then v.fill.toNat % 2 ^ w else x := by
    by_cases hi : i < v.vl <;> simp [hi]
  simp only [mergedGroup, mergeStream, below]

/-- Merging the results of active elements into the former stream ends as R241 says. -/
theorem finishStream_of_merged {s : State} (sound : Sound s) (fresh : Fresh s.me) {d : Fin 32} {g : Nat} (fits : d.val + g ≤ 32)
    (w : Nat) (act : Nat → Bool) (val : Nat → Nat) (wrote : Nat → Bool) (sources : List Reg) (set : Option (Fin 6)) (sat : Nat) :
    ∃ t, finishStream (.v d) g w wrote sources [] set
        (mergeStream w (Vt.regBits s.me.vt * g) s.me.vl (Vt.tail s.me.vt) (s.me.fill.toNat % 2 ^ w)
          (fun i => if act i then some (val i) else none) (destStream s.me (.v d) g)) sat s = .ok () t ∧
      VecEnd s t d g w sources act val := by
  have merged := s.me.mergedGroup_eq d.val g w act val
  have kept : s.me.vl = 0 → s.me.mergedGroup d.val g w act val = groupStream s.me (Vt.regBits s.me.vt) d.val g := fun empty => by
    rw [merged, mergeStream, if_pos empty]
  rw [destStream, ← merged]
  exact ⟨_, finishStream_of_fresh sound fresh kept w wrote sources set sat, vecEnd_vecDone fits w act val sources set 0 sat⟩

/-- Results count by their low bits, the width of an element. -/
theorem VecEnd.congr_val {s t : State} {d : Fin 32} {g w : Nat} {sources : List Reg} {act : Nat → Bool} {val val' : Nat → Nat}
    (ends : VecEnd s t d g w sources act val) (same : ∀ i, val i % 2 ^ w = val' i % 2 ^ w) :
    VecEnd s t d g w sources act val' :=
  { ends with elems := fun i hi => by rw [ends.elems i hi, same i] }

/-! Unpacking (R276). -/

/-- Element `k` unpacked from the elements `a`, where `place q j` is the place in group `q` of its kept element `j`: the second one
wins where both have one place (R276). -/
def unpacked (place : Nat → Nat → Nat) (a : Nat → Nat) (k : Nat) : Nat :=
  if k % 4 = place (k / 4) 1 then a (2 * (k / 4) + 1) else if k % 4 = place (k / 4) 0 then a (2 * (k / 4)) else 0

theorem unpacked_mod_congr (place : Nat → Nat → Nat) {a b : Nat → Nat} {m : Nat} (same : ∀ j, a j % m = b j % m) (k : Nat) :
    unpacked place a k % m = unpacked place b k % m := by
  unfold unpacked
  split
  · exact same _
  · split
    · exact same _
    · rfl

/-- A lane at or beyond vl reads as fill, in the width of an element (R241). -/
theorem laneRead_mod (v : Slot) (n : Nat) (a : Nat → Nat) (j : Nat) :
    laneRead v n a j % 2 ^ n = (if j < v.vl then a j else v.fill.toNat) % 2 ^ n := by
  unfold laneRead
  split
  · rfl
  · exact Nat.mod_mod _ _

/-- What VUNPK writes to element `k`, nothing in a group that is not active; `lane` gives the elements of A (R276). -/
def unpackResult (o : FX) (v : Slot) (lane : Nat → Nat) (k : Nat) : Option Nat :=
  if isActive o.toHdr v (4 * (k / 4)) then
    some (unpacked (fun q j => ((v.mreg o.c).extractLsb' (4 * q + 2 * j) 2).toNat) lane k)
  else none

/-- VUNPK merges its results into D. -/
theorem execVunpk_eq {o : FX} {s : State} (ready : VecReady s o (Vt.grp s.me.vt) (Vt.grp s.me.vt) (Vt.grp s.me.vt) 1) :
    let n := Vt.sew s.me.vt
    let g := Vt.grp s.me.vt
    let res := unpackResult o s.me (laneRead s.me n (vecSrc s.me [] o.a g n))
    execVunpk o s = run (finishStream o.d g n (mergeWrote s.me.vl (Vt.tail s.me.vt) res) [o.a] [] o.set
      (mergeStream n (Vt.regBits s.me.vt * g) s.me.vl (Vt.tail s.me.vt) (s.me.fill.toNat % 2 ^ n) res (destStream s.me o.d g)) 0) s := by
  obtain ⟨sound, -, okD, okA, -, -, readyA, -⟩ := ready
  have groups : ∀ r ∈ [(o.d, Vt.grp s.me.vt), (o.a, Vt.grp s.me.vt)], groupOk s.vrCount r.2 r.1 = true := by simp [okD, okA]
  have result (c : Bool) (p q : Prop) [Decidable p] [Decidable q] (x y : Nat) :
      (if !c then none else if p then some x else if q then some y else some 0) =
        if c then some (if p then x else if q then y else 0) else none := by
    cases c
    · rfl
    · simp only [apply_ite some, Bool.not_true, Bool.false_eq_true, if_false, if_true]
  refine run_congr ?_
  rw [estate_bind_ok (estate_get s), estate_bind_ok (checkGroups_ok groups),
    estate_bind_ok (sourceElems_of_ready sound readyA _ _)]
  simp only [result]
  rfl

/-- VUNPK ends with the elements of A unpacked in the active groups, an element at or beyond vl taken as fill (R241, R276). -/
theorem exec_vunpk_ends {o : FX} {s : State} {d : Fin 32} (hd : o.d = .v d)
    (ready : VecReady s o (Vt.grp s.me.vt) (Vt.grp s.me.vt) (Vt.grp s.me.vt) 1) :
    ∃ t, exec (.vunpk o) s = .next t ∧
      VecEnd s t d (Vt.grp s.me.vt) (Vt.sew s.me.vt) [o.a] (fun k => isActive o.toHdr s.me (4 * (k / 4)))
        (unpacked (fun q j => ((s.me.mreg o.c).extractLsb' (4 * q + 2 * j) 2).toNat)
          fun k => if k < s.me.vl then vecSrc s.me [] o.a (Vt.grp s.me.vt) (Vt.sew s.me.vt) k else s.me.fill.toNat) := by
  have runs := execVunpk_eq ready
  obtain ⟨sound, fresh, okD, -⟩ := ready
  rw [hd] at okD runs
  obtain ⟨t, ht, ends⟩ := finishStream_of_merged sound fresh (groupOk_fits okD) _ _ _ _ [o.a] o.set 0
  exact ⟨t, runs.trans (run_ok ht), ends.congr_val (unpacked_mod_congr _ (laneRead_mod s.me _ _))⟩

/-- Settles O30: VUNPK ends with the kept elements at their places, in the groups that are active. -/
theorem sparseUnpack : Obligations.SparseUnpack := by
  unfold Obligations.SparseUnpack
  intro o s d hd
  exact exec_vunpk_ends hd

end Sys2Proof.Machine
end
